-- ==== Sys2Proof/Word.lean ====
section
/-! DEFINITION. The word types of the engine and the two chips: a bus datum is one byte and a bus
address has 24 bits (spec/00_scope.md R7, R8; spec/20_memory.md R60). -/

namespace Sys2Proof

/-- One bus datum (`DATA_W` = 8). -/
abbrev Byte := BitVec 8

/-- One bus address (`ADDR_W` = 24). -/
abbrev Addr := BitVec 24

/-- The two flash chips (R12). -/
inductive Chip where
  | a
  | b
deriving DecidableEq, Repr

/-- The chip that comes after `c` in an iteration of the writer loop. -/
def Chip.other : Chip → Chip
  | .a => .b
  | .b => .a

/-- A per-chip register `X[c]` (R9). -/
structure PerChip (α : Type) where
  a : α
  b : α
deriving DecidableEq, Repr

/-- `X[c]` read. -/
def PerChip.get {α : Type} (p : PerChip α) : Chip → α
  | .a => p.a
  | .b => p.b

/-- `X[c] <- v`. -/
def PerChip.set {α : Type} (p : PerChip α) (c : Chip) (v : α) : PerChip α :=
  match c with
  | .a => { p with a := v }
  | .b => { p with b := v }

end Sys2Proof
end

