-- ==== Sys2Proof/Config.lean ====
section
/-! DEFINITION. The parameters of spec/00_scope.md R7. A constant whose ground is `source` or
`decision` is a definition; an `OPEN` parameter is a field of `Config`, whose default is the table's.
The free value of the environment is the opaque constant `Config.freeByte`. -/

namespace Sys2Proof

/-- `A_BASE`, the base address of chip A. -/
def aBase : Addr := 0xC00000#24
/-- `B_BASE`, the base address of chip B. -/
def bBase : Addr := 0xE00000#24
/-- `HALF`, the bytes of the image that go to chip A, and the size of one chip's window (R60). -/
def half : Nat := 0x200000
/-- `MAX_ROM`, the largest image length. -/
def maxRom : Nat := 0x400000
/-- `PAGE`, the bytes in one page write. -/
def pageSize : Nat := 128
/-- `LAST_OFF`, the offset of the re-written last byte. -/
def lastOff : Addr := 0x7F#24
/-- `VCHUNK`, the bytes per verify read. -/
def vChunk : Nat := 0x10000
/-- `KEY1`, the first unlock key byte. -/
def key1 : Byte := 0xAA#8
/-- `KEY2`, the second unlock key byte. -/
def key2 : Byte := 0x55#8
/-- `CMD_RESET`. -/
def cmdReset : Byte := 0xF0#8
/-- `CMD_ERASE1`. -/
def cmdErase1 : Byte := 0x80#8
/-- `CMD_ERASE2`. -/
def cmdErase2 : Byte := 0x10#8
/-- `CMD_HERASE1`. -/
def cmdHErase1 : Byte := 0x77#8
/-- `CMD_HERASE2`. -/
def cmdHErase2 : Byte := 0xE0#8
/-- `CMD_PROGRAM`. -/
def cmdProgram : Byte := 0xA0#8
/-- `CMD_HPROGRAM`. -/
def cmdHProgram : Byte := 0x99#8
/-- `HID_OFF`, the chip-relative offset of the hidden pages. -/
def hidOff : Nat := 0xFF00
/-- `HID_READ`, the bytes read back per chip in the map verify. -/
def hidRead : Nat := 256
/-- `MAP_LEN`, the bytes of the map payload. -/
def mapLen : Nat := 512
/-- `DIR_SLOTS`, the directory slots. -/
def dirSlots : Nat := 8
/-- `DIR_STRIDE`, the bytes between slots. -/
def dirStride : Nat := 0x2000
/-- `DIR_RECLEN`, the bytes read per slot. -/
def dirRecLen : Nat := 0x1D9
/-- `DIR_SENTINEL`, the index value that ends the table. -/
def dirSentinel : Byte := 0xFF#8
/-- `SIG`, the signature: ASCII `MULTICASSETTE 32` (spec/43_directory.md R182). -/
def sig : List Byte :=
  [0x4D#8, 0x55#8, 0x4C#8, 0x54#8, 0x49#8, 0x43#8, 0x41#8, 0x53#8,
   0x53#8, 0x45#8, 0x54#8, 0x54#8, 0x45#8, 0x20#8, 0x33#8, 0x32#8]
/-- `DEV_REG0`, the device status and command register. -/
def devReg0 : Addr := 0x002400#24
/-- `DEV_REG1`, the second device register. -/
def devReg1 : Addr := 0x002401#24
/-- `DEV_AWAKE`, the status value of an awake device. -/
def devAwake : Byte := 0x2A#8
/-- `DEV_ASLEEP`, the status value of a sleeping device. -/
def devAsleep : Byte := 0x7D#8
/-- `WP_REL`, the write-protect release value. -/
def wpRel : Byte := 0x02#8
/-- `WP_SET`, the write-protect assert value. -/
def wpSet : Byte := 0x03#8
/-- `SRAM_SEG`, the bytes per SRAM segment. -/
def sramSeg : Nat := 0x2000
/-- `SRAM_MAX`, the largest SRAM image. -/
def sramMax : Nat := 0x8000

/-- One step of the wake sequence: a write, or a read whose answer is discarded
(spec/44_session_sram.md R202). Also one access to a device register as the device hears it. -/
inductive WakeStep where
  | write (addr : Addr) (value : Byte)
  | read (addr : Addr)
deriving DecidableEq, Repr

/-- Where a text field stands in a directory record: its offset and its width. -/
structure Field where
  off : Nat
  width : Nat
deriving DecidableEq, Repr

/-- The `OPEN` parameters of R7. An offset that is added to a bank base has 16 bits and one that is
added to a chip base has 21, so that no such sum reaches `2^24` (spec/20_memory.md R62). -/
structure Config where
  unlockOff1 : BitVec 16
  unlockOff2 : BitVec 16
  showSeq : List Byte
  hideSeq : List Byte
  hiddenCmdOff : BitVec 21
  pollLimit : Option Nat
  dirBase : Addr
  sigAddr : Addr
  fCode : Field
  fTitle : Field
  fDate : Field
  fTime : Field
  fLaw : Field
  wakeSeq : List WakeStep
  modeAddr : Addr
  modeValue : Byte
  sramAddr : List Addr
deriving DecidableEq, Repr

/-- The defaults of R7, which the spec's test vectors use; most of them are its
`[from general knowledge, not in source]`, so no statement may rest on one without naming it. -/
def Config.default : Config where
  unlockOff1 := 0x5555#16
  unlockOff2 := 0x2AAA#16
  showSeq := [0x71#8, 0x38#8, 0xD0#8, 0x75#8]
  hideSeq := [0x71#8, 0x38#8, 0xD0#8, 0x75#8]
  hiddenCmdOff := 0#21
  pollLimit := none
  dirBase := 0xC60000#24
  sigAddr := 0xC61FF0#24
  fCode := ⟨7, 12⟩
  fTitle := ⟨19, 44⟩
  fDate := ⟨447, 10⟩
  fTime := ⟨457, 8⟩
  fLaw := ⟨465, 8⟩
  wakeSeq := [.write 0x002400#24 0x09#8, .read 0x002400#24, .write 0x002401#24 0x28#8,
    .write 0x002401#24 0x84#8, .write 0x002400#24 0x06#8, .write 0x002400#24 0x39#8]
  modeAddr := 0x002400#24
  modeValue := 0x04#8
  sramAddr := [0x206000#24, 0x216000#24, 0x226000#24, 0x236000#24]

/-- The free value: the `k`-th byte the environment supplies and nothing constrains
(a *draw*, spec/00_scope.md R12; log 5). -/
opaque Config.freeByte : Nat → Byte

end Sys2Proof
end

