-- ==== Sys2Proof/Syntax.lean ====
section
/-! DEFINITION. The 25 host operations with their operands (spec/00_scope.md R4; spec/30_encoding.md
R100, R110), and the host command record that carries one (R100). -/

namespace Sys2Proof

/-- One constructor per row of spec/opcode_table.json. A buffer operand carries its own length. -/
inductive Instr where
  | unlockAndGlobal (cmd : Byte)
  | unlockAndLocal (addr : Addr) (cmd : Byte)
  | readReset
  | showHidden
  | hide
  | chipErase
  | hiddenErase
  | pageWrite (addr : Addr) (page : List Byte)
  | hiddenWrite (addr : Addr) (page : List Byte)
  | statusStep (chip : Chip)
  | waitReady (addr : Addr)
  | writeRom (buf : List Byte)
  | writeLoop (rom1 rom2 : List Byte)
  | verifyRom (buf : List Byte)
  | writeMap (map : List Byte)
  | verifyMap (map : List Byte)
  | dirPresent
  | dirOpen
  | dirNext
  | sessionOpen
  | wpRelease
  | wpAssert
  | sessionClose
  | sramWrite (buf : List Byte)
  | sramVerify (buf : List Byte)
deriving DecidableEq, Repr

/-- The host command record `{op, addr, arg, buf1, buf2}` (R100). -/
structure Command where
  op : BitVec 8
  addr : Addr
  arg : BitVec 23
  buf1 : List Byte
  buf2 : List Byte
deriving DecidableEq, Repr

end Sys2Proof
end

