-- ==== Sys2Proof/WellFormed.lean ====
section
/-! DEFINITION. What the spec asks of an operation's own operands, whatever the state:
the alignment and length rules of spec/20_memory.md R56, spec/41_bulk_writer_verifier.md R150,
spec/42_hidden_sector.md R170 and spec/44_session_sram.md R209, R210. -/

namespace Sys2Proof

/-- `addr[6:0] = 0` and `len(page) = 128` (spec/40_command_encoder.md R120). -/
def pageOperandsOk (addr : Addr) (page : List Byte) : Bool :=
  addr.toNat % pageSize == 0 && page.length == pageSize

/-- The operand checks of one operation; an operation without operand rules is well formed. -/
def Instr.wellFormed : Instr → Bool
  | .unlockAndGlobal _ => true
  | .unlockAndLocal _ _ => true
  | .readReset => true
  | .showHidden => true
  | .hide => true
  | .chipErase => true
  | .hiddenErase => true
  | .pageWrite addr page => pageOperandsOk addr page
  | .hiddenWrite addr page => pageOperandsOk addr page
  | .statusStep _ => true
  | .waitReady _ => true
  | .writeRom buf => buf.length % pageSize == 0 && decide (buf.length ≤ maxRom)
  | .writeLoop rom1 rom2 =>
    rom1.length % pageSize == 0 && decide (rom1.length ≤ half) &&
      (rom2.length % pageSize == 0 && decide (rom2.length ≤ half))
  | .verifyRom buf => decide (buf.length ≤ maxRom)
  | .writeMap map => map.length == mapLen
  | .verifyMap map => map.length == mapLen
  | .dirPresent => true
  | .dirOpen => true
  | .dirNext => true
  | .sessionOpen => true
  | .wpRelease => true
  | .wpAssert => true
  | .sessionClose => true
  | .sramWrite buf => decide (buf.length ≤ sramMax)
  | .sramVerify buf => decide (buf.length ≤ sramMax)

end Sys2Proof
end

