-- ==== Sys2Proof/Decode.lean ====
section
/-! DEFINITION. The host-side decoder and encoder (spec/30_encoding.md R100, R101, R105, R106): a
lookup of `op`, with the operands of R100 and R110. Operands an operation does not use are ignored. -/

namespace Sys2Proof

/-- Why a record names no operation (R106). -/
inductive DecodeError where
  /-- `op` is not in R101's map. -/
  | illegalCommand (op : BitVec 8)
deriving DecidableEq, Repr

/-- `arg[7:0]`, the command byte of the two unlock primitives. -/
def argCmd (arg : BitVec 23) : Byte := arg.setWidth 8

/-- `arg[0]`, the chip: 0 = A, 1 = B. -/
def argChip (arg : BitVec 23) : Chip := if arg.getLsbD 0 then .b else .a

/-- The decoder, total on any record. Which buffer carries which operand is in the `operands` of each row
of spec/opcode_table.json. -/
def decode (r : Command) : Except DecodeError Instr :=
  match r.op.toNat with
  | 0x01 => .ok (.unlockAndGlobal (argCmd r.arg))
  | 0x02 => .ok (.unlockAndLocal r.addr (argCmd r.arg))
  | 0x03 => .ok .readReset
  | 0x04 => .ok .showHidden
  | 0x05 => .ok .hide
  | 0x06 => .ok .chipErase
  | 0x07 => .ok .hiddenErase
  | 0x08 => .ok (.pageWrite r.addr r.buf1)
  | 0x09 => .ok (.hiddenWrite r.addr r.buf1)
  | 0x0A => .ok (.statusStep (argChip r.arg))
  | 0x0B => .ok (.waitReady r.addr)
  | 0x10 => .ok (.writeRom r.buf1)
  | 0x11 => .ok (.writeLoop r.buf1 r.buf2)
  | 0x12 => .ok (.verifyRom r.buf1)
  | 0x18 => .ok (.writeMap r.buf1)
  | 0x19 => .ok (.verifyMap r.buf1)
  | 0x20 => .ok .dirPresent
  | 0x21 => .ok .dirOpen
  | 0x22 => .ok .dirNext
  | 0x30 => .ok .sessionOpen
  | 0x31 => .ok .wpRelease
  | 0x32 => .ok .wpAssert
  | 0x33 => .ok .sessionClose
  | 0x38 => .ok (.sramWrite r.buf1)
  | 0x39 => .ok (.sramVerify r.buf1)
  | _ => .error (.illegalCommand r.op)

/-- A record with the operands an operation does not use left zero and empty. -/
def Command.bare (op : BitVec 8) : Command := ⟨op, 0, 0, [], []⟩

/-- `cmd` as the operand `arg[7:0]`. -/
def cmdArg (cmd : Byte) : BitVec 23 := cmd.setWidth 23

/-- A chip as the operand `arg[0]`. -/
def chipArg : Chip → BitVec 23
  | .a => 0
  | .b => 1

/-- The record of an operation, from R100 and R101. -/
def encode : Instr → Command
  | .unlockAndGlobal cmd => { Command.bare 0x01 with arg := cmdArg cmd }
  | .unlockAndLocal addr cmd => { Command.bare 0x02 with addr := addr, arg := cmdArg cmd }
  | .readReset => Command.bare 0x03
  | .showHidden => Command.bare 0x04
  | .hide => Command.bare 0x05
  | .chipErase => Command.bare 0x06
  | .hiddenErase => Command.bare 0x07
  | .pageWrite addr page => { Command.bare 0x08 with addr := addr, buf1 := page }
  | .hiddenWrite addr page => { Command.bare 0x09 with addr := addr, buf1 := page }
  | .statusStep chip => { Command.bare 0x0A with arg := chipArg chip }
  | .waitReady addr => { Command.bare 0x0B with addr := addr }
  | .writeRom buf => { Command.bare 0x10 with buf1 := buf }
  | .writeLoop rom1 rom2 => { Command.bare 0x11 with buf1 := rom1, buf2 := rom2 }
  | .verifyRom buf => { Command.bare 0x12 with buf1 := buf }
  | .writeMap map => { Command.bare 0x18 with buf1 := map }
  | .verifyMap map => { Command.bare 0x19 with buf1 := map }
  | .dirPresent => Command.bare 0x20
  | .dirOpen => Command.bare 0x21
  | .dirNext => Command.bare 0x22
  | .sessionOpen => Command.bare 0x30
  | .wpRelease => Command.bare 0x31
  | .wpAssert => Command.bare 0x32
  | .sessionClose => Command.bare 0x33
  | .sramWrite buf => { Command.bare 0x38 with buf1 := buf }
  | .sramVerify buf => { Command.bare 0x39 with buf1 := buf }

/-- A record read from a word numbered as spec/opcode_table.json numbers it: `op` in bits 7..0 (the
table's); above it `addr` in bits 31..8 and `arg` in bits 54..32, which is this model's own layout
(DESIGN CHOICE, safe: R100 gives the record no layout beyond `op`; log 2). Buffers are empty. -/
def Command.ofWord (nbits w : Nat) : Command :=
  let v := w % 2 ^ nbits
  ⟨BitVec.ofNat 8 v, BitVec.ofNat 24 (v / 2 ^ 8), BitVec.ofNat 23 (v / 2 ^ 32), [], []⟩

/-- The host's view of the decoder, on a word of the opcode table. -/
def decodeTableWord (nbits w : Nat) : Option Instr :=
  match decode (Command.ofWord nbits w) with
  | .ok i => some i
  | .error _ => none

end Sys2Proof
end

