-- ==== Sys2Proof/Machine/Memory.lean ====
section
/-! DEFINITION. A byte memory in one canonical form: addresses strictly rising and no entry equal to
what an unlisted address reads as. It holds the flash arrays and the SRAM at their bus addresses and
each chip's hidden sector at its own offsets (spec/20_memory.md R70, R79). -/

namespace Sys2Proof.Machine

open Sys2Proof

/-- Bytes at addresses. -/
abbrev Memory := List Host.Cell

/-- What an unlisted address reads as: the erased value of spec/20_memory.md R74.
DESIGN CHOICE for a byte that nothing has written, unsafe (log 8). -/
def erasedByte : Byte := 0xFF#8

/-- The canonical form, for entries at `lo` or above. -/
def Memory.wfFrom : Nat → Memory → Bool
  | _, [] => true
  | lo, (k, v) :: m => decide (lo ≤ k) && v != erasedByte && Memory.wfFrom (k + 1) m

/-- The canonical form. -/
def Memory.wf (m : Memory) : Bool := Memory.wfFrom 0 m

/-- Every byte listed stands below `n`. -/
def Memory.within (n : Nat) (m : Memory) : Bool := m.all fun cell => decide (cell.1 < n)

/-- Read one byte. -/
def Memory.read : Memory → Nat → Byte
  | [], _ => erasedByte
  | (k, v) :: m, a => if k = a then v else Memory.read m a

/-- Put an entry in front, unless it is what an unlisted address reads as. -/
def Memory.put (a : Nat) (b : Byte) (m : Memory) : Memory :=
  if b = erasedByte then m else (a, b) :: m

/-- Write one byte, keeping the canonical form. -/
def Memory.write : Memory → Nat → Byte → Memory
  | [], a, b => Memory.put a b []
  | (k, v) :: m, a, b =>
    if k < a then (k, v) :: Memory.write m a b
    else if k = a then Memory.put a b m
    else Memory.put a b ((k, v) :: m)

/-- Index `i` of a transfer goes to `a + i` (spec/20_memory.md R54). -/
def Memory.writeBytes : Memory → Nat → List Byte → Memory
  | m, _, [] => m
  | m, a, b :: bs => Memory.writeBytes (Memory.write m a b) (a + 1) bs

/-- Index `i` of a transfer comes from `a + i` (spec/20_memory.md R54). -/
def Memory.readBytes (m : Memory) : Nat → Nat → List Byte
  | _, 0 => []
  | a, n + 1 => Memory.read m a :: Memory.readBytes m (a + 1) n

/-- Erase the `n` bytes from `lo`. -/
def Memory.clear (lo n : Nat) (m : Memory) : Memory :=
  m.filter fun c => !(decide (lo ≤ c.1) && decide (c.1 < lo + n))

end Sys2Proof.Machine
end

