-- ==== Sys2Proof/Machine/State.lean ====
section
/-! DEFINITION. The state of the engine (spec/10_state.md), of the environment its reads are answered
by (spec/20_memory.md R70), the reasons a step can stop, and the state after reset
(spec/70_reset_and_hazards.md R251, R252). Everything is plain data. -/

namespace Sys2Proof.Machine

open Sys2Proof

/-- One bus event (spec/30_encoding.md R90): a write of bytes at an address, or a read with the bytes
the environment answered. The length `n` is the length of the byte string. -/
inductive Event where
  | write (addr : Addr) (bytes : List Byte)
  | read (addr : Addr) (bytes : List Byte)
deriving DecidableEq, Repr

/-! ### The environment -/

/-- What a read of a chip's window returns (spec/20_memory.md R70). `lost` is the model's own: the
contract leaves the chip's behaviour unspecified, so every answer is a free value (log 14). -/
inductive Mode where
  | array
  | status
  | hiddenShown
  | lost
deriving DecidableEq, Repr

/-- The operation in flight on a chip (R70); `hiding` is the counterpart of `Show` for `HIDE` (R77). -/
inductive ChipOp where
  | none
  | erase
  | hiddenErase
  | program (addr : Addr) (page : List Byte)
  | hiddenProgram (addr : Addr) (page : List Byte)
  | showing
  | hiding
deriving DecidableEq, Repr

/-- What an unlock key continues: nothing, the first stage of an erase, or a sequence it cut short. -/
inductive Armed where
  | fresh
  | erase (stage1 : Byte)
  | aborted
deriving DecidableEq, Repr

/-- How much of a command sequence a chip has received (spec/30_encoding.md R91 to R96; log 13). -/
inductive Latch where
  | idle
  /-- The first stage of an erase has been received. -/
  | armed (stage1 : Byte)
  /-- `KEY1` has been received at the first unlock offset of `bank`. -/
  | key1 (bank : Addr) (after : Armed)
  /-- `KEY2` has followed at the second. -/
  | key2 (bank : Addr) (after : Armed)
  /-- A program command has been received; the 128-byte block is awaited. -/
  | program (cmd : Byte) (bank : Addr)
  /-- The block has been received; the re-write of its last byte is awaited. -/
  | loaded (cmd : Byte) (addr : Addr) (page : List Byte)
  /-- Part of a show or hide sequence has been received. -/
  | raw (bytes : List Byte)
deriving DecidableEq, Repr

/-- One chip as the environment contract has it (R70, R72, R74 to R77). The array bytes are in
`Env.mem`; after a failed erase `wild` leaves those outside the pages programmed since unspecified
(log 15). -/
structure ChipState where
  mode : Mode
  op : ChipOp
  /-- Write-protect has been released since the operation in flight began (R74, R75; log 16). -/
  sound : Bool
  /-- A command byte came while an operation was in flight, since the operation in flight began or, with
  none, since the command now being received began (R75; log 27). -/
  disturbed : Bool
  /-- Bit 4 of the status byte that completed the last operation (R72; log 17). -/
  failed : Bool
  latch : Latch
  /-- The pages of the array programmed since the last erase (R75). -/
  programmed : List Nat
  /-- The array is unspecified but for the pages programmed since: its byte at offset `o` is free value
  `k + o`. -/
  wild : Option Nat
  /-- `HID[c]`, by offset in the hidden sector. -/
  hid : Memory
  /-- The pages of the hidden sector programmed since the last hidden erase. -/
  hidProgrammed : List Nat
deriving DecidableEq, Repr

/-- The device's sleep state (R70, R78). `absent` stands for a device that is absent or in another
state; `unknown` is the model's own: nothing is known of it (log 6). -/
inductive Sleep where
  | awake
  | asleep
  | absent
  | unknown
deriving DecidableEq, Repr

/-- The device's write-protect state (R70, R78); `unknown` is the model's own. -/
inductive Protect where
  | released
  | asserted
  | unknown
deriving DecidableEq, Repr

/-- The cartridge controller (R63, R78). -/
structure Device where
  sleep : Sleep
  protect : Protect
  /-- The HIROM:ALL addressing mode is set (R63 (a)). -/
  hirom : Bool
  /-- The accesses to the device registers heard last while asleep, newest first (log 19). -/
  recent : List WakeStep
deriving DecidableEq, Repr

/-- The environment (R70), and the free values it answers with: `draws`, the answers the outside has
already fixed, and after them the free values `Config.freeByte drawn`, `drawn + 1`, … (log 5). -/
structure Env where
  mem : Memory
  chip : PerChip ChipState
  dev : Device
  draws : List Byte
  drawn : Nat
deriving DecidableEq, Repr

/-! ### The engine -/

/-- The decoded directory entry `ENT` (spec/43_directory.md R186). -/
structure Entry where
  index : Byte
  firstFlashBlock : Byte
  firstSramBlock : Byte
  flashBlocks : BitVec 14
  sramBlocks : BitVec 12
  gameCode : List Byte
  title : List Byte
  date : List Byte
  time : List Byte
  law : List Byte
deriving DecidableEq, Repr

/-- The session flag `SESS` (spec/10_state.md R32). -/
inductive Session where
  | closed
  | awake
deriving DecidableEq, Repr

/-- One phase of an operation's pseudocode (spec/10_state.md R25). The operand buffers an operation
still needs stand in its phases: they do not change while it runs (R21, R266). -/
inductive Phase where
  /-- A global UNLOCK3 with `cmd`. -/
  | unlockGlobal (cmd : Byte)
  /-- The bytes of a show or hide sequence, to both chips. -/
  | rawSeq (bytes : List Byte)
  /-- A local UNLOCK3 with `cmd` and the PAGE format. -/
  | page (cmd : Byte) (addr : Addr) (data : List Byte)
  /-- The start of a wait: `PCNT <- 0`. -/
  | waitStart
  /-- The loop of `WAIT_READY addr`. -/
  | wait (addr : Addr)
  /-- `ERR <- 0`. -/
  | clearErr
  /-- `ERR <- ERR | ST[c][4]`. -/
  | orErr (c : Chip)
  /-- `WL_INIT` of `WRITE_LOOP`. -/
  | wlInit (rom1 rom2 : List Byte)
  /-- `WL_A` or `WL_B`: chip `turn` acts next. -/
  | wl (turn : Chip) (rom1 rom2 : List Byte)
  /-- The two reads of `VERIFY_MAP`, its `READ_RESET` and its result. -/
  | mapReadBack (map : List Byte)
  /-- `RES <- 0; RC <- OK`. -/
  | done
  /-- `RES <- s`, the status byte that ended the wait on `c`. -/
  | doneStatus (c : Chip)
  /-- `RES <- s[4]`, the error flag of the status byte that ended the wait on `c`. -/
  | doneErr (c : Chip)
  /-- `WL_DONE`: `RES <- CUR[A] + CUR[B]`. -/
  | doneCount
  /-- The result of `WRITE_ROM` for an image of `len` bytes. -/
  | doneRom (len : Nat)
  /-- The result of `WRITE_MAP`. -/
  | doneMap
deriving DecidableEq, Repr

/-- The sequencer `seq` (R25): IDLE, or the phase the operation is at and the phases after it.
`cleanup`: a failure sends `READ_RESET` first (spec/60_exceptions.md R224). -/
inductive Seq where
  | idle
  | running (cleanup : Bool) (now : Phase) (rest : List Phase)
deriving DecidableEq, Repr

/-- Why a step stops without a spec meaning. -/
inductive Fault where
  /-- Raised by every operation when `cfg` is ill formed (`Config.wf`): its parameter values describe
  no engine of the spec, since an address the engine computes would reach `2^24`, for which R62
  defines nothing, or a parameter breaks its own rule (R186, R202, R208). Safe: nothing follows (log 9). -/
  | illFormedConfig
deriving DecidableEq, Repr

/-- Why an operation is not run. -/
inductive Refusal where
  /-- An instruction that has no meaning yet. Safe. -/
  | notModelled (mnemonic : String)
  /-- Raised by every operation issued while `seq` is not IDLE: "one issued at any other time is not
  accepted" (spec/10_state.md R25; spec/93_implementation_defined.md U23: `refuse`). `step` never
  issues one then. Safe (log 10). -/
  | notIdle
deriving DecidableEq, Repr

/-- The machine. -/
structure State where
  /-- The OPEN parameters; no step changes them (log 9). -/
  cfg : Config
  /-- The command records the host has still to issue (log 1). -/
  inbox : List Command
  seq : Seq
  sess : Session
  wpr : Bool
  slot : BitVec 4
  dend : Bool
  rc : BitVec 8
  res : BitVec 24
  ent : Entry
  cur : PerChip (BitVec 22)
  len : PerChip (BitVec 22)
  voff : BitVec 23
  st : PerChip Byte
  pcnt : Nat
  busy : PerChip Bool
  abort : PerChip Bool
  err : Bool
  pbuf : List Byte
  rbuf : List Byte
  /-- The bus trace, oldest event first (spec/00_scope.md R9). -/
  trace : List Event
  /-- The progress notifications, oldest first (spec/41_bulk_writer_verifier.md R157; log 22). -/
  progress : List Nat
  env : Env
deriving DecidableEq, Repr

/-- A chip of which nothing is known. -/
def ChipState.unknown : ChipState where
  mode := .lost
  op := .none
  sound := false
  disturbed := false
  failed := false
  latch := .idle
  programmed := []
  wild := Option.none
  hid := []
  hidProgrammed := []

/-- The unconstrained environment: every read is answered by draws. "The state of the environment at
engine reset is not known to the engine and not given by the source" (R252; log 6). -/
def Env.unconstrained : Env where
  mem := []
  chip := ⟨ChipState.unknown, ChipState.unknown⟩
  dev := { sleep := .unknown, protect := .unknown, hirom := false, recent := [] }
  draws := []
  drawn := 0

/-- An entry before any has been decoded. -/
def Entry.blank : Entry where
  index := 0
  firstFlashBlock := 0
  firstSramBlock := 0
  flashBlocks := 0
  sramBlocks := 0
  gameCode := []
  title := []
  date := []
  time := []
  law := []

/-- The machine right after reset (R250, R251). The working registers and `ENT`, which R251 leaves
unspecified, are zero and empty: DESIGN CHOICE, unsafe (log 7). -/
def State.reset : State where
  cfg := Config.default
  inbox := []
  seq := .idle
  sess := .closed
  wpr := false
  slot := 0
  dend := true
  rc := 0
  res := 0
  ent := Entry.blank
  cur := ⟨0, 0⟩
  len := ⟨0, 0⟩
  voff := 0
  st := ⟨0, 0⟩
  pcnt := 0
  busy := ⟨false, false⟩
  abort := ⟨false, false⟩
  err := false
  pbuf := List.replicate 128 0
  rbuf := List.replicate 473 0
  trace := []
  progress := []
  env := Env.unconstrained

end Sys2Proof.Machine
end

