-- ==== Sys2Proof/Machine/Flags.lean ====
section
/-! DEFINITION. The flags of a status byte, its class, and the result codes
(spec/10_state.md R27; spec/30_encoding.md R98; spec/60_exceptions.md R221). -/

namespace Sys2Proof.Machine

open Sys2Proof

/-- The ready flag `s[7]` (`ST_READY` = 0x80). -/
def isReady (s : Byte) : Bool := s.getLsbD 7

/-- The error flag `s[4]` (`ST_ERROR` = 0x10). -/
def isError (s : Byte) : Bool := s.getLsbD 4

/-- The three classes of a status byte. -/
inductive StatusClass where
  | busy
  | ready
  | error
deriving DecidableEq, Repr

/-- The error flag is looked at only when ready (R98). -/
def classify (s : Byte) : StatusClass :=
  if isReady s then (if isError s then .error else .ready) else .busy

/-- `RES` of `STATUS_STEP`: 0 Busy, 1 Ready, 2 Error (R122). -/
def StatusClass.code : StatusClass → BitVec 24
  | .busy => 0
  | .ready => 1
  | .error => 2

/-- A Boolean result as `RES` holds it (R31). -/
def flagRes (b : Bool) : BitVec 24 := if b then 1 else 0

/-- The causes of a failure or a refusal (R221). -/
inductive Cause where
  | deviceNotDetected
  | shortWrite
  | verifyMismatch
  | inputValidation
  | pollTimeout
  | notAwake
  | writeProtected
  | badOperand
  | illegalCommand
deriving DecidableEq, Repr

/-- `RC = OK`. -/
def rcOk : BitVec 8 := 0x00#8

/-- The result code of a cause (R221). -/
def Cause.code : Cause → BitVec 8
  | .deviceNotDetected => 0x01#8
  | .shortWrite => 0x02#8
  | .verifyMismatch => 0x03#8
  | .inputValidation => 0x04#8
  | .pollTimeout => 0x05#8
  | .notAwake => 0x10#8
  | .writeProtected => 0x11#8
  | .badOperand => 0x12#8
  | .illegalCommand => 0x13#8

end Sys2Proof.Machine
end

