-- ==== Sys2Proof/Machine/Operands.lean ====
section
/-! DEFINITION. Operand and address assembly: spec/20_memory.md R60, R62, spec/30_encoding.md R91 to
R96, R102 to R104, and what the parameters of spec/00_scope.md R7 must satisfy. -/

namespace Sys2Proof.Machine

open Sys2Proof

/-! ### Addresses (R9, R60, R102) -/

/-- `base(c)`. -/
def base : Chip → Addr
  | .a => aBase
  | .b => bBase

/-- `bankbase(addr) = addr & 0xFF0000`. -/
def bankBase (addr : Addr) : Addr := addr &&& 0xFF0000#24

/-- The chip that `addr[21]` selects: 0 = chip A, 1 = chip B. -/
def chipOf (addr : Addr) : Chip := if addr.getLsbD 21 then .b else .a

/-- `addr` is in the flash window: `addr[23:22] = 0b11`. -/
def inFlash (a : Nat) : Bool := decide (0xC00000 ≤ a) && decide (a < 0x1000000)

/-- The chip whose window the flash address `a` is in. -/
def chipAt (a : Nat) : Chip := if a < 0xE00000 then .a else .b

/-- The offset of a flash address inside its chip: `addr[20:0]`. -/
def chipOff (a : Nat) : Nat := a % half

/-- The page of the image at offset `off` of chip `c`'s stream (R103). -/
def pageAddr (c : Chip) (off : Nat) : Addr := base c + BitVec.ofNat 24 off

/-- The last byte of the page at `addr`. -/
def lastAddr (addr : Addr) : Addr := addr + lastOff

/-- The chip's hidden region: `base(c) + 0xFF00`. -/
def hiddenBase (c : Chip) : Addr := base c + BitVec.ofNat 24 hidOff

/-- The four hidden pages, in map order (spec/42_hidden_sector.md R170). -/
def hiddenPage : Fin 4 → Addr
  | 0 => hiddenBase .a
  | 1 => hiddenBase .a + 0x80#24
  | 2 => hiddenBase .b
  | 3 => hiddenBase .b + 0x80#24

/-- Directory slot `i` (spec/43_directory.md R180). -/
def slotAddr (cfg : Config) (i : Nat) : Addr := cfg.dirBase + BitVec.ofNat 24 (i * dirStride)

/-- The verify chunk at offset `off` of the image. -/
def verifyAddr (off : Nat) : Addr := aBase + BitVec.ofNat 24 off

/-! ### Bus formats (R91 to R96) -/

/-- A write the engine is to make. -/
abbrev BusWrite := Addr × List Byte

/-- The three offsets and bytes of an UNLOCK3 (R91). -/
def unlock3 (cfg : Config) (cmd : Byte) : List (Addr × Byte) :=
  [(cfg.unlockOff1.setWidth 24, key1), (cfg.unlockOff2.setWidth 24, key2),
   (cfg.unlockOff1.setWidth 24, cmd)]

/-- Each byte to chip A, then to chip B, before the next (`GLOBAL_ORDER = byte_major`, R92). -/
def bothChips (ws : List (Addr × Byte)) : List BusWrite :=
  ws.flatMap fun w => [(aBase + w.1, [w.2]), (bBase + w.1, [w.2])]

/-- UNLOCK3 in global scope (R92). -/
def unlockGlobalWrites (cfg : Config) (cmd : Byte) : List BusWrite := bothChips (unlock3 cfg cmd)

/-- UNLOCK3 in local scope: at the bank base of `addr` (R93). -/
def unlockLocalWrites (cfg : Config) (addr : Addr) (cmd : Byte) : List BusWrite :=
  (unlock3 cfg cmd).map fun w => (bankBase addr + w.1, [w.2])

/-- RAWSEQ: the bytes of a show or hide sequence, to both chips (R95). -/
def rawWrites (cfg : Config) (bytes : List Byte) : List BusWrite :=
  bothChips (bytes.map fun b => (cfg.hiddenCmdOff.setWidth 24, b))

/-- PAGE: the block, then its last byte again (R96). -/
def pageWrites (addr : Addr) (page : List Byte) : List BusWrite :=
  [(addr, page), (lastAddr addr, [page.getD 127 0])]

/-- The SRAM writes of a buffer: `0x2000` bytes to each segment it reaches, in order
(spec/44_session_sram.md R208, R209). -/
def sramWrites : List Addr → List Byte → List BusWrite
  | [], _ => []
  | a :: as, buf =>
    if buf.isEmpty then [] else (a, buf.take sramSeg) :: sramWrites as (buf.drop sramSeg)

/-! ### The image (R103) -/

/-- `rom1`, the part of the image that goes to chip A. -/
def romA (buf : List Byte) : List Byte := buf.take half

/-- `rom2`, the part that goes to chip B. -/
def romB (buf : List Byte) : List Byte := buf.drop half

/-- A page of a stream: `rom[off : off + 128]`. -/
def pageOf (rom : List Byte) (off : Nat) : List Byte := (rom.drop off).take pageSize

/-- The map bytes of hidden page `k` (spec/42_hidden_sector.md R170). -/
def mapPage (map : List Byte) (k : Fin 4) : List Byte := pageOf map (k.val * pageSize)

/-! ### What the parameters must satisfy -/

/-- A text field lies inside the record (spec/43_directory.md R186). -/
def fieldOk (f : Field) : Bool := decide (f.off + f.width ≤ dirRecLen)

/-- A wake step reaches one of the two device registers (spec/44_session_sram.md R202). -/
def wakeStepOk : WakeStep → Bool
  | .write addr _ => addr == devReg0 || addr == devReg1
  | .read addr => addr == devReg0 || addr == devReg1

end Sys2Proof.Machine

namespace Sys2Proof

open Sys2Proof.Machine

/-- The parameters describe an engine of the spec: no computed address reaches `2^24` (R62), the text
fields lie in the record (R186), the wake sequence has six steps at the device registers (R202) and
there are four SRAM segments (R208). The unlock and show/hide offsets are bounded by their types. -/
def Config.wf (cfg : Config) : Bool :=
  decide (cfg.dirBase.toNat + (dirSlots - 1) * dirStride + dirRecLen ≤ 0x1000000) &&
  decide (cfg.sigAddr.toNat + 16 ≤ 0x1000000) &&
  (cfg.sramAddr.length == 4 &&
    cfg.sramAddr.all fun a => decide (a.toNat + sramSeg ≤ 0x1000000)) &&
  (cfg.wakeSeq.length == 6 && cfg.wakeSeq.all wakeStepOk) &&
  (fieldOk cfg.fCode && fieldOk cfg.fTitle && fieldOk cfg.fDate && fieldOk cfg.fTime &&
    fieldOk cfg.fLaw)

end Sys2Proof
end

