-- ==== Sys2Proof/Machine/Env.lean ====
section
/-! DEFINITION. The environment contract, spec/20_memory.md R70 to R79: how the chips, the cartridge
controller and the SRAM answer the engine's bus events. What the contract leaves unspecified is a free
value. The environment hears single bus events and recognises the command formats of
spec/30_encoding.md R91 to R96 in them (log 13). -/

namespace Sys2Proof.Machine

open Sys2Proof

/-! ### Draws (spec/00_scope.md R12) -/

/-- The next draw: an answer already fixed outside, else the next free value (log 5). -/
def Env.draw (e : Env) : Byte × Env :=
  match e.draws with
  | b :: bs => (b, { e with draws := bs })
  | [] => (Config.freeByte e.drawn, { e with drawn := e.drawn + 1 })

/-- `n` draws. -/
def Env.drawN : Nat → Env → List Byte × Env
  | 0, e => ([], e)
  | n + 1, e =>
    let r := e.draw
    let rs := Env.drawN n r.2
    (r.1 :: rs.1, rs.2)

/-! ### Parts -/

/-- The addresses of R61 mean what the map says: the device is awake and its addressing mode is set
(R63 (a); log 20). -/
def Device.mapped (d : Device) : Bool := d.sleep == .awake && d.hirom

/-- Change one chip. -/
def Env.setChip (e : Env) (c : Chip) (st : ChipState) : Env := { e with chip := e.chip.set c st }

/-- From here on nothing is known of what the chip answers (log 14). -/
def Env.lose (e : Env) (c : Chip) : Env :=
  e.setChip c { e.chip.get c with mode := .lost, op := .none, latch := .idle }

/-- From here on nothing is known of the device (log 19). -/
def Env.loseDevice (e : Env) : Env :=
  { e with dev := { sleep := .unknown, protect := .unknown, hirom := false, recent := [] } }

/-- The byte at flash address `a` of chip `c`'s array (R71): free if a failed erase left it so and its
page has not been programmed since (log 15). -/
def Env.arrayByte (e : Env) (c : Chip) (a : Nat) : Byte :=
  match (e.chip.get c).wild with
  | some k =>
    if (e.chip.get c).programmed.contains (a - a % pageSize) then e.mem.read a
    else Config.freeByte (k + chipOff a)
  | none => e.mem.read a

/-- The 128 bytes of chip `c`'s array at `a` read as erased (R75). -/
def Env.pageErased (e : Env) (c : Chip) (a : Nat) : Bool :=
  (List.range pageSize).all fun i => e.arrayByte c (a + i) == erasedByte

/-- The `n` bytes at `a` lie in one SRAM segment. -/
def inSram (cfg : Config) (a n : Nat) : Bool :=
  cfg.sramAddr.any fun s => decide (s.toNat ≤ a) && decide (a + n ≤ s.toNat + sramSeg)

/-- `a` is in a directory record or in the signature (R61; spec/43_directory.md R180, R182). -/
def inDirectory (cfg : Config) (a : Nat) : Bool :=
  ((List.range dirSlots).any fun i =>
    decide (cfg.dirBase.toNat + i * dirStride ≤ a) &&
      decide (a < cfg.dirBase.toNat + i * dirStride + dirRecLen)) ||
  (decide (cfg.sigAddr.toNat ≤ a) && decide (a < cfg.sigAddr.toNat + sig.length))

/-- Outside the flash window, the bytes that R61's map says are data: the SRAM and, where the parameters
place them there, the directory and the signature. Their reads are idempotent (R59; log 26). -/
def isData (cfg : Config) (a : Nat) : Bool := inSram cfg a 1 || inDirectory cfg a

/-- The chip-relative offset is in the hidden region (R77). -/
def inHidden (o : Nat) : Bool := decide (hidOff ≤ o) && decide (o < hidOff + hidRead)

/-- The 128 bytes of a memory at `a` read as erased. -/
def Memory.erased (m : Memory) (a : Nat) : Bool :=
  (m.readBytes a pageSize).all (· == erasedByte)

/-! ### What a chip hears -/

/-- What a write tells a chip. -/
inductive Heard where
  /-- A command sequence goes on. -/
  | wait (l : Latch)
  /-- `KEY1` where a command byte was awaited: it begins a new sequence, or is a command byte of which the
  spec gives no effect (R108; log 11). -/
  | cut (l : Latch)
  /-- `KEY1` where the last byte of a block was awaited again: it begins a new sequence. -/
  | drop (l : Latch)
  /-- The last byte of a command sequence that starts an operation (R72). -/
  | start (op : ChipOp)
  /-- The third byte of the reset sequence (R76). -/
  | reset
  /-- Nothing the source describes. -/
  | foreign
deriving DecidableEq, Repr

/-- The command byte that ends an UNLOCK3 at `bank` (R97): the reset and the erases in global scope, at
the chip base; the page programs at any bank base. -/
def hearCommand (c : Chip) (bank : Addr) (after : Armed) (cmd : Byte) : Heard :=
  if cmd = cmdReset ∧ bank = base c then .reset
  else
    match after with
    | .fresh =>
      if (cmd = cmdErase1 ∨ cmd = cmdHErase1) ∧ bank = base c then .wait (.armed cmd)
      else if cmd = cmdProgram ∨ cmd = cmdHProgram then .wait (.program cmd bank)
      else .foreign
    | .erase k =>
      if k = cmdErase1 ∧ cmd = cmdErase2 ∧ bank = base c then .start .erase
      else if k = cmdHErase1 ∧ cmd = cmdHErase2 ∧ bank = base c then .start .hiddenErase
      else .foreign
    | .aborted => .foreign

/-- The block may be sent with `cmd`: any page of the array, or one of the chip's two hidden pages
(spec/42_hidden_sector.md R170). -/
def pageTarget (c : Chip) (cmd : Byte) (addr : Addr) : Bool :=
  if cmd = cmdHProgram then addr == hiddenBase c || addr == hiddenBase c + 0x80#24 else true

/-- A byte of a show or hide sequence after `bytes` (R95). Where the two sequences are the same, it
shows when hidden and hides when shown (spec/40_command_encoder.md R128); where one is a proper part of
the other, the shorter starts its operation at its last byte (log 18). -/
def hearRaw (cfg : Config) (c : Chip) (shown : Bool) (bytes : List Byte) (addr : Addr)
    (v : List Byte) : Heard :=
  let now := bytes ++ v
  if addr ≠ base c + cfg.hiddenCmdOff.setWidth 24 ∨ v.length ≠ 1 then .foreign
  else if now = cfg.showSeq ∧ ¬(now = cfg.hideSeq ∧ shown) then .start .showing
  else if now = cfg.hideSeq then .start .hiding
  else if now.isPrefixOf cfg.showSeq || now.isPrefixOf cfg.hideSeq then .wait (.raw now)
  else .foreign

/-- `KEY1` at the first unlock offset of a bank, the first byte of an UNLOCK3 (R91). -/
def isKey1 (cfg : Config) (addr : Addr) (v : List Byte) : Bool :=
  addr == bankBase addr + cfg.unlockOff1.setWidth 24 && v == [key1]

/-- The operation that the last byte of a block already received would start. -/
def Latch.awaited : Latch → ChipOp
  | .loaded cmd addr page =>
    if cmd = cmdHProgram then .hiddenProgram addr page else .program addr page
  | _ => .none

/-- What chip `c`, having received `l`, hears in the write of `v` at `addr`. An unlock key begins a new
sequence wherever it comes, so that the next session's reset repairs a chip that an engine lost in the
middle of a command left there (R76, R253), and of one that cuts another short only a reset is recognised
(log 13). The last byte of a block, when it is awaited again, is heard as that. Where the parameters send the
show and hide bytes to the first unlock offset, and a sequence has `KEY1` as its first byte or after some of
the others, the spec does not say which command that byte belongs to: the model takes it as an unlock key,
never as a byte of the sequence, DESIGN CHOICE, unsafe (R7, R36; log 13). -/
def hear (cfg : Config) (c : Chip) (shown : Bool) (l : Latch) (addr : Addr) (v : List Byte) : Heard :=
  let anew (after : Armed) : Latch := .key1 (bankBase addr) after
  match l with
  | .key1 bank after =>
    if addr = bank + cfg.unlockOff2.setWidth 24 ∧ v = [key2] then .wait (.key2 bank after)
    else if isKey1 cfg addr v then .wait (anew .aborted)
    else .foreign
  | .key2 bank after =>
    match v with
    | [cmd] =>
      if isKey1 cfg addr v then .cut (anew .aborted)
      else if addr = bank + cfg.unlockOff1.setWidth 24 then hearCommand c bank after cmd
      else .foreign
    | _ => .foreign
  | .loaded _ a page =>
    if addr = lastAddr a ∧ v = [page.getD 127 0] then .start l.awaited
    else if isKey1 cfg addr v then .drop (anew .aborted)
    else .foreign
  | .idle => if isKey1 cfg addr v then .wait (anew .fresh) else hearRaw cfg c shown [] addr v
  | .raw bytes => if isKey1 cfg addr v then .wait (anew .aborted) else hearRaw cfg c shown bytes addr v
  | .armed k => if isKey1 cfg addr v then .wait (anew (.erase k)) else .foreign
  | .program cmd bank =>
    if isKey1 cfg addr v then .wait (anew .aborted)
    else if bankBase addr = bank ∧ pageOperandsOk addr v ∧ pageTarget c cmd addr then
      .wait (.loaded cmd addr v)
    else .foreign

/-- The chip has received unlock keys of a sequence that cut another short. -/
def Latch.resetting : Latch → Bool
  | .key1 _ after => after == .aborted
  | .key2 _ after => after == .aborted
  | .idle => false
  | .armed _ => false
  | .program _ _ => false
  | .loaded _ _ _ => false
  | .raw _ => false

/-! ### What a finished operation leaves (R74, R75, R77) -/

/-- Program a page of the array: the page, if all went well and it was erased; else 128 free values. No
other byte of the array changes. R75 does not say whether a program that failed, was disturbed or met
write-protect counts as programming the page since the last erase: here it does, so that only an erase
makes the page's bytes certain again, DESIGN CHOICE, safe (log 15). -/
def Env.programPage (e : Env) (c : Chip) (ok : Bool) (addr : Addr) (page : List Byte) : Env :=
  let st := e.chip.get c
  let a := addr.toNat
  let good := ok && !st.programmed.contains a && e.pageErased c a
  let r := if good then (page, e) else e.drawN pageSize
  { r.2.setChip c { st with op := .none, programmed := st.programmed.insert a } with
    mem := e.mem.writeBytes a r.1 }

/-- Program a page of the hidden sector, likewise, counted likewise (log 15). -/
def Env.programHidden (e : Env) (c : Chip) (ok : Bool) (addr : Addr) (page : List Byte) : Env :=
  let st := e.chip.get c
  let p := chipOff addr.toNat - hidOff
  let good := ok && !st.hidProgrammed.contains p && st.hid.erased p
  let r := if good then (page, e) else e.drawN pageSize
  r.2.setChip c { st with
    op := .none, hid := st.hid.writeBytes p r.1, hidProgrammed := st.hidProgrammed.insert p }

/-- Erase the array of a chip; a failed erase leaves it unspecified. The hidden sector stays as it was:
R74 gives the effect of `CHIP_ERASE` on the array alone, R130 has it erase the chips "entirely", and no
rule says which holds of the hidden sector, DESIGN CHOICE, unsafe (log 30). -/
def Env.eraseArray (e : Env) (c : Chip) (ok : Bool) : Env :=
  let st := e.chip.get c
  let e1 := { e with mem := e.mem.clear (base c).toNat half }
  if ok then e1.setChip c { st with op := .none, programmed := [], wild := none }
  else
    { e1.setChip c { st with op := .none, programmed := [], wild := some e.drawn } with
      drawn := e.drawn + half }

/-- Erase the hidden sector of a chip; a failed erase leaves 256 free values. -/
def Env.eraseHidden (e : Env) (c : Chip) (ok : Bool) : Env :=
  let st := e.chip.get c
  let r := if ok then ([], e) else e.drawN hidRead
  r.2.setChip c { st with
    op := .none, hid := Memory.writeBytes [] 0 r.1, hidProgrammed := [] }

/-- Chip `c`'s operation is seen complete by a status byte with the error flag `err`. A program counts
only if no second command came before (R75); a hidden sector is shown until `HIDE` is seen complete, and
after that the chip answers status until the next `READ_RESET` (R72, R77). -/
def Env.complete (e : Env) (c : Chip) (err : Bool) : Env :=
  let st := e.chip.get c
  let ok := !err && st.sound && e.dev.protect = .released
  match st.op with
  | .none => e
  | .erase => e.eraseArray c ok
  | .hiddenErase => e.eraseHidden c ok
  | .program addr page => e.programPage c (ok && !st.disturbed) addr page
  | .hiddenProgram addr page => e.programHidden c (ok && !st.disturbed) addr page
  | .showing => e.setChip c { st with op := .none, mode := .hiddenShown }
  | .hiding => e.setChip c { st with op := .none, mode := .status }

/-! ### Writes to a chip -/

/-- An operation begins on chip `c` (R72). One still in flight, which then is never seen complete, leaves
what it was storing unspecified (R75; log 27). The mode becomes Status, and a hidden sector that was shown
no longer counts as shown: where the show and hide sequences are equal, the next one shows it. R77 and R264
name only HIDE and `READ_RESET` as what ends the showing, DESIGN CHOICE, unsafe (log 18). -/
def Env.begin (e : Env) (c : Chip) (op : ChipOp) (disturbed : Bool) : Env :=
  let e1 := e.complete c true
  e1.setChip c { e1.chip.get c with
    latch := .idle
    mode := .status
    op := op
    sound := e.dev.protect = .released
    disturbed := disturbed }

/-- Chip `c` goes on to `l` without the last byte of the block it has received: any value stands in that
page then (spec/93_implementation_defined.md U5), as after a program that failed. An operation in flight
stays so. -/
def Env.dropBlock (e : Env) (c : Chip) (l : Latch) (disturbed : Bool) : Env :=
  let st := e.chip.get c
  let e1 := (e.setChip c { st with op := st.latch.awaited }).complete c true
  e1.setChip c { e1.chip.get c with op := st.op, latch := l, disturbed := disturbed }

/-- A write in chip `c`'s window. A command that reaches the chip while an erase or a program is in flight
disturbs that operation and is taken (R75; log 27). A reset that does (R76), any write while a show or
hide is in flight, and a write that is no part of a command leave the chip's behaviour unspecified. So
does `KEY1` where a command byte was awaited, but with no operation in flight only until a reset sequence
that it begins has been received (R76, R253; log 13). -/
def Env.chipWrite (cfg : Config) (e : Env) (c : Chip) (addr : Addr) (v : List Byte) : Env :=
  let st := e.chip.get c
  let busy := decide (st.op ≠ .none)
  let disturbed := busy || (st.disturbed && decide (st.latch ≠ .idle))
  if !e.dev.mapped || (st.mode = .lost && !st.latch.resetting) || st.op = .showing || st.op = .hiding then e.lose c
  else
    match hear cfg c (st.mode = .hiddenShown) st.latch addr v with
    | .wait l => e.setChip c { st with latch := l, disturbed := disturbed }
    | .cut l =>
      if busy then e.lose c
      else e.setChip c { st with mode := .lost, latch := l, disturbed := disturbed }
    | .drop l => e.dropBlock c l disturbed
    | .start op => e.begin c op disturbed
    | .reset => if busy then e.lose c else e.setChip c { st with latch := .idle, mode := .array }
    | .foreign => e.lose c

/-! ### Reads -/

/-- The status byte that answers the draw `b` once the operation has been seen complete: bit 7 is set and
bit 4 tells whether it failed, as the completing byte did; the other bits are the draw's (R72; log 17). -/
def ChipState.settledStatus (st : ChipState) (b : Byte) : Byte :=
  (b &&& 0x6F#8) ||| (if st.failed then 0x90#8 else 0x80#8)

/-- A status byte (R72): any byte while the operation is in flight, and one with bit 7 set completes it;
from then on the bits 7 and 4 stay those of the completing byte (log 17). -/
def Env.readStatus (e : Env) (c : Chip) : Byte × Env :=
  let st := e.chip.get c
  let r := e.draw
  if st.op = .none then (st.settledStatus r.1, r.2)
  else if isReady r.1 then
    (r.1, (r.2.setChip c { st with failed := isError r.1 }).complete c (isError r.1))
  else r

/-- A byte of chip `c`'s window that is no status byte (R71, R77). -/
def Env.chipByte (e : Env) (c : Chip) (a : Nat) : Byte × Env :=
  let st := e.chip.get c
  match st.mode with
  | .array => (e.arrayByte c a, e)
  | .hiddenShown =>
    if inHidden (chipOff a) then (st.hid.read (chipOff a - hidOff), e) else e.draw
  | .status => e.draw
  | .lost => e.draw

/-- The byte at bus address `a`. What is on no row of R61's map is left to the platform: a draw. A device
register inside a longer read is no status read (log 28). -/
def Env.byteAt (cfg : Config) (e : Env) (a : Nat) : Byte × Env :=
  if !e.dev.mapped then e.draw
  else if inFlash a then e.chipByte (chipAt a) a
  else if isData cfg a then (e.mem.read a, e)
  else e.draw

/-- The `n` bytes from `a`, each part answered where it stands (R71). -/
def Env.bytesFrom (cfg : Config) : Nat → Env → Nat → List Byte × Env
  | _, e, 0 => ([], e)
  | a, e, n + 1 =>
    let r := e.byteAt cfg a
    let rs := Env.bytesFrom cfg (a + 1) r.2 n
    (r.1 :: rs.1, rs.2)

/-- A sleeping device hears an access to its registers and wakes when the last ones heard are the wake
sequence (R78, spec/44_session_sram.md R202; log 19). What it keeps across sleep is not in the source
(spec/60_exceptions.md R234, U29): its write-protect state is unknown when it wakes, its addressing mode
is not taken to be set, and the chips and the memories are as they were (log 29). -/
def Device.heard (cfg : Config) (d : Device) (x : WakeStep) : Device :=
  let recent := (x :: d.recent).take cfg.wakeSeq.length
  if recent.reverse = cfg.wakeSeq then
    { sleep := .awake, protect := .unknown, hirom := false, recent := [] }
  else { d with recent := recent }

/-- The device status (R78): `0x2A` awake, `0x7D` asleep, anything else in any other state. -/
def Env.readDevice (cfg : Config) (e : Env) : Byte × Env :=
  match e.dev.sleep with
  | .awake => (devAwake, e)
  | .asleep => (devAsleep, { e with dev := e.dev.heard cfg (.read devReg0) })
  | .absent =>
    let r := e.draw
    (if r.1 = devAwake ∨ r.1 = devAsleep then 0 else r.1, r.2)
  | .unknown => e.draw

/-- A read of `DEV_REG1`, which has no read meaning (spec/10_state.md R35): a draw. -/
def Env.readDevice1 (cfg : Config) (e : Env) : Byte × Env :=
  let r := e.draw
  (r.1, if r.2.dev.sleep = .asleep then { r.2 with dev := r.2.dev.heard cfg (.read devReg1) } else r.2)

/-- A one-byte read at `addr` is a status read of its chip (R72). -/
def Env.statusAt (e : Env) (addr : Addr) : Bool :=
  e.dev.mapped && inFlash addr.toNat && addr == bankBase addr &&
    (e.chip.get (chipOf addr)).mode == .status

/-- A one-byte read. -/
def Env.readOne (cfg : Config) (e : Env) (addr : Addr) : Byte × Env :=
  if addr = devReg0 then e.readDevice cfg
  else if addr = devReg1 then e.readDevice1 cfg
  else if e.statusAt addr then e.readStatus (chipOf addr)
  else e.byteAt cfg addr.toNat

/-- The environment's answer to `MemRead(addr, n)`. -/
def Env.read (cfg : Config) (e : Env) (addr : Addr) (n : Nat) : List Byte × Env :=
  if n = 1 then
    let r := e.readOne cfg addr
    ([r.1], r.2)
  else Env.bytesFrom cfg addr.toNat e n

/-! ### Writes -/

/-- A write to a device register (R78). The protect bytes act when the device is awake and leave the
protect state unknown when it is asleep; any other byte but the mode value is not described. What a
write does to a device that is absent or in another state is not in the source (R78 and spec/10_state.md
R34 give only what it answers): nothing is known of it from then on, DESIGN CHOICE (log 19). -/
def Env.devWrite (cfg : Config) (e : Env) (addr : Addr) (b : Byte) : Env :=
  match e.dev.sleep with
  | .awake =>
    if addr = devReg0 ∧ b = wpRel then { e with dev := { e.dev with protect := .released } }
    else if addr = devReg0 ∧ b = wpSet then
      { e with
        dev := { e.dev with protect := .asserted }
        chip := ⟨{ e.chip.a with sound := false }, { e.chip.b with sound := false }⟩ }
    else if addr = cfg.modeAddr ∧ b = cfg.modeValue then e
    else e.loseDevice
  | .asleep =>
    let d := e.dev.heard cfg (.write addr b)
    { e with dev :=
      if addr = devReg0 ∧ (b = wpRel ∨ b = wpSet) then { d with protect := .unknown } else d }
  | .absent => e.loseDevice
  | .unknown => e

/-- Every data byte of the `n` from `a` becomes a free value. -/
def Env.scramble (cfg : Config) : Nat → Env → Nat → Env
  | _, e, 0 => e
  | a, e, n + 1 =>
    if isData cfg a then
      let r := e.draw
      Env.scramble cfg (a + 1) { r.2 with mem := e.mem.write a r.1 } n
    else Env.scramble cfg (a + 1) e n

/-- A write outside the flash window that is no device command: an SRAM write stores at once (R79), if
write-protect is released; whether protect covers SRAM is not in the source (log 21). A write that
reaches a device register among other bytes stores nothing known (log 28). Where the parameters let a
segment that starts below the flash window run into it, the bytes there are stored, or left free, all the
same, at the addresses of chip A's array, with no page program, and the chip hears nothing: DESIGN CHOICE,
unsafe (R59, R79, R208; log 28). -/
def Env.plainWrite (cfg : Config) (e : Env) (a : Nat) (v : List Byte) : Env :=
  if !e.dev.mapped then e.loseDevice
  else if decide (a ≤ devReg1.toNat) && decide (devReg0.toNat < a + v.length) then
    (Env.scramble cfg a e v.length).loseDevice
  else if inSram cfg a v.length && e.dev.protect = .released then
    { e with mem := e.mem.writeBytes a v }
  else Env.scramble cfg a e v.length

/-- The addressing-mode write sets the mode of an awake device (R63 (a), spec/44_session_sram.md R203). -/
def Env.modeWrite (cfg : Config) (e : Env) (addr : Addr) (v : List Byte) : Env :=
  if e.dev.sleep = .awake ∧ addr = cfg.modeAddr ∧ v = [cfg.modeValue] then
    { e with dev := { e.dev with hirom := true } }
  else e

/-- The environment's response to `MemWrite(addr, n, v)`. Where the parameters place a segment over the
flash window or a device register, the chip or the device takes an access that starts there and the SRAM
does not (log 28). A write that starts in chip A's window and runs into chip B's is chip A's alone, and
chip B stays as it was: R60 and R71 divide addresses and reads between the chips and no rule such a write,
DESIGN CHOICE, unsafe for chip B (log 28). -/
def Env.write (cfg : Config) (e : Env) (addr : Addr) (v : List Byte) : Env :=
  let e1 := e.modeWrite cfg addr v
  if inFlash addr.toNat then e1.chipWrite cfg (chipOf addr) addr v
  else
    match v with
    | [b] =>
      if addr = devReg0 ∨ addr = devReg1 then e1.devWrite cfg addr b
      else e1.plainWrite cfg addr.toNat v
    | _ => e1.plainWrite cfg addr.toNat v

end Sys2Proof.Machine
end

