-- ==== Sys2Proof/Machine/Ops.lean ====
section
/-! DEFINITION. The operations every meaning is written over: bus reads and writes
(spec/00_scope.md R9), how an operation ends (spec/60_exceptions.md R220, R224), the order of its
checks (R225), the polls and the writer loop, and the sequencer that runs an operation's phases
(spec/10_state.md R25, R26). -/

namespace Sys2Proof.Machine

open Sys2Proof

/-! ### The bus (R9, R51, R64) -/

/-- `MemWrite(addr, n, v)`: one event, answered by the environment. -/
def State.memWrite (s : State) (addr : Addr) (v : List Byte) : State :=
  { s with env := s.env.write s.cfg addr v, trace := s.trace ++ [.write addr v] }

/-- The writes of a format, in order. -/
def State.memWrites : State → List BusWrite → State
  | s, [] => s
  | s, w :: ws => State.memWrites (s.memWrite w.1 w.2) ws

/-- `MemRead(addr, n)`: one event, with the bytes the environment answers. -/
def State.memRead (s : State) (addr : Addr) (n : Nat) : List Byte × State :=
  let r := s.env.read s.cfg addr n
  (r.1, { s with env := r.2, trace := s.trace ++ [.read addr r.1] })

/-- `MemRead(addr, 1)`. -/
def State.readByte (s : State) (addr : Addr) : Byte × State :=
  let r := s.memRead addr 1
  (r.1.headD 0, r.2)

/-- `Progress(k)` (R157). -/
def State.notify (s : State) (k : Nat) : State := { s with progress := s.progress ++ [k] }

/-! ### How an operation ends (R220, R221, R224) -/

/-- The end of an operation: its result registers, and `seq <- IDLE`. -/
def State.finish (s : State) (rc : BitVec 8) (res : BitVec 24) : State :=
  { s with rc := rc, res := res, seq := .idle }

/-- Success: `RC <- OK`. -/
def State.succeed (s : State) (res : BitVec 24) : State := s.finish rcOk res

/-- `raise E(info)`, the engine's trap entry: `RC <- code(E)`, `RES <- info`, `seq <- IDLE`. Nothing is
saved, nothing else changes, and there is no return from it (R224, R227). -/
def State.raise (s : State) (cause : Cause) (info : BitVec 24) : State := s.finish cause.code info

/-- `refuse E`: "the same with an empty trace"; `RES <- 0` (R120, R221). -/
def State.refuse (s : State) (cause : Cause) : State := s.raise cause 0

/-! ### The checks before an operation (R225) -/

/-- The first check that fails: the session, then write-protect where the operation needs it released,
then the operands. -/
def State.check (s : State) (needsRelease operandsOk : Bool) (bad : Cause) : Option Cause :=
  if s.sess = .closed then some .notAwake
  else if needsRelease && !s.wpr then some .writeProtected
  else if !operandsOk then some bad
  else none

/-- An operation is accepted only in IDLE (R25), by an engine whose parameters are well formed. -/
def State.accept (s : State) (body : State → State) : Host.Outcome State Fault Refusal :=
  if s.seq ≠ .idle then .refused .notIdle
  else if !s.cfg.wf then .fault .illFormedConfig
  else .next (body s)

/-- An operation with its checks. -/
def State.operate (s : State) (needsRelease operandsOk : Bool) (bad : Cause)
    (body : State → State) : Host.Outcome State Fault Refusal :=
  s.accept fun s =>
    match s.check needsRelease operandsOk bad with
    | some cause => s.refuse cause
    | none => body s

/-! ### Polls (R122, R123) -/

/-- One look at chip `c`: `ST[c] <- MemRead(base(c), 1)`, and its class. -/
def State.look (s : State) (c : Chip) : StatusClass × State :=
  let r := s.readByte (base c)
  (classify r.1, { r.2 with st := r.2.st.set c r.1 })

/-- One turn of the wait loop: read, latch, count. -/
def State.poll (s : State) (addr : Addr) : Byte × State :=
  let r := s.readByte addr
  (r.1, { r.2 with st := r.2.st.set (chipOf addr) r.1, pcnt := r.2.pcnt + 1 })

/-- `POLL_LIMIT /= none and PCNT >= POLL_LIMIT`. -/
def State.timedOut (s : State) : Bool :=
  match s.cfg.pollLimit with
  | none => false
  | some n => decide (n ≤ s.pcnt)

/-! ### What a phase does -/

/-- How a phase leaves the operation. -/
inductive Progress where
  /-- On to the next phase. -/
  | goOn (s : State)
  /-- The chip answered busy: the operation stays at this phase. -/
  | again (p : Phase) (s : State)
  /-- `raise cause(info)`. -/
  | fail (cause : Cause) (info : BitVec 24) (s : State)

/-- `READ_RESET` as a part (R127). -/
def State.readReset (s : State) : State := s.memWrites (unlockGlobalWrites s.cfg cmdReset)

/-- UNLOCK_AND_LOCAL and the PAGE format, from `PBUF` (R132, R133, R96). -/
def State.sendPage (s : State) (cmd : Byte) (addr : Addr) (page : List Byte) : State :=
  let s1 := { s with pbuf := page }
  let s2 := s1.memWrites (unlockLocalWrites s.cfg addr cmd)
  s2.memWrites (pageWrites addr s2.pbuf)

/-- A wait: ready ends it, the limit fails it, anything else polls again (R123). -/
def State.waitTurn (s : State) (addr : Addr) : Progress :=
  let r := s.poll addr
  if isReady r.1 then .goOn r.2
  else if r.2.timedOut then .fail .pollTimeout addr r.2
  else .again (.wait addr) r.2

/-! ### The writer loop (R152, R153) -/

/-- `WL_INIT`. -/
def State.wlInit (s : State) (rom1 rom2 : List Byte) : State :=
  { s with
    len := ⟨BitVec.ofNat 22 rom1.length, BitVec.ofNat 22 rom2.length⟩
    cur := ⟨0, 0⟩
    busy := ⟨false, false⟩
    abort := ⟨false, false⟩ }

/-- `live(c)`. -/
def State.live (s : State) (c : Chip) : Bool :=
  !s.abort.get c && (s.busy.get c || decide ((s.cur.get c).toNat < (s.len.get c).toNat))

/-- `CUR[A] + CUR[B]`. -/
def State.count (s : State) : Nat := s.cur.a.toNat + s.cur.b.toNat

/-- Issue the next page of chip `c`. -/
def State.wlIssue (s : State) (c : Chip) (rom : List Byte) : State :=
  let off := (s.cur.get c).toNat
  let s1 := s.sendPage cmdProgram (pageAddr c off) (pageOf rom off)
  { s1 with busy := s1.busy.set c true }

/-- Chip `c`'s page has completed well: the cursor advances. -/
def State.wlReady (s : State) (c : Chip) : State :=
  let s1 := { s with
    busy := s.busy.set c false
    cur := s.cur.set c (s.cur.get c + 128#22) }
  s1.notify s1.count

/-- Chip `c`'s page has failed: its stream is aborted, the cursor stays. -/
def State.wlError (s : State) (c : Chip) : State :=
  { s with busy := s.busy.set c false, abort := s.abort.set c true }

/-- One look at the busy chip `c`. -/
def State.wlLook (s : State) (c : Chip) : StatusClass × State :=
  let r := s.look c
  (r.1,
    match r.1 with
    | .busy => r.2
    | .ready => r.2.wlReady c
    | .error => r.2.wlError c)

/-- The loop: chip A's action, then chip B's, one each per iteration, while either is live. It leaves
where a chip answers busy, to go on with the other chip at the next step. `n` bounds the turns of one
step; `wlTurns` is enough for a loop in which no chip answers busy (log 3). -/
def State.wlRun : Nat → Chip → List Byte → List Byte → State → Progress
  | 0, turn, rom1, rom2, s => .again (.wl turn rom1 rom2) s
  | n + 1, turn, rom1, rom2, s =>
    if turn = .a ∧ !s.live .a ∧ !s.live .b then .goOn s
    else if !s.live turn then State.wlRun n turn.other rom1 rom2 s
    else if s.busy.get turn then
      let r := s.wlLook turn
      if r.1 = .busy then .again (.wl turn.other rom1 rom2) r.2
      else State.wlRun n turn.other rom1 rom2 r.2
    else
      State.wlRun n turn.other rom1 rom2
        (s.wlIssue turn (match turn with | .a => rom1 | .b => rom2))

/-- Turns enough for every page of both streams. -/
def wlTurns (rom1 rom2 : List Byte) : Nat := rom1.length + rom2.length + 4

/-! ### The map read-back (R172) -/

/-- `READ_RESET` and the result of `VERIFY_MAP`, after its two reads. -/
def State.mapReadBack (s : State) (map : List Byte) : State :=
  let ra := s.memRead (hiddenBase .a) hidRead
  let rb := ra.2.memRead (hiddenBase .b) hidRead
  let s1 := rb.2.readReset
  if ra.1 ++ rb.1 = map then s1.succeed 1 else s1.raise .verifyMismatch 0

/-! ### The sequencer -/

/-- The result of `WRITE_ROM`: the count, and whether it is the whole image (R151). -/
def State.romResult (s : State) (len : Nat) : State :=
  if s.count = len then s.succeed (BitVec.ofNat 24 s.count)
  else s.raise .shortWrite (BitVec.ofNat 24 s.count)

/-- The result of `WRITE_MAP`: all or nothing (R171). -/
def State.mapResult (s : State) : State :=
  if s.err then s.raise .shortWrite 0 else s.succeed (BitVec.ofNat 24 mapLen)

/-- What each phase does. -/
def Phase.perform (s : State) : Phase → Progress
  | .unlockGlobal cmd => .goOn (s.memWrites (unlockGlobalWrites s.cfg cmd))
  | .rawSeq bytes => .goOn (s.memWrites (rawWrites s.cfg bytes))
  | .page cmd addr data => .goOn (s.sendPage cmd addr data)
  | .waitStart => .goOn { s with pcnt := 0 }
  | .wait addr => s.waitTurn addr
  | .clearErr => .goOn { s with err := false }
  | .orErr c => .goOn { s with err := s.err || isError (s.st.get c) }
  | .wlInit rom1 rom2 => .goOn (s.wlInit rom1 rom2)
  | .wl turn rom1 rom2 => State.wlRun (wlTurns rom1 rom2) turn rom1 rom2 s
  | .mapReadBack map => .goOn (s.mapReadBack map)
  | .done => .goOn (s.succeed 0)
  | .doneStatus c => .goOn (s.succeed ((s.st.get c).setWidth 24))
  | .doneErr c => .goOn (s.succeed (flagRes (isError (s.st.get c))))
  | .doneCount => .goOn (s.succeed (BitVec.ofNat 24 s.count))
  | .doneRom len => .goOn (s.romResult len)
  | .doneMap => .goOn s.mapResult

/-- A failure on the way: a composite operation sends its `READ_RESET` first (R224). -/
def State.failOut (s : State) (cleanup : Bool) (cause : Cause) (info : BitVec 24) : State :=
  (if cleanup then s.readReset else s).raise cause info

/-- Run the phases of an operation to its end, or to where a chip answers busy. -/
def State.runPhases (cleanup : Bool) : List Phase → State → State
  | [], s => { s with seq := .idle }
  | p :: rest, s =>
    match p.perform s with
    | .goOn s1 => State.runPhases cleanup rest s1
    | .again now s1 => { s1 with seq := .running cleanup now rest }
    | .fail cause info s1 => s1.failOut cleanup cause info

/-- The operation in progress goes on where it stood (which `runPhases` takes as its argument). -/
def State.resume (s : State) : State :=
  match s.seq with
  | .idle => s
  | .running cleanup now rest => State.runPhases cleanup (now :: rest) { s with seq := .idle }

/-- The next command record of the host, taken from its list (R25, R100; log 1). -/
def State.take (s : State) : Option (Command × State) :=
  match s.inbox with
  | [] => none
  | r :: rs => some (r, { s with inbox := rs })

/-! ### Phase lists the families share -/

/-- `WAIT_READY addr` as a part (R123). -/
def waitPhases (addr : Addr) : List Phase := [.waitStart, .wait addr]

/-- `WaitBoth`: chip A to its end, then chip B (R124). -/
def waitBoth : List Phase := waitPhases (base .a) ++ waitPhases (base .b)

/-- `CHIP_ERASE` as a part (R130): UNLOCK6 with `0x80`, `0x10`, then `WaitBoth`. -/
def chipErasePhases : List Phase :=
  [.unlockGlobal cmdErase1, .unlockGlobal cmdErase2] ++ waitBoth

/-- `HIDDEN_ERASE` as a part (R131): UNLOCK6 with `0x77`, `0xE0`, then `WaitBoth`. -/
def hiddenErasePhases : List Phase :=
  [.unlockGlobal cmdHErase1, .unlockGlobal cmdHErase2] ++ waitBoth

/-- A show or hide sequence, then `WaitBoth` (R128, R129). -/
def rawPhases (bytes : List Byte) : List Phase := .rawSeq bytes :: waitBoth

/-- `HIDDEN_WRITE addr, page` as a part, up to the byte that ended its wait (R133). -/
def hiddenWritePhases (addr : Addr) (page : List Byte) : List Phase :=
  .page cmdHProgram addr page :: waitPhases (bankBase addr)

/-- `WRITE_LOOP rom1, rom2` as a part (R152). -/
def writeLoopPhases (rom1 rom2 : List Byte) : List Phase :=
  [.wlInit rom1 rom2, .wl .a rom1 rom2]

end Sys2Proof.Machine
end

