-- ==== Sys2Proof/Machine/BulkWriter.lean ====
section
/-! DEFINITION. The Bulk ROM Writer / Verifier family (spec/41_bulk_writer_verifier.md). -/

namespace Sys2Proof.Machine

open Sys2Proof

/-- A length `WRITE_ROM` and `WRITE_LOOP` take: a multiple of 128, at most `max` (R150). -/
def imageLengthOk (max : Nat) (buf : List Byte) : Bool :=
  buf.length % pageSize == 0 && decide (buf.length ≤ max)

/-- `WRITE_ROM buf` (R151): the erase, the loop over the two halves, `READ_RESET`, the result. -/
def execWriteRom (buf : List Byte) (s : State) : Host.Outcome State Fault Refusal :=
  s.operate true (imageLengthOk maxRom buf) .inputValidation fun s =>
    s.runPhases true (chipErasePhases ++ writeLoopPhases (romA buf) (romB buf) ++
      [.unlockGlobal cmdReset, .doneRom buf.length])

/-- `WRITE_LOOP rom1, rom2` (R152). -/
def execWriteLoop (rom1 rom2 : List Byte) (s : State) : Host.Outcome State Fault Refusal :=
  s.operate true (imageLengthOk half rom1 && imageLengthOk half rom2) .inputValidation fun s =>
    s.runPhases false (writeLoopPhases rom1 rom2 ++ [.doneCount])

/-- The chunk loop of the verifier, with `rest` the image bytes from `VOFF` on (R156). `n` bounds the
chunks; it stops at the first chunk that differs. -/
def State.verifyChunks : Nat → List Byte → State → State
  | 0, _, s => s
  | n + 1, rest, s =>
    if rest.isEmpty then s
    else
      let k := min vChunk rest.length
      let r := s.memRead (verifyAddr s.voff.toNat) k
      if r.1 = rest.take k then
        let voff := r.2.voff + BitVec.ofNat 23 k
        State.verifyChunks n (rest.drop k) ({ r.2 with voff := voff }.notify voff.toNat)
      else r.2

/-- The result of `VERIFY_ROM`: the offset reached, and whether it is the whole image. -/
def State.verifyResult (s : State) (len : Nat) : State :=
  if s.voff.toNat = len then s.succeed (s.voff.setWidth 24)
  else s.raise .verifyMismatch (s.voff.setWidth 24)

/-- `VERIFY_ROM buf` (R156). -/
def execVerifyRom (buf : List Byte) (s : State) : Host.Outcome State Fault Refusal :=
  s.operate false (decide (buf.length ≤ maxRom)) .inputValidation fun s =>
    (State.verifyChunks (buf.length / vChunk + 1) buf { s with voff := 0 }).verifyResult buf.length

end Sys2Proof.Machine
end

