-- ==== Sys2Proof/Machine/CommandEncoder.lean ====
section
/-! DEFINITION. The Command Encoder family (spec/40_command_encoder.md). -/

namespace Sys2Proof.Machine

open Sys2Proof

/-- `UNLOCK_AND_GLOBAL cmd` (R125). Any command byte is sent, "uninterpreted" (R108; log 11). -/
def execUnlockAndGlobal (cmd : Byte) (s : State) : Host.Outcome State Fault Refusal :=
  s.operate false true .badOperand fun s =>
    (s.memWrites (unlockGlobalWrites s.cfg cmd)).succeed 0

/-- `UNLOCK_AND_LOCAL addr, cmd` (R126). -/
def execUnlockAndLocal (addr : Addr) (cmd : Byte) (s : State) : Host.Outcome State Fault Refusal :=
  s.operate false true .badOperand fun s =>
    (s.memWrites (unlockLocalWrites s.cfg addr cmd)).succeed 0

/-- `READ_RESET` (R127). -/
def execReadReset (s : State) : Host.Outcome State Fault Refusal :=
  s.operate false true .badOperand fun s => s.readReset.succeed 0

/-- `SHOW_HIDDEN` (R128). -/
def execShowHidden (s : State) : Host.Outcome State Fault Refusal :=
  s.operate false true .badOperand fun s =>
    s.runPhases false (rawPhases s.cfg.showSeq ++ [.done])

/-- `HIDE` (R129). -/
def execHide (s : State) : Host.Outcome State Fault Refusal :=
  s.operate false true .badOperand fun s =>
    s.runPhases false (rawPhases s.cfg.hideSeq ++ [.done])

/-- `CHIP_ERASE` (R130). -/
def execChipErase (s : State) : Host.Outcome State Fault Refusal :=
  s.operate true true .badOperand fun s => s.runPhases false (chipErasePhases ++ [.done])

/-- `HIDDEN_ERASE` (R131). -/
def execHiddenErase (s : State) : Host.Outcome State Fault Refusal :=
  s.operate true true .badOperand fun s => s.runPhases false (hiddenErasePhases ++ [.done])

/-- `PAGE_WRITE addr, page` (R132, R120). -/
def execPageWrite (addr : Addr) (page : List Byte) (s : State) :
    Host.Outcome State Fault Refusal :=
  s.operate true (pageOperandsOk addr page) .badOperand fun s =>
    (s.sendPage cmdProgram addr page).succeed 0

/-- `HIDDEN_WRITE addr, page` (R133, R120). -/
def execHiddenWrite (addr : Addr) (page : List Byte) (s : State) :
    Host.Outcome State Fault Refusal :=
  s.operate true (pageOperandsOk addr page) .badOperand fun s =>
    s.runPhases false (hiddenWritePhases addr page ++ [.doneErr (chipOf (bankBase addr))])

/-- `STATUS_STEP chip` (R122). -/
def execStatusStep (chip : Chip) (s : State) : Host.Outcome State Fault Refusal :=
  s.operate false true .badOperand fun s =>
    let r := s.look chip
    r.2.succeed r.1.code

/-- `WAIT_READY addr` (R123). -/
def execWaitReady (addr : Addr) (s : State) : Host.Outcome State Fault Refusal :=
  s.operate false true .badOperand fun s =>
    s.runPhases false (waitPhases addr ++ [.doneStatus (chipOf addr)])

end Sys2Proof.Machine
end

