-- ==== Sys2Proof/Machine/Directory.lean ====
section
/-! DEFINITION. The Directory Catalog Reader family (spec/43_directory.md). -/

namespace Sys2Proof.Machine

open Sys2Proof

/-- `DIR_PRESENT` (R182). -/
def execDirPresent (s : State) : Host.Outcome State Fault Refusal :=
  s.operate false true .badOperand fun s =>
    let r := s.memRead s.cfg.sigAddr 16
    r.2.succeed (flagRes (r.1 == sig))

/-- `DIR_OPEN` (R183). -/
def execDirOpen (s : State) : Host.Outcome State Fault Refusal :=
  s.operate false true .badOperand fun s =>
    { s with slot := 0, dend := false }.succeed 0

/-- Byte `i` of a record. -/
def recByte (d : List Byte) (i : Nat) : Byte := d.getD i 0

/-- `flash_blocks = (d[4] << 6) | (d[3] >> 2)`: the pair shifted right by 2 (R187). -/
def flashBlocks (lo hi : Byte) : BitVec 14 := (hi ++ lo).extractLsb' 2 14

/-- `sram_blocks = (d[6] << 4) | (d[5] >> 4)`: the pair shifted right by 4 (R187). -/
def sramBlocks (lo hi : Byte) : BitVec 12 := (hi ++ lo).extractLsb' 4 12

/-- A text field without its trailing NUL bytes (R188). -/
def stripNul : List Byte → List Byte
  | [] => []
  | b :: bs =>
    let r := stripNul bs
    if b = 0 ∧ r = [] then [] else b :: r

/-- A text field of a record: the slice, stripped (R188). -/
def textField (d : List Byte) (f : Field) : List Byte := stripNul ((d.drop f.off).take f.width)

/-- The decoded entry of a record (R186). -/
def decodeEntry (cfg : Config) (d : List Byte) : Entry where
  index := recByte d 0
  firstFlashBlock := recByte d 1
  firstSramBlock := recByte d 2
  flashBlocks := flashBlocks (recByte d 3) (recByte d 4)
  sramBlocks := sramBlocks (recByte d 5) (recByte d 6)
  gameCode := textField d cfg.fCode
  title := textField d cfg.fTitle
  date := textField d cfg.fDate
  time := textField d cfg.fTime
  law := textField d cfg.fLaw

/-- A record that is not the sentinel: its entry, and on to the next slot (R184). -/
def State.takeEntry (s : State) : State :=
  let slot := s.slot + 1
  { s with
    ent := decodeEntry s.cfg s.rbuf
    slot := slot
    dend := s.dend || slot == 8 }.succeed 1

/-- `DIR_NEXT` (R184). -/
def execDirNext (s : State) : Host.Outcome State Fault Refusal :=
  s.operate false true .badOperand fun s =>
    if s.dend then s.succeed 0
    else
      let r := s.memRead (slotAddr s.cfg s.slot.toNat) dirRecLen
      let s1 := { r.2 with rbuf := r.1 }
      if recByte s1.rbuf 0 = dirSentinel then { s1 with dend := true }.succeed 0
      else s1.takeEntry

end Sys2Proof.Machine
end

