-- ==== Sys2Proof/Machine/HiddenSector.lean ====
section
/-! DEFINITION. The Hidden-Sector (Map) Programmer family (spec/42_hidden_sector.md). -/

namespace Sys2Proof.Machine

open Sys2Proof

/-- One hidden page of the map: `ERR <- ERR | HIDDEN_WRITE` (R171). -/
def mapPagePhases (map : List Byte) (k : Fin 4) : List Phase :=
  hiddenWritePhases (hiddenPage k) (mapPage map k) ++ [.orErr (chipOf (bankBase (hiddenPage k)))]

/-- `WRITE_MAP map` (R171). -/
def execWriteMap (map : List Byte) (s : State) : Host.Outcome State Fault Refusal :=
  s.operate true (map.length == mapLen) .inputValidation fun s =>
    s.runPhases true (.clearErr :: hiddenErasePhases ++
      (mapPagePhases map 0 ++ mapPagePhases map 1 ++ mapPagePhases map 2 ++ mapPagePhases map 3) ++
      [.unlockGlobal cmdReset, .doneMap])

/-- `VERIFY_MAP map` (R172). -/
def execVerifyMap (map : List Byte) (s : State) : Host.Outcome State Fault Refusal :=
  s.operate false (map.length == mapLen) .inputValidation fun s =>
    s.runPhases true (rawPhases s.cfg.showSeq ++ [.mapReadBack map])

end Sys2Proof.Machine
end

