-- ==== Sys2Proof/Machine/Session.lean ====
section
/-! DEFINITION. The adjacent family: Device Session, write-protect, SRAM Programmer
(spec/44_session_sram.md). -/

namespace Sys2Proof.Machine

open Sys2Proof

/-- One wake step: a write, or a read whose answer is discarded (R202). -/
def State.wakeStep (s : State) : WakeStep → State
  | .write addr value => s.memWrite addr [value]
  | .read addr => (s.memRead addr 1).2

/-- The wake steps in order. -/
def State.wake : State → List WakeStep → State
  | s, [] => s
  | s, x :: xs => State.wake (s.wakeStep x) xs

/-- The device is awake: the addressing-mode write and `READ_RESET` (R201, R203). -/
def State.establish (s : State) : State :=
  let s1 := { s with sess := .awake }
  (s1.memWrite s1.cfg.modeAddr [s1.cfg.modeValue]).readReset.succeed 0

/-- `SESSION_OPEN` (R201). -/
def execSessionOpen (s : State) : Host.Outcome State Fault Refusal :=
  s.accept fun s =>
    let r := { s with sess := .closed, wpr := false }.readByte devReg0
    if r.1 = devAwake then r.2.establish
    else if r.1 = devAsleep then (r.2.wake r.2.cfg.wakeSeq).establish
    else r.2.raise .deviceNotDetected (r.1.setWidth 24)

/-- `WP_RELEASE` (R204). -/
def execWpRelease (s : State) : Host.Outcome State Fault Refusal :=
  s.operate false true .badOperand fun s =>
    { s.memWrite devReg0 [wpRel] with wpr := true }.succeed 0

/-- `WP_ASSERT` (R205). -/
def execWpAssert (s : State) : Host.Outcome State Fault Refusal :=
  s.operate false true .badOperand fun s =>
    { s.memWrite devReg0 [wpSet] with wpr := false }.succeed 0

/-- `SESSION_CLOSE` (R206): it makes no check and cannot fail. -/
def execSessionClose (s : State) : Host.Outcome State Fault Refusal :=
  s.accept fun s =>
    let s1 := if s.sess = .awake then s.readReset.memWrite devReg0 [wpSet] else s
    { s1 with wpr := false, sess := .closed }.succeed 0

/-- `SRAM_WRITE buf` (R209). -/
def execSramWrite (buf : List Byte) (s : State) : Host.Outcome State Fault Refusal :=
  s.operate true (decide (buf.length ≤ sramMax)) .inputValidation fun s =>
    (s.memWrites (sramWrites s.cfg.sramAddr buf)).succeed (BitVec.ofNat 24 buf.length)

/-- Read the SRAM segments in full, in order, and concatenate (R210). -/
def State.readSegments : State → List Addr → List Byte × State
  | s, [] => ([], s)
  | s, a :: as =>
    let r := s.memRead a sramSeg
    let rs := State.readSegments r.2 as
    (r.1 ++ rs.1, rs.2)

/-- `SRAM_VERIFY buf` (R210). -/
def execSramVerify (buf : List Byte) (s : State) : Host.Outcome State Fault Refusal :=
  s.operate false (decide (buf.length ≤ sramMax)) .inputValidation fun s =>
    let r := s.readSegments s.cfg.sramAddr
    if r.1.take buf.length = buf then r.2.succeed 1 else r.2.raise .verifyMismatch 0

end Sys2Proof.Machine
end

