-- ==== Sys2Proof/Machine/Dispatch.lean ====
section
/-! DEFINITION. One arm per operation: its meaning. -/

namespace Sys2Proof.Machine

open Sys2Proof

def exec (i : Instr) (s : State) : Host.Outcome State Fault Refusal :=
  match i with
  | .unlockAndGlobal cmd => Sys2Proof.Machine.execUnlockAndGlobal cmd s
  | .unlockAndLocal addr cmd => Sys2Proof.Machine.execUnlockAndLocal addr cmd s
  | .readReset => Sys2Proof.Machine.execReadReset s
  | .showHidden => Sys2Proof.Machine.execShowHidden s
  | .hide => Sys2Proof.Machine.execHide s
  | .chipErase => Sys2Proof.Machine.execChipErase s
  | .hiddenErase => Sys2Proof.Machine.execHiddenErase s
  | .pageWrite addr page => Sys2Proof.Machine.execPageWrite addr page s
  | .hiddenWrite addr page => Sys2Proof.Machine.execHiddenWrite addr page s
  | .statusStep chip => Sys2Proof.Machine.execStatusStep chip s
  | .waitReady addr => Sys2Proof.Machine.execWaitReady addr s
  | .writeRom buf => Sys2Proof.Machine.execWriteRom buf s
  | .writeLoop rom1 rom2 => Sys2Proof.Machine.execWriteLoop rom1 rom2 s
  | .verifyRom buf => Sys2Proof.Machine.execVerifyRom buf s
  | .writeMap map => Sys2Proof.Machine.execWriteMap map s
  | .verifyMap map => Sys2Proof.Machine.execVerifyMap map s
  | .dirPresent => Sys2Proof.Machine.execDirPresent s
  | .dirOpen => Sys2Proof.Machine.execDirOpen s
  | .dirNext => Sys2Proof.Machine.execDirNext s
  | .sessionOpen => Sys2Proof.Machine.execSessionOpen s
  | .wpRelease => Sys2Proof.Machine.execWpRelease s
  | .wpAssert => Sys2Proof.Machine.execWpAssert s
  | .sessionClose => Sys2Proof.Machine.execSessionClose s
  | .sramWrite buf => Sys2Proof.Machine.execSramWrite buf s
  | .sramVerify buf => Sys2Proof.Machine.execSramVerify buf s

end Sys2Proof.Machine
end

