-- ==== Sys2Proof/Machine/Step.lean ====
section
/-! DEFINITION. One step of the machine (spec/10_state.md R25, R26): the operation in progress goes on,
or the next command of the host is taken, decoded and run. -/

namespace Sys2Proof.Machine

open Sys2Proof

/-- One step. In IDLE with nothing issued the machine stays as it is (log 4). An illegal `op` is refused
`IllegalCommand` (spec/30_encoding.md R106). -/
def step (s : State) : Host.Outcome State Fault Refusal :=
  match s.seq with
  | .running _ _ _ => .next s.resume
  | .idle =>
    match s.take with
    | none => .next s
    | some (r, s1) =>
      match decode r with
      | .ok i => exec i s1
      | .error _ => .next (s1.refuse .illegalCommand)

/-- The command record of an opcode-table word, presented as the next the idle engine takes (log 1). -/
def State.withFetchWord (s : State) (nbits w : Nat) : State :=
  { s with seq := .idle, inbox := Command.ofWord nbits w :: s.inbox }

end Sys2Proof.Machine
end

