-- ==== Sys2Proof/Safety.lean ====
section
/-! DEFINITION. The terms in which claims about a run are made: when an operation is accepted, the
legal values of the registers, an environment of which everything the contract needs is known, and how
an operation that waits is driven to its end. -/

namespace Sys2Proof.Machine

open Sys2Proof

/-! ### Acceptance (spec/10_state.md R25, R32, R33) -/

/-- An idle engine, with well-formed parameters. -/
def State.Idle (s : State) : Prop := s.seq = .idle ∧ s.cfg.wf = true

/-- … with no session open. -/
def State.Closed (s : State) : Prop := s.Idle ∧ s.sess = .closed

/-- … or with one. -/
def State.Ready (s : State) : Prop := s.Idle ∧ s.sess = .awake

/-- An open session in which nothing has been released. -/
def State.Guarded (s : State) : Prop := s.Ready ∧ s.wpr = false

/-- An open session with write-protect released. -/
def State.Released (s : State) : Prop := s.Ready ∧ s.wpr = true

/-- What a refusal, or a failure before any bus event, leaves: `RC`, and `RES <- 0`. -/
def State.stopped (s : State) (code : BitVec 8) : State := { s with rc := code, res := 0 }

/-- The operations that refuse `WriteProtected` (spec/60_exceptions.md R221). -/
def needsRelease : Instr → Bool
  | .chipErase => true
  | .hiddenErase => true
  | .pageWrite _ _ => true
  | .hiddenWrite _ _ => true
  | .writeRom _ => true
  | .writeLoop _ _ => true
  | .writeMap _ => true
  | .sramWrite _ => true
  | .unlockAndGlobal _ => false
  | .unlockAndLocal _ _ => false
  | .readReset => false
  | .showHidden => false
  | .hide => false
  | .statusStep _ => false
  | .waitReady _ => false
  | .verifyRom _ => false
  | .verifyMap _ => false
  | .dirPresent => false
  | .dirOpen => false
  | .dirNext => false
  | .sessionOpen => false
  | .wpRelease => false
  | .wpAssert => false
  | .sessionClose => false
  | .sramVerify _ => false

/-- The two operations that make no check (spec/60_exceptions.md R225). -/
def makesNoCheck : Instr → Bool
  | .sessionOpen => true
  | .sessionClose => true
  | _ => false

/-- The result code of ill-formed operands (spec/60_exceptions.md R221). -/
def operandCode : Instr → BitVec 8
  | .pageWrite _ _ => 0x12#8
  | .hiddenWrite _ _ => 0x12#8
  | _ => 0x04#8

/-! ### Bus events, spelled out (spec/30_encoding.md R91 to R96) -/

/-- The environment after writes, in order. -/
def Env.after (cfg : Config) (e : Env) (ws : List BusWrite) : Env :=
  ws.foldl (fun e w => e.write cfg w.1 w.2) e

/-- The events of writes. -/
def wrote (ws : List BusWrite) : List Event := ws.map fun w => .write w.1 w.2

/-- The state after writes that touch nothing but the bus. -/
def State.afterWrites (s : State) (ws : List BusWrite) : State :=
  { s with env := s.env.after s.cfg ws, trace := s.trace ++ wrote ws }

/-- The six events of a global UNLOCK3 (R92). -/
def globalUnlock (cfg : Config) (cmd : Byte) : List BusWrite :=
  let o1 := cfg.unlockOff1.setWidth 24
  let o2 := cfg.unlockOff2.setWidth 24
  [(0xC00000#24 + o1, [0xAA#8]), (0xE00000#24 + o1, [0xAA#8]),
   (0xC00000#24 + o2, [0x55#8]), (0xE00000#24 + o2, [0x55#8]),
   (0xC00000#24 + o1, [cmd]), (0xE00000#24 + o1, [cmd])]

/-- The three events of a local UNLOCK3 (R93). -/
def localUnlock (cfg : Config) (addr : Addr) (cmd : Byte) : List BusWrite :=
  let bank := addr &&& 0xFF0000#24
  [(bank + cfg.unlockOff1.setWidth 24, [0xAA#8]), (bank + cfg.unlockOff2.setWidth 24, [0x55#8]),
   (bank + cfg.unlockOff1.setWidth 24, [cmd])]

/-- A show or hide sequence (R95). -/
def rawEvents (cfg : Config) (bytes : List Byte) : List BusWrite :=
  bytes.flatMap fun b =>
    [(0xC00000#24 + cfg.hiddenCmdOff.setWidth 24, [b]),
     (0xE00000#24 + cfg.hiddenCmdOff.setWidth 24, [b])]

/-- The five events of a page write (R93, R96). -/
def pageEvents (cfg : Config) (cmd : Byte) (addr : Addr) (page : List Byte) : List BusWrite :=
  localUnlock cfg addr cmd ++ [(addr, page), (addr + 0x7F#24, [page.getD 127 0])]

/-- What an operation that then waits for both chips sends first (spec/40_command_encoder.md R128 to
R131; spec/41_bulk_writer_verifier.md R151; spec/42_hidden_sector.md R172); nothing of any other, nor of
`WRITE_MAP`, whose waits are `mapWaits`. -/
def globalWrites (cfg : Config) : Instr → List BusWrite
  | .showHidden => rawEvents cfg cfg.showSeq
  | .hide => rawEvents cfg cfg.hideSeq
  | .chipErase => globalUnlock cfg 0x80#8 ++ globalUnlock cfg 0x10#8
  | .hiddenErase => globalUnlock cfg 0x77#8 ++ globalUnlock cfg 0xE0#8
  | .verifyMap _ => rawEvents cfg cfg.showSeq
  | .writeRom _ => globalUnlock cfg 0x80#8 ++ globalUnlock cfg 0x10#8
  | _ => []

/-- The four global commands that wait for both chips (spec/40_command_encoder.md R128 to R131). -/
def waitsForBoth : Instr → Bool
  | .showHidden => true
  | .hide => true
  | .chipErase => true
  | .hiddenErase => true
  | _ => false

/-- The operations whose first writes are followed by a wait for both chips: those four, and two of the
composites. -/
def waitsFirst : Instr → Bool
  | .verifyMap _ => true
  | .writeRom _ => true
  | i => waitsForBoth i

/-- What such an operation sends when one of those waits fails: a composite, `READ_RESET`
(spec/60_exceptions.md R224). -/
def cleanupWrites (cfg : Config) (i : Instr) : List BusWrite :=
  if waitsForBoth i then [] else globalUnlock cfg 0xF0#8

/-- `n` one-byte reads at `addr`. -/
def Env.polls (cfg : Config) (addr : Addr) : Nat → Env → List Byte × Env
  | 0, e => ([], e)
  | n + 1, e =>
    let r := e.read cfg addr 1
    let rs := Env.polls cfg addr n r.2
    (r.1.headD 0 :: rs.1, rs.2)

/-- The events of one-byte reads at `addr`. -/
def polled (addr : Addr) (bs : List Byte) : List Event := bs.map fun b => .read addr [b]

/-- Of the answers `bs`, the last is the first that is ready. -/
def EndsReady (bs : List Byte) : Prop :=
  ∃ busy last, bs = busy ++ [last] ∧ (∀ b ∈ busy, isReady b = false) ∧ isReady last = true

/-- A wait may make `n` busy reads before a ready one without reaching `POLL_LIMIT`. -/
def allowsBusy (cfg : Config) (n : Nat) : Prop := ∀ limit, cfg.pollLimit = some limit → n < limit

/-! ### Driving an operation that waits -/

/-- At most `n` further steps of the operation in progress. -/
def State.drive : Nat → State → State
  | 0, s => s
  | n + 1, s => State.drive n s.resume

/-- `i` is issued in `s` and runs for at most `n` further steps, to `t`. -/
def State.Runs (s : State) (i : Instr) (n : Nat) (t : State) : Prop :=
  ∃ t0, exec i s = .next t0 ∧ t0.drive n = t

/-- … and has ended. -/
def State.Ends (s : State) (i : Instr) (n : Nat) (t : State) : Prop := s.Runs i n t ∧ t.seq = .idle

/-- `t` is still in an operation issued in `s`, which has written neither its result nor write-protect. -/
def State.Held (s t : State) : Prop :=
  t.seq ≠ .idle ∧ t.rc = s.rc ∧ t.res = s.res ∧ t.wpr = s.wpr

/-! ### The environment -/

/-- A page operand that lies in chip `c`'s window. -/
def pageIn (c : Chip) (addr : Addr) (page : List Byte) : Bool :=
  inFlash addr.toNat && chipOf addr == c && pageOperandsOk addr page

/-- … and, sent with the hidden program command, is one of the chip's two hidden pages
(spec/42_hidden_sector.md R170). -/
def blockIn (c : Chip) (cmd : Byte) (addr : Addr) (page : List Byte) : Bool :=
  pageIn c addr page && pageTarget c cmd addr

/-- The pages a chip has heard of are its own. -/
def ChipOp.placed (c : Chip) : ChipOp → Bool
  | .none => true
  | .erase => true
  | .hiddenErase => true
  | .program addr page => pageIn c addr page
  | .hiddenProgram addr page => blockIn c cmdHProgram addr page
  | .showing => true
  | .hiding => true

/-- Likewise for a block that has been received. -/
def Latch.placed (c : Chip) : Latch → Bool
  | .idle => true
  | .armed _ => true
  | .key1 _ _ => true
  | .key2 _ _ => true
  | .program _ _ => true
  | .loaded cmd addr page => blockIn c cmd addr page
  | .raw _ => true

/-- A hidden sector: canonical, and no byte beyond its 256 (spec/20_memory.md R70). -/
def hiddenWf (m : Memory) : Bool := m.wf && m.within hidRead

/-- The hidden sector of chip `c` is one, and every page it has heard of is its own. -/
def ChipState.placed (c : Chip) (st : ChipState) : Bool :=
  hiddenWf st.hid && st.op.placed c && st.latch.placed c

/-- The memories are canonical and in their bounds, and every page a chip has heard of is its own. -/
def Env.wf (e : Env) : Bool := e.mem.wf && (e.chip.a.placed .a && e.chip.b.placed .b)

/-- A chip with no operation in flight and no command sequence half received, whose behaviour the
contract specifies. -/
def ChipState.quiet (st : ChipState) : Prop := st.mode ≠ .lost ∧ st.op = .none ∧ st.latch = .idle

/-- The environment contract applies (spec/20_memory.md R70 to R79): the device is awake in its
addressing mode with write-protect released, and both chips are quiet. -/
def Env.Contract (e : Env) : Prop :=
  e.dev.mapped = true ∧ e.dev.protect = .released ∧ e.chip.a.quiet ∧ e.chip.b.quiet

/-- The last byte of a block that chip `c` waits for is not the one a reset sequence begins with. -/
def Latch.keyApart (cfg : Config) (c : Chip) : Latch → Prop
  | .loaded _ addr page =>
    lastAddr addr = base c + cfg.unlockOff1.setWidth 24 → page.getD 127 0 ≠ 0xAA#8
  | _ => True

/-- A reset sequence finds chip `c` with no operation in flight (spec/20_memory.md R76) and its behaviour
specified, or unspecified only until the end of the sequence that a reset has begun. What it has received
of a command may be anything. -/
def ChipState.resettable (cfg : Config) (c : Chip) (st : ChipState) : Prop :=
  (st.mode ≠ .lost ∨ st.latch.resetting = true) ∧ st.op = .none ∧ st.latch.keyApart cfg c

/-- The unconstrained environment (spec/00_scope.md R10): the device is not known to be awake, so no
address is known to mean anything and every read of the flash window is answered by draws; the next
ones are `answers`. -/
def Env.Answers (e : Env) (answers rest : List Byte) : Prop :=
  e.dev.sleep ≠ .awake ∧ e.draws = answers ++ rest

/-- The bus addresses of chip `c`'s array an operation may store at when it ends, well or not. -/
def ChipOp.storesAt (c : Chip) (a : Nat) : ChipOp → Bool
  | .erase => decide ((base c).toNat ≤ a) && decide (a < (base c).toNat + half)
  | .program addr page =>
    decide (addr.toNat ≤ a) && decide (a < addr.toNat + max pageSize page.length)
  | _ => false

/-- The offsets of a hidden sector an operation may store at when it ends, well or not. -/
def ChipOp.hiddenStoresAt (o : Nat) : ChipOp → Bool
  | .hiddenErase => true
  | .hiddenProgram addr page =>
    decide (chipOff addr.toNat - hidOff ≤ o) &&
      decide (o < chipOff addr.toNat - hidOff + max pageSize page.length)
  | _ => false

/-- The operation in flight on chip `c` may store at `a`. -/
def Env.inFlightAt (e : Env) (c : Chip) (a : Nat) : Bool := (e.chip.get c).op.storesAt c a

/-- … or in its hidden sector at `o`. -/
def Env.hiddenInFlightAt (e : Env) (c : Chip) (o : Nat) : Bool := (e.chip.get c).op.hiddenStoresAt o

/-- An operation in flight on chip `c`, or a block it has received, may yet be stored at `a`. -/
def Env.pendingAt (e : Env) (c : Chip) (a : Nat) : Bool :=
  e.inFlightAt c a || (e.chip.get c).latch.awaited.storesAt c a

/-- … or in its hidden sector at `o`. -/
def Env.hiddenPendingAt (e : Env) (c : Chip) (o : Nat) : Bool :=
  e.hiddenInFlightAt c o || (e.chip.get c).latch.awaited.hiddenStoresAt o

/-- A byte of chip `c`'s array at its offset `o` (spec/20_memory.md R71). -/
def Env.arrayAt (e : Env) (c : Chip) (o : Nat) : Byte := e.arrayByte c ((base c).toNat + o)

/-- No byte differs between `e` and `e'` but at the bus addresses `bus` and at the offsets `hidden` of the
hidden sectors: not in memory, not in the arrays as they read, not in the hidden sectors. -/
structure Env.SameOutside (e e' : Env) (bus : Nat → Prop) (hidden : Chip → Nat → Prop) : Prop where
  mem : ∀ a, ¬bus a → e'.mem.read a = e.mem.read a
  array : ∀ c o, o < half → ¬bus ((base c).toNat + o) → e'.arrayAt c o = e.arrayAt c o
  hid : ∀ c o, ¬hidden c o → (e'.chip.get c).hid.read o = (e.chip.get c).hid.read o

/-! ### Legal registers -/

/-- The three modes of spec/60_exceptions.md R229; an operation in progress is in an open session. -/
def State.ModesLegal (s : State) : Prop :=
  (s.sess = .closed → s.wpr = false) ∧ (s.seq ≠ .idle → s.sess = .awake)

/-- The directory iterator (spec/10_state.md R23, R30; spec/43_directory.md R184). -/
def State.DirectoryLegal (s : State) : Prop :=
  s.slot.toNat ≤ dirSlots ∧ (s.slot.toNat = dirSlots → s.dend = true)

/-- The result codes (spec/60_exceptions.md R221). -/
def legalCodes : List (BitVec 8) :=
  [0x00#8, 0x01#8, 0x02#8, 0x03#8, 0x04#8, 0x05#8, 0x10#8, 0x11#8, 0x12#8, 0x13#8]

/-- One stream of the writer loop (spec/10_state.md R24; spec/41_bulk_writer_verifier.md R153, R154). -/
def streamLegal (cur len : BitVec 22) (busy abort : Bool) : Prop :=
  cur.toNat % pageSize = 0 ∧ len.toNat % pageSize = 0 ∧ cur.toNat ≤ len.toNat ∧ len.toNat ≤ half ∧
    (busy = true → cur.toNat < len.toNat ∧ abort = false)

/-- Two streams `WRITE_LOOP` takes (spec/41_bulk_writer_verifier.md R150). -/
def streamsOk (rom1 rom2 : List Byte) : Bool := imageLengthOk half rom1 && imageLengthOk half rom2

/-- The phases still to run carry legal operands, and a loop follows its own initialisation. -/
def phasesLegal : List Phase → Bool
  | [] => true
  | .wlInit rom1 rom2 :: .wl .a rom1' rom2' :: rest =>
    streamsOk rom1 rom2 && rom1 == rom1' && rom2 == rom2' && phasesLegal rest
  | .wlInit _ _ :: _ => false
  | .wl _ _ _ :: _ => false
  | .page _ addr page :: rest => pageOperandsOk addr page && phasesLegal rest
  | _ :: rest => phasesLegal rest

/-- A suspended operation is one of the spec's: at the head of a running loop, `LEN` is its streams'
lengths. -/
def State.SeqLegal (s : State) : Prop :=
  match s.seq with
  | .idle => True
  | .running _ (.wl _ rom1 rom2) rest =>
    streamsOk rom1 rom2 = true ∧ s.len.a.toNat = rom1.length ∧ s.len.b.toNat = rom2.length ∧
      phasesLegal rest = true
  | .running _ now rest => phasesLegal (now :: rest) = true

/-- The working registers in their ranges (spec/10_state.md R23, R24, R38, R39). -/
def State.WorkLegal (s : State) : Prop :=
  streamLegal s.cur.a s.len.a s.busy.a s.abort.a ∧ streamLegal s.cur.b s.len.b s.busy.b s.abort.b ∧
    s.voff.toNat ≤ maxRom ∧ s.pbuf.length = pageSize ∧ s.rbuf.length = dirRecLen ∧ s.SeqLegal

/-! ### Runs of operations -/

/-- The state after an operation that answers a next state. -/
def State.run (s : State) (i : Instr) : State :=
  match exec i s with
  | .next t => t
  | .fault _ => s
  | .refused _ => s

/-- `n` times `DIR_NEXT`. -/
def State.dirNexts : Nat → State → State
  | 0, s => s
  | n + 1, s => (State.dirNexts n s).run .dirNext

/-- One wake step on the bus (spec/44_session_sram.md R202). -/
def State.access (s : State) : WakeStep → State
  | .write addr value => s.afterWrites [(addr, [value])]
  | .read addr =>
    let r := s.env.read s.cfg addr 1
    { s with env := r.2, trace := s.trace ++ [.read addr r.1] }

/-- The 25 opcodes of spec/30_encoding.md R101. -/
def opcodes : List (BitVec 8) :=
  [0x01#8, 0x02#8, 0x03#8, 0x04#8, 0x05#8, 0x06#8, 0x07#8, 0x08#8, 0x09#8, 0x0A#8, 0x0B#8] ++
  [0x10#8, 0x11#8, 0x12#8, 0x18#8, 0x19#8, 0x20#8, 0x21#8, 0x22#8] ++
  [0x30#8, 0x31#8, 0x32#8, 0x33#8, 0x38#8, 0x39#8]

/-! ### The writer loop and the verifier, spelled out -/

/-- Page `j` of a stream, and its address (spec/30_encoding.md R103). -/
def streamPage (cfg : Config) (c : Chip) (rom : List Byte) (j : Nat) : List Event :=
  wrote (pageEvents cfg 0xA0#8 (base c + BitVec.ofNat 24 (j * 128)) ((rom.drop (j * 128)).take 128))

/-- Iterations `2j + 1` and `2j + 2` of the loop when every look finds its chip ready
(spec/41_bulk_writer_verifier.md R152): the pages `j`, then the two looks. -/
def loopRound (cfg : Config) (rom1 rom2 : List Byte) (ansA ansB : Nat → Byte) (j : Nat) :
    List Event :=
  (if j * 128 < rom1.length then streamPage cfg .a rom1 j else []) ++
  (if j * 128 < rom2.length then streamPage cfg .b rom2 j else []) ++
  (if j * 128 < rom1.length then [.read 0xC00000#24 [ansA j]] else []) ++
  (if j * 128 < rom2.length then [.read 0xE00000#24 [ansB j]] else [])

/-- The answers to the looks of a round. -/
def roundAnswers (rom1 rom2 : List Byte) (ansA ansB : Nat → Byte) (j : Nat) : List Byte :=
  (if j * 128 < rom1.length then [ansA j] else []) ++
  (if j * 128 < rom2.length then [ansB j] else [])

/-- The rounds it takes to send both streams. -/
def rounds (rom1 rom2 : List Byte) : List Nat :=
  List.range (max (rom1.length / 128) (rom2.length / 128))

/-- An event addressed to chip `c`. -/
def Event.reaches (c : Chip) : Event → Bool
  | .write addr _ => inFlash addr.toNat && chipOf addr == c
  | .read addr _ => inFlash addr.toNat && chipOf addr == c

/-- One page outstanding (spec/70_reset_and_hazards.md R260), over the events addressed to chip `c`:
`n` writes of a page have been sent; after the fifth, only status reads at `base(c)` are, until one
answers ready. -/
def onePageOutstanding (c : Chip) : Nat → List Event → Bool
  | _, [] => true
  | n, .write _ _ :: es => decide (n < 5) && onePageOutstanding c (n + 1) es
  | n, .read addr bs :: es =>
    n == 5 && addr == base c && onePageOutstanding c (if isReady (bs.headD 0) then 0 else 5) es

/-- The ready status bytes among one-byte reads, in order. -/
def readyBytes (es : List Event) : List Byte :=
  es.filterMap fun e =>
    match e with
    | .read _ [b] => if isReady b then some b else none
    | .read _ _ => none
    | .write _ _ => none

/-- The first ready status byte of chip `c` among the events, if any, has its error flag clear. -/
def FirstReadyIsGood (c : Chip) (es : List Event) : Prop :=
  ∀ b, (readyBytes (es.filter (Event.reaches c))).head? = some b → isError b = false

/-- Chunk `j` of an image of `len` bytes: its address and its length (spec/41 R156). -/
def chunkAddr (j : Nat) : Addr := 0xC00000#24 + BitVec.ofNat 24 (j * 0x10000)

/-- … -/
def chunkLen (len j : Nat) : Nat := min 0x10000 (len - j * 0x10000)

/-- The chunks of an image. -/
def chunkCount (len : Nat) : Nat := (len + 0xFFFF) / 0x10000

/-- The answers to the reads of `n` chunks from chunk `j` on. -/
def Env.chunks (cfg : Config) (len : Nat) : Nat → Nat → Env → List (List Byte) × Env
  | _, 0, e => ([], e)
  | j, n + 1, e =>
    let r := e.read cfg (chunkAddr j) (chunkLen len j)
    let rs := Env.chunks cfg len (j + 1) n r.2
    (r.1 :: rs.1, rs.2)

/-- The six waits of `WRITE_MAP`, each with the writes before it (spec/42_hidden_sector.md R171). -/
def mapWaits (cfg : Config) (map : List Byte) : List (List BusWrite × Addr) :=
  [(globalUnlock cfg 0x77#8 ++ globalUnlock cfg 0xE0#8, 0xC00000#24),
   ([], 0xE00000#24),
   (pageEvents cfg 0x99#8 0xC0FF00#24 (map.take 128), 0xC00000#24),
   (pageEvents cfg 0x99#8 0xC0FF80#24 ((map.drop 128).take 128), 0xC00000#24),
   (pageEvents cfg 0x99#8 0xE0FF00#24 ((map.drop 256).take 128), 0xE00000#24),
   (pageEvents cfg 0x99#8 0xE0FF80#24 ((map.drop 384).take 128), 0xE00000#24)]

/-- The events of waits that are answered at once. -/
def waitedEvents (waits : List (List BusWrite × Addr)) (answers : List Byte) : List Event :=
  (waits.zip answers).flatMap fun x => wrote x.1.1 ++ [.read x.1.2 [x.2]]

/-- The 44 events of `WRITE_MAP` when every wait is answered at once (spec/42_hidden_sector.md R171). -/
def mapEvents (cfg : Config) (map : List Byte) (answers : List Byte) : List Event :=
  waitedEvents (mapWaits cfg map) answers ++ wrote (globalUnlock cfg 0xF0#8)

/-! ### Which registers an operation writes (spec/10_state.md R23, R28 to R30, R38, R39) -/

/-- `CUR`, `LEN`, `BUSY`, `ABORT`. -/
def writesStreams : Instr → Bool
  | .writeRom _ => true
  | .writeLoop _ _ => true
  | _ => false

/-- `PBUF`. -/
def writesPage : Instr → Bool
  | .pageWrite _ _ => true
  | .hiddenWrite _ _ => true
  | .writeRom _ => true
  | .writeLoop _ _ => true
  | .writeMap _ => true
  | _ => false

/-- `PCNT`: the operations that contain a wait. -/
def waits : Instr → Bool
  | .showHidden => true
  | .hide => true
  | .chipErase => true
  | .hiddenErase => true
  | .hiddenWrite _ _ => true
  | .waitReady _ => true
  | .writeRom _ => true
  | .writeMap _ => true
  | .verifyMap _ => true
  | _ => false

/-- `ST`: those, and the two that look. -/
def writesStatus : Instr → Bool
  | .statusStep _ => true
  | .writeLoop _ _ => true
  | i => waits i

/-- `ERR`. -/
def writesErr : Instr → Bool
  | .writeMap _ => true
  | _ => false

/-- `VOFF`. -/
def writesVerifyOffset : Instr → Bool
  | .verifyRom _ => true
  | _ => false

/-- `SLOT`, `DEND`. -/
def writesIterator : Instr → Bool
  | .dirOpen => true
  | .dirNext => true
  | _ => false

/-- `ENT`, `RBUF`. -/
def writesEntry : Instr → Bool
  | .dirNext => true
  | _ => false

/-- `SESS`. -/
def writesSession : Instr → Bool
  | .sessionOpen => true
  | .sessionClose => true
  | _ => false

/-- `WPR`. -/
def writesShadow : Instr → Bool
  | .wpRelease => true
  | .wpAssert => true
  | i => writesSession i

/-- The operations that only read: they put no write on the bus. -/
def readsOnly : Instr → Bool
  | .statusStep _ => true
  | .waitReady _ => true
  | .verifyRom _ => true
  | .dirPresent => true
  | .dirOpen => true
  | .dirNext => true
  | .sramVerify _ => true
  | _ => false

/-- The state without what reset leaves unspecified: the working registers and `ENT`
(spec/70_reset_and_hazards.md R251). -/
def State.forget (s : State) : State :=
  { s with
    cur := ⟨0, 0⟩
    len := ⟨0, 0⟩
    voff := 0
    st := ⟨0, 0⟩
    pcnt := 0
    busy := ⟨false, false⟩
    abort := ⟨false, false⟩
    err := false
    pbuf := []
    rbuf := []
    ent := Entry.blank }

/-! ### Parameters under which the round trips hold -/

/-- A chip in array mode can tell a show sequence from its other commands: it is not empty, it is not
sent where an unlock key would be, and no proper part of it is a hide sequence of its own. -/
def showHeard (cfg : Config) : Prop :=
  cfg.showSeq ≠ [] ∧ cfg.hiddenCmdOff.setWidth 16 ≠ cfg.unlockOff1 ∧
    (cfg.hideSeq ≠ [] → cfg.hideSeq <+: cfg.showSeq → cfg.hideSeq = cfg.showSeq)

/-- Likewise a hide sequence, in a chip whose hidden sector is shown. -/
def hideHeard (cfg : Config) : Prop :=
  cfg.hideSeq ≠ [] ∧ cfg.hiddenCmdOff.setWidth 16 ≠ cfg.unlockOff1 ∧
    (cfg.showSeq ≠ [] → cfg.showSeq <+: cfg.hideSeq → cfg.showSeq = cfg.hideSeq)

/-- The SRAM segments lie apart from each other, from the device registers and from the flash. -/
def sramApart (cfg : Config) : Prop :=
  cfg.sramAddr.Pairwise (fun x y => x.toNat + sramSeg ≤ y.toNat ∨ y.toNat + sramSeg ≤ x.toNat) ∧
    ∀ x ∈ cfg.sramAddr, x.toNat + sramSeg ≤ 0xC00000 ∧
      (x.toNat + sramSeg ≤ 0x002400 ∨ 0x002401 < x.toNat)

end Sys2Proof.Machine
end

