-- ==== Sys2Proof/Certificates/Slice0/Obligations.lean ====
section
/-! DEFINITION. The statements for the provers. "s.Runs i n t": operation `i`, issued in `s`, answers a
next state, and `n` further steps of it lead to `t`; "s.Ends i n t": there it has ended. -/

open Sys2Proof Sys2Proof.Machine

/-! ### Records and steps -/

/-- R100, R101: the 25 operations, each with the operands the record gives it; which buffer carries which
operand is in the `operands` of its row of opcode_table.json. -/
def Obligations.OpcodeMap : Prop :=
  ∀ (addr : Addr) (arg : BitVec 23) (b1 b2 : List Byte),
    (decode ⟨0x01, addr, arg, b1, b2⟩ = .ok (.unlockAndGlobal (arg.extractLsb' 0 8)) ∧
     decode ⟨0x02, addr, arg, b1, b2⟩ = .ok (.unlockAndLocal addr (arg.extractLsb' 0 8)) ∧
     decode ⟨0x03, addr, arg, b1, b2⟩ = .ok .readReset ∧
     decode ⟨0x04, addr, arg, b1, b2⟩ = .ok .showHidden ∧
     decode ⟨0x05, addr, arg, b1, b2⟩ = .ok .hide ∧
     decode ⟨0x06, addr, arg, b1, b2⟩ = .ok .chipErase ∧
     decode ⟨0x07, addr, arg, b1, b2⟩ = .ok .hiddenErase ∧
     decode ⟨0x08, addr, arg, b1, b2⟩ = .ok (.pageWrite addr b1) ∧
     decode ⟨0x09, addr, arg, b1, b2⟩ = .ok (.hiddenWrite addr b1) ∧
     decode ⟨0x0A, addr, arg, b1, b2⟩ =
       .ok (.statusStep (if arg.extractLsb' 0 1 = 1#1 then .b else .a)) ∧
     decode ⟨0x0B, addr, arg, b1, b2⟩ = .ok (.waitReady addr)) ∧
    (decode ⟨0x10, addr, arg, b1, b2⟩ = .ok (.writeRom b1) ∧
     decode ⟨0x11, addr, arg, b1, b2⟩ = .ok (.writeLoop b1 b2) ∧
     decode ⟨0x12, addr, arg, b1, b2⟩ = .ok (.verifyRom b1) ∧
     decode ⟨0x18, addr, arg, b1, b2⟩ = .ok (.writeMap b1) ∧
     decode ⟨0x19, addr, arg, b1, b2⟩ = .ok (.verifyMap b1) ∧
     decode ⟨0x20, addr, arg, b1, b2⟩ = .ok .dirPresent ∧
     decode ⟨0x21, addr, arg, b1, b2⟩ = .ok .dirOpen ∧
     decode ⟨0x22, addr, arg, b1, b2⟩ = .ok .dirNext) ∧
    (decode ⟨0x30, addr, arg, b1, b2⟩ = .ok .sessionOpen ∧
     decode ⟨0x31, addr, arg, b1, b2⟩ = .ok .wpRelease ∧
     decode ⟨0x32, addr, arg, b1, b2⟩ = .ok .wpAssert ∧
     decode ⟨0x33, addr, arg, b1, b2⟩ = .ok .sessionClose ∧
     decode ⟨0x38, addr, arg, b1, b2⟩ = .ok (.sramWrite b1) ∧
     decode ⟨0x39, addr, arg, b1, b2⟩ = .ok (.sramVerify b1))

/-- R100, R101: the record of an operation decodes to it, every operand at every value, and an encoded
record's `op` is the decoded record's. -/
def Obligations.EncodedRecordDecodesBack : Prop :=
  (∀ i : Instr, decode (encode i) = .ok i) ∧
  ∀ (r : Command) (i : Instr), decode r = .ok i → (encode i).op = r.op

/-- R105: the 25 words of opcode_table.json, `op` alone, decode to their operations; a word that is on no
row does not. That the operands are then zero and empty is the model's layout (log 2). -/
def Obligations.TableWordsDecode : Prop :=
  (decodeTableWord 8 0x01 = some (.unlockAndGlobal 0) ∧
   decodeTableWord 8 0x02 = some (.unlockAndLocal 0 0) ∧
   decodeTableWord 8 0x03 = some .readReset ∧
   decodeTableWord 8 0x04 = some .showHidden ∧
   decodeTableWord 8 0x05 = some .hide ∧
   decodeTableWord 8 0x06 = some .chipErase ∧
   decodeTableWord 8 0x07 = some .hiddenErase ∧
   decodeTableWord 8 0x08 = some (.pageWrite 0 []) ∧
   decodeTableWord 8 0x09 = some (.hiddenWrite 0 []) ∧
   decodeTableWord 8 0x0A = some (.statusStep .a) ∧
   decodeTableWord 8 0x0B = some (.waitReady 0)) ∧
  (decodeTableWord 8 0x10 = some (.writeRom []) ∧
   decodeTableWord 8 0x11 = some (.writeLoop [] []) ∧
   decodeTableWord 8 0x12 = some (.verifyRom []) ∧
   decodeTableWord 8 0x18 = some (.writeMap []) ∧
   decodeTableWord 8 0x19 = some (.verifyMap []) ∧
   decodeTableWord 8 0x20 = some .dirPresent ∧
   decodeTableWord 8 0x21 = some .dirOpen ∧
   decodeTableWord 8 0x22 = some .dirNext) ∧
  (decodeTableWord 8 0x30 = some .sessionOpen ∧
   decodeTableWord 8 0x31 = some .wpRelease ∧
   decodeTableWord 8 0x32 = some .wpAssert ∧
   decodeTableWord 8 0x33 = some .sessionClose ∧
   decodeTableWord 8 0x38 = some (.sramWrite []) ∧
   decodeTableWord 8 0x39 = some (.sramVerify []) ∧
   decodeTableWord 8 0x13 = none)

/-- R106, R225 (1), R221, R224: an `op` that is none of the 25 is refused `IllegalCommand`: `RC` is 0x13
and `RES` 0, with no bus event and no other change, in any session. That a step takes the record from a
list in the state is the model's (log 1). -/
def Obligations.IllegalCommandRefused : Prop :=
  ∀ (s : State) (r : Command) (rs : List Command),
    s.seq = .idle → s.inbox = r :: rs → r.op ∉ opcodes →
      step s = .next { s with inbox := rs, rc := 0x13#8, res := 0 }

/-- R25: in IDLE a step runs the host's next command, decoded; with none it changes nothing (log 4);
while an operation is in progress a step continues that operation. -/
def Obligations.StepRunsDecodedOperation : Prop :=
  (∀ (s : State) (r : Command) (rs : List Command) (i : Instr),
    s.seq = .idle → s.inbox = r :: rs → decode r = .ok i → step s = exec i { s with inbox := rs }) ∧
  (∀ s : State, s.seq = .idle → s.inbox = [] → step s = .next s) ∧
  (∀ (s : State) (cleanup : Bool) (now : Phase) (rest : List Phase),
    s.seq = .running cleanup now rest →
      step s = .next ({ s with seq := .idle }.runPhases cleanup (now :: rest)))

/-! ### When an operation is run -/

/-- R25: an idle engine whose parameters are well formed answers every operation with a next state;
while one is in progress none is accepted; ill-formed parameters fault (the last is the model's own,
log 9 and log 10). -/
def Obligations.OperationsAcceptedInIdleOnly : Prop :=
  (∀ (i : Instr) (s : State), s.Idle → ∃ t, exec i s = .next t) ∧
  (∀ (i : Instr) (s : State), s.seq ≠ .idle → exec i s = .refused .notIdle) ∧
  (∀ (i : Instr) (s : State), s.seq = .idle → s.cfg.wf = false → exec i s = .fault .illFormedConfig)

/-- R225, R229, R120: the session, then write-protect, then the operands; the first check that fails
decides, and nothing but `RC` and `RES` changes. -/
def Obligations.ChecksInOrder : Prop :=
  (∀ (i : Instr) (s : State), makesNoCheck i = false → s.Closed →
    exec i s = .next (s.stopped 0x10#8)) ∧
  (∀ (i : Instr) (s : State), needsRelease i = true → s.Guarded →
    exec i s = .next (s.stopped 0x11#8)) ∧
  (∀ (i : Instr) (s : State), i.wellFormed = false → s.Released →
    exec i s = .next (s.stopped (operandCode i))) ∧
  (∀ (i : Instr) (s : State), i.wellFormed = false → needsRelease i = false → s.Guarded →
    exec i s = .next (s.stopped (operandCode i)))

/-! ### Command Encoder -/

/-- R125, R92: the six events of `UNLOCK_AND_GLOBAL`, whatever `cmd` is. -/
def Obligations.UnlockAndGlobalEvents : Prop :=
  ∀ (s : State) (cmd : Byte),
    (s.Ready → exec (.unlockAndGlobal cmd) s =
      .next { s.afterWrites (globalUnlock s.cfg cmd) with rc := 0x00#8, res := 0 }) ∧
    (s.Closed → exec (.unlockAndGlobal cmd) s = .next (s.stopped 0x10#8))

/-- R126, R93: the three events of `UNLOCK_AND_LOCAL`, at the bank base of any address. -/
def Obligations.UnlockAndLocalEvents : Prop :=
  ∀ (s : State) (addr : Addr) (cmd : Byte),
    (s.Ready → exec (.unlockAndLocal addr cmd) s =
      .next { s.afterWrites (localUnlock s.cfg addr cmd) with rc := 0x00#8, res := 0 }) ∧
    (s.Closed → exec (.unlockAndLocal addr cmd) s = .next (s.stopped 0x10#8))

/-- R127: `READ_RESET` is `UNLOCK_AND_GLOBAL 0xF0`: six writes, no poll, no register cleared. -/
def Obligations.ReadResetEvents : Prop :=
  ∀ s : State,
    (s.Ready → exec .readReset s =
      .next { s.afterWrites (globalUnlock s.cfg 0xF0#8) with rc := 0x00#8, res := 0 }) ∧
    (s.Closed → exec .readReset s = .next (s.stopped 0x10#8))

/-- R132, R96: `PAGE_WRITE` sends five writes, the last byte twice, and polls nothing. -/
def Obligations.PageWriteEvents : Prop :=
  ∀ (s : State) (addr : Addr) (page : List Byte),
    (s.Released → addr.toNat % 128 = 0 → page.length = 128 → exec (.pageWrite addr page) s =
      .next { s.afterWrites (pageEvents s.cfg 0xA0#8 addr page) with
        pbuf := page, rc := 0x00#8, res := 0 }) ∧
    (s.Released → ¬(addr.toNat % 128 = 0 ∧ page.length = 128) →
      exec (.pageWrite addr page) s = .next (s.stopped 0x12#8)) ∧
    (s.Guarded → exec (.pageWrite addr page) s = .next (s.stopped 0x11#8)) ∧
    (s.Closed → exec (.pageWrite addr page) s = .next (s.stopped 0x10#8))

/-- R122, R98: `STATUS_STEP` reads once at the chip's base, latches the byte, and classes it: busy
unless bit 7 is set, and only then is bit 4 looked at. -/
def Obligations.StatusStepResult : Prop :=
  ∀ (s : State) (c : Chip),
    (s.Ready →
      let r := s.env.read s.cfg (base c) 1
      let b := r.1.headD 0
      exec (.statusStep c) s =
        .next { s with
          env := r.2
          trace := s.trace ++ [.read (base c) [b]]
          st := s.st.set c b
          rc := 0x00#8
          res := if b.getLsbD 7 then (if b.getLsbD 4 then 2 else 1) else 0 }) ∧
    (s.Closed → exec (.statusStep c) s = .next (s.stopped 0x10#8))

/-- R123: `WAIT_READY` reads until a byte has bit 7 set, and returns that byte, whatever its bit 4 is.
That each busy answer ends a step, so that `k` of them take `k` further steps, is the model's (log 3). -/
def Obligations.WaitReadyEndsAtReady : Prop :=
  ∀ (s : State) (addr : Addr) (k : Nat),
    let r := s.env.polls s.cfg addr (k + 1)
    let last := r.1.getLastD 0
    s.Ready → EndsReady r.1 → allowsBusy s.cfg k →
      s.Runs (.waitReady addr) k
        { s with
          env := r.2
          trace := s.trace ++ polled addr r.1
          st := s.st.set (chipOf addr) last
          pcnt := k + 1
          rc := 0x00#8
          res := last.setWidth 24 }

/-- R123, R230, R221, R224: with a limit `N` a wait ends in `PollTimeout` after exactly `N` reads none of
which was ready (at least one read is made), with the address it read; a composite operation then sends
`READ_RESET`. So of `WAIT_READY`; of the four global commands, of `VERIFY_MAP` and, R151, of `WRITE_ROM`,
whose loop is then not run, in either of their waits; of `HIDDEN_WRITE`; and of `WRITE_MAP`, in any of its
six, in the unconstrained environment. The number of steps is the model's (log 3). -/
def Obligations.PollTimeoutAfterLimit : Prop :=
  (∀ (s : State) (addr : Addr) (k : Nat),
    let r := s.env.polls s.cfg addr (k + 1)
    s.Ready → s.cfg.pollLimit = some (k + 1) → (∀ b ∈ r.1, isReady b = false) →
      s.Runs (.waitReady addr) k
        { s with
          env := r.2
          trace := s.trace ++ polled addr r.1
          st := s.st.set (chipOf addr) (r.1.getLastD 0)
          pcnt := k + 1
          rc := 0x05#8
          res := addr }) ∧
  (∀ (s : State) (i : Instr) (k : Nat), waitsFirst i = true → i.wellFormed = true →
    let ws := globalWrites s.cfg i
    let ra := (s.env.after s.cfg ws).polls s.cfg 0xC00000#24 (k + 1)
    let clean := cleanupWrites s.cfg i
    s.Ready → (needsRelease i = true → s.wpr = true) → s.cfg.pollLimit = some (k + 1) →
    (∀ b ∈ ra.1, isReady b = false) →
      s.Runs i k
        { s with
          env := ra.2.after s.cfg clean
          trace := s.trace ++ wrote ws ++ polled 0xC00000#24 ra.1 ++ wrote clean
          st := s.st.set .a (ra.1.getLastD 0)
          pcnt := k + 1
          rc := 0x05#8
          res := 0xC00000#24 }) ∧
  (∀ (s : State) (i : Instr) (j k : Nat), waitsFirst i = true → i.wellFormed = true →
    let ws := globalWrites s.cfg i
    let ra := (s.env.after s.cfg ws).polls s.cfg 0xC00000#24 (j + 1)
    let rb := ra.2.polls s.cfg 0xE00000#24 (k + 1)
    let clean := cleanupWrites s.cfg i
    s.Ready → (needsRelease i = true → s.wpr = true) → s.cfg.pollLimit = some (k + 1) →
    EndsReady ra.1 → j ≤ k → (∀ b ∈ rb.1, isReady b = false) →
      s.Runs i (j + k)
        { s with
          env := rb.2.after s.cfg clean
          trace := s.trace ++ wrote ws ++ polled 0xC00000#24 ra.1 ++ polled 0xE00000#24 rb.1 ++
            wrote clean
          st := ⟨ra.1.getLastD 0, rb.1.getLastD 0⟩
          pcnt := k + 1
          rc := 0x05#8
          res := 0xE00000#24 }) ∧
  (∀ (s : State) (addr : Addr) (page : List Byte) (k : Nat),
    let bank := addr &&& 0xFF0000#24
    let ws := pageEvents s.cfg 0x99#8 addr page
    let r := (s.env.after s.cfg ws).polls s.cfg bank (k + 1)
    s.Released → addr.toNat % 128 = 0 → page.length = 128 → s.cfg.pollLimit = some (k + 1) →
    (∀ b ∈ r.1, isReady b = false) →
      s.Runs (.hiddenWrite addr page) k
        { s with
          env := r.2
          trace := s.trace ++ wrote ws ++ polled bank r.1
          pbuf := page
          st := s.st.set (chipOf addr) (r.1.getLastD 0)
          pcnt := k + 1
          rc := 0x05#8
          res := bank }) ∧
  (∀ (s : State) (map ready busy rest : List Byte) (ws : List BusWrite) (addr : Addr),
    s.Released → map.length = 512 → s.cfg.pollLimit = some busy.length → busy ≠ [] →
    (mapWaits s.cfg map)[ready.length]? = some (ws, addr) →
    (∀ b ∈ ready, isReady b = true) → (∀ b ∈ busy, isReady b = false) →
    s.env.Answers (ready ++ busy) rest →
      ∃ t, s.Runs (.writeMap map) (busy.length - 1) t ∧ t.seq = .idle ∧ t.rc = 0x05#8 ∧
        t.res = addr ∧ t.pcnt = busy.length ∧ t.env.draws = rest ∧
        t.trace = s.trace ++ waitedEvents (mapWaits s.cfg map) ready ++ wrote ws ++
          polled addr busy ++ wrote (globalUnlock s.cfg 0xF0#8))

/-- R236: without a limit, a chip that has answered no ready status holds the engine in the wait: one
more read a step (the model's, log 3). And of every operation that waits, `WRITE_LOOP` and the composites
among them: until a ready status byte has been answered it does not end; nor does one that has come to any
later wait, or any later turn of the loop, until a ready byte is answered from there on; each step makes a
read. While an operation has not ended its last event is a status read that was not ready, `RC` and `RES`
are not written and write-protect stays as it was. -/
def Obligations.WaitHangsWithoutReady : Prop :=
  (∀ (s : State) (addr : Addr) (k : Nat),
    let r := s.env.polls s.cfg addr (k + 1)
    s.Ready → s.cfg.pollLimit = none → (∀ b ∈ r.1, isReady b = false) →
      ∃ t, s.Runs (.waitReady addr) k t ∧ s.Held t ∧ t.trace = s.trace ++ polled addr r.1) ∧
  (∀ (s : State) (i : Instr) (n : Nat) (t : State) (ev : List Event),
    (match i with
      | .writeLoop rom1 rom2 => rom1 ++ rom2 ≠ []
      | _ => waits i = true) →
    s.Ready → (needsRelease i = true → s.wpr = true) → i.wellFormed = true → s.cfg.pollLimit = none →
    s.Runs i n t → t.trace = s.trace ++ ev → readyBytes ev = [] →
      s.Held t ∧ n < ev.length) ∧
  (∀ (s : State) (i : Instr) (n k : Nat) (t : State) (ev : List Event), s.cfg.pollLimit = none →
    s.Runs i n t → t.seq ≠ .idle → (t.drive k).trace = t.trace ++ ev → readyBytes ev = [] →
      s.Held (t.drive k) ∧ k ≤ ev.length) ∧
  (∀ (s : State) (i : Instr) (n : Nat) (t : State), s.Runs i n t → t.seq ≠ .idle →
    s.Held t ∧ ∃ ev addr b, t.trace = s.trace ++ ev ++ [.read addr [b]] ∧ isReady b = false)

/-- R124, R128 to R131: after the writes, chip A is waited out and then chip B, by the ready bit alone;
`RC = OK` and `RES = 0` whatever the error bits say. -/
def Obligations.GlobalCommandsWaitForBoth : Prop :=
  ∀ (s : State) (i : Instr) (j k : Nat), waitsForBoth i = true →
    let ws := globalWrites s.cfg i
    let ra := (s.env.after s.cfg ws).polls s.cfg 0xC00000#24 (j + 1)
    let rb := ra.2.polls s.cfg 0xE00000#24 (k + 1)
    s.Ready → (needsRelease i = true → s.wpr = true) →
      EndsReady ra.1 → EndsReady rb.1 → allowsBusy s.cfg j → allowsBusy s.cfg k →
        s.Runs i (j + k)
          { s with
            env := rb.2
            trace := s.trace ++ wrote ws ++ polled 0xC00000#24 ra.1 ++ polled 0xE00000#24 rb.1
            st := ⟨ra.1.getLastD 0, rb.1.getLastD 0⟩
            pcnt := k + 1
            rc := 0x00#8
            res := 0 }

/-- R133: `HIDDEN_WRITE` sends its page, waits at the bank base, and returns the error flag of the byte
that ended the wait. -/
def Obligations.HiddenWriteResult : Prop :=
  ∀ (s : State) (addr : Addr) (page : List Byte) (k : Nat),
    let bank := addr &&& 0xFF0000#24
    let ws := pageEvents s.cfg 0x99#8 addr page
    let r := (s.env.after s.cfg ws).polls s.cfg bank (k + 1)
    let last := r.1.getLastD 0
    s.Released → addr.toNat % 128 = 0 → page.length = 128 → EndsReady r.1 → allowsBusy s.cfg k →
      s.Runs (.hiddenWrite addr page) k
        { s with
          env := r.2
          trace := s.trace ++ wrote ws ++ polled bank r.1
          pbuf := page
          st := s.st.set (chipOf addr) last
          pcnt := k + 1
          rc := 0x00#8
          res := if last.getLsbD 4 then 1 else 0 }

/-- R123, R128 to R131, R133, R172: an operation whose waits are answered ready at once completes by its
own effect, in the step that issues it (what a step is, is the model's: log 3). -/
def Obligations.WaitsAnsweredAtOnceComplete : Prop :=
  (∀ (s : State) (addr : Addr), s.Ready → isReady ((s.env.read s.cfg addr 1).1.headD 0) = true →
    ∃ t, exec (.waitReady addr) s = .next t ∧ t.seq = .idle ∧ t.rc = 0x00#8 ∧
      t.res = ((s.env.read s.cfg addr 1).1.headD 0).setWidth 24 ∧
      t.trace = s.trace ++ [.read addr (s.env.read s.cfg addr 1).1]) ∧
  (∀ (s : State) (i : Instr), waitsForBoth i = true → s.Ready →
    (needsRelease i = true → s.wpr = true) →
    let ra := (s.env.after s.cfg (globalWrites s.cfg i)).read s.cfg 0xC00000#24 1
    let rb := ra.2.read s.cfg 0xE00000#24 1
    isReady (ra.1.headD 0) = true → isReady (rb.1.headD 0) = true →
      ∃ t, exec i s = .next t ∧ t.seq = .idle ∧ t.rc = 0x00#8 ∧ t.res = 0 ∧
        t.trace = s.trace ++ wrote (globalWrites s.cfg i) ++
          [.read 0xC00000#24 ra.1, .read 0xE00000#24 rb.1]) ∧
  (∀ (s : State) (addr : Addr) (page : List Byte), s.Released → addr.toNat % 128 = 0 →
    page.length = 128 →
    let r := (s.env.after s.cfg (pageEvents s.cfg 0x99#8 addr page)).read s.cfg
      (addr &&& 0xFF0000#24) 1
    isReady (r.1.headD 0) = true →
      ∃ t, exec (.hiddenWrite addr page) s = .next t ∧ t.seq = .idle ∧ t.rc = 0x00#8 ∧
        t.res = (if (r.1.headD 0).getLsbD 4 then 1 else 0) ∧
        t.trace = s.trace ++ wrote (pageEvents s.cfg 0x99#8 addr page) ++
          [.read (addr &&& 0xFF0000#24) r.1]) ∧
  (∀ (s : State) (map : List Byte), s.Ready → map.length = 512 →
    let ra := (s.env.after s.cfg (rawEvents s.cfg s.cfg.showSeq)).read s.cfg 0xC00000#24 1
    let rb := ra.2.read s.cfg 0xE00000#24 1
    let da := rb.2.read s.cfg 0xC0FF00#24 256
    let db := da.2.read s.cfg 0xE0FF00#24 256
    isReady (ra.1.headD 0) = true → isReady (rb.1.headD 0) = true →
      ∃ t, exec (.verifyMap map) s = .next t ∧ t.seq = .idle ∧
        t.rc = (if da.1 ++ db.1 = map then 0x00#8 else 0x03#8) ∧
        t.res = (if da.1 ++ db.1 = map then 1 else 0) ∧
        t.trace = s.trace ++ wrote (rawEvents s.cfg s.cfg.showSeq) ++
          [.read 0xC00000#24 ra.1, .read 0xE00000#24 rb.1, .read 0xC0FF00#24 da.1,
            .read 0xE0FF00#24 db.1] ++ wrote (globalUnlock s.cfg 0xF0#8))

/-! ### Bulk writer and verifier -/

/-- R152, R153: the whole loop when every look finds its chip ready: page `j` of each stream, then one
look at each chip, chip A first, and so on to the end of both streams; `RES` is the sum of the lengths.
The environment is the unconstrained one and its answers any bytes of class Ready. -/
def Obligations.WriteLoopWhenAlwaysReady : Prop :=
  ∀ (s : State) (rom1 rom2 : List Byte) (ansA ansB : Nat → Byte) (rest : List Byte),
    s.Released → streamsOk rom1 rom2 = true →
    (∀ j, classify (ansA j) = .ready ∧ classify (ansB j) = .ready) →
    s.env.Answers ((rounds rom1 rom2).flatMap (roundAnswers rom1 rom2 ansA ansB)) rest →
      ∃ e st page notes,
        exec (.writeLoop rom1 rom2) s =
          .next { s with
            env := e
            trace := s.trace ++ (rounds rom1 rom2).flatMap (loopRound s.cfg rom1 rom2 ansA ansB)
            len := ⟨BitVec.ofNat 22 rom1.length, BitVec.ofNat 22 rom2.length⟩
            cur := ⟨BitVec.ofNat 22 rom1.length, BitVec.ofNat 22 rom2.length⟩
            busy := ⟨false, false⟩
            abort := ⟨false, false⟩
            st := st
            pbuf := page
            progress := s.progress ++ notes
            rc := 0x00#8
            res := BitVec.ofNat 24 (rom1.length + rom2.length) } ∧
        e.draws = rest

/-- R155, R154 (end): however the loop went, `RES` is the sum of the cursors, each chip has finished or
aborted its stream, and the count is the whole input if and only if no status read of the loop was of
class Error. -/
def Obligations.WriteLoopCount : Prop :=
  ∀ (s : State) (rom1 rom2 : List Byte) (n : Nat) (t : State),
    s.Released → streamsOk rom1 rom2 = true → s.Ends (.writeLoop rom1 rom2) n t →
      t.rc = 0x00#8 ∧ t.res.toNat = t.cur.a.toNat + t.cur.b.toNat ∧
      (t.abort.a = true ∨ t.cur.a.toNat = rom1.length) ∧
      (t.abort.b = true ∨ t.cur.b.toNat = rom2.length) ∧
      ∃ ev, t.trace = s.trace ++ ev ∧
        (t.res.toNat = rom1.length + rom2.length ↔
          ∀ addr b, Event.read addr [b] ∈ ev → classify b ≠ .error)

/-- R154, R260: at every point of the loop, between two pages sent to a chip there is a status read of
that chip that found it ready, and nothing else is sent to the chip in between. -/
def Obligations.WriteLoopOnePageOutstanding : Prop :=
  ∀ (s : State) (rom1 rom2 : List Byte) (n : Nat) (t : State) (c : Chip),
    s.Released → streamsOk rom1 rom2 = true → s.Runs (.writeLoop rom1 rom2) n t →
      ∃ ev, t.trace = s.trace ++ ev ∧ onePageOutstanding c 0 (ev.filter (Event.reaches c)) = true

/-- R151, R103: `WRITE_ROM` when every wait is answered at once: the erase, the waits, the loop over
the two halves of the image, the reset; the whole length is reported. -/
def Obligations.WriteRomWhenAlwaysReady : Prop :=
  ∀ (s : State) (buf : List Byte) (a b : Byte) (ansA ansB : Nat → Byte) (rest : List Byte),
    let rom1 := buf.take 0x200000
    let rom2 := buf.drop 0x200000
    s.Released → buf.length % 128 = 0 → buf.length ≤ 0x400000 →
    isReady a = true → isReady b = true →
    (∀ j, classify (ansA j) = .ready ∧ classify (ansB j) = .ready) →
    s.env.Answers ([a, b] ++ (rounds rom1 rom2).flatMap (roundAnswers rom1 rom2 ansA ansB)) rest →
      ∃ e st page notes,
        exec (.writeRom buf) s =
          .next { s with
            env := e
            trace := s.trace ++
              wrote (globalUnlock s.cfg 0x80#8 ++ globalUnlock s.cfg 0x10#8) ++
              [.read 0xC00000#24 [a], .read 0xE00000#24 [b]] ++
              (rounds rom1 rom2).flatMap (loopRound s.cfg rom1 rom2 ansA ansB) ++
              wrote (globalUnlock s.cfg 0xF0#8)
            len := ⟨BitVec.ofNat 22 rom1.length, BitVec.ofNat 22 rom2.length⟩
            cur := ⟨BitVec.ofNat 22 rom1.length, BitVec.ofNat 22 rom2.length⟩
            busy := ⟨false, false⟩
            abort := ⟨false, false⟩
            st := st
            pcnt := 1
            pbuf := page
            progress := s.progress ++ notes
            rc := 0x00#8
            res := BitVec.ofNat 24 buf.length } ∧
        e.draws = rest

/-- R151, R171, R172, R207, R224: a composite operation that got as far as its first bus event ends,
on every path, with the six writes of `READ_RESET`. -/
def Obligations.CompositesEndWithReset : Prop :=
  ∀ (s : State) (i : Instr) (n : Nat) (t : State),
    (match i with
      | .writeRom _ => s.Released
      | .writeMap _ => s.Released
      | .verifyMap _ => s.Ready
      | _ => False) →
    i.wellFormed = true → s.Ends i n t →
      ∃ ev, t.trace = s.trace ++ ev ++ wrote (globalUnlock s.cfg 0xF0#8)

/-- R151, R221: how `WRITE_ROM` reports: the sum of the cursors, OK if it is the whole image and
`ShortWrite` if it falls short; or `PollTimeout` with the status address, if a limit is set. -/
def Obligations.WriteRomReport : Prop :=
  ∀ (s : State) (buf : List Byte) (n : Nat) (t : State),
    s.Released → buf.length % 128 = 0 → buf.length ≤ 0x400000 → s.Ends (.writeRom buf) n t →
      (t.res.toNat = t.cur.a.toNat + t.cur.b.toNat ∧
        (t.rc = 0x00#8 ∧ t.res.toNat = buf.length ∨ t.rc = 0x02#8 ∧ t.res.toNat < buf.length)) ∨
      (t.rc = 0x05#8 ∧ s.cfg.pollLimit ≠ none ∧ (t.res = 0xC00000#24 ∨ t.res = 0xE00000#24))

/-- R156: `VERIFY_ROM` reads the chunks in order up to the first that differs from the image, and
reports the offset it reached; it writes nothing. An image that is too long ends it before any read,
and so does a session that is not open. -/
def Obligations.VerifyRomReport : Prop :=
  (∀ (s : State) (buf : List Byte), s.Closed → exec (.verifyRom buf) s = .next (s.stopped 0x10#8)) ∧
  (∀ (s : State) (buf : List Byte), s.Ready → 0x400000 < buf.length →
    exec (.verifyRom buf) s = .next (s.stopped 0x04#8)) ∧
  ∀ (s : State) (buf : List Byte), s.Ready → buf.length ≤ 0x400000 →
    ∃ k, k ≤ chunkCount buf.length ∧
      let m := min (k + 1) (chunkCount buf.length)
      let r := s.env.chunks s.cfg buf.length 0 m
      let reached := min (k * 0x10000) buf.length
      (∀ j < k, r.1[j]? = some ((buf.drop (j * 0x10000)).take 0x10000)) ∧
      (k < chunkCount buf.length → r.1[k]? ≠ some ((buf.drop (k * 0x10000)).take 0x10000)) ∧
      exec (.verifyRom buf) s =
        .next { s with
          env := r.2
          trace := s.trace ++ (List.range m).map fun j => Event.read (chunkAddr j) (r.1.getD j [])
          voff := BitVec.ofNat 23 reached
          progress := s.progress ++
            (List.range k).map fun j => min ((j + 1) * 0x10000) buf.length
          rc := if reached = buf.length then 0x00#8 else 0x03#8
          res := BitVec.ofNat 24 reached }

/-! ### Hidden sector -/

/-- R171, R170: `WRITE_MAP` when every wait is answered at once: 44 events, all four pages sent
whatever the flags say; 512 bytes are reported, or none. -/
def Obligations.WriteMapWhenAlwaysReady : Prop :=
  ∀ (s : State) (map : List Byte) (a b s0 s1 s2 s3 : Byte) (rest : List Byte),
    s.Released → map.length = 512 →
    (∀ x ∈ [a, b, s0, s1, s2, s3], isReady x = true) →
    s.env.Answers [a, b, s0, s1, s2, s3] rest →
      let err := isError s0 || isError s1 || isError s2 || isError s3
      (mapEvents s.cfg map [a, b, s0, s1, s2, s3]).length = 44 ∧
      ∃ e, exec (.writeMap map) s =
          .next { s with
            env := e
            trace := s.trace ++ mapEvents s.cfg map [a, b, s0, s1, s2, s3]
            st := ⟨s1, s3⟩
            pcnt := 1
            err := err
            pbuf := map.drop 384
            rc := if err then 0x02#8 else 0x00#8
            res := if err then 0 else 512 } ∧
        e.draws = rest

/-- R173: however long the waits were, `WRITE_MAP` reports 512 if and only if the four status bytes
that ended the four page waits had bit 4 clear, and 0 otherwise. -/
def Obligations.WriteMapAllOrNothing : Prop :=
  ∀ (s : State) (map : List Byte) (n : Nat) (t : State),
    s.Released → map.length = 512 → s.Ends (.writeMap map) n t → t.rc ≠ 0x05#8 →
      ∃ ev a b s0 s1 s2 s3, t.trace = s.trace ++ ev ∧
        readyBytes ev = [a, b, s0, s1, s2, s3] ∧
        (if isError s0 || isError s1 || isError s2 || isError s3 then t.rc = 0x02#8 ∧ t.res = 0
          else t.rc = 0x00#8 ∧ t.res = 512)

/-- R172: `VERIFY_MAP` shows the sector, waits for both chips, reads 256 bytes from each, resets, and
only then compares. -/
def Obligations.VerifyMapResult : Prop :=
  ∀ (s : State) (map : List Byte) (j k : Nat),
    let ws := rawEvents s.cfg s.cfg.showSeq
    let ra := (s.env.after s.cfg ws).polls s.cfg 0xC00000#24 (j + 1)
    let rb := ra.2.polls s.cfg 0xE00000#24 (k + 1)
    let da := rb.2.read s.cfg 0xC0FF00#24 256
    let db := da.2.read s.cfg 0xE0FF00#24 256
    s.Ready → map.length = 512 → EndsReady ra.1 → EndsReady rb.1 →
      allowsBusy s.cfg j → allowsBusy s.cfg k →
        s.Runs (.verifyMap map) (j + k)
          { s with
            env := db.2.after s.cfg (globalUnlock s.cfg 0xF0#8)
            trace := s.trace ++ wrote ws ++ polled 0xC00000#24 ra.1 ++ polled 0xE00000#24 rb.1 ++
              [.read 0xC0FF00#24 da.1, .read 0xE0FF00#24 db.1] ++ wrote (globalUnlock s.cfg 0xF0#8)
            st := ⟨ra.1.getLastD 0, rb.1.getLastD 0⟩
            pcnt := k + 1
            rc := if da.1 ++ db.1 = map then 0x00#8 else 0x03#8
            res := if da.1 ++ db.1 = map then 1 else 0 }

/-! ### Directory -/

/-- R182, R183: the presence check reads 16 bytes and compares them with `MULTICASSETTE 32`; opening
an enumeration reads nothing. -/
def Obligations.DirectoryPresenceAndOpen : Prop :=
  ∀ s : State,
    (s.Ready →
      let r := s.env.read s.cfg s.cfg.sigAddr 16
      exec .dirPresent s =
        .next { s with
          env := r.2
          trace := s.trace ++ [.read s.cfg.sigAddr r.1]
          rc := 0x00#8
          res := if r.1 = [0x4D#8, 0x55#8, 0x4C#8, 0x54#8, 0x49#8, 0x43#8, 0x41#8, 0x53#8, 0x53#8,
            0x45#8, 0x54#8, 0x54#8, 0x45#8, 0x20#8, 0x33#8, 0x32#8] then 1 else 0 }) ∧
    (s.Ready → exec .dirOpen s = .next { s with slot := 0, dend := false, rc := 0x00#8, res := 0 }) ∧
    (s.Closed → exec .dirPresent s = .next (s.stopped 0x10#8)) ∧
    (s.Closed → exec .dirOpen s = .next (s.stopped 0x10#8))

/-- R184: the three ways `DIR_NEXT` goes: the table has ended; the next slot holds the sentinel; it
holds an entry. -/
def Obligations.DirNextResult : Prop :=
  ∀ s : State,
    let slotAt : Addr := s.cfg.dirBase + BitVec.ofNat 24 (s.slot.toNat * 0x2000)
    let r : List Byte × Env := s.env.read s.cfg slotAt 0x1D9
    let s1 := { s with env := r.2, trace := s.trace ++ [Event.read slotAt r.1], rbuf := r.1, rc := 0x00#8 }
    (s.Ready → s.dend = true → exec .dirNext s = .next { s with rc := 0x00#8, res := 0 }) ∧
    (s.Ready → s.dend = false → r.1.getD 0 0 = 0xFF#8 →
      exec .dirNext s = .next { s1 with dend := true, res := 0 }) ∧
    (s.Ready → s.dend = false → r.1.getD 0 0 ≠ 0xFF#8 →
      exec .dirNext s =
        .next { s1 with
          ent := decodeEntry s.cfg r.1
          slot := s.slot + 1
          dend := s.slot + 1 == 8#4
          res := 1 }) ∧
    (s.Closed → exec .dirNext s = .next (s.stopped 0x10#8))

/-- R181, R185, R189: an enumeration yields the records of the slots before the first sentinel, in
order, reads no slot after it, and then ends for good. -/
def Obligations.DirectoryEnumeration : Prop :=
  ∀ (s : State) (records : List (List Byte)) (m : Nat) (rest : List Byte),
    s.Ready → (∀ r ∈ records, r.length = 0x1D9) → m ≤ 8 → records.length = min (m + 1) 8 →
    (∀ i < m, (records.getD i []).getD 0 0 ≠ 0xFF#8) →
    (m < 8 → (records.getD m []).getD 0 0 = 0xFF#8) →
    s.env.Answers records.flatten rest →
      let s0 := s.run .dirOpen
      let reads (n : Nat) : List Event := (List.range n).map fun i =>
        Event.read (s.cfg.dirBase + BitVec.ofNat 24 (i * 0x2000)) (records.getD i [])
      (∀ k < m, let t := s0.dirNexts (k + 1)
        t.rc = 0x00#8 ∧ t.res = 1 ∧ t.ent = decodeEntry s.cfg (records.getD k []) ∧
          t.trace = s.trace ++ reads (k + 1)) ∧
      (∀ k, let t := s0.dirNexts (m + 1 + k)
        t.rc = 0x00#8 ∧ t.res = 0 ∧ t.dend = true ∧ t.ent = (s0.dirNexts m).ent ∧
          t.trace = s.trace ++ reads records.length)

/-- R186, R187: the two block counts, for every pair of bytes, in both of the rule's forms, and where
each field of an entry stands in the record. -/
def Obligations.EntryFields : Prop :=
  (∀ lo hi : Byte,
    (flashBlocks lo hi).toNat = (hi.toNat <<< 6) ||| (lo.toNat >>> 2) ∧
    (flashBlocks lo hi).toNat = ((hi.toNat <<< 8) ||| lo.toNat) >>> 2) ∧
  (∀ lo hi : Byte,
    (sramBlocks lo hi).toNat = (hi.toNat <<< 4) ||| (lo.toNat >>> 4) ∧
    (sramBlocks lo hi).toNat = ((hi.toNat <<< 8) ||| lo.toNat) >>> 4) ∧
  ∀ (cfg : Config) (d : List Byte),
    decodeEntry cfg d =
      { index := d.getD 0 0
        firstFlashBlock := d.getD 1 0
        firstSramBlock := d.getD 2 0
        flashBlocks := flashBlocks (d.getD 3 0) (d.getD 4 0)
        sramBlocks := sramBlocks (d.getD 5 0) (d.getD 6 0)
        gameCode := textField d cfg.fCode
        title := textField d cfg.fTitle
        date := textField d cfg.fDate
        time := textField d cfg.fTime
        law := textField d cfg.fLaw }

/-- R188: a text field is its slice of the record up to the least position from which on every byte is
NUL; NUL bytes before that position are kept. -/
def Obligations.TextFieldStripped : Prop :=
  ∀ (d : List Byte) (f : Field),
    let slice := (d.drop f.off).take f.width
    ∃ k, k ≤ slice.length ∧ textField d f = slice.take k ∧
      (∀ b ∈ slice.drop k, b = 0) ∧ ∀ j < k, ∃ b ∈ slice.drop j, b ≠ 0

/-! ### Session, write-protect, SRAM -/

/-- R201, R202, R203: `SESSION_OPEN` by the device status: awake; asleep, with the six wake steps;
anything else. -/
def Obligations.SessionOpenResult : Prop :=
  ∀ s : State, s.Idle →
    let r := s.env.read s.cfg 0x002400#24 1
    let b := r.1.headD 0
    let s0 := { s with
      sess := .closed, wpr := false, env := r.2, trace := s.trace ++ [.read 0x002400#24 [b]] }
    let mode : BusWrite := (s.cfg.modeAddr, [s.cfg.modeValue])
    (b = 0x2A#8 → exec .sessionOpen s =
      .next { s0.afterWrites (mode :: globalUnlock s.cfg 0xF0#8) with
        sess := .awake, rc := 0x00#8, res := 0 }) ∧
    (b = 0x7D#8 → exec .sessionOpen s =
      .next { (s.cfg.wakeSeq.foldl State.access s0).afterWrites
          (mode :: globalUnlock s.cfg 0xF0#8) with
        sess := .awake, rc := 0x00#8, res := 0 }) ∧
    (b ≠ 0x2A#8 → b ≠ 0x7D#8 → exec .sessionOpen s =
      .next { s0 with rc := 0x01#8, res := b.setWidth 24 })

/-- R204, R205: the two write-protect commands. -/
def Obligations.WriteProtectCommands : Prop :=
  ∀ s : State,
    (s.Ready → exec .wpRelease s =
      .next { s.afterWrites [(0x002400#24, [0x02#8])] with wpr := true, rc := 0x00#8, res := 0 }) ∧
    (s.Ready → exec .wpAssert s =
      .next { s.afterWrites [(0x002400#24, [0x03#8])] with wpr := false, rc := 0x00#8, res := 0 }) ∧
    (s.Closed → exec .wpRelease s = .next (s.stopped 0x10#8)) ∧
    (s.Closed → exec .wpAssert s = .next (s.stopped 0x10#8))

/-- R206: `SESSION_CLOSE` resets the chips, asserts write-protect and closes; with no session open it
sends nothing. It cannot fail. -/
def Obligations.SessionCloseResult : Prop :=
  ∀ s : State,
    (s.Ready → exec .sessionClose s =
      .next { s.afterWrites (globalUnlock s.cfg 0xF0#8 ++ [(0x002400#24, [0x03#8])]) with
        wpr := false, sess := .closed, rc := 0x00#8, res := 0 }) ∧
    (s.Closed → exec .sessionClose s =
      .next { s with wpr := false, sess := .closed, rc := 0x00#8, res := 0 })

/-- R209, R208: `SRAM_WRITE` writes `0x2000` bytes to each segment the buffer reaches, less to the last
it reaches, nothing to the others. -/
def Obligations.SramWriteEvents : Prop :=
  ∀ (s : State) (buf : List Byte) (a0 a1 a2 a3 : Addr), s.cfg.sramAddr = [a0, a1, a2, a3] →
    let part (k : Nat) (addr : Addr) : List BusWrite :=
      if k * 0x2000 < buf.length then [(addr, (buf.drop (k * 0x2000)).take 0x2000)] else []
    (s.Released → buf.length ≤ 0x8000 → exec (.sramWrite buf) s =
      .next { s.afterWrites (part 0 a0 ++ part 1 a1 ++ part 2 a2 ++ part 3 a3) with
        rc := 0x00#8, res := BitVec.ofNat 24 buf.length }) ∧
    (s.Released → 0x8000 < buf.length → exec (.sramWrite buf) s = .next (s.stopped 0x04#8)) ∧
    (s.Guarded → exec (.sramWrite buf) s = .next (s.stopped 0x11#8)) ∧
    (s.Closed → exec (.sramWrite buf) s = .next (s.stopped 0x10#8))

/-- R210: `SRAM_VERIFY` reads the four segments in full and compares the prefix. -/
def Obligations.SramVerifyResult : Prop :=
  ∀ (s : State) (buf : List Byte) (a0 a1 a2 a3 : Addr), s.cfg.sramAddr = [a0, a1, a2, a3] →
    let r0 := s.env.read s.cfg a0 0x2000
    let r1 := r0.2.read s.cfg a1 0x2000
    let r2 := r1.2.read s.cfg a2 0x2000
    let r3 := r2.2.read s.cfg a3 0x2000
    let same := (r0.1 ++ r1.1 ++ r2.1 ++ r3.1).take buf.length = buf
    (s.Ready → buf.length ≤ 0x8000 → exec (.sramVerify buf) s =
      .next { s with
        env := r3.2
        trace := s.trace ++ [.read a0 r0.1, .read a1 r1.1, .read a2 r2.1, .read a3 r3.1]
        rc := if same then 0x00#8 else 0x03#8
        res := if same then 1 else 0 }) ∧
    (s.Ready → 0x8000 < buf.length → exec (.sramVerify buf) s = .next (s.stopped 0x04#8)) ∧
    (s.Closed → exec (.sramVerify buf) s = .next (s.stopped 0x10#8))

/-! ### Reset and invariants -/

/-- R250, R251: the values the spec gives for reset. Working registers and `ENT` are left out: it gives
none (log 7). -/
def Obligations.ResetState : Prop :=
  State.reset.seq = .idle ∧ State.reset.sess = .closed ∧ State.reset.wpr = false ∧
    State.reset.dend = true ∧ State.reset.slot = 0 ∧ State.reset.rc = 0x00#8 ∧
    State.reset.res = 0 ∧ State.reset.trace = []

/-- The invariants below hold at reset; for the working registers this rests on the model's own reset
values (log 7), for the environment on log 6 and log 8. -/
def Obligations.ResetMeetsInvariants : Prop :=
  State.reset.ModesLegal ∧ State.reset.DirectoryLegal ∧ State.reset.rc ∈ legalCodes ∧
    State.reset.WorkLegal ∧ State.reset.env.wf = true ∧ State.reset.cfg.wf = true

/-- R229, R23, R30, R184, R221: every step keeps the mode one of the three, an operation in progress in
an open session, the directory iterator in range, and the result code one of the listed ones. -/
def Obligations.StepKeepsModesLegal : Prop :=
  ∀ s t : State, s.ModesLegal → s.DirectoryLegal → s.rc ∈ legalCodes → step s = .next t →
    t.ModesLegal ∧ t.DirectoryLegal ∧ t.rc ∈ legalCodes

/-- R24, R153, R154, R38, R39: every step keeps the working registers in their ranges: the cursors and
lengths multiples of 128, `CUR <= LEN <= HALF`, a busy chip not aborted and not finished,
`VOFF <= MAX_ROM`, the buffers of their lengths. -/
def Obligations.StepKeepsWorkLegal : Prop :=
  ∀ s t : State, s.WorkLegal → step s = .next t → t.WorkLegal

/-- The memories keep their canonical form (the model's own, log 8), a hidden sector has no byte beyond its
256 (R70), and what a chip has heard of stays in its own window, and a hidden page in its hidden sector
(R170). -/
def Obligations.StepKeepsMemoryCanonical : Prop :=
  ∀ s t : State, s.env.wf = true → step s = .next t → t.env.wf = true

/-- R64, R7, R52: the bus trace only grows, the parameters do not change, and a step neither faults nor
is refused while the parameters are well formed. -/
def Obligations.TraceOnlyGrows : Prop :=
  (∀ s t : State, step s = .next t → s.trace <+: t.trace ∧ s.progress <+: t.progress ∧ t.cfg = s.cfg) ∧
  (∀ s : State, s.cfg.wf = true → ∃ t, step s = .next t)

/-- R251, R20, U21: no operation reads a working register, or `ENT`, before it has written it. Two
states that differ in nothing else, given the same operation, show the same bus trace and the same
results at every point; each keeps its own `ENT` until `DIR_NEXT` gives both the same. -/
def Obligations.WorkingRegistersNeverReadFirst : Prop :=
  ∀ (s s' : State) (i : Instr) (n : Nat) (t : State), s.forget = s'.forget → s.Runs i n t →
    ∃ t', s'.Runs i n t' ∧ t.forget = t'.forget ∧
      (t.ent = t'.ent ∨ t.ent = s.ent ∧ t'.ent = s'.ent)

/-! ### Frames -/

/-- R23, R28, R29, R30, R31, R38, R39, R32, R33: at every point of every operation, a register that is
not among those the operation writes is unchanged. -/
def Obligations.RegistersWrittenOnlyAsListed : Prop :=
  ∀ (s : State) (i : Instr) (n : Nat) (t : State), s.Runs i n t →
    (writesSession i = false → t.sess = s.sess) ∧
    (writesShadow i = false → t.wpr = s.wpr) ∧
    (writesIterator i = false → t.slot = s.slot ∧ t.dend = s.dend) ∧
    (writesEntry i = false → t.ent = s.ent ∧ t.rbuf = s.rbuf) ∧
    (writesStreams i = false →
      t.cur = s.cur ∧ t.len = s.len ∧ t.busy = s.busy ∧ t.abort = s.abort) ∧
    (writesVerifyOffset i = false → t.voff = s.voff) ∧
    (writesStatus i = false → t.st = s.st) ∧
    (waits i = false → t.pcnt = s.pcnt) ∧
    (writesErr i = false → t.err = s.err) ∧
    (writesPage i = false → t.pbuf = s.pbuf) ∧
    t.cfg = s.cfg ∧ t.inbox = s.inbox

/-- R156, R180, R210, R122, R123: the operations that only read put no write on the bus and change no
byte of memory, of the arrays or of the hidden sectors, but for an operation in flight that a status
read of its chip finds finished. -/
def Obligations.ReadersWriteNothing : Prop :=
  ∀ (s : State) (i : Instr) (n : Nat) (t : State), readsOnly i = true → s.Runs i n t →
    let looksAt (c : Chip) : Prop :=
      match i with
      | .statusStep d => c = d
      | .waitReady addr => c = chipOf addr
      | .verifyRom _ => True
      | _ => False
    (∃ ev, t.trace = s.trace ++ ev ∧ ∀ addr v, Event.write addr v ∉ ev) ∧
    s.env.SameOutside t.env (fun a => ∃ c, looksAt c ∧ s.env.inFlightAt c a = true)
      (fun c o => looksAt c ∧ s.env.hiddenInFlightAt c o = true)

/-- Frame for the commands that store nothing: no byte of memory, of the arrays or of the hidden sectors
changes. The write-protect commands do not reach the chips; the others do, and may disturb what an
earlier operation had pending there (R75; log 27), but nothing else. -/
def Obligations.CommandsStoreNothing : Prop :=
  (∀ (s : State) (i : Instr) (n : Nat) (t : State),
    (match i with
      | .wpRelease => True
      | .wpAssert => True
      | _ => False) →
    s.Runs i n t → s.env.SameOutside t.env (fun _ => False) (fun _ _ => False)) ∧
  (∀ (s : State) (i : Instr) (n : Nat) (t : State),
    (match i with
      | .unlockAndGlobal _ => True
      | .readReset => True
      | .sessionClose => True
      | _ => False) →
    s.Runs i n t →
      s.env.SameOutside t.env (fun a => ∃ c, s.env.pendingAt c a = true)
        (fun c o => s.env.hiddenPendingAt c o = true))

/-- Frame for the commands that wait for both chips: after each of their writes the environment says which
operation is in flight on each chip, and no byte outside those, and outside what was pending before,
changes. Under the contract `SHOW_HIDDEN`, `HIDE` and `VERIFY_MAP` change no byte where show and hide bytes
are not sent where an unlock key would be; R131: `HIDDEN_ERASE` leaves the arrays and all of memory as they
were, and changes the 256 bytes of a hidden sector alone (R70: none is listed beyond them, which
StepKeepsMemoryCanonical says every step keeps); and `CHIP_ERASE` leaves the hidden sectors, which is the
model's own choice (log 30). -/
def Obligations.WaitingCommandsFrame : Prop :=
  (∀ (s : State) (i : Instr) (n : Nat) (t : State),
    (match i with
      | .showHidden => True
      | .hide => True
      | .chipErase => True
      | .hiddenErase => True
      | .verifyMap _ => True
      | _ => False) →
    s.Runs i n t →
      let e (k : Nat) : Env := s.env.after s.cfg ((globalWrites s.cfg i).take k)
      s.env.SameOutside t.env
        (fun a => ∃ c, s.env.pendingAt c a = true ∨ ∃ k, (e k).inFlightAt c a = true)
        (fun c o => s.env.hiddenPendingAt c o = true ∨ ∃ k, (e k).hiddenInFlightAt c o = true)) ∧
  (∀ (s : State) (i : Instr) (n : Nat) (t : State),
    (match i with
      | .showHidden => True
      | .hide => True
      | .verifyMap _ => True
      | _ => False) →
    s.env.Contract → s.cfg.hiddenCmdOff.setWidth 16 ≠ s.cfg.unlockOff1 → s.Runs i n t →
      s.env.SameOutside t.env (fun _ => False) (fun _ _ => False)) ∧
  (∀ (s : State) (n : Nat) (t : State), s.env.Contract → s.Runs .chipErase n t →
    s.env.SameOutside t.env (fun a => inFlash a = true) (fun _ _ => False)) ∧
  (∀ (s : State) (n : Nat) (t : State), s.env.Contract → s.env.wf = true → s.Runs .hiddenErase n t →
    s.env.SameOutside t.env (fun _ => False) (fun _ o => o < 256))

/-- Frame for the composite writers: outside what was pending before, `WRITE_LOOP` changes no byte
outside the pages of its two streams, `WRITE_ROM` none outside the two chips' arrays, `WRITE_MAP` none
outside the hidden sectors. That the erase of `WRITE_ROM` leaves the hidden sectors as they were is the
model's own choice (log 30). A hidden sector has 256 bytes (R70): the clause for `WRITE_MAP` asks that none
is listed beyond them (`Env.wf`, which StepKeepsMemoryCanonical says every step keeps). -/
def Obligations.BulkWritersFrame : Prop :=
  (∀ (s : State) (rom1 rom2 : List Byte) (n : Nat) (t : State), s.Runs (.writeLoop rom1 rom2) n t →
    s.env.SameOutside t.env
      (fun a => (0xC00000 ≤ a ∧ a < 0xC00000 + rom1.length) ∨
        (0xE00000 ≤ a ∧ a < 0xE00000 + rom2.length) ∨ ∃ c, s.env.pendingAt c a = true)
      (fun c o => s.env.hiddenPendingAt c o = true)) ∧
  (∀ (s : State) (buf : List Byte) (n : Nat) (t : State), s.Runs (.writeRom buf) n t →
    s.env.SameOutside t.env
      (fun a => (0xC00000 ≤ a ∧ a < 0x1000000) ∨ ∃ c, s.env.pendingAt c a = true)
      (fun c o => s.env.hiddenPendingAt c o = true)) ∧
  (∀ (s : State) (map : List Byte) (n : Nat) (t : State), s.env.wf = true →
    s.Runs (.writeMap map) n t →
    s.env.SameOutside t.env (fun a => ∃ c, s.env.pendingAt c a = true)
      (fun c o => o < 256 ∨ s.env.hiddenPendingAt c o = true))

/-- Frame for the local commands. In the flash window they reach the one chip, and change nothing but
what was pending on it, and for `HIDDEN_WRITE` its own page of the hidden sector; the page of a
`PAGE_WRITE` is stored when a status read sees it complete. Outside the window (log 12) no byte changes
but at the three addresses written and in the page. -/
def Obligations.LocalCommandsFrame : Prop :=
  ∀ (s : State) (i : Instr) (addr : Addr) (n : Nat) (t : State),
    (match i with
      | .unlockAndLocal a _ => a = addr
      | .pageWrite a _ => a = addr
      | .hiddenWrite a _ => a = addr
      | _ => False) →
    s.Runs i n t →
      let own (o : Nat) : Prop :=
        match i with
        | .hiddenWrite _ _ => chipOff addr.toNat - 0xFF00 ≤ o ∧ o < chipOff addr.toNat - 0xFF00 + 128
        | _ => False
      (inFlash addr.toNat = true →
        s.env.SameOutside t.env (fun a => s.env.pendingAt (chipOf addr) a = true)
          (fun c o => c = chipOf addr ∧ (own o ∨ s.env.hiddenPendingAt c o = true))) ∧
      (inFlash addr.toNat = false →
        s.env.SameOutside t.env
          (fun a => a = (bankBase addr + s.cfg.unlockOff1.setWidth 24).toNat ∨
            a = (bankBase addr + s.cfg.unlockOff2.setWidth 24).toNat ∨
            (addr.toNat ≤ a ∧ a < addr.toNat + 128))
          (fun _ _ => False))

/-- Frame for `SRAM_WRITE` and `SESSION_OPEN`: no byte changes outside the bytes written to the
segments; none but at the address of the mode write; and, on a chip that a segment placed over the
flash window (log 28) or the session's `READ_RESET` reaches, what was pending there. R59: the writes to the
device registers store nothing. That the memories and the chips of a device that `SESSION_OPEN` wakes are
after the wake what they were before is the model's own choice (log 29). -/
def Obligations.SramAndSessionFrame : Prop :=
  (∀ (s t : State) (buf : List Byte), exec (.sramWrite buf) s = .next t →
    let reached (c : Chip) : Prop :=
      ∃ addr ∈ s.cfg.sramAddr, inFlash addr.toNat = true ∧ chipOf addr = c
    s.env.SameOutside t.env
      (fun a => (∃ k addr, s.cfg.sramAddr[k]? = some addr ∧
          addr.toNat ≤ a ∧ a < addr.toNat + min 0x2000 (buf.length - k * 0x2000)) ∨
        ∃ c, reached c ∧ s.env.pendingAt c a = true)
      (fun c o => reached c ∧ s.env.hiddenPendingAt c o = true)) ∧
  (∀ s t : State, exec .sessionOpen s = .next t →
    s.env.SameOutside t.env
      (fun a => a = s.cfg.modeAddr.toNat ∨ ∃ c, s.env.pendingAt c a = true)
      (fun c o => s.env.hiddenPendingAt c o = true))

/-! ### The environment contract -/

/-- R74, R72: an erase seen complete with the error flag clear leaves every byte of that chip's array,
or of its hidden sector, `0xFF`. -/
def Obligations.EraseEffect : Prop :=
  (∀ (s : State) (n : Nat) (t : State) (c : Chip), s.Released → s.env.Contract →
    s.Ends .chipErase n t → t.rc = 0x00#8 → isError (t.st.get c) = false →
      ∀ o < 0x200000, t.env.arrayAt c o = 0xFF#8) ∧
  (∀ (s : State) (n : Nat) (t : State) (c : Chip), s.Released → s.env.Contract →
    s.Ends .hiddenErase n t → t.rc = 0x00#8 → isError (t.st.get c) = false →
      ∀ o, (t.env.chip.get c).hid.read o = 0xFF#8)

/-- R75, R72: a page written to an erased page of a chip's array, not programmed since the last erase, and
seen complete, at the bank base, with the error flag clear, is in the array, and no other byte of either
array has changed. The same of `HIDDEN_WRITE` and the hidden sector. That an erase which failed counts as
the last erase, so that a page programmed before it which reads erased takes a program, is the model's own
choice (log 15). -/
def Obligations.ProgramEffect : Prop :=
  (∀ (s : State) (addr : Addr) (page : List Byte) (n : Nat) (t : State),
    let c := chipOf addr
    let o := addr.toNat - (base c).toNat
    s.Released → s.env.Contract → s.env.wf = true → inFlash addr.toNat = true →
    addr.toNat % 128 = 0 → page.length = 128 →
    addr.toNat ∉ (s.env.chip.get c).programmed → (∀ i < 128, s.env.arrayAt c (o + i) = 0xFF#8) →
    (s.run (.pageWrite addr page)).Ends (.waitReady (bankBase addr)) n t → t.rc = 0x00#8 →
    isError (t.st.get c) = false →
      (∀ i < 128, t.env.arrayAt c (o + i) = page.getD i 0) ∧
      (∀ x < 0x200000, ¬(o ≤ x ∧ x < o + 128) → t.env.arrayAt c x = s.env.arrayAt c x) ∧
      ∀ x < 0x200000, t.env.arrayAt c.other x = s.env.arrayAt c.other x) ∧
  (∀ (s : State) (c : Chip) (second : Bool) (page : List Byte) (n : Nat) (t : State),
    let p := if second then 128 else 0
    let hid (e : Env) (d : Chip) (x : Nat) : Byte := (e.chip.get d).hid.read x
    s.Released → s.env.Contract → s.env.wf = true → page.length = 128 →
    p ∉ (s.env.chip.get c).hidProgrammed → (∀ i < 128, hid s.env c (p + i) = 0xFF#8) →
    s.Ends (.hiddenWrite (base c + 0xFF00#24 + BitVec.ofNat 24 p) page) n t → t.rc = 0x00#8 →
    t.res = 0 →
      (∀ i < 128, hid t.env c (p + i) = page.getD i 0) ∧
      (∀ x, ¬(p ≤ x ∧ x < p + 128) → hid t.env c x = hid s.env c x) ∧
      (∀ x, hid t.env c.other x = hid s.env c.other x) ∧
      ∀ d, ∀ x < 0x200000, t.env.arrayAt d x = s.env.arrayAt d x)

/-- R59, R71: reads of the arrays, of the directory and of the SRAM are idempotent while no command
intervenes: the operations that make them leave the environment as it was, so that the same reads get
the same answers again; and so do reads of a hidden sector that is shown, which answer its bytes (R77). -/
def Obligations.DataReadsIdempotent : Prop :=
  (∀ (s t : State) (i : Instr),
    (match i with
      | .verifyRom _ => True
      | .dirPresent => True
      | .dirNext => True
      | .sramVerify _ => True
      | _ => False) →
    s.DirectoryLegal → s.env.dev.mapped = true → (∀ c, (s.env.chip.get c).mode = .array) →
    exec i s = .next t → t.env = s.env) ∧
  (∀ (cfg : Config) (e : Env) (c : Chip), e.dev.mapped = true →
    (e.chip.get c).mode = .hiddenShown →
      e.read cfg (base c + 0xFF00#24) 256 = ((e.chip.get c).hid.readBytes 0 256, e))

/-- R76, R77, R78, R72, R63 (a), R253: what the session commands do to the device, and `READ_RESET`,
`SHOW_HIDDEN` and `HIDE` to the chips; and the next `SESSION_OPEN` repairs the mode of a chip that an engine
lost in the middle of any command, with no operation in flight, and leaves its array as it was but for a
block whose last byte did not come again, which is then any value (U5). That a chip takes the reset from
wherever it is in another command is the model's reading (log 13). Of a device that sleeps two things are
the model's: that it wakes when it has heard exactly the wake sequence, here one that has heard nothing
before (log 19), and that chips and memories are after the wake what they were before (log 29). So are, in
the clause for `HIDE`, that the chip answers status afterwards, and, where the two sequences are equal, as
the defaults are, that the sequence hides a sector that is shown and shows one that is not, one shown
before another operation started among them (log 18). -/
def Obligations.DeviceEffects : Prop :=
  (∀ s : State, s.Ready → s.env.dev.sleep = .awake →
    (s.run .wpRelease).env.dev.protect = .released ∧
      (s.run .wpAssert).env.dev.protect = .asserted) ∧
  (∀ s : State, s.Idle → s.env.dev.sleep = .awake → (s.run .sessionOpen).env.dev.mapped = true) ∧
  (∀ s : State, s.Idle → s.env.dev.sleep = .asleep → s.env.dev.recent = [] →
    (s.run .sessionOpen).env.dev.mapped = true) ∧
  (∀ (s : State) (c : Chip), s.Idle → inFlash s.cfg.modeAddr.toNat = false →
    (s.env.dev.sleep = .awake ∨ s.env.dev.sleep = .asleep ∧ s.env.dev.recent = []) →
    (s.env.chip.get c).resettable s.cfg c →
    ((s.run .sessionOpen).env.chip.get c).mode = .array ∧
      ∀ o < 0x200000, (s.env.chip.get c).latch.awaited.storesAt c ((base c).toNat + o) = false →
        (s.run .sessionOpen).env.arrayAt c o = s.env.arrayAt c o) ∧
  (∀ (s : State) (c : Chip), s.Ready → s.env.dev.mapped = true →
    (s.env.chip.get c).resettable s.cfg c →
    ((s.run .readReset).env.chip.get c).mode = .array ∧
      ∀ o < 0x200000, (s.env.chip.get c).latch.awaited.storesAt c ((base c).toNat + o) = false →
        (s.run .readReset).env.arrayAt c o = s.env.arrayAt c o) ∧
  (∀ (s : State) (c : Chip) (n : Nat) (t : State), s.Ready → s.env.Contract → showHeard s.cfg →
    (s.env.chip.get c).mode ≠ .hiddenShown → s.Ends .showHidden n t → t.rc = 0x00#8 →
      (t.env.chip.get c).mode = .hiddenShown) ∧
  (∀ (s : State) (c : Chip) (n : Nat) (t : State), s.Ready → s.env.Contract → hideHeard s.cfg →
    (s.env.chip.get c).mode = .hiddenShown → s.Ends .hide n t → t.rc = 0x00#8 →
      (t.env.chip.get c).mode = .status)

/-- R259, R262, R263: under the contract the composite operations and the erases never send a chip
something that leaves its behaviour unspecified, and leave the contract in force at their end. -/
def Obligations.CompositesKeepContract : Prop :=
  ∀ (s : State) (i : Instr) (n : Nat) (t : State),
    (match i with
      | .chipErase => True
      | .hiddenErase => True
      | .readReset => True
      | .writeLoop _ _ => True
      | .writeRom _ => True
      | .writeMap _ => True
      | _ => False) →
    s.Released → s.env.Contract → i.wellFormed = true → s.cfg.pollLimit = none → s.Runs i n t →
      (∀ c, (t.env.chip.get c).mode ≠ .lost) ∧ (t.seq = .idle → t.env.Contract)

/-- R158 (a): under the contract, with an erase that completes without error, an image written `OK` is
verified `OK`. -/
def Obligations.RomRoundTrip : Prop :=
  ∀ (s : State) (buf : List Byte) (n : Nat) (t : State) (ev : List Event),
    s.Released → s.env.Contract → s.env.wf = true →
    s.Ends (.writeRom buf) n t → t.rc = 0x00#8 → t.trace = s.trace ++ ev →
    (∀ c, FirstReadyIsGood c ev) →
      ∃ u, exec (.verifyRom buf) t = .next u ∧ u.rc = 0x00#8 ∧ u.res.toNat = buf.length

/-- R173: under the contract, with a hidden erase that completes without error and show bytes the chips
can tell apart, a map written `OK` is verified `OK`. -/
def Obligations.MapRoundTrip : Prop :=
  ∀ (s : State) (map : List Byte) (n m : Nat) (t u : State) (ev : List Event),
    s.Released → s.env.Contract → s.env.wf = true → showHeard s.cfg →
    s.Ends (.writeMap map) n t → t.rc = 0x00#8 → t.trace = s.trace ++ ev →
    (∀ c, FirstReadyIsGood c ev) →
    t.Ends (.verifyMap map) m u → u.rc ≠ 0x05#8 → u.rc = 0x00#8 ∧ u.res = 1

/-- R79, R210, R211: with segments that lie apart, what `SRAM_WRITE` wrote `SRAM_VERIFY` finds,
whatever stands in the rest of the SRAM. That a write with protect released is stored is the model's
reading of what R79 leaves open (log 21). -/
def Obligations.SramRoundTrip : Prop :=
  ∀ (s : State) (buf : List Byte),
    s.Released → s.env.Contract → s.env.wf = true → sramApart s.cfg → buf.length ≤ 0x8000 →
      ∃ t u, exec (.sramWrite buf) s = .next t ∧ exec (.sramVerify buf) t = .next u ∧
        u.rc = 0x00#8 ∧ u.res = 1
end

