-- ==== Sys2Proof/Laws/Memory.lean ====
section
/-! SUPPORT. The laws of the byte memory: what a read gives after a write, and that every operation
keeps the canonical form. -/

namespace Sys2Proof.Machine

open Sys2Proof

@[simp] theorem Memory.read_nil (a : Nat) : Memory.read [] a = erasedByte := rfl

@[simp] theorem Memory.wf_nil : Memory.wf [] = true := rfl

theorem Memory.wfFrom_cons {lo k : Nat} {v : Byte} {m : Memory} :
    Memory.wfFrom lo ((k, v) :: m) = true ↔
      lo ≤ k ∧ v ≠ erasedByte ∧ Memory.wfFrom (k + 1) m = true := by
  simp [Memory.wfFrom, and_assoc]

theorem Memory.wfFrom_mono {lo lo' : Nat} {m : Memory} (h : lo' ≤ lo)
    (w : Memory.wfFrom lo m = true) : Memory.wfFrom lo' m = true := by
  cases m with
  | nil => rfl
  | cons c m =>
    obtain ⟨k, v⟩ := c
    rw [Memory.wfFrom_cons] at w ⊢
    exact ⟨by omega, w.2⟩

theorem Memory.wf_of_wfFrom {lo : Nat} {m : Memory} (w : Memory.wfFrom lo m = true) :
    m.wf = true := Memory.wfFrom_mono (Nat.zero_le lo) w

/-- Below the first entry nothing is listed. -/
theorem Memory.read_below {lo a : Nat} {m : Memory} (w : Memory.wfFrom lo m = true) (h : a < lo) :
    m.read a = erasedByte := by
  induction m generalizing lo with
  | nil => rfl
  | cons c m ih =>
    obtain ⟨k, v⟩ := c
    rw [Memory.wfFrom_cons] at w
    rw [Memory.read, if_neg (by omega)]
    exact ih w.2.2 (by omega)

theorem Memory.read_put_self {lo a : Nat} {b : Byte} {m : Memory} (w : Memory.wfFrom lo m = true)
    (h : a < lo) : (Memory.put a b m).read a = b := by
  unfold Memory.put
  split
  · next hb => rw [Memory.read_below w h, hb]
  · simp [Memory.read]

theorem Memory.read_put_other {a a' : Nat} {b : Byte} {m : Memory} (h : a ≠ a') :
    (Memory.put a b m).read a' = m.read a' := by
  unfold Memory.put
  split
  · rfl
  · simp [Memory.read, h]

theorem Memory.wfFrom_put {lo a : Nat} {b : Byte} {m : Memory} (hlo : lo ≤ a)
    (w : Memory.wfFrom (a + 1) m = true) : Memory.wfFrom lo (Memory.put a b m) = true := by
  unfold Memory.put
  split
  · exact Memory.wfFrom_mono (by omega) w
  · next hb => exact Memory.wfFrom_cons.2 ⟨hlo, hb, w⟩

theorem Memory.wfFrom_write {lo a : Nat} {b : Byte} {m : Memory} (hlo : lo ≤ a)
    (w : Memory.wfFrom lo m = true) : Memory.wfFrom lo (m.write a b) = true := by
  induction m generalizing lo with
  | nil => exact Memory.wfFrom_put hlo rfl
  | cons c m ih =>
    obtain ⟨k, v⟩ := c
    rw [Memory.wfFrom_cons] at w
    rw [Memory.write]
    split
    · next hk => exact Memory.wfFrom_cons.2 ⟨w.1, w.2.1, ih (by omega) w.2.2⟩
    · split
      · next hk => subst hk; exact Memory.wfFrom_put hlo w.2.2
      · exact Memory.wfFrom_put hlo (Memory.wfFrom_cons.2 ⟨by omega, w.2⟩)

/-- A write keeps the canonical form. -/
theorem Memory.wf_write {m : Memory} (a : Nat) (b : Byte) (w : m.wf = true) :
    (m.write a b).wf = true := Memory.wfFrom_write (Nat.zero_le a) w

/-- A read after a write to the same address gives the value written. -/
theorem Memory.read_write_self {m : Memory} (a : Nat) (b : Byte) (w : m.wf = true) :
    (m.write a b).read a = b := by
  suffices h : ∀ lo, Memory.wfFrom lo m = true → (m.write a b).read a = b from h 0 w
  clear w
  induction m with
  | nil => intro lo _; exact Memory.read_put_self (lo := a + 1) rfl (by omega)
  | cons c m ih =>
    intro lo w
    obtain ⟨k, v⟩ := c
    rw [Memory.wfFrom_cons] at w
    rw [Memory.write]
    split
    · rw [Memory.read, if_neg (by omega)]; exact ih _ w.2.2
    · split
      · next hk => exact Memory.read_put_self w.2.2 (by omega)
      · exact Memory.read_put_self (lo := k) (Memory.wfFrom_cons.2 ⟨le_refl k, w.2⟩) (by omega)

/-- A write leaves every other address alone. -/
theorem Memory.read_write_other {m : Memory} {a a' : Nat} (b : Byte) (h : a ≠ a') :
    (m.write a b).read a' = m.read a' := by
  induction m with
  | nil => exact Memory.read_put_other h
  | cons c m ih =>
    obtain ⟨k, v⟩ := c
    rw [Memory.write]
    split
    · simp only [Memory.read]; rw [ih]
    · split
      · next hk => subst hk; rw [Memory.read_put_other h, Memory.read, if_neg h]
      · exact Memory.read_put_other h

theorem Memory.wf_writeBytes {m : Memory} (a : Nat) (bs : List Byte) (w : m.wf = true) :
    (m.writeBytes a bs).wf = true := by
  induction bs generalizing m a with
  | nil => exact w
  | cons b bs ih => exact ih _ (Memory.wf_write a b w)

/-! ### Bounds -/

theorem Memory.within_put {n a : Nat} (b : Byte) {m : Memory} (h : m.within n = true) (ha : a < n) :
    (Memory.put a b m).within n = true := by
  unfold Memory.put
  split
  · exact h
  · simpa [Memory.within, ha] using h

theorem Memory.within_write {n a : Nat} (b : Byte) {m : Memory} (h : m.within n = true) (ha : a < n) :
    (m.write a b).within n = true := by
  induction m with
  | nil => exact Memory.within_put b h ha
  | cons cell m ih =>
    obtain ⟨k, v⟩ := cell
    have hk : k < n ∧ Memory.within n m = true := by simpa [Memory.within] using h
    unfold Memory.write
    split
    · simpa [Memory.within, hk.1] using ih hk.2
    · split
      · exact Memory.within_put b hk.2 ha
      · exact Memory.within_put b h ha

theorem Memory.within_writeBytes {n a : Nat} {m : Memory} {bs : List Byte} (h : m.within n = true)
    (ha : a + bs.length ≤ n) : (m.writeBytes a bs).within n = true := by
  induction bs generalizing m a with
  | nil => exact h
  | cons b bs ih =>
    simp only [List.length_cons] at ha
    exact ih (Memory.within_write b h (by omega)) (by omega)

/-- A block write leaves every address outside the block alone. -/
theorem Memory.read_writeBytes_outside {m : Memory} {a a' : Nat} {bs : List Byte}
    (h : a' < a ∨ a + bs.length ≤ a') : (m.writeBytes a bs).read a' = m.read a' := by
  induction bs generalizing m a with
  | nil => rfl
  | cons b bs ih =>
    simp only [List.length_cons] at h
    rw [Memory.writeBytes, ih (by omega), Memory.read_write_other b (by omega)]

/-- Index `i` of a block stands at `a + i`. -/
theorem Memory.read_writeBytes_inside {m : Memory} {a i : Nat} {bs : List Byte} (w : m.wf = true)
    (h : i < bs.length) : (m.writeBytes a bs).read (a + i) = bs[i] := by
  induction bs generalizing m a i with
  | nil => simp at h
  | cons b bs ih =>
    rw [Memory.writeBytes]
    cases i with
    | zero =>
      rw [Memory.read_writeBytes_outside (by omega)]
      simpa using Memory.read_write_self a b w
    | succ i =>
      simp only [List.length_cons] at h
      have := ih (m := m.write a b) (a := a + 1) (Memory.wf_write a b w) (i := i) (by omega)
      rw [show a + (i + 1) = a + 1 + i by omega, this]
      simp

@[simp] theorem Memory.readBytes_length (m : Memory) (a n : Nat) :
    (m.readBytes a n).length = n := by
  induction n generalizing a with
  | zero => rfl
  | succ n ih => simp [Memory.readBytes, ih]

theorem Memory.getElem_readBytes {m : Memory} {a n i : Nat} (h : i < (m.readBytes a n).length) :
    (m.readBytes a n)[i] = m.read (a + i) := by
  induction n generalizing a i with
  | zero => simp [Memory.readBytes] at h
  | succ n ih =>
    cases i with
    | zero => simp [Memory.readBytes]
    | succ i =>
      simp only [Memory.readBytes, List.getElem_cons_succ]
      rw [ih]
      congr 1
      omega

theorem Memory.readBytes_eq_iff {m : Memory} {a n : Nat} {bs : List Byte} :
    m.readBytes a n = bs ↔ bs.length = n ∧ ∀ i, (h : i < bs.length) → m.read (a + i) = bs[i] := by
  constructor
  · rintro rfl
    refine ⟨by simp, fun i h => ?_⟩
    rw [Memory.getElem_readBytes]
  · rintro ⟨hl, h⟩
    apply List.ext_getElem (by simp [hl])
    intro i h1 h2
    rw [Memory.getElem_readBytes, h i h2]

theorem Memory.readBytes_congr {m m' : Memory} {a n : Nat}
    (h : ∀ i, i < n → m.read (a + i) = m'.read (a + i)) : m.readBytes a n = m'.readBytes a n := by
  refine Memory.readBytes_eq_iff.2 ⟨by simp, fun i hi => ?_⟩
  rw [Memory.getElem_readBytes]
  exact h i (by simpa using hi)

/-- A block reads back as it was written. -/
theorem Memory.readBytes_writeBytes {m : Memory} (a : Nat) (bs : List Byte) (w : m.wf = true) :
    (m.writeBytes a bs).readBytes a bs.length = bs :=
  Memory.readBytes_eq_iff.2 ⟨rfl, fun _ h => Memory.read_writeBytes_inside w h⟩

theorem Memory.wfFrom_clear {lo b n : Nat} {m : Memory} (w : Memory.wfFrom lo m = true) :
    Memory.wfFrom lo (m.clear b n) = true := by
  induction m generalizing lo with
  | nil => rfl
  | cons c m ih =>
    obtain ⟨k, v⟩ := c
    rw [Memory.wfFrom_cons] at w
    have hm := ih w.2.2
    unfold Memory.clear at hm ⊢
    rw [List.filter_cons]
    split
    · exact Memory.wfFrom_cons.2 ⟨w.1, w.2.1, hm⟩
    · exact Memory.wfFrom_mono (by omega) hm

/-- Erasing a range keeps the canonical form. -/
theorem Memory.wf_clear {m : Memory} (b n : Nat) (w : m.wf = true) : (m.clear b n).wf = true :=
  Memory.wfFrom_clear w

/-- An erased byte reads as erased, and every other byte is left alone. -/
theorem Memory.read_clear {m : Memory} (b n a : Nat) :
    (m.clear b n).read a = if b ≤ a ∧ a < b + n then erasedByte else m.read a := by
  induction m with
  | nil => simp [Memory.clear]
  | cons c m ih =>
    obtain ⟨k, v⟩ := c
    unfold Memory.clear at ih ⊢
    rw [List.filter_cons]
    split
    · next hk =>
      simp only [Memory.read, ih]
      simp at hk
      by_cases hka : k = a
      · subst hka; rw [if_pos rfl, if_neg (by omega), if_pos rfl]
      · simp [hka]
    · next hk =>
      rw [ih]
      simp at hk
      by_cases hr : b ≤ a ∧ a < b + n
      · simp [hr]
      · rw [if_neg hr, if_neg hr, Memory.read, if_neg (by omega)]

/-- Equal memories are equal data: two canonical memories that read alike are the same. -/
theorem Memory.ext_of_wf {m m' : Memory} (w : m.wf = true) (w' : m'.wf = true)
    (h : ∀ a, m.read a = m'.read a) : m = m' := by
  suffices key : ∀ lo lo', Memory.wfFrom lo m = true → Memory.wfFrom lo' m' = true → m = m' from
    key 0 0 w w'
  clear w w'
  induction m generalizing m' with
  | nil =>
    intro lo lo' _ w'
    cases m' with
    | nil => rfl
    | cons c m' =>
      obtain ⟨k, v⟩ := c
      have := h k
      rw [Memory.wfFrom_cons] at w'
      simp [Memory.read] at this
      exact absurd this.symm w'.2.1
  | cons c m ih =>
    intro lo lo' w w'
    obtain ⟨k, v⟩ := c
    rw [Memory.wfFrom_cons] at w
    cases m' with
    | nil =>
      have := h k
      simp [Memory.read] at this
      exact absurd this w.2.1
    | cons c' m' =>
      obtain ⟨k', v'⟩ := c'
      rw [Memory.wfFrom_cons] at w'
      have below : ∀ {a lo : Nat} {n : Memory}, Memory.wfFrom (lo + 1) n = true → a ≤ lo →
          n.read a = erasedByte := fun wn ha => Memory.read_below wn (by omega)
      have hk : k = k' := by
        rcases Nat.lt_trichotomy k k' with hlt | heq | hgt
        · have := h k
          rw [Memory.read, if_pos rfl, Memory.read, if_neg (by omega), below w'.2.2 (by omega)] at this
          exact absurd this w.2.1
        · exact heq
        · have := h k'
          rw [Memory.read, if_neg (by omega), below w.2.2 (by omega), Memory.read, if_pos rfl] at this
          exact absurd this.symm w'.2.1
      subst hk
      have hv : v = v' := by simpa [Memory.read] using h k
      subst hv
      congr 1
      refine ih (fun a => ?_) _ _ w.2.2 w'.2.2
      by_cases ha : a ≤ k
      · rw [below w.2.2 ha, below w'.2.2 ha]
      · have := h a
        rwa [Memory.read, if_neg (by omega), Memory.read, if_neg (by omega)] at this

end Sys2Proof.Machine
end

