-- ==== Sys2Proof/Laws/State.lean ====
section
/-! SUPPORT. What each update of a state does to each field, so that no proof unfolds an update. -/

namespace Sys2Proof.Machine

open Sys2Proof

/-! ### Per-chip registers -/

@[simp] theorem PerChip_get_set_self {α : Type} (p : PerChip α) (c : Chip) (v : α) :
    (p.set c v).get c = v := by cases c <;> rfl

@[simp] theorem PerChip_get_set_other {α : Type} (p : PerChip α) (c : Chip) (v : α) :
    (p.set c v).get c.other = p.get c.other := by cases c <;> rfl

theorem PerChip_get_set_of_ne {α : Type} (p : PerChip α) {c d : Chip} (v : α) (h : d ≠ c) :
    (p.set c v).get d = p.get d := by cases c <;> cases d <;> first | rfl | exact absurd rfl h

@[simp] theorem PerChip_get_a {α : Type} (x y : α) : (PerChip.mk x y).get .a = x := rfl

@[simp] theorem PerChip_get_b {α : Type} (x y : α) : (PerChip.mk x y).get .b = y := rfl

@[simp] theorem PerChip_set_a {α : Type} (x y v : α) : (PerChip.mk x y).set .a v = ⟨v, y⟩ := rfl

@[simp] theorem PerChip_set_b {α : Type} (x y v : α) : (PerChip.mk x y).set .b v = ⟨x, v⟩ := rfl

/-! ### `memWrite` -/

@[simp] theorem memWrite_cfg (s : State) (addr : Addr) (v : List Byte) :
    (s.memWrite addr v).cfg = s.cfg := rfl

@[simp] theorem memWrite_inbox (s : State) (addr : Addr) (v : List Byte) :
    (s.memWrite addr v).inbox = s.inbox := rfl

@[simp] theorem memWrite_seq (s : State) (addr : Addr) (v : List Byte) :
    (s.memWrite addr v).seq = s.seq := rfl

@[simp] theorem memWrite_sess (s : State) (addr : Addr) (v : List Byte) :
    (s.memWrite addr v).sess = s.sess := rfl

@[simp] theorem memWrite_wpr (s : State) (addr : Addr) (v : List Byte) :
    (s.memWrite addr v).wpr = s.wpr := rfl

@[simp] theorem memWrite_slot (s : State) (addr : Addr) (v : List Byte) :
    (s.memWrite addr v).slot = s.slot := rfl

@[simp] theorem memWrite_dend (s : State) (addr : Addr) (v : List Byte) :
    (s.memWrite addr v).dend = s.dend := rfl

@[simp] theorem memWrite_rc (s : State) (addr : Addr) (v : List Byte) :
    (s.memWrite addr v).rc = s.rc := rfl

@[simp] theorem memWrite_res (s : State) (addr : Addr) (v : List Byte) :
    (s.memWrite addr v).res = s.res := rfl

@[simp] theorem memWrite_ent (s : State) (addr : Addr) (v : List Byte) :
    (s.memWrite addr v).ent = s.ent := rfl

@[simp] theorem memWrite_cur (s : State) (addr : Addr) (v : List Byte) :
    (s.memWrite addr v).cur = s.cur := rfl

@[simp] theorem memWrite_len (s : State) (addr : Addr) (v : List Byte) :
    (s.memWrite addr v).len = s.len := rfl

@[simp] theorem memWrite_voff (s : State) (addr : Addr) (v : List Byte) :
    (s.memWrite addr v).voff = s.voff := rfl

@[simp] theorem memWrite_st (s : State) (addr : Addr) (v : List Byte) :
    (s.memWrite addr v).st = s.st := rfl

@[simp] theorem memWrite_pcnt (s : State) (addr : Addr) (v : List Byte) :
    (s.memWrite addr v).pcnt = s.pcnt := rfl

@[simp] theorem memWrite_busy (s : State) (addr : Addr) (v : List Byte) :
    (s.memWrite addr v).busy = s.busy := rfl

@[simp] theorem memWrite_abort (s : State) (addr : Addr) (v : List Byte) :
    (s.memWrite addr v).abort = s.abort := rfl

@[simp] theorem memWrite_err (s : State) (addr : Addr) (v : List Byte) :
    (s.memWrite addr v).err = s.err := rfl

@[simp] theorem memWrite_pbuf (s : State) (addr : Addr) (v : List Byte) :
    (s.memWrite addr v).pbuf = s.pbuf := rfl

@[simp] theorem memWrite_rbuf (s : State) (addr : Addr) (v : List Byte) :
    (s.memWrite addr v).rbuf = s.rbuf := rfl

@[simp] theorem memWrite_trace (s : State) (addr : Addr) (v : List Byte) :
    (s.memWrite addr v).trace = s.trace ++ [.write addr v] := rfl

@[simp] theorem memWrite_progress (s : State) (addr : Addr) (v : List Byte) :
    (s.memWrite addr v).progress = s.progress := rfl

@[simp] theorem memWrite_env (s : State) (addr : Addr) (v : List Byte) :
    (s.memWrite addr v).env = s.env.write s.cfg addr v := rfl

/-! ### `memRead` -/

@[simp] theorem memRead_cfg (s : State) (addr : Addr) (n : Nat) :
    (s.memRead addr n).2.cfg = s.cfg := rfl

@[simp] theorem memRead_inbox (s : State) (addr : Addr) (n : Nat) :
    (s.memRead addr n).2.inbox = s.inbox := rfl

@[simp] theorem memRead_seq (s : State) (addr : Addr) (n : Nat) :
    (s.memRead addr n).2.seq = s.seq := rfl

@[simp] theorem memRead_sess (s : State) (addr : Addr) (n : Nat) :
    (s.memRead addr n).2.sess = s.sess := rfl

@[simp] theorem memRead_wpr (s : State) (addr : Addr) (n : Nat) :
    (s.memRead addr n).2.wpr = s.wpr := rfl

@[simp] theorem memRead_slot (s : State) (addr : Addr) (n : Nat) :
    (s.memRead addr n).2.slot = s.slot := rfl

@[simp] theorem memRead_dend (s : State) (addr : Addr) (n : Nat) :
    (s.memRead addr n).2.dend = s.dend := rfl

@[simp] theorem memRead_rc (s : State) (addr : Addr) (n : Nat) :
    (s.memRead addr n).2.rc = s.rc := rfl

@[simp] theorem memRead_res (s : State) (addr : Addr) (n : Nat) :
    (s.memRead addr n).2.res = s.res := rfl

@[simp] theorem memRead_ent (s : State) (addr : Addr) (n : Nat) :
    (s.memRead addr n).2.ent = s.ent := rfl

@[simp] theorem memRead_cur (s : State) (addr : Addr) (n : Nat) :
    (s.memRead addr n).2.cur = s.cur := rfl

@[simp] theorem memRead_len (s : State) (addr : Addr) (n : Nat) :
    (s.memRead addr n).2.len = s.len := rfl

@[simp] theorem memRead_voff (s : State) (addr : Addr) (n : Nat) :
    (s.memRead addr n).2.voff = s.voff := rfl

@[simp] theorem memRead_st (s : State) (addr : Addr) (n : Nat) :
    (s.memRead addr n).2.st = s.st := rfl

@[simp] theorem memRead_pcnt (s : State) (addr : Addr) (n : Nat) :
    (s.memRead addr n).2.pcnt = s.pcnt := rfl

@[simp] theorem memRead_busy (s : State) (addr : Addr) (n : Nat) :
    (s.memRead addr n).2.busy = s.busy := rfl

@[simp] theorem memRead_abort (s : State) (addr : Addr) (n : Nat) :
    (s.memRead addr n).2.abort = s.abort := rfl

@[simp] theorem memRead_err (s : State) (addr : Addr) (n : Nat) :
    (s.memRead addr n).2.err = s.err := rfl

@[simp] theorem memRead_pbuf (s : State) (addr : Addr) (n : Nat) :
    (s.memRead addr n).2.pbuf = s.pbuf := rfl

@[simp] theorem memRead_rbuf (s : State) (addr : Addr) (n : Nat) :
    (s.memRead addr n).2.rbuf = s.rbuf := rfl

@[simp] theorem memRead_trace (s : State) (addr : Addr) (n : Nat) :
    (s.memRead addr n).2.trace = s.trace ++ [.read addr (s.env.read s.cfg addr n).1] := rfl

@[simp] theorem memRead_progress (s : State) (addr : Addr) (n : Nat) :
    (s.memRead addr n).2.progress = s.progress := rfl

@[simp] theorem memRead_env (s : State) (addr : Addr) (n : Nat) :
    (s.memRead addr n).2.env = (s.env.read s.cfg addr n).2 := rfl

/-! ### `readByte` -/

@[simp] theorem readByte_cfg (s : State) (addr : Addr) :
    (s.readByte addr).2.cfg = s.cfg := rfl

@[simp] theorem readByte_inbox (s : State) (addr : Addr) :
    (s.readByte addr).2.inbox = s.inbox := rfl

@[simp] theorem readByte_seq (s : State) (addr : Addr) :
    (s.readByte addr).2.seq = s.seq := rfl

@[simp] theorem readByte_sess (s : State) (addr : Addr) :
    (s.readByte addr).2.sess = s.sess := rfl

@[simp] theorem readByte_wpr (s : State) (addr : Addr) :
    (s.readByte addr).2.wpr = s.wpr := rfl

@[simp] theorem readByte_slot (s : State) (addr : Addr) :
    (s.readByte addr).2.slot = s.slot := rfl

@[simp] theorem readByte_dend (s : State) (addr : Addr) :
    (s.readByte addr).2.dend = s.dend := rfl

@[simp] theorem readByte_rc (s : State) (addr : Addr) :
    (s.readByte addr).2.rc = s.rc := rfl

@[simp] theorem readByte_res (s : State) (addr : Addr) :
    (s.readByte addr).2.res = s.res := rfl

@[simp] theorem readByte_ent (s : State) (addr : Addr) :
    (s.readByte addr).2.ent = s.ent := rfl

@[simp] theorem readByte_cur (s : State) (addr : Addr) :
    (s.readByte addr).2.cur = s.cur := rfl

@[simp] theorem readByte_len (s : State) (addr : Addr) :
    (s.readByte addr).2.len = s.len := rfl

@[simp] theorem readByte_voff (s : State) (addr : Addr) :
    (s.readByte addr).2.voff = s.voff := rfl

@[simp] theorem readByte_st (s : State) (addr : Addr) :
    (s.readByte addr).2.st = s.st := rfl

@[simp] theorem readByte_pcnt (s : State) (addr : Addr) :
    (s.readByte addr).2.pcnt = s.pcnt := rfl

@[simp] theorem readByte_busy (s : State) (addr : Addr) :
    (s.readByte addr).2.busy = s.busy := rfl

@[simp] theorem readByte_abort (s : State) (addr : Addr) :
    (s.readByte addr).2.abort = s.abort := rfl

@[simp] theorem readByte_err (s : State) (addr : Addr) :
    (s.readByte addr).2.err = s.err := rfl

@[simp] theorem readByte_pbuf (s : State) (addr : Addr) :
    (s.readByte addr).2.pbuf = s.pbuf := rfl

@[simp] theorem readByte_rbuf (s : State) (addr : Addr) :
    (s.readByte addr).2.rbuf = s.rbuf := rfl

@[simp] theorem readByte_trace (s : State) (addr : Addr) :
    (s.readByte addr).2.trace = s.trace ++ [.read addr (s.env.read s.cfg addr 1).1] := rfl

@[simp] theorem readByte_progress (s : State) (addr : Addr) :
    (s.readByte addr).2.progress = s.progress := rfl

@[simp] theorem readByte_env (s : State) (addr : Addr) :
    (s.readByte addr).2.env = (s.env.read s.cfg addr 1).2 := rfl

/-! ### `notify` -/

@[simp] theorem notify_cfg (s : State) (k : Nat) :
    (s.notify k).cfg = s.cfg := rfl

@[simp] theorem notify_inbox (s : State) (k : Nat) :
    (s.notify k).inbox = s.inbox := rfl

@[simp] theorem notify_seq (s : State) (k : Nat) :
    (s.notify k).seq = s.seq := rfl

@[simp] theorem notify_sess (s : State) (k : Nat) :
    (s.notify k).sess = s.sess := rfl

@[simp] theorem notify_wpr (s : State) (k : Nat) :
    (s.notify k).wpr = s.wpr := rfl

@[simp] theorem notify_slot (s : State) (k : Nat) :
    (s.notify k).slot = s.slot := rfl

@[simp] theorem notify_dend (s : State) (k : Nat) :
    (s.notify k).dend = s.dend := rfl

@[simp] theorem notify_rc (s : State) (k : Nat) :
    (s.notify k).rc = s.rc := rfl

@[simp] theorem notify_res (s : State) (k : Nat) :
    (s.notify k).res = s.res := rfl

@[simp] theorem notify_ent (s : State) (k : Nat) :
    (s.notify k).ent = s.ent := rfl

@[simp] theorem notify_cur (s : State) (k : Nat) :
    (s.notify k).cur = s.cur := rfl

@[simp] theorem notify_len (s : State) (k : Nat) :
    (s.notify k).len = s.len := rfl

@[simp] theorem notify_voff (s : State) (k : Nat) :
    (s.notify k).voff = s.voff := rfl

@[simp] theorem notify_st (s : State) (k : Nat) :
    (s.notify k).st = s.st := rfl

@[simp] theorem notify_pcnt (s : State) (k : Nat) :
    (s.notify k).pcnt = s.pcnt := rfl

@[simp] theorem notify_busy (s : State) (k : Nat) :
    (s.notify k).busy = s.busy := rfl

@[simp] theorem notify_abort (s : State) (k : Nat) :
    (s.notify k).abort = s.abort := rfl

@[simp] theorem notify_err (s : State) (k : Nat) :
    (s.notify k).err = s.err := rfl

@[simp] theorem notify_pbuf (s : State) (k : Nat) :
    (s.notify k).pbuf = s.pbuf := rfl

@[simp] theorem notify_rbuf (s : State) (k : Nat) :
    (s.notify k).rbuf = s.rbuf := rfl

@[simp] theorem notify_trace (s : State) (k : Nat) :
    (s.notify k).trace = s.trace := rfl

@[simp] theorem notify_progress (s : State) (k : Nat) :
    (s.notify k).progress = s.progress ++ [k] := rfl

@[simp] theorem notify_env (s : State) (k : Nat) :
    (s.notify k).env = s.env := rfl

/-! ### `finish` -/

@[simp] theorem finish_cfg (s : State) (rc : BitVec 8) (res : BitVec 24) :
    (s.finish rc res).cfg = s.cfg := rfl

@[simp] theorem finish_inbox (s : State) (rc : BitVec 8) (res : BitVec 24) :
    (s.finish rc res).inbox = s.inbox := rfl

@[simp] theorem finish_seq (s : State) (rc : BitVec 8) (res : BitVec 24) :
    (s.finish rc res).seq = .idle := rfl

@[simp] theorem finish_sess (s : State) (rc : BitVec 8) (res : BitVec 24) :
    (s.finish rc res).sess = s.sess := rfl

@[simp] theorem finish_wpr (s : State) (rc : BitVec 8) (res : BitVec 24) :
    (s.finish rc res).wpr = s.wpr := rfl

@[simp] theorem finish_slot (s : State) (rc : BitVec 8) (res : BitVec 24) :
    (s.finish rc res).slot = s.slot := rfl

@[simp] theorem finish_dend (s : State) (rc : BitVec 8) (res : BitVec 24) :
    (s.finish rc res).dend = s.dend := rfl

@[simp] theorem finish_rc (s : State) (rc : BitVec 8) (res : BitVec 24) :
    (s.finish rc res).rc = rc := rfl

@[simp] theorem finish_res (s : State) (rc : BitVec 8) (res : BitVec 24) :
    (s.finish rc res).res = res := rfl

@[simp] theorem finish_ent (s : State) (rc : BitVec 8) (res : BitVec 24) :
    (s.finish rc res).ent = s.ent := rfl

@[simp] theorem finish_cur (s : State) (rc : BitVec 8) (res : BitVec 24) :
    (s.finish rc res).cur = s.cur := rfl

@[simp] theorem finish_len (s : State) (rc : BitVec 8) (res : BitVec 24) :
    (s.finish rc res).len = s.len := rfl

@[simp] theorem finish_voff (s : State) (rc : BitVec 8) (res : BitVec 24) :
    (s.finish rc res).voff = s.voff := rfl

@[simp] theorem finish_st (s : State) (rc : BitVec 8) (res : BitVec 24) :
    (s.finish rc res).st = s.st := rfl

@[simp] theorem finish_pcnt (s : State) (rc : BitVec 8) (res : BitVec 24) :
    (s.finish rc res).pcnt = s.pcnt := rfl

@[simp] theorem finish_busy (s : State) (rc : BitVec 8) (res : BitVec 24) :
    (s.finish rc res).busy = s.busy := rfl

@[simp] theorem finish_abort (s : State) (rc : BitVec 8) (res : BitVec 24) :
    (s.finish rc res).abort = s.abort := rfl

@[simp] theorem finish_err (s : State) (rc : BitVec 8) (res : BitVec 24) :
    (s.finish rc res).err = s.err := rfl

@[simp] theorem finish_pbuf (s : State) (rc : BitVec 8) (res : BitVec 24) :
    (s.finish rc res).pbuf = s.pbuf := rfl

@[simp] theorem finish_rbuf (s : State) (rc : BitVec 8) (res : BitVec 24) :
    (s.finish rc res).rbuf = s.rbuf := rfl

@[simp] theorem finish_trace (s : State) (rc : BitVec 8) (res : BitVec 24) :
    (s.finish rc res).trace = s.trace := rfl

@[simp] theorem finish_progress (s : State) (rc : BitVec 8) (res : BitVec 24) :
    (s.finish rc res).progress = s.progress := rfl

@[simp] theorem finish_env (s : State) (rc : BitVec 8) (res : BitVec 24) :
    (s.finish rc res).env = s.env := rfl

/-! ### `look` -/

@[simp] theorem look_cfg (s : State) (c : Chip) :
    (s.look c).2.cfg = s.cfg := rfl

@[simp] theorem look_inbox (s : State) (c : Chip) :
    (s.look c).2.inbox = s.inbox := rfl

@[simp] theorem look_seq (s : State) (c : Chip) :
    (s.look c).2.seq = s.seq := rfl

@[simp] theorem look_sess (s : State) (c : Chip) :
    (s.look c).2.sess = s.sess := rfl

@[simp] theorem look_wpr (s : State) (c : Chip) :
    (s.look c).2.wpr = s.wpr := rfl

@[simp] theorem look_slot (s : State) (c : Chip) :
    (s.look c).2.slot = s.slot := rfl

@[simp] theorem look_dend (s : State) (c : Chip) :
    (s.look c).2.dend = s.dend := rfl

@[simp] theorem look_rc (s : State) (c : Chip) :
    (s.look c).2.rc = s.rc := rfl

@[simp] theorem look_res (s : State) (c : Chip) :
    (s.look c).2.res = s.res := rfl

@[simp] theorem look_ent (s : State) (c : Chip) :
    (s.look c).2.ent = s.ent := rfl

@[simp] theorem look_cur (s : State) (c : Chip) :
    (s.look c).2.cur = s.cur := rfl

@[simp] theorem look_len (s : State) (c : Chip) :
    (s.look c).2.len = s.len := rfl

@[simp] theorem look_voff (s : State) (c : Chip) :
    (s.look c).2.voff = s.voff := rfl

@[simp] theorem look_st (s : State) (c : Chip) :
    (s.look c).2.st = s.st.set c (s.readByte (base c)).1 := rfl

@[simp] theorem look_pcnt (s : State) (c : Chip) :
    (s.look c).2.pcnt = s.pcnt := rfl

@[simp] theorem look_busy (s : State) (c : Chip) :
    (s.look c).2.busy = s.busy := rfl

@[simp] theorem look_abort (s : State) (c : Chip) :
    (s.look c).2.abort = s.abort := rfl

@[simp] theorem look_err (s : State) (c : Chip) :
    (s.look c).2.err = s.err := rfl

@[simp] theorem look_pbuf (s : State) (c : Chip) :
    (s.look c).2.pbuf = s.pbuf := rfl

@[simp] theorem look_rbuf (s : State) (c : Chip) :
    (s.look c).2.rbuf = s.rbuf := rfl

@[simp] theorem look_trace (s : State) (c : Chip) :
    (s.look c).2.trace = s.trace ++ [.read (base c) (s.env.read s.cfg (base c) 1).1] := rfl

@[simp] theorem look_progress (s : State) (c : Chip) :
    (s.look c).2.progress = s.progress := rfl

@[simp] theorem look_env (s : State) (c : Chip) :
    (s.look c).2.env = (s.env.read s.cfg (base c) 1).2 := rfl

/-! ### `poll` -/

@[simp] theorem poll_cfg (s : State) (addr : Addr) :
    (s.poll addr).2.cfg = s.cfg := rfl

@[simp] theorem poll_inbox (s : State) (addr : Addr) :
    (s.poll addr).2.inbox = s.inbox := rfl

@[simp] theorem poll_seq (s : State) (addr : Addr) :
    (s.poll addr).2.seq = s.seq := rfl

@[simp] theorem poll_sess (s : State) (addr : Addr) :
    (s.poll addr).2.sess = s.sess := rfl

@[simp] theorem poll_wpr (s : State) (addr : Addr) :
    (s.poll addr).2.wpr = s.wpr := rfl

@[simp] theorem poll_slot (s : State) (addr : Addr) :
    (s.poll addr).2.slot = s.slot := rfl

@[simp] theorem poll_dend (s : State) (addr : Addr) :
    (s.poll addr).2.dend = s.dend := rfl

@[simp] theorem poll_rc (s : State) (addr : Addr) :
    (s.poll addr).2.rc = s.rc := rfl

@[simp] theorem poll_res (s : State) (addr : Addr) :
    (s.poll addr).2.res = s.res := rfl

@[simp] theorem poll_ent (s : State) (addr : Addr) :
    (s.poll addr).2.ent = s.ent := rfl

@[simp] theorem poll_cur (s : State) (addr : Addr) :
    (s.poll addr).2.cur = s.cur := rfl

@[simp] theorem poll_len (s : State) (addr : Addr) :
    (s.poll addr).2.len = s.len := rfl

@[simp] theorem poll_voff (s : State) (addr : Addr) :
    (s.poll addr).2.voff = s.voff := rfl

@[simp] theorem poll_st (s : State) (addr : Addr) :
    (s.poll addr).2.st = s.st.set (chipOf addr) (s.readByte addr).1 := rfl

@[simp] theorem poll_pcnt (s : State) (addr : Addr) :
    (s.poll addr).2.pcnt = s.pcnt + 1 := rfl

@[simp] theorem poll_busy (s : State) (addr : Addr) :
    (s.poll addr).2.busy = s.busy := rfl

@[simp] theorem poll_abort (s : State) (addr : Addr) :
    (s.poll addr).2.abort = s.abort := rfl

@[simp] theorem poll_err (s : State) (addr : Addr) :
    (s.poll addr).2.err = s.err := rfl

@[simp] theorem poll_pbuf (s : State) (addr : Addr) :
    (s.poll addr).2.pbuf = s.pbuf := rfl

@[simp] theorem poll_rbuf (s : State) (addr : Addr) :
    (s.poll addr).2.rbuf = s.rbuf := rfl

@[simp] theorem poll_trace (s : State) (addr : Addr) :
    (s.poll addr).2.trace = s.trace ++ [.read addr (s.env.read s.cfg addr 1).1] := rfl

@[simp] theorem poll_progress (s : State) (addr : Addr) :
    (s.poll addr).2.progress = s.progress := rfl

@[simp] theorem poll_env (s : State) (addr : Addr) :
    (s.poll addr).2.env = (s.env.read s.cfg addr 1).2 := rfl

/-! ### `afterWrites` -/

@[simp] theorem afterWrites_cfg (s : State) (ws : List BusWrite) :
    (s.afterWrites ws).cfg = s.cfg := rfl

@[simp] theorem afterWrites_inbox (s : State) (ws : List BusWrite) :
    (s.afterWrites ws).inbox = s.inbox := rfl

@[simp] theorem afterWrites_seq (s : State) (ws : List BusWrite) :
    (s.afterWrites ws).seq = s.seq := rfl

@[simp] theorem afterWrites_sess (s : State) (ws : List BusWrite) :
    (s.afterWrites ws).sess = s.sess := rfl

@[simp] theorem afterWrites_wpr (s : State) (ws : List BusWrite) :
    (s.afterWrites ws).wpr = s.wpr := rfl

@[simp] theorem afterWrites_slot (s : State) (ws : List BusWrite) :
    (s.afterWrites ws).slot = s.slot := rfl

@[simp] theorem afterWrites_dend (s : State) (ws : List BusWrite) :
    (s.afterWrites ws).dend = s.dend := rfl

@[simp] theorem afterWrites_rc (s : State) (ws : List BusWrite) :
    (s.afterWrites ws).rc = s.rc := rfl

@[simp] theorem afterWrites_res (s : State) (ws : List BusWrite) :
    (s.afterWrites ws).res = s.res := rfl

@[simp] theorem afterWrites_ent (s : State) (ws : List BusWrite) :
    (s.afterWrites ws).ent = s.ent := rfl

@[simp] theorem afterWrites_cur (s : State) (ws : List BusWrite) :
    (s.afterWrites ws).cur = s.cur := rfl

@[simp] theorem afterWrites_len (s : State) (ws : List BusWrite) :
    (s.afterWrites ws).len = s.len := rfl

@[simp] theorem afterWrites_voff (s : State) (ws : List BusWrite) :
    (s.afterWrites ws).voff = s.voff := rfl

@[simp] theorem afterWrites_st (s : State) (ws : List BusWrite) :
    (s.afterWrites ws).st = s.st := rfl

@[simp] theorem afterWrites_pcnt (s : State) (ws : List BusWrite) :
    (s.afterWrites ws).pcnt = s.pcnt := rfl

@[simp] theorem afterWrites_busy (s : State) (ws : List BusWrite) :
    (s.afterWrites ws).busy = s.busy := rfl

@[simp] theorem afterWrites_abort (s : State) (ws : List BusWrite) :
    (s.afterWrites ws).abort = s.abort := rfl

@[simp] theorem afterWrites_err (s : State) (ws : List BusWrite) :
    (s.afterWrites ws).err = s.err := rfl

@[simp] theorem afterWrites_pbuf (s : State) (ws : List BusWrite) :
    (s.afterWrites ws).pbuf = s.pbuf := rfl

@[simp] theorem afterWrites_rbuf (s : State) (ws : List BusWrite) :
    (s.afterWrites ws).rbuf = s.rbuf := rfl

@[simp] theorem afterWrites_trace (s : State) (ws : List BusWrite) :
    (s.afterWrites ws).trace = s.trace ++ wrote ws := rfl

@[simp] theorem afterWrites_progress (s : State) (ws : List BusWrite) :
    (s.afterWrites ws).progress = s.progress := rfl

@[simp] theorem afterWrites_env (s : State) (ws : List BusWrite) :
    (s.afterWrites ws).env = s.env.after s.cfg ws := rfl

/-! ### The ends of an operation are `finish` -/

@[simp] theorem succeed_eq (s : State) (res : BitVec 24) : s.succeed res = s.finish rcOk res := rfl

@[simp] theorem raise_eq (s : State) (cause : Cause) (info : BitVec 24) :
    s.raise cause info = s.finish cause.code info := rfl

@[simp] theorem refuse_eq (s : State) (cause : Cause) : s.refuse cause = s.finish cause.code 0 := rfl

end Sys2Proof.Machine
end

