-- ==== Sys2Proof/Laws/Env.lean ====
section
/-! SUPPORT. What the environment's responses can do: one lemma per response about its length, about
the memory it may change and about `Env.wf`, which every response keeps. -/

namespace Sys2Proof.Machine

open Sys2Proof

/-! ### Draws -/

@[simp] theorem Env.draw_mem (e : Env) : e.draw.2.mem = e.mem := by
  unfold Env.draw; split <;> rfl

@[simp] theorem Env.draw_chip (e : Env) : e.draw.2.chip = e.chip := by
  unfold Env.draw; split <;> rfl

@[simp] theorem Env.draw_dev (e : Env) : e.draw.2.dev = e.dev := by
  unfold Env.draw; split <;> rfl

/-- A draw is the next answer fixed outside, if there is one. -/
theorem Env.draw_cons {e : Env} {b : Byte} {bs : List Byte} (h : e.draws = b :: bs) :
    e.draw = (b, { e with draws := bs }) := by
  unfold Env.draw; rw [h]

@[simp] theorem Env.drawN_length (n : Nat) (e : Env) : (Env.drawN n e).1.length = n := by
  induction n generalizing e with
  | zero => rfl
  | succ n ih => simp [Env.drawN, ih]

@[simp] theorem Env.drawN_mem (n : Nat) (e : Env) : (Env.drawN n e).2.mem = e.mem := by
  induction n generalizing e with
  | zero => rfl
  | succ n ih => simp [Env.drawN, ih]

@[simp] theorem Env.drawN_chip (n : Nat) (e : Env) : (Env.drawN n e).2.chip = e.chip := by
  induction n generalizing e with
  | zero => rfl
  | succ n ih => simp [Env.drawN, ih]

@[simp] theorem Env.drawN_dev (n : Nat) (e : Env) : (Env.drawN n e).2.dev = e.dev := by
  induction n generalizing e with
  | zero => rfl
  | succ n ih => simp [Env.drawN, ih]

/-! ### Changing one chip -/

@[simp] theorem Env.setChip_mem (e : Env) (c : Chip) (st : ChipState) :
    (e.setChip c st).mem = e.mem := rfl

@[simp] theorem Env.setChip_dev (e : Env) (c : Chip) (st : ChipState) :
    (e.setChip c st).dev = e.dev := rfl

@[simp] theorem Env.setChip_draws (e : Env) (c : Chip) (st : ChipState) :
    (e.setChip c st).draws = e.draws := rfl

@[simp] theorem Env.setChip_drawn (e : Env) (c : Chip) (st : ChipState) :
    (e.setChip c st).drawn = e.drawn := rfl

@[simp] theorem Env.setChip_get_self (e : Env) (c : Chip) (st : ChipState) :
    (e.setChip c st).chip.get c = st := by simp [Env.setChip]

theorem Env.setChip_get_of_ne (e : Env) {c d : Chip} (st : ChipState) (h : d ≠ c) :
    (e.setChip c st).chip.get d = e.chip.get d := by
  simp [Env.setChip, PerChip_get_set_of_ne _ _ h]

/-- `Env.wf`, chip by chip. -/
theorem Env.wf_iff {e : Env} :
    e.wf = true ↔ e.mem.wf = true ∧ ∀ c, (e.chip.get c).placed c = true := by
  simp only [Env.wf, Bool.and_eq_true]
  refine and_congr_right fun _ => ⟨fun h c => ?_, fun h => ⟨h .a, h .b⟩⟩
  cases c
  · exact h.1
  · exact h.2

theorem Env.wf_setChip {e : Env} {c : Chip} {st : ChipState} (h : e.wf = true)
    (hst : st.placed c = true) : (e.setChip c st).wf = true := by
  rw [Env.wf_iff] at h ⊢
  refine ⟨h.1, fun d => ?_⟩
  by_cases hd : d = c
  · subst hd; simpa using hst
  · rw [Env.setChip_get_of_ne e st hd]; exact h.2 d

/-- `Env.wf` rests on the memory and the chips alone. -/
theorem Env.wf_congr {e e' : Env} (hm : e'.mem = e.mem) (hc : e'.chip = e.chip) :
    e'.wf = e.wf := by simp [Env.wf, hm, hc]

theorem Env.wf_draw {e : Env} (h : e.wf = true) : e.draw.2.wf = true := by
  rw [Env.wf_congr (e.draw_mem) (e.draw_chip)]; exact h

theorem Env.wf_drawN {e : Env} (n : Nat) (h : e.wf = true) : (Env.drawN n e).2.wf = true := by
  rw [Env.wf_congr (Env.drawN_mem n e) (Env.drawN_chip n e)]; exact h

theorem Env.chip_hid_wf {e : Env} (h : e.wf = true) (c : Chip) :
    hiddenWf (e.chip.get c).hid = true := by
  have := (Env.wf_iff.1 h).2 c
  simp only [ChipState.placed, Bool.and_eq_true] at this
  exact this.1.1

theorem Env.chip_op_placed {e : Env} (h : e.wf = true) (c : Chip) :
    (e.chip.get c).op.placed c = true := by
  have := (Env.wf_iff.1 h).2 c
  simp only [ChipState.placed, Bool.and_eq_true] at this
  exact this.1.2

theorem Env.chip_latch_placed {e : Env} (h : e.wf = true) (c : Chip) :
    (e.chip.get c).latch.placed c = true := by
  have := (Env.wf_iff.1 h).2 c
  simp only [ChipState.placed, Bool.and_eq_true] at this
  exact this.2

theorem Env.wf_lose {e : Env} (c : Chip) (h : e.wf = true) : (e.lose c).wf = true :=
  Env.wf_setChip h (by simp [ChipState.placed, ChipOp.placed, Latch.placed, Env.chip_hid_wf h c])

/-! ### What a chip hears stays in its window -/

/-- What a write tells a chip is placed: it names no page but the chip's own. -/
def Heard.placed (c : Chip) : Heard → Bool
  | .wait l => l.placed c
  | .cut l => l.placed c
  | .drop l => l.placed c
  | .start op => op.placed c
  | .reset => true
  | .foreign => true

/-- A block that has been received is its chip's own, and so is the program that would store it. -/
theorem Latch.awaited_placed {c : Chip} {l : Latch} (h : l.placed c = true) :
    l.awaited.placed c = true := by
  cases l with
  | loaded cmd addr page =>
    unfold Latch.awaited
    simp only
    split
    · next hcmd => simpa [ChipOp.placed, Latch.placed, hcmd] using h
    · simp only [Latch.placed, blockIn, Bool.and_eq_true] at h
      exact h.1
  | _ => rfl

theorem hearCommand_placed (c : Chip) (bank : Addr) (after : Armed) (cmd : Byte) :
    (hearCommand c bank after cmd).placed c = true := by
  unfold hearCommand
  split
  · rfl
  · cases after <;> simp only <;> repeat' split
    all_goals rfl

theorem hearRaw_placed (cfg : Config) (c : Chip) (shown : Bool) (bytes : List Byte) (addr : Addr)
    (v : List Byte) : (hearRaw cfg c shown bytes addr v).placed c = true := by
  unfold hearRaw
  simp only
  repeat' split
  all_goals rfl

theorem hear_placed {cfg : Config} {c : Chip} {shown : Bool} {l : Latch} {addr : Addr}
    {v : List Byte} (hl : l.placed c = true) (hin : inFlash addr.toNat = true)
    (hc : chipOf addr = c) : (hear cfg c shown l addr v).placed c = true := by
  unfold hear
  cases l with
  | idle => simp only; split; · rfl
            · exact hearRaw_placed ..
  | raw bytes => simp only; split; · rfl
                 · exact hearRaw_placed ..
  | armed k => simp only; split <;> rfl
  | key1 bank after => simp only; repeat' split
                       all_goals rfl
  | key2 bank after =>
    simp only
    split
    · split
      · rfl
      · split
        · exact hearCommand_placed ..
        · rfl
    · rfl
  | program cmd bank =>
    simp only
    split
    · rfl
    · split
      · next h => simp [Heard.placed, Latch.placed, blockIn, pageIn, hin, hc, h.2.1, h.2.2]
      · rfl
  | loaded cmd a page =>
    simp only
    split
    · exact Latch.awaited_placed hl
    · split <;> rfl

/-! ### Operations that finish -/

theorem Env.wf_eraseArray {e : Env} (c : Chip) (ok : Bool) (h : e.wf = true) :
    (e.eraseArray c ok).wf = true := by
  have hst := (Env.wf_iff.1 h).2 c
  simp only [ChipState.placed, Bool.and_eq_true] at hst
  have h1 : ({ e with mem := e.mem.clear (base c).toNat half } : Env).wf = true :=
    Env.wf_iff.2 ⟨Memory.wf_clear _ _ (Env.wf_iff.1 h).1, (Env.wf_iff.1 h).2⟩
  unfold Env.eraseArray
  simp only
  split
  · exact Env.wf_setChip h1 (by simp [ChipState.placed, ChipOp.placed, hst.1.1, hst.2])
  · exact Env.wf_setChip h1 (by simp [ChipState.placed, ChipOp.placed, hst.1.1, hst.2])

theorem Env.wf_eraseHidden {e : Env} (c : Chip) (ok : Bool) (h : e.wf = true) :
    (e.eraseHidden c ok).wf = true := by
  have hst := (Env.wf_iff.1 h).2 c
  simp only [ChipState.placed, Bool.and_eq_true] at hst
  have hr : (if ok then (([] : List Byte), e) else e.drawN hidRead).2.wf = true := by
    split
    · exact h
    · exact Env.wf_drawN _ h
  exact Env.wf_setChip hr
    (by
      have hlen : (if ok then (([] : List Byte), e) else e.drawN hidRead).1.length ≤ hidRead := by
        split <;> simp
      simpa [ChipState.placed, ChipOp.placed, hst.2, hiddenWf] using
        ⟨Memory.wf_writeBytes 0 _ Memory.wf_nil, Memory.within_writeBytes rfl (by omega)⟩)

theorem Env.wf_programPage {e : Env} (c : Chip) (ok : Bool) (addr : Addr) (page : List Byte)
    (h : e.wf = true) : (e.programPage c ok addr page).wf = true := by
  have hst := (Env.wf_iff.1 h).2 c
  have hm := (Env.wf_iff.1 h).1
  simp only [ChipState.placed, Bool.and_eq_true] at hst
  have hr : ∀ b : Bool, (if b then (page, e) else e.drawN pageSize).2.wf = true := by
    intro b
    cases b
    · exact Env.wf_drawN _ h
    · exact h
  have h2 := Env.wf_setChip (c := c)
    (st := { e.chip.get c with
      op := .none, programmed := (e.chip.get c).programmed.insert addr.toNat })
    (hr (ok && !(e.chip.get c).programmed.contains addr.toNat && e.pageErased c addr.toNat))
    (by simp [ChipState.placed, ChipOp.placed, hst.1.1, hst.2])
  exact Env.wf_iff.2 ⟨Memory.wf_writeBytes _ _ hm, (Env.wf_iff.1 h2).2⟩

/-- A hidden page a chip has heard of is 128 bytes of its hidden sector. -/
theorem hiddenProgram_placed {c : Chip} {addr : Addr} {page : List Byte}
    (h : (ChipOp.hiddenProgram addr page).placed c = true) :
    page.length = 128 ∧ chipOff addr.toNat - hidOff + 128 ≤ hidRead := by
  simp only [ChipOp.placed, blockIn, pageIn, pageOperandsOk, pageTarget, if_true, Bool.and_eq_true,
    Bool.or_eq_true, beq_iff_eq] at h
  refine ⟨h.1.2.2, ?_⟩
  rcases h.2 with rfl | rfl <;> cases c <;> decide

theorem Env.wf_programHidden {e : Env} (c : Chip) (ok : Bool) (addr : Addr) (page : List Byte)
    (h : e.wf = true) (hop : (ChipOp.hiddenProgram addr page).placed c = true) :
    (e.programHidden c ok addr page).wf = true := by
  have hst := (Env.wf_iff.1 h).2 c
  obtain ⟨hlen, hp⟩ := hiddenProgram_placed hop
  simp only [ChipState.placed, hiddenWf, Bool.and_eq_true] at hst
  unfold Env.programHidden
  simp only
  refine Env.wf_setChip ?_ ?_
  · split
    · exact h
    · exact Env.wf_drawN _ h
  · simp only [ChipState.placed, ChipOp.placed, hst.2, hiddenWf, Bool.and_true, Bool.and_eq_true]
    refine ⟨Memory.wf_writeBytes _ _ hst.1.1.1, Memory.within_writeBytes hst.1.1.2 ?_⟩
    split
    · rw [hlen]; exact hp
    · rw [Env.drawN_length]; exact hp

theorem Env.wf_complete {e : Env} (c : Chip) (err : Bool) (h : e.wf = true) :
    (e.complete c err).wf = true := by
  have hst := (Env.wf_iff.1 h).2 c
  simp only [ChipState.placed, Bool.and_eq_true] at hst
  unfold Env.complete
  simp only
  split
  · exact h
  · exact Env.wf_eraseArray _ _ h
  · exact Env.wf_eraseHidden _ _ h
  · exact Env.wf_programPage _ _ _ _ h
  · next hop => exact Env.wf_programHidden _ _ _ _ h (by rw [← hop]; exact hst.1.2)
  · exact Env.wf_setChip h (by simp [ChipState.placed, ChipOp.placed, hst])
  · exact Env.wf_setChip h (by simp [ChipState.placed, ChipOp.placed, hst])

/-- An array reads the same where its chip and the memory under it are the same. -/
theorem Env.arrayAt_congr {e e' : Env} {c : Chip} {o : Nat}
    (hw : (e'.chip.get c).wild = (e.chip.get c).wild)
    (hp : (e'.chip.get c).programmed = (e.chip.get c).programmed)
    (hm : e'.mem.read ((base c).toNat + o) = e.mem.read ((base c).toNat + o)) :
    e'.arrayAt c o = e.arrayAt c o := by
  unfold Env.arrayAt Env.arrayByte
  rw [hw, hp, hm]

theorem Env.SameOutside.refl (e : Env) (bus : Nat → Prop) (hidden : Chip → Nat → Prop) :
    e.SameOutside e bus hidden := ⟨fun _ _ => rfl, fun _ _ _ _ => rfl, fun _ _ _ => rfl⟩

theorem Env.SameOutside.trans {e e1 e2 : Env} {bus : Nat → Prop} {hidden : Chip → Nat → Prop}
    (h1 : e.SameOutside e1 bus hidden) (h2 : e1.SameOutside e2 bus hidden) :
    e.SameOutside e2 bus hidden where
  mem a ha := (h2.mem a ha).trans (h1.mem a ha)
  array c o ho ha := (h2.array c o ho ha).trans (h1.array c o ho ha)
  hid c o ho := (h2.hid c o ho).trans (h1.hid c o ho)

theorem Env.SameOutside.mono {e e' : Env} {bus bus' : Nat → Prop} {hidden hidden' : Chip → Nat → Prop}
    (h : e.SameOutside e' bus hidden) (hb : ∀ a, bus a → bus' a)
    (hh : ∀ c o, hidden c o → hidden' c o) : e.SameOutside e' bus' hidden' where
  mem a ha := h.mem a fun hx => ha (hb a hx)
  array c o ho ha := h.array c o ho fun hx => ha (hb _ hx)
  hid c o ho := h.hid c o fun hx => ho (hh c o hx)

/-- Where the contents of the chips are the same, memory alone decides. -/
theorem Env.SameOutside.ofMem {e e' : Env} {bus : Nat → Prop} {hidden : Chip → Nat → Prop}
    (hw : ∀ c, (e'.chip.get c).wild = (e.chip.get c).wild)
    (hp : ∀ c, (e'.chip.get c).programmed = (e.chip.get c).programmed)
    (hh : ∀ c, (e'.chip.get c).hid = (e.chip.get c).hid)
    (hm : ∀ a, ¬bus a → e'.mem.read a = e.mem.read a) : e.SameOutside e' bus hidden where
  mem := hm
  array c _ _ ha := Env.arrayAt_congr (hw c) (hp c) (hm _ ha)
  hid c o _ := by rw [hh c]

/-- A change of one chip that keeps its contents. -/
theorem Env.same_setChip {e : Env} {c : Chip} {st : ChipState} {bus : Nat → Prop}
    {hidden : Chip → Nat → Prop} (hw : st.wild = (e.chip.get c).wild)
    (hp : st.programmed = (e.chip.get c).programmed) (hh : st.hid = (e.chip.get c).hid) :
    e.SameOutside (e.setChip c st) bus hidden := by
  have hget : ∀ d, (e.setChip c st).chip.get d = if d = c then st else e.chip.get d := by
    intro d
    split
    · next hd => subst hd; simp
    · next hd => exact Env.setChip_get_of_ne e st hd
  refine .ofMem (fun d => ?_) (fun d => ?_) (fun d => ?_) fun _ _ => rfl
  all_goals
    rw [hget]
    split
    · next hd => subst hd; assumption
    · rfl

theorem Env.same_eraseArray (e : Env) (c : Chip) (ok : Bool) (hidden : Chip → Nat → Prop) :
    e.SameOutside (e.eraseArray c ok) (fun a => (base c).toNat ≤ a ∧ a < (base c).toNat + half)
      hidden := by
  have hmem : (e.eraseArray c ok).mem = e.mem.clear (base c).toNat half := by
    unfold Env.eraseArray; cases ok <;> rfl
  have hread : ∀ a, ¬((base c).toNat ≤ a ∧ a < (base c).toNat + half) →
      (e.eraseArray c ok).mem.read a = e.mem.read a := by
    intro a ha
    rw [hmem, Memory.read_clear, if_neg ha]
  have hother : ∀ d, d ≠ c → (e.eraseArray c ok).chip.get d = e.chip.get d := by
    intro d hd
    unfold Env.eraseArray
    cases ok <;> exact Env.setChip_get_of_ne _ _ hd
  refine ⟨hread, fun d o ho ha => ?_, fun d o _ => ?_⟩
  · by_cases hd : d = c
    · subst hd; exact absurd ⟨Nat.le_add_right .., by omega⟩ ha
    · exact Env.arrayAt_congr (by rw [hother d hd]) (by rw [hother d hd]) (hread _ ha)
  · by_cases hd : d = c
    · subst hd
      unfold Env.eraseArray
      cases ok <;> simp [Env.setChip]
    · rw [hother d hd]

theorem Env.same_eraseHidden (e : Env) (c : Chip) (ok : Bool) (bus : Nat → Prop) :
    e.SameOutside (e.eraseHidden c ok) bus (fun d _ => d = c) := by
  have hother : ∀ d, d ≠ c → (e.eraseHidden c ok).chip.get d = e.chip.get d := by
    intro d hd
    unfold Env.eraseHidden
    simp only [Env.setChip_get_of_ne _ _ hd]
    cases ok <;> simp
  have hself : (e.eraseHidden c ok).chip.get c = { e.chip.get c with
      op := .none, hid := ((e.eraseHidden c ok).chip.get c).hid, hidProgrammed := [] } := by
    simp [Env.eraseHidden]
  have hmem : (e.eraseHidden c ok).mem = e.mem := by
    unfold Env.eraseHidden; cases ok <;> simp
  refine ⟨fun a _ => by rw [hmem], fun d o _ _ => ?_, fun d o hd => by rw [hother d hd]⟩
  by_cases hd : d = c
  · subst hd
    exact Env.arrayAt_congr (by rw [hself]) (by rw [hself]) (by rw [hmem])
  · exact Env.arrayAt_congr (by rw [hother d hd]) (by rw [hother d hd]) (by rw [hmem])

/-- A page stands at a multiple of 128, so a byte outside the page `a` is on another page. -/
theorem contains_insert_page {ps : List Nat} {a x : Nat} (h : ¬(a ≤ x ∧ x < a + pageSize)) :
    (ps.insert a).contains (x - x % pageSize) = ps.contains (x - x % pageSize) := by
  have hne : x - x % pageSize ≠ a := by
    have := Nat.mod_lt x (show pageSize > 0 by decide)
    intro he
    exact h ⟨by omega, by omega⟩
  rw [Bool.eq_iff_iff]
  simp [List.mem_insert_iff, hne]

theorem Env.same_programPage (e : Env) (c : Chip) (ok : Bool) (addr : Addr) (page : List Byte)
    (hidden : Chip → Nat → Prop) :
    e.SameOutside (e.programPage c ok addr page)
      (fun a => addr.toNat ≤ a ∧ a < addr.toNat + max pageSize page.length) hidden := by
  have hread : ∀ a, ¬(addr.toNat ≤ a ∧ a < addr.toNat + max pageSize page.length) →
      (e.programPage c ok addr page).mem.read a = e.mem.read a := by
    intro a ha
    unfold Env.programPage
    refine Memory.read_writeBytes_outside ?_
    split
    · simp only; omega
    · rw [Env.drawN_length]; omega
  have hother : ∀ d, d ≠ c → (e.programPage c ok addr page).chip.get d = e.chip.get d := by
    intro d hd
    unfold Env.programPage
    simp only [Env.setChip_get_of_ne _ _ hd]
    split <;> simp
  have hself : (e.programPage c ok addr page).chip.get c = { e.chip.get c with
      op := .none, programmed := (e.chip.get c).programmed.insert addr.toNat } := by
    simp [Env.programPage, Env.setChip]
  refine ⟨hread, fun d o _ ha => ?_, fun d o _ => ?_⟩
  · by_cases hd : d = c
    · subst hd
      unfold Env.arrayAt Env.arrayByte
      rw [hself, hread _ ha]
      simp only
      rw [contains_insert_page (by omega)]
    · exact Env.arrayAt_congr (by rw [hother d hd]) (by rw [hother d hd]) (hread _ ha)
  · by_cases hd : d = c
    · subst hd; rw [hself]
    · rw [hother d hd]

theorem Env.same_programHidden (e : Env) (c : Chip) (ok : Bool) (addr : Addr) (page : List Byte)
    (bus : Nat → Prop) :
    e.SameOutside (e.programHidden c ok addr page) bus
      (fun d o => d = c ∧ chipOff addr.toNat - hidOff ≤ o ∧
        o < chipOff addr.toNat - hidOff + max pageSize page.length) := by
  have hother : ∀ d, d ≠ c → (e.programHidden c ok addr page).chip.get d = e.chip.get d := by
    intro d hd
    unfold Env.programHidden
    simp only [Env.setChip_get_of_ne _ _ hd]
    split <;> simp
  have hmem : (e.programHidden c ok addr page).mem = e.mem := by
    unfold Env.programHidden
    simp only [Env.setChip_mem]
    split <;> simp
  have hw : ((e.programHidden c ok addr page).chip.get c).wild = (e.chip.get c).wild := by
    simp [Env.programHidden]
  have hp : ((e.programHidden c ok addr page).chip.get c).programmed =
      (e.chip.get c).programmed := by simp [Env.programHidden]
  refine ⟨fun a _ => by rw [hmem], fun d o _ _ => ?_, fun d o hd => ?_⟩
  · by_cases hd : d = c
    · subst hd
      exact Env.arrayAt_congr hw hp (by rw [hmem])
    · exact Env.arrayAt_congr (by rw [hother d hd]) (by rw [hother d hd]) (by rw [hmem])
  · by_cases hdc : d = c
    · subst hdc
      have hd : o < chipOff addr.toNat - hidOff ∨
          chipOff addr.toNat - hidOff + max pageSize page.length ≤ o := by
        by_contra hx
        exact hd ⟨rfl, by omega, by omega⟩
      simp only [Env.programHidden, Env.setChip_get_self]
      refine Memory.read_writeBytes_outside ?_
      split
      · simp only; omega
      · rw [Env.drawN_length]; omega
    · rw [hother d hdc]

/-- An operation that ends changes no byte but those it had in flight. -/
theorem Env.complete_same (e : Env) (c : Chip) (err : Bool) :
    e.SameOutside (e.complete c err) (fun a => e.inFlightAt c a)
      (fun d o => d = c ∧ e.hiddenInFlightAt c o) := by
  unfold Env.complete
  simp only
  split
  · exact .refl ..
  · next hop =>
    exact (Env.same_eraseArray e c _ _).mono (fun a h => by simp only [Env.inFlightAt, hop, ChipOp.storesAt, Bool.and_eq_true, decide_eq_true_eq]; exact h)
      fun _ _ h => h
  · next hop =>
    exact (Env.same_eraseHidden e c _ _).mono (fun a h => h)
      fun d o h => ⟨h, by simp [Env.hiddenInFlightAt, hop, ChipOp.hiddenStoresAt]⟩
  · next addr page hop =>
    exact (Env.same_programPage e c _ addr page _).mono
      (fun a h => by simp only [Env.inFlightAt, hop, ChipOp.storesAt, Bool.and_eq_true, decide_eq_true_eq]; exact h) fun _ _ h => h
  · next addr page hop =>
    exact (Env.same_programHidden e c _ addr page _).mono (fun a h => h)
      fun d o h => ⟨h.1, by simp only [Env.hiddenInFlightAt, hop, ChipOp.hiddenStoresAt, Bool.and_eq_true, decide_eq_true_eq]; exact h.2⟩
  · exact Env.same_setChip rfl rfl rfl
  · exact Env.same_setChip rfl rfl rfl

/-- An operation that ends leaves the device alone. -/
@[simp] theorem Env.complete_dev (e : Env) (c : Chip) (err : Bool) :
    (e.complete c err).dev = e.dev := by
  unfold Env.complete
  simp only
  split
  · rfl
  · unfold Env.eraseArray; simp only; split <;> rfl
  · unfold Env.eraseHidden; simp only; split <;> simp
  · unfold Env.programPage; simp only [Env.setChip_dev]; split <;> simp
  · unfold Env.programHidden; simp only; split <;> simp
  · rfl
  · rfl

/-- … and the other chip. -/
theorem Env.complete_get_of_ne (e : Env) {c d : Chip} (err : Bool) (h : d ≠ c) :
    (e.complete c err).chip.get d = e.chip.get d := by
  unfold Env.complete
  simp only
  split
  · rfl
  · unfold Env.eraseArray; simp only; split <;> exact Env.setChip_get_of_ne _ _ h
  · unfold Env.eraseHidden; simp only [Env.setChip_get_of_ne _ _ h]; split <;> simp
  · unfold Env.programPage; simp only [Env.setChip_get_of_ne _ _ h]; split <;> simp
  · unfold Env.programHidden; simp only [Env.setChip_get_of_ne _ _ h]; split <;> simp
  · exact Env.setChip_get_of_ne _ _ h
  · exact Env.setChip_get_of_ne _ _ h

/-! ### Writes to a chip -/

theorem Env.wf_begin {e : Env} (c : Chip) (op : ChipOp) (disturbed : Bool) (h : e.wf = true)
    (hop : op.placed c = true) : (e.begin c op disturbed).wf = true := by
  have h1 := Env.wf_complete c true h
  exact Env.wf_setChip h1
    (by simp [ChipState.placed, Latch.placed, hop, Env.chip_hid_wf h1 c])

theorem Env.begin_same (e : Env) (c : Chip) (op : ChipOp) (disturbed : Bool) :
    e.SameOutside (e.begin c op disturbed) (fun a => e.inFlightAt c a)
      (fun d o => d = c ∧ e.hiddenInFlightAt c o) :=
  (Env.complete_same e c true).trans (Env.same_setChip rfl rfl rfl)

/-- What a dropped block changes: its own bytes. -/
theorem Env.dropBlock_same (e : Env) (c : Chip) (l : Latch) (disturbed : Bool) :
    e.SameOutside (e.dropBlock c l disturbed) (fun a => (e.chip.get c).latch.awaited.storesAt c a)
      (fun d o => d = c ∧ (e.chip.get c).latch.awaited.hiddenStoresAt o) := by
  have h0 : e.SameOutside (e.setChip c { e.chip.get c with op := (e.chip.get c).latch.awaited })
      (fun a => (e.chip.get c).latch.awaited.storesAt c a)
      (fun d o => d = c ∧ (e.chip.get c).latch.awaited.hiddenStoresAt o) :=
    Env.same_setChip rfl rfl rfl
  refine (h0.trans ((Env.complete_same _ c true).mono (fun a ha => ?_) fun d o hd => ?_)).trans
    (Env.same_setChip rfl rfl rfl)
  · simpa [Env.inFlightAt] using ha
  · simpa [Env.hiddenInFlightAt] using hd

@[simp] theorem Env.dropBlock_dev (e : Env) (c : Chip) (l : Latch) (disturbed : Bool) :
    (e.dropBlock c l disturbed).dev = e.dev :=
  Env.complete_dev (e.setChip c { e.chip.get c with op := (e.chip.get c).latch.awaited }) c true

theorem Env.dropBlock_get_of_ne (e : Env) {c d : Chip} (l : Latch) (disturbed : Bool) (h : d ≠ c) :
    (e.dropBlock c l disturbed).chip.get d = e.chip.get d :=
  (Env.setChip_get_of_ne _ _ h).trans
    ((Env.complete_get_of_ne _ true h).trans (Env.setChip_get_of_ne _ _ h))

/-- The operation in flight stays so, and the chip goes on to the latch given. -/
theorem Env.dropBlock_op (e : Env) (c : Chip) (l : Latch) (disturbed : Bool) :
    ((e.dropBlock c l disturbed).chip.get c).op = (e.chip.get c).op ∧
      ((e.dropBlock c l disturbed).chip.get c).latch = l ∧
      ((e.dropBlock c l disturbed).chip.get c).disturbed = disturbed := by
  simp [Env.dropBlock]

theorem Env.wf_dropBlock {e : Env} {c : Chip} {l : Latch} (disturbed : Bool) (h : e.wf = true)
    (hl : l.placed c = true) : (e.dropBlock c l disturbed).wf = true := by
  have hop := Latch.awaited_placed (Env.chip_latch_placed h c)
  have h1 : (e.setChip c { e.chip.get c with op := (e.chip.get c).latch.awaited }).wf = true :=
    Env.wf_setChip h
      (by simp [ChipState.placed, Env.chip_hid_wf h c, Env.chip_latch_placed h c, hop])
  have h2 := Env.wf_complete c true h1
  exact Env.wf_setChip h2
    (by simp [ChipState.placed, hl, Env.chip_hid_wf h2 c, Env.chip_op_placed h c])

/-- What a write to a chip can do: lose it, take part of a command, drop a block, begin an operation, or
reset it. -/
theorem Env.chipWrite_cases (cfg : Config) (e : Env) (c : Chip) (addr : Addr) (v : List Byte) :
    e.chipWrite cfg c addr v = e.lose c ∨
    (∃ l m d, (hear cfg c ((e.chip.get c).mode = .hiddenShown) (e.chip.get c).latch addr v = .wait l ∨
        hear cfg c ((e.chip.get c).mode = .hiddenShown) (e.chip.get c).latch addr v = .cut l) ∧
      e.chipWrite cfg c addr v =
        e.setChip c { e.chip.get c with mode := m, latch := l, disturbed := d }) ∨
    (∃ l d, hear cfg c ((e.chip.get c).mode = .hiddenShown) (e.chip.get c).latch addr v = .drop l ∧
      e.chipWrite cfg c addr v = e.dropBlock c l d) ∨
    (∃ op d, hear cfg c ((e.chip.get c).mode = .hiddenShown) (e.chip.get c).latch addr v = .start op ∧
      e.chipWrite cfg c addr v = e.begin c op d) ∨
    ((e.chip.get c).op = .none ∧
      e.chipWrite cfg c addr v = e.setChip c { e.chip.get c with latch := .idle, mode := .array }) := by
  unfold Env.chipWrite
  simp only
  split
  · exact .inl rfl
  · split
    · next l hl => exact .inr (.inl ⟨l, _, _, .inl hl, rfl⟩)
    · next l hl =>
      split
      · exact .inl rfl
      · exact .inr (.inl ⟨l, _, _, .inr hl, rfl⟩)
    · next l hl => exact .inr (.inr (.inl ⟨l, _, hl, rfl⟩))
    · next op ho => exact .inr (.inr (.inr (.inl ⟨op, _, ho, rfl⟩)))
    · split
      · exact .inl rfl
      · next hb => exact .inr (.inr (.inr (.inr ⟨by simpa using hb, rfl⟩)))
    · exact .inl rfl

/-- A write to a chip changes no byte but those pending on it. -/
theorem Env.chipWrite_same (cfg : Config) (e : Env) (c : Chip) (addr : Addr) (v : List Byte) :
    e.SameOutside (e.chipWrite cfg c addr v) (fun a => e.pendingAt c a)
      (fun d o => d = c ∧ e.hiddenPendingAt c o) := by
  obtain h | ⟨l, m, d, -, h⟩ | ⟨l, d, -, h⟩ | ⟨op, d, -, h⟩ | ⟨-, h⟩ :=
    Env.chipWrite_cases cfg e c addr v
  · rw [h]; exact Env.same_setChip rfl rfl rfl
  · rw [h]; exact Env.same_setChip rfl rfl rfl
  · rw [h]
    exact (Env.dropBlock_same ..).mono (fun a ha => by simp [Env.pendingAt, ha])
      fun d o hd => ⟨hd.1, by simp [Env.hiddenPendingAt, hd.2]⟩
  · rw [h]
    exact (Env.begin_same ..).mono (fun a ha => by simp [Env.pendingAt, ha])
      fun d o hd => ⟨hd.1, by simp [Env.hiddenPendingAt, hd.2]⟩
  · rw [h]; exact Env.same_setChip rfl rfl rfl

@[simp] theorem Env.chipWrite_dev (cfg : Config) (e : Env) (c : Chip) (addr : Addr) (v : List Byte) :
    (e.chipWrite cfg c addr v).dev = e.dev := by
  obtain h | ⟨l, m, d, -, h⟩ | ⟨l, d, -, h⟩ | ⟨op, d, -, h⟩ | ⟨-, h⟩ :=
    Env.chipWrite_cases cfg e c addr v
  · rw [h]; rfl
  · rw [h]; rfl
  · rw [h]; exact Env.dropBlock_dev ..
  · rw [h]; exact Env.complete_dev ..
  · rw [h]; rfl

/-- A write to one chip leaves the other alone. -/
theorem Env.chipWrite_get_of_ne (cfg : Config) (e : Env) {c d : Chip} (addr : Addr) (v : List Byte)
    (h : d ≠ c) : (e.chipWrite cfg c addr v).chip.get d = e.chip.get d := by
  obtain hw | ⟨l, m, x, -, hw⟩ | ⟨l, x, -, hw⟩ | ⟨op, x, -, hw⟩ | ⟨-, hw⟩ :=
    Env.chipWrite_cases cfg e c addr v
  · rw [hw]; exact Env.setChip_get_of_ne e _ h
  · rw [hw]; exact Env.setChip_get_of_ne e _ h
  · rw [hw]; exact Env.dropBlock_get_of_ne e _ _ h
  · rw [hw]
    exact (Env.setChip_get_of_ne _ _ h).trans (Env.complete_get_of_ne e true h)
  · rw [hw]; exact Env.setChip_get_of_ne e _ h

theorem Env.wf_chipWrite {cfg : Config} {e : Env} {addr : Addr} {v : List Byte} (h : e.wf = true)
    (hin : inFlash addr.toNat = true) : (e.chipWrite cfg (chipOf addr) addr v).wf = true := by
  have hhid := Env.chip_hid_wf h (chipOf addr)
  have hop := Env.chip_op_placed h (chipOf addr)
  have hh := hear_placed (cfg := cfg)
    (shown := decide ((e.chip.get (chipOf addr)).mode = .hiddenShown)) (v := v)
    (Env.chip_latch_placed h (chipOf addr)) hin rfl
  obtain hw | ⟨l, m, x, hl, hw⟩ | ⟨l, x, hl, hw⟩ | ⟨op, x, ho, hw⟩ | ⟨-, hw⟩ :=
    Env.chipWrite_cases cfg e (chipOf addr) addr v
  · rw [hw]; exact Env.wf_lose _ h
  · have hl : l.placed (chipOf addr) = true := by
      rcases hl with hl | hl <;> simpa [hl, Heard.placed] using hh
    rw [hw]
    exact Env.wf_setChip h (by simp [ChipState.placed, hhid, hop, hl])
  · rw [hl] at hh
    rw [hw]
    exact Env.wf_dropBlock _ h hh
  · rw [ho] at hh
    rw [hw]
    exact Env.wf_begin _ _ _ h hh
  · rw [hw]
    exact Env.wf_setChip h (by simp [ChipState.placed, hhid, hop, Latch.placed])

/-! ### Writes -/

@[simp] theorem Env.loseDevice_mem (e : Env) : e.loseDevice.mem = e.mem := rfl

@[simp] theorem Env.loseDevice_chip (e : Env) : e.loseDevice.chip = e.chip := rfl

@[simp] theorem Env.modeWrite_mem (cfg : Config) (e : Env) (addr : Addr) (v : List Byte) :
    (e.modeWrite cfg addr v).mem = e.mem := by unfold Env.modeWrite; split <;> rfl

@[simp] theorem Env.modeWrite_chip (cfg : Config) (e : Env) (addr : Addr) (v : List Byte) :
    (e.modeWrite cfg addr v).chip = e.chip := by unfold Env.modeWrite; split <;> rfl

@[simp] theorem Env.devWrite_mem (cfg : Config) (e : Env) (addr : Addr) (b : Byte) :
    (e.devWrite cfg addr b).mem = e.mem := by
  unfold Env.devWrite; split
  · repeat' split
    all_goals rfl
  all_goals rfl

/-- A write to a device register changes nothing the chips hold. -/
theorem Env.devWrite_contents (cfg : Config) (e : Env) (addr : Addr) (b : Byte) (c : Chip) :
    ((e.devWrite cfg addr b).chip.get c).wild = (e.chip.get c).wild ∧
      ((e.devWrite cfg addr b).chip.get c).programmed = (e.chip.get c).programmed ∧
      ((e.devWrite cfg addr b).chip.get c).hid = (e.chip.get c).hid := by
  unfold Env.devWrite
  split
  · repeat' split
    all_goals cases c <;> exact ⟨rfl, rfl, rfl⟩
  all_goals exact ⟨rfl, rfl, rfl⟩

theorem Env.wf_devWrite {cfg : Config} {e : Env} (addr : Addr) (b : Byte) (h : e.wf = true) :
    (e.devWrite cfg addr b).wf = true := by
  have ha := (Env.wf_iff.1 h).2 .a
  have hb := (Env.wf_iff.1 h).2 .b
  unfold Env.devWrite
  split
  · split
    · exact h
    · split
      · refine Env.wf_iff.2 ⟨(Env.wf_iff.1 h).1, fun c => ?_⟩
        cases c
        · exact ha
        · exact hb
      · split <;> exact h
  all_goals exact h

theorem Env.scramble_chip (cfg : Config) (a : Nat) (e : Env) (n : Nat) :
    (Env.scramble cfg a e n).chip = e.chip := by
  induction n generalizing a e with
  | zero => rfl
  | succ n ih =>
    unfold Env.scramble
    split
    · simp [ih]
    · exact ih ..

theorem Env.wf_scramble {cfg : Config} (a : Nat) {e : Env} (n : Nat) (h : e.mem.wf = true) :
    (Env.scramble cfg a e n).mem.wf = true := by
  induction n generalizing a e with
  | zero => exact h
  | succ n ih =>
    unfold Env.scramble
    split
    · exact ih _ (Memory.wf_write _ _ h)
    · exact ih _ h

theorem Env.scramble_read_outside {cfg : Config} {a a' : Nat} {e : Env} {n : Nat}
    (h : a' < a ∨ a + n ≤ a') : (Env.scramble cfg a e n).mem.read a' = e.mem.read a' := by
  induction n generalizing a e with
  | zero => rfl
  | succ n ih =>
    unfold Env.scramble
    split
    · rw [ih (by omega)]
      exact Memory.read_write_other _ (by omega)
    · exact ih (by omega)

theorem Env.plainWrite_chip (cfg : Config) (e : Env) (a : Nat) (v : List Byte) :
    (e.plainWrite cfg a v).chip = e.chip := by
  unfold Env.plainWrite
  repeat' split
  all_goals simp [Env.scramble_chip]

theorem Env.wf_plainWrite {cfg : Config} {e : Env} (a : Nat) (v : List Byte) (h : e.wf = true) :
    (e.plainWrite cfg a v).wf = true := by
  have hm := (Env.wf_iff.1 h).1
  rw [Env.wf_iff, Env.plainWrite_chip]
  refine ⟨?_, (Env.wf_iff.1 h).2⟩
  unfold Env.plainWrite
  repeat' split
  · exact hm
  · exact Env.wf_scramble _ _ hm
  · exact Memory.wf_writeBytes _ _ hm
  · exact Env.wf_scramble _ _ hm

theorem Env.plainWrite_read_outside {cfg : Config} {e : Env} {a a' : Nat} {v : List Byte}
    (h : a' < a ∨ a + v.length ≤ a') : (e.plainWrite cfg a v).mem.read a' = e.mem.read a' := by
  unfold Env.plainWrite
  repeat' split
  · rfl
  · exact Env.scramble_read_outside h
  · exact Memory.read_writeBytes_outside h
  · exact Env.scramble_read_outside h

/-- Every write keeps the environment well formed. -/
theorem Env.wf_write {cfg : Config} {e : Env} (addr : Addr) (v : List Byte) (h : e.wf = true) :
    (e.write cfg addr v).wf = true := by
  have h1 : (e.modeWrite cfg addr v).wf = true := by
    rw [Env.wf_congr (Env.modeWrite_mem ..) (Env.modeWrite_chip ..)]; exact h
  unfold Env.write
  simp only
  split
  · next hin => exact Env.wf_chipWrite h1 hin
  · split
    · split
      · exact Env.wf_devWrite _ _ h1
      · exact Env.wf_plainWrite _ _ h1
    · exact Env.wf_plainWrite _ _ h1

/-- A write changes no byte but, in the flash window, those pending on its chip, and outside it those
it covers. -/
theorem Env.write_same (cfg : Config) (e : Env) (addr : Addr) (v : List Byte) :
    e.SameOutside (e.write cfg addr v)
      (fun a => if inFlash addr.toNat then e.pendingAt (chipOf addr) a = true
        else addr.toNat ≤ a ∧ a < addr.toNat + v.length)
      (fun d o => inFlash addr.toNat = true ∧ d = chipOf addr ∧ e.hiddenPendingAt d o) := by
  have hplain : inFlash addr.toNat = false →
      e.SameOutside ((e.modeWrite cfg addr v).plainWrite cfg addr.toNat v)
        (fun a => if inFlash addr.toNat then e.pendingAt (chipOf addr) a = true
          else addr.toNat ≤ a ∧ a < addr.toNat + v.length)
        (fun d o => inFlash addr.toNat = true ∧ d = chipOf addr ∧ e.hiddenPendingAt d o) := by
    intro hin
    refine .ofMem (fun c => ?_) (fun c => ?_) (fun c => ?_) fun a ha => ?_
    all_goals try rw [Env.plainWrite_chip, Env.modeWrite_chip]
    rw [Env.plainWrite_read_outside (by simp only [hin] at ha; simp at ha; omega),
      Env.modeWrite_mem]
  unfold Env.write
  simp only
  split
  · next hin =>
    have h := Env.chipWrite_same cfg (e.modeWrite cfg addr v) (chipOf addr) addr v
    have h0 : e.SameOutside (e.modeWrite cfg addr v)
        (fun a => (e.modeWrite cfg addr v).pendingAt (chipOf addr) a)
        (fun d o => d = chipOf addr ∧ (e.modeWrite cfg addr v).hiddenPendingAt (chipOf addr) o) :=
      .ofMem (by simp) (by simp) (by simp) (by simp)
    refine (h0.trans h).mono (fun a ha => ?_) fun d o hd => ?_
    · simpa [Env.pendingAt, Env.inFlightAt, hin] using ha
    · obtain ⟨rfl, hd⟩ := hd
      exact ⟨hin, rfl, by simpa [Env.hiddenPendingAt, Env.hiddenInFlightAt] using hd⟩
  · next hin =>
    have hin : inFlash addr.toNat = false := by simpa using hin
    split
    · split
      · clear hplain
        refine .ofMem (fun c => ?_) (fun c => ?_) (fun c => ?_) fun a _ => by simp
        · rw [(Env.devWrite_contents ..).1, Env.modeWrite_chip]
        · rw [(Env.devWrite_contents ..).2.1, Env.modeWrite_chip]
        · rw [(Env.devWrite_contents ..).2.2, Env.modeWrite_chip]
      · exact (hplain hin).mono (fun a h => by simpa [hin] using h) fun _ _ h => h
    · exact (hplain hin).mono (fun a h => by simpa [hin] using h) fun _ _ h => h

/-- A write to a device register changes no byte of memory. -/
theorem Env.write_mem_device {cfg : Config} {e : Env} {addr : Addr} (b : Byte)
    (h : addr = devReg0 ∨ addr = devReg1) : (e.write cfg addr [b]).mem = e.mem := by
  have hin : inFlash addr.toNat = false := by rcases h with rfl | rfl <;> rfl
  unfold Env.write
  simp [hin, h]

/-! ### Reads -/

theorem Env.chipByte_mem (e : Env) (c : Chip) (a : Nat) :
    (e.chipByte c a).2.mem = e.mem ∧ (e.chipByte c a).2.chip = e.chip ∧
      (e.chipByte c a).2.dev = e.dev := by
  unfold Env.chipByte
  simp only
  split
  · exact ⟨rfl, rfl, rfl⟩
  · split <;> simp
  · simp
  · simp

theorem Env.byteAt_keeps (cfg : Config) (e : Env) (a : Nat) :
    (e.byteAt cfg a).2.mem = e.mem ∧ (e.byteAt cfg a).2.chip = e.chip ∧
      (e.byteAt cfg a).2.dev = e.dev := by
  unfold Env.byteAt
  split
  · simp
  · split
    · exact Env.chipByte_mem ..
    · split <;> simp

/-- A read of more than one byte changes nothing but the draws. -/
theorem Env.bytesFrom_keeps (cfg : Config) (a : Nat) (e : Env) (n : Nat) :
    (Env.bytesFrom cfg a e n).2.mem = e.mem ∧ (Env.bytesFrom cfg a e n).2.chip = e.chip ∧
      (Env.bytesFrom cfg a e n).2.dev = e.dev := by
  induction n generalizing a e with
  | zero => exact ⟨rfl, rfl, rfl⟩
  | succ n ih =>
    have h1 := Env.byteAt_keeps cfg e a
    have h2 := ih (a + 1) (e.byteAt cfg a).2
    rw [h1.1, h1.2.1, h1.2.2] at h2
    exact h2

@[simp] theorem Env.bytesFrom_length (cfg : Config) (a : Nat) (e : Env) (n : Nat) :
    (Env.bytesFrom cfg a e n).1.length = n := by
  induction n generalizing a e with
  | zero => rfl
  | succ n ih => simp [Env.bytesFrom, ih]

/-- A read answers as many bytes as it was asked for. -/
@[simp] theorem Env.read_length (cfg : Config) (e : Env) (addr : Addr) (n : Nat) :
    (e.read cfg addr n).1.length = n := by
  unfold Env.read
  split
  · next h => simp [h]
  · simp

/-- What a status read can do: answer what the completed operation left, complete the operation, or find
it in flight. -/
theorem Env.readStatus_cases (e : Env) (c : Chip) :
    e.readStatus c = ((e.chip.get c).settledStatus e.draw.1, e.draw.2) ∨
    e.readStatus c = (e.draw.1,
      (e.draw.2.setChip c { e.chip.get c with failed := isError e.draw.1 }).complete c
        (isError e.draw.1)) ∨
    e.readStatus c = e.draw := by
  unfold Env.readStatus
  simp only
  split
  · exact .inl rfl
  · split
    · exact .inr (.inl rfl)
    · exact .inr (.inr rfl)

/-- Once the operation has been seen complete every status byte is ready, and its error flag is that of
the completing byte (R72). -/
@[simp] theorem ChipState.settledStatus_flags (st : ChipState) (b : Byte) :
    isReady (st.settledStatus b) = true ∧ isError (st.settledStatus b) = st.failed := by
  unfold ChipState.settledStatus isReady isError
  cases st.failed <;> simp

theorem Env.wf_readStatus {e : Env} (c : Chip) (h : e.wf = true) : (e.readStatus c).2.wf = true := by
  have hd := Env.wf_draw h
  obtain hr | hr | hr := Env.readStatus_cases e c <;> rw [hr]
  · exact hd
  · exact Env.wf_complete _ _ (Env.wf_setChip hd ((Env.wf_iff.1 h).2 c))
  · exact hd

theorem Env.readDevice_keeps (cfg : Config) (e : Env) :
    (e.readDevice cfg).2.mem = e.mem ∧ (e.readDevice cfg).2.chip = e.chip := by
  unfold Env.readDevice
  split <;> simp

theorem Env.readDevice1_keeps (cfg : Config) (e : Env) :
    (e.readDevice1 cfg).2.mem = e.mem ∧ (e.readDevice1 cfg).2.chip = e.chip := by
  unfold Env.readDevice1
  simp only
  split <;> simp

/-- Every read keeps the environment well formed. -/
theorem Env.wf_read {cfg : Config} {e : Env} (addr : Addr) (n : Nat) (h : e.wf = true) :
    (e.read cfg addr n).2.wf = true := by
  unfold Env.read
  split
  · simp only
    unfold Env.readOne
    split
    · rw [Env.wf_congr (Env.readDevice_keeps ..).1 (Env.readDevice_keeps ..).2]; exact h
    · split
      · rw [Env.wf_congr (Env.readDevice1_keeps ..).1 (Env.readDevice1_keeps ..).2]; exact h
      · split
        · exact Env.wf_readStatus _ h
        · rw [Env.wf_congr (Env.byteAt_keeps ..).1 (Env.byteAt_keeps ..).2.1]; exact h
  · rw [Env.wf_congr (Env.bytesFrom_keeps ..).1 (Env.bytesFrom_keeps ..).2.1]; exact h

/-- A read changes no byte but, if it is a status read, those in flight on its chip. -/
theorem Env.read_same (cfg : Config) (e : Env) (addr : Addr) (n : Nat) :
    e.SameOutside (e.read cfg addr n).2 (fun a => n = 1 ∧ e.inFlightAt (chipOf addr) a)
      (fun d o => n = 1 ∧ d = chipOf addr ∧ e.hiddenInFlightAt d o) := by
  have hkeep : ∀ e' : Env, e'.mem = e.mem ∧ e'.chip = e.chip →
      e.SameOutside e' (fun a => n = 1 ∧ e.inFlightAt (chipOf addr) a)
        (fun d o => n = 1 ∧ d = chipOf addr ∧ e.hiddenInFlightAt d o) := fun e' h =>
    .ofMem (by simp [h.2]) (by simp [h.2]) (by simp [h.2]) (by simp [h.1])
  unfold Env.read
  split
  · next hn =>
    simp only
    unfold Env.readOne
    split
    · exact hkeep _ (Env.readDevice_keeps ..)
    · split
      · exact hkeep _ (Env.readDevice1_keeps ..)
      · split
        · obtain hr | hr | hr := Env.readStatus_cases e (chipOf addr) <;> rw [hr]
          · exact hkeep _ ⟨e.draw_mem, e.draw_chip⟩
          · refine ((hkeep e.draw.2 ⟨e.draw_mem, e.draw_chip⟩).trans
              (Env.same_setChip (by simp) (by simp) (by simp))).trans
              ((Env.complete_same _ _ _).mono (fun a ha => ⟨hn, ?_⟩) fun d o hd => ?_)
            · simpa [Env.inFlightAt] using ha
            · obtain ⟨rfl, hd⟩ := hd
              exact ⟨hn, rfl, by simpa [Env.hiddenInFlightAt] using hd⟩
          · exact hkeep _ ⟨e.draw_mem, e.draw_chip⟩
        · exact hkeep _ ⟨(Env.byteAt_keeps ..).1, (Env.byteAt_keeps ..).2.1⟩
  · exact hkeep _ ⟨(Env.bytesFrom_keeps ..).1, (Env.bytesFrom_keeps ..).2.1⟩

end Sys2Proof.Machine
end

