-- ==== Sys2Proof/Laws/Ops.lean ====
section
/-! SUPPORT. What each shared operation can do, said once: the writes of a format, the checks before an
operation, the phases of one, and how an operation is driven. -/

namespace Sys2Proof.Machine

open Sys2Proof

/-! ### Writes of a format -/

@[simp] theorem Env.after_nil (cfg : Config) (e : Env) : e.after cfg [] = e := rfl

theorem Env.after_cons (cfg : Config) (e : Env) (w : BusWrite) (ws : List BusWrite) :
    e.after cfg (w :: ws) = (e.write cfg w.1 w.2).after cfg ws := rfl

theorem Env.after_append (cfg : Config) (e : Env) (ws vs : List BusWrite) :
    e.after cfg (ws ++ vs) = (e.after cfg ws).after cfg vs := List.foldl_append ..

@[simp] theorem wrote_append (ws vs : List BusWrite) : wrote (ws ++ vs) = wrote ws ++ wrote vs :=
  List.map_append ..

theorem State.afterWrites_nil (s : State) : s.afterWrites [] = s := by
  simp [State.afterWrites, wrote]

/-- Writes of two formats, one after the other. -/
theorem State.afterWrites_append (s : State) (ws vs : List BusWrite) :
    (s.afterWrites ws).afterWrites vs = s.afterWrites (ws ++ vs) := by
  simp [State.afterWrites, Env.after_append]

/-- The writes of a format touch nothing but the bus. -/
theorem memWrites_eq (s : State) (ws : List BusWrite) : s.memWrites ws = s.afterWrites ws := by
  induction ws generalizing s with
  | nil => exact (State.afterWrites_nil s).symm
  | cons w ws ih =>
    show State.memWrites (s.memWrite w.1 w.2) ws = s.afterWrites (w :: ws)
    rw [ih]
    simp [State.memWrite, State.afterWrites, Env.after_cons, wrote]

theorem unlockGlobalWrites_eq (cfg : Config) (cmd : Byte) :
    unlockGlobalWrites cfg cmd = globalUnlock cfg cmd := rfl

theorem unlockLocalWrites_eq (cfg : Config) (addr : Addr) (cmd : Byte) :
    unlockLocalWrites cfg addr cmd = localUnlock cfg addr cmd := rfl

theorem rawWrites_eq (cfg : Config) (bytes : List Byte) :
    rawWrites cfg bytes = rawEvents cfg bytes := by
  simp only [rawWrites, bothChips, rawEvents, List.flatMap_map]
  rfl

/-- `READ_RESET` as a part. -/
theorem State.readReset_eq (s : State) : s.readReset = s.afterWrites (globalUnlock s.cfg 0xF0#8) :=
  memWrites_eq ..

/-- A page, with its unlock. -/
theorem State.sendPage_eq (s : State) (cmd : Byte) (addr : Addr) (page : List Byte) :
    s.sendPage cmd addr page =
      { s with pbuf := page }.afterWrites (pageEvents s.cfg cmd addr page) := by
  simp only [State.sendPage, memWrites_eq, State.afterWrites_append]
  rfl

/-! ### Single bytes -/

/-- A one-byte read answers one byte. -/
theorem Env.read_one (cfg : Config) (e : Env) (addr : Addr) :
    (e.read cfg addr 1).1 = [(e.read cfg addr 1).1.headD 0] := by
  unfold Env.read
  simp

theorem State.readByte_fst (s : State) (addr : Addr) :
    (s.readByte addr).1 = (s.env.read s.cfg addr 1).1.headD 0 := rfl

theorem classify_ready {b : Byte} : classify b = .ready ↔ isReady b = true ∧ isError b = false := by
  unfold classify
  split
  · next h => split <;> simp_all
  · next h => simp_all

theorem classify_error {b : Byte} : classify b = .error ↔ isReady b = true ∧ isError b = true := by
  unfold classify
  split
  · next h => split <;> simp_all
  · next h => simp_all

theorem classify_busy {b : Byte} : classify b = .busy ↔ isReady b = false := by
  unfold classify
  split
  · next h => split <;> simp_all
  · next h => simp_all

/-! ### The checks before an operation -/

theorem State.accept_idle {s : State} {body : State → State} (h : s.Idle) :
    s.accept body = .next (body s) := by
  simp [State.accept, h.1, h.2]

/-- What an accepted operation answers. -/
theorem State.accept_next {s t : State} {body : State → State} (h : s.accept body = .next t) :
    s.Idle ∧ t = body s := by
  unfold State.accept at h
  split at h
  · cases h
  · split at h
    · cases h
    · next h1 h2 => cases h; exact ⟨⟨by simpa using h1, by simpa using h2⟩, rfl⟩

theorem State.stopped_eq {s : State} (h : s.seq = .idle) (cause : Cause) :
    s.refuse cause = s.stopped cause.code := by
  cases s
  simp_all [State.refuse, State.raise, State.finish, State.stopped]

/-- What an operation with checks answers: refused with nothing else changed, or its body. -/
theorem State.operate_next {s t : State} {nr ok : Bool} {bad : Cause} {body : State → State}
    (h : s.operate nr ok bad body = .next t) :
    s.Idle ∧ ((∃ cause, s.check nr ok bad = some cause ∧ t = s.stopped cause.code) ∨
      (s.check nr ok bad = none ∧ t = body s)) := by
  obtain ⟨hi, rfl⟩ := State.accept_next h
  refine ⟨hi, ?_⟩
  cases hc : s.check nr ok bad with
  | none => exact .inr ⟨rfl, by simp⟩
  | some cause => exact .inl ⟨cause, rfl, by simp [State.stopped_eq hi.1, -refuse_eq]⟩

/-- The checks pass in an open session, with write-protect released where the operation needs it and
operands that are well formed. -/
theorem State.check_none {s : State} {nr ok : Bool} {bad : Cause} :
    s.check nr ok bad = none ↔ s.sess = .awake ∧ (nr = true → s.wpr = true) ∧ ok = true := by
  unfold State.check
  cases s.sess <;> cases nr <;> cases s.wpr <;> cases ok <;> simp

theorem State.operate_run {s : State} {nr ok : Bool} {bad : Cause} {body : State → State}
    (h : s.Ready) (hw : nr = true → s.wpr = true) (hok : ok = true) :
    s.operate nr ok bad body = .next (body s) := by
  unfold State.operate
  rw [State.accept_idle h.1, State.check_none.2 ⟨h.2, hw, hok⟩]

theorem State.operate_stop {s : State} {nr ok : Bool} {bad cause : Cause} {body : State → State}
    (h : s.Idle) (hc : s.check nr ok bad = some cause) :
    s.operate nr ok bad body = .next (s.stopped cause.code) := by
  unfold State.operate
  rw [State.accept_idle h, hc]
  exact congrArg _ (State.stopped_eq h.1 cause)

theorem State.operate_closed {s : State} {nr ok : Bool} {bad : Cause} {body : State → State}
    (h : s.Closed) : s.operate nr ok bad body = .next (s.stopped 0x10#8) :=
  State.operate_stop (cause := .notAwake) h.1 (by simp [State.check, h.2])

theorem State.operate_guarded {s : State} {ok : Bool} {bad : Cause} {body : State → State}
    (h : s.Guarded) : s.operate true ok bad body = .next (s.stopped 0x11#8) :=
  State.operate_stop (cause := .writeProtected) h.1.1 (by simp [State.check, h.1.2, h.2])

theorem State.operate_bad {s : State} {nr : Bool} {bad : Cause} {body : State → State}
    (h : s.Ready) (hw : nr = true → s.wpr = true) :
    s.operate nr false bad body = .next (s.stopped bad.code) :=
  State.operate_stop h.1 (by cases nr <;> simp_all [State.check, h.2])

/-! ### Phases -/

/-- `P` holds of the state a phase leaves, and `Q` of the phase at which it leaves the operation. -/
def Progress.Holds (P : State → Prop) (Q : Phase → Prop) : Progress → Prop
  | .goOn s => P s
  | .again now s => P s ∧ Q now
  | .fail _ _ s => P s

/-- `Q` holds of every phase still to run. -/
def Seq.Holds (Q : Phase → Prop) : Seq → Prop
  | .idle => True
  | .running _ now rest => ∀ p ∈ now :: rest, Q p

/-- A property of the state that `READ_RESET`, a result and a change of `seq` keep. -/
structure State.Stable (P : State → Prop) : Prop where
  seq : ∀ s q, P s → P { s with seq := q }
  failOut : ∀ s c cause info, P s → P (s.failOut c cause info)

/-- The one induction over the phases of an operation: what every phase keeps, the operation keeps up
to the point where it stops. -/
theorem runPhases_keeps {P : State → Prop} {Q : Phase → Prop} (hs : State.Stable P)
    (hp : ∀ p s, Q p → P s → (p.perform s).Holds P Q) (c : Bool) (phases : List Phase)
    (hq : ∀ p ∈ phases, Q p) (s : State) (h : P s) :
    P (s.runPhases c phases) ∧ (s.runPhases c phases).seq.Holds Q := by
  induction phases generalizing s with
  | nil => exact ⟨hs.seq _ _ h, trivial⟩
  | cons p rest ih =>
    have h1 := hp p s (hq p (List.mem_cons_self ..)) h
    have hrest : ∀ q ∈ rest, Q q := fun q hq' => hq q (List.mem_cons_of_mem _ hq')
    unfold State.runPhases
    split
    · next s1 he => rw [he] at h1; exact ih hrest s1 h1
    · next now s1 he =>
      rw [he] at h1
      refine ⟨hs.seq _ _ h1.1, ?_⟩
      intro q hq'
      rcases List.mem_cons.1 hq' with rfl | hq'
      · exact h1.2
      · exact hrest q hq'
    · next cause info s1 he =>
      rw [he] at h1
      exact ⟨hs.failOut _ _ _ _ h1, trivial⟩

theorem resume_keeps {P : State → Prop} {Q : Phase → Prop} (hs : State.Stable P)
    (hp : ∀ p s, Q p → P s → (p.perform s).Holds P Q) {s : State} (h : P s) (hq : s.seq.Holds Q) :
    P s.resume ∧ s.resume.seq.Holds Q := by
  unfold State.resume
  split
  · next he => exact ⟨h, hq⟩
  · next c now rest he =>
    rw [he] at hq
    exact runPhases_keeps hs hp c (now :: rest) hq _ (hs.seq _ _ h)

theorem drive_keeps {P : State → Prop} {Q : Phase → Prop} (hs : State.Stable P)
    (hp : ∀ p s, Q p → P s → (p.perform s).Holds P Q) (n : Nat) {s : State} (h : P s)
    (hq : s.seq.Holds Q) : P (s.drive n) ∧ (s.drive n).seq.Holds Q := by
  induction n generalizing s with
  | zero => exact ⟨h, hq⟩
  | succ n ih => exact ih (resume_keeps hs hp h hq).1 (resume_keeps hs hp h hq).2

/-- An idle engine is not driven on. -/
theorem drive_idle (n : Nat) {s : State} (h : s.seq = .idle) : s.drive n = s := by
  induction n with
  | zero => rfl
  | succ n ih =>
    show State.drive n s.resume = s
    rw [show s.resume = s by simp [State.resume, h]]
    exact ih

theorem drive_add (m n : Nat) (s : State) : s.drive (m + n) = (s.drive m).drive n := by
  induction m generalizing s with
  | zero => simp [State.drive]
  | succ m ih => rw [Nat.succ_add]; exact ih s.resume

/-- What the writer loop keeps: what an issue and a look keep. -/
theorem wlRun_keeps {P : State → Prop} {Q : Phase → Prop} {rom1 rom2 : List Byte}
    (hq : ∀ turn, Q (.wl turn rom1 rom2))
    (hissue : ∀ s c, P s → s.live c = true → s.busy.get c = false →
      P (s.wlIssue c (match c with | .a => rom1 | .b => rom2)))
    (hlook : ∀ s c, P s → s.live c = true → s.busy.get c = true → P (s.wlLook c).2)
    (n : Nat) (turn : Chip) (s : State) (h : P s) :
    (State.wlRun n turn rom1 rom2 s).Holds P Q := by
  induction n generalizing turn s with
  | zero => exact ⟨h, hq _⟩
  | succ n ih =>
    unfold State.wlRun
    split
    · exact h
    · split
      · exact ih _ _ h
      · next hl =>
        have hl : s.live turn = true := by simpa using hl
        split
        · next hb =>
          simp only
          split
          · exact ⟨hlook _ _ h hl hb, hq _⟩
          · exact ih _ _ (hlook _ _ h hl hb)
        · next hb =>
          exact ih _ _ (hissue s turn h hl (by simpa using hb))

/-! ### A wait, driven -/

@[simp] theorem Env.polls_length (cfg : Config) (addr : Addr) (n : Nat) (e : Env) :
    (e.polls cfg addr n).1.length = n := by
  induction n generalizing e with
  | zero => rfl
  | succ n ih => simp [Env.polls, ih]

/-- What the reads of a wait leave. -/
def State.waited (s : State) (addr : Addr) (bs : List Byte) (e : Env) : State :=
  { s with
    env := e
    trace := s.trace ++ polled addr bs
    st := s.st.set (chipOf addr) (bs.getLastD 0)
    pcnt := s.pcnt + bs.length }

theorem State.poll_eq (s : State) (addr : Addr) :
    (s.poll addr).2 = s.waited addr (s.env.polls s.cfg addr 1).1 (s.env.polls s.cfg addr 1).2 := by
  have h := Env.read_one s.cfg s.env addr
  simp only [State.poll, State.readByte, State.memRead, State.waited, Env.polls, polled,
    List.map_cons, List.map_nil, List.getLastD_cons, List.getLastD_nil, List.length_cons,
    List.length_nil]
  rw [← h]

theorem PerChip_set_set {α : Type} (p : PerChip α) (c : Chip) (v w : α) :
    (p.set c v).set c w = p.set c w := by cases c <;> rfl

/-- The reads of a wait, one and then more. -/
theorem State.waited_waited (s : State) (addr : Addr) (b : Byte) (bs : List Byte) (e e' : Env)
    (h : bs ≠ []) :
    (s.waited addr [b] e).waited addr bs e' = s.waited addr (b :: bs) e' := by
  obtain ⟨x, xs, rfl⟩ := List.exists_cons_of_ne_nil h
  simp only [State.waited, polled, PerChip_set_set, State.mk.injEq, true_and, and_true]
  refine ⟨by simp, ?_, by simp⟩
  simp only [List.length_cons, List.length_nil]
  omega

/-- A poll that is not ready, short of the limit, leaves the operation at its wait. -/
theorem runPhases_wait_busy {s : State} {addr : Addr} (c : Bool) (rest : List Phase)
    (h : isReady ((s.env.read s.cfg addr 1).1.headD 0) = false)
    (hl : allowsBusy s.cfg (s.pcnt + 1)) :
    s.runPhases c (.wait addr :: rest) =
      { (s.poll addr).2 with seq := .running c (.wait addr) rest } := by
  have h1 : isReady (s.poll addr).1 = false := h
  have h2 : (s.poll addr).2.timedOut = false := by
    unfold State.timedOut
    split
    · rfl
    · next n hn =>
      refine decide_eq_false ?_
      have := hl n hn
      show ¬ n ≤ s.pcnt + 1
      omega
  rw [State.runPhases]
  simp only [Phase.perform, State.waitTurn]
  rw [if_neg (by rw [h1]; simp), if_neg (by rw [h2]; simp)]

theorem resume_wait_busy {s : State} {addr : Addr} (c : Bool) (rest : List Phase)
    (hi : s.seq = .idle) (h : isReady ((s.env.read s.cfg addr 1).1.headD 0) = false)
    (hl : allowsBusy s.cfg (s.pcnt + 1)) :
    (s.runPhases c (.wait addr :: rest)).resume = (s.poll addr).2.runPhases c (.wait addr :: rest) := by
  have : ({ (s.poll addr).2 with seq := .idle } : State) = (s.poll addr).2 := by
    have hseq : (s.poll addr).2.seq = .idle := hi
    rw [← hseq]
  rw [runPhases_wait_busy c rest h hl]
  simp only [State.resume]
  rw [this]

/-- A wait whose `k` busy answers are followed by a ready one goes on to the next phase. -/
theorem drive_wait {s : State} {addr : Addr} {k : Nat} (c : Bool) (rest : List Phase)
    (hi : s.seq = .idle) (hr : EndsReady (s.env.polls s.cfg addr (k + 1)).1)
    (hl : allowsBusy s.cfg (s.pcnt + k)) :
    (s.runPhases c (.wait addr :: rest)).drive k =
      (s.waited addr (s.env.polls s.cfg addr (k + 1)).1
        (s.env.polls s.cfg addr (k + 1)).2).runPhases c rest := by
  induction k generalizing s with
  | zero =>
    obtain ⟨busy, last, he, -, hlast⟩ := hr
    have hb : busy = [] := by
      have := congrArg List.length he
      simp at this
      simpa using this
    subst hb
    have h1 : isReady (s.poll addr).1 = true := by
      have : (s.env.read s.cfg addr 1).1.headD 0 = last := (List.cons.inj he).1
      show isReady ((s.env.read s.cfg addr 1).1.headD 0) = true
      rw [this, hlast]
    show State.runPhases c (.wait addr :: rest) s = _
    rw [State.runPhases]
    simp only [Phase.perform, State.waitTurn]
    rw [if_pos h1, State.poll_eq]
  | succ k ih =>
    obtain ⟨busy, last, he, hbusy, hlast⟩ := hr
    obtain ⟨b, bs, rfl⟩ : ∃ b bs, busy = b :: bs := by
      cases busy with
      | nil => have := congrArg List.length he; simp at this
      | cons b bs => exact ⟨b, bs, rfl⟩
    have hhead : (s.env.read s.cfg addr 1).1.headD 0 = b := (List.cons.inj he).1
    have htail : ((s.env.read s.cfg addr 1).2.polls s.cfg addr (k + 1)).1 = bs ++ [last] :=
      (List.cons.inj he).2
    show State.drive k (s.runPhases c (.wait addr :: rest)).resume = _
    rw [resume_wait_busy c rest hi (by rw [hhead]; exact hbusy b (List.mem_cons_self ..))
        (fun n hn => by have := hl n hn; omega),
      ih (s := (s.poll addr).2) hi
        ⟨bs, last, htail, fun x hx => hbusy x (List.mem_cons_of_mem _ hx), hlast⟩
        (fun n hn => by have := hl n hn; simp only [poll_pcnt]; omega)]
    congr 1
    rw [State.poll_eq]
    exact State.waited_waited s addr _ _ _ _
      (show ((s.env.read s.cfg addr 1).2.polls s.cfg addr (k + 1)).1 ≠ [] by rw [htail]; simp)

/-- While a wait is answered busy and has not reached the limit, the operation stays at it. -/
theorem drive_wait_busy {s : State} {addr : Addr} {k : Nat} (c : Bool) (rest : List Phase)
    (hi : s.seq = .idle) (hb : ∀ b ∈ (s.env.polls s.cfg addr (k + 1)).1, isReady b = false)
    (hl : allowsBusy s.cfg (s.pcnt + k + 1)) :
    (s.runPhases c (.wait addr :: rest)).drive k =
      { s.waited addr (s.env.polls s.cfg addr (k + 1)).1 (s.env.polls s.cfg addr (k + 1)).2 with
        seq := .running c (.wait addr) rest } := by
  induction k generalizing s with
  | zero =>
    show State.runPhases c (.wait addr :: rest) s = _
    rw [runPhases_wait_busy c rest (hb _ (List.mem_cons_self ..)) hl, State.poll_eq]
  | succ k ih =>
    have htail : ∀ b ∈ ((s.env.read s.cfg addr 1).2.polls s.cfg addr (k + 1)).1,
        isReady b = false := fun b h => hb b (List.mem_cons_of_mem _ h)
    show State.drive k (s.runPhases c (.wait addr :: rest)).resume = _
    rw [resume_wait_busy c rest hi (hb _ (List.mem_cons_self ..))
        (fun n hn => by have := hl n hn; omega),
      ih (s := (s.poll addr).2) hi htail
        (fun n hn => by have := hl n hn; simp only [poll_pcnt]; omega)]
    have hne : ((s.env.read s.cfg addr 1).2.polls s.cfg addr (k + 1)).1 ≠ [] := by
      intro h
      have := congrArg List.length h
      simp at this
    have := State.waited_waited s addr ((s.env.read s.cfg addr 1).1.headD 0) _
      (s.env.read s.cfg addr 1).2 ((s.env.read s.cfg addr 1).2.polls s.cfg addr (k + 1)).2 hne
    rw [State.poll_eq]
    exact congrArg (fun t : State => { t with seq := .running c (.wait addr) rest }) this

/-- A wait none of whose `k + 1` answers is ready fails when the limit is `k + 1`. -/
theorem drive_wait_timeout {s : State} {addr : Addr} {k : Nat} (c : Bool) (rest : List Phase)
    (hi : s.seq = .idle) (hb : ∀ b ∈ (s.env.polls s.cfg addr (k + 1)).1, isReady b = false)
    (hl : s.cfg.pollLimit = some (s.pcnt + k + 1)) :
    (s.runPhases c (.wait addr :: rest)).drive k =
      (s.waited addr (s.env.polls s.cfg addr (k + 1)).1
        (s.env.polls s.cfg addr (k + 1)).2).failOut c .pollTimeout addr := by
  induction k generalizing s with
  | zero =>
    have h1 : isReady (s.poll addr).1 = false := hb _ (List.mem_cons_self ..)
    have h2 : (s.poll addr).2.timedOut = true := by
      unfold State.timedOut
      split
      · next hn => exact absurd (hl.symm.trans hn) (by simp)
      · next n hn =>
        cases hl.symm.trans hn
        exact decide_eq_true (Nat.le_refl _)
    show State.runPhases c (.wait addr :: rest) s = _
    rw [State.runPhases]
    simp only [Phase.perform, State.waitTurn]
    rw [if_neg (by rw [h1]; simp), if_pos h2, State.poll_eq]
  | succ k ih =>
    have htail : ∀ b ∈ ((s.env.read s.cfg addr 1).2.polls s.cfg addr (k + 1)).1,
        isReady b = false := fun b h => hb b (List.mem_cons_of_mem _ h)
    show State.drive k (s.runPhases c (.wait addr :: rest)).resume = _
    rw [resume_wait_busy c rest hi (hb _ (List.mem_cons_self ..))
        (fun n hn => by rw [hl] at hn; cases hn; omega),
      ih (s := (s.poll addr).2) hi htail
        (by simp only [poll_cfg, poll_pcnt]; rw [hl]; congr 1; omega)]
    have hne : ((s.env.read s.cfg addr 1).2.polls s.cfg addr (k + 1)).1 ≠ [] := by
      intro h
      have := congrArg List.length h
      simp at this
    congr 1
    rw [State.poll_eq]
    exact State.waited_waited s addr _ _ _ _ hne

/-- What a whole wait leaves. -/
def State.waitedAt (s : State) (addr : Addr) (bs : List Byte) (e : Env) : State :=
  { s with
    env := e
    trace := s.trace ++ polled addr bs
    st := s.st.set (chipOf addr) (bs.getLastD 0)
    pcnt := bs.length }

/-- A whole wait, answered ready after `k` busy answers. -/
theorem drive_waitPhases {s : State} {addr : Addr} {k : Nat} (c : Bool) (rest : List Phase)
    (hi : s.seq = .idle) (hr : EndsReady (s.env.polls s.cfg addr (k + 1)).1)
    (hl : allowsBusy s.cfg k) :
    (s.runPhases c (waitPhases addr ++ rest)).drive k =
      (s.waitedAt addr (s.env.polls s.cfg addr (k + 1)).1
        (s.env.polls s.cfg addr (k + 1)).2).runPhases c rest := by
  refine (drive_wait (s := { s with pcnt := 0 }) c rest hi hr
    (fun n hn => by have := hl n hn; simpa using this)).trans ?_
  simp only [State.waited, Nat.zero_add]
  rfl

/-- `WaitBoth`, each chip answered ready after some busy answers. -/
theorem drive_waitBoth {s : State} {j k : Nat} (c : Bool) (rest : List Phase) (hi : s.seq = .idle)
    (ha : EndsReady (s.env.polls s.cfg (base .a) (j + 1)).1)
    (hb : EndsReady ((s.env.polls s.cfg (base .a) (j + 1)).2.polls s.cfg (base .b) (k + 1)).1)
    (hj : allowsBusy s.cfg j) (hk : allowsBusy s.cfg k) :
    (s.runPhases c (waitBoth ++ rest)).drive (j + k) =
      let ra := s.env.polls s.cfg (base .a) (j + 1)
      let rb := ra.2.polls s.cfg (base .b) (k + 1)
      State.runPhases c rest { s with
        env := rb.2
        trace := s.trace ++ polled (base .a) ra.1 ++ polled (base .b) rb.1
        st := ⟨ra.1.getLastD 0, rb.1.getLastD 0⟩
        pcnt := k + 1 } := by
  rw [drive_add]
  have h1 := drive_waitPhases (s := s) c (waitPhases (base .b) ++ rest) hi ha hj
  have h2 := drive_waitPhases (s := s.waitedAt (base .a) (s.env.polls s.cfg (base .a) (j + 1)).1
    (s.env.polls s.cfg (base .a) (j + 1)).2) c rest hi hb hk
  refine ((congrArg (State.drive k) h1).trans h2).trans ?_
  simp only [State.waitedAt, Env.polls_length, PerChip.set, chipOf, base]
  rfl

end Sys2Proof.Machine
end

