-- ==== Sys2Proof/Laws/Exec.lean ====
section
/-! SUPPORT. What each operation answers: the body it runs when its checks pass, and what it does when
one of them does not. A proof about an operation cites these and unfolds no meaning. -/

namespace Sys2Proof.Machine

open Sys2Proof

/-! ### The shape of every operation -/

/-- Why ill-formed operands of an operation end it. -/
def badCause : Instr → Cause
  | .writeRom _ => .inputValidation
  | .writeLoop _ _ => .inputValidation
  | .verifyRom _ => .inputValidation
  | .writeMap _ => .inputValidation
  | .verifyMap _ => .inputValidation
  | .sramWrite _ => .inputValidation
  | .sramVerify _ => .inputValidation
  | _ => .badOperand

/-- Every operation but the two session commands is its checks and a body. -/
theorem exec_operate (i : Instr) (h : makesNoCheck i = false) :
    ∃ body : State → State, ∀ s,
      exec i s = s.operate (needsRelease i) i.wellFormed (badCause i) body := by
  cases i <;> first
    | exact absurd h (by decide)
    | exact ⟨_, fun _ => rfl⟩

/-- Every operation is accepted in IDLE only. -/
theorem exec_accept (i : Instr) : ∃ body : State → State, ∀ s, exec i s = s.accept body := by
  cases hi : makesNoCheck i with
  | false =>
    obtain ⟨body, hb⟩ := exec_operate i hi
    exact ⟨_, fun s => (hb s).trans rfl⟩
  | true => cases i <;> first | exact absurd hi (by decide) | exact ⟨_, fun _ => rfl⟩

/-- An operation that answers a next state was issued in IDLE. -/
theorem exec_next_idle {i : Instr} {s t : State} (h : exec i s = .next t) : s.Idle := by
  obtain ⟨body, hb⟩ := exec_accept i
  rw [hb] at h
  exact (State.accept_next h).1

theorem finish_idle {s : State} (h : s.seq = .idle) (rc : BitVec 8) (res : BitVec 24) :
    s.finish rc res = { s with rc := rc, res := res } := by
  cases s
  simp_all [State.finish]

/-! ### The checks -/

theorem exec_closed {i : Instr} {s : State} (hi : makesNoCheck i = false) (h : s.Closed) :
    exec i s = .next (s.stopped 0x10#8) := by
  obtain ⟨body, hb⟩ := exec_operate i hi
  rw [hb]
  exact State.operate_closed h

theorem exec_guarded {i : Instr} {s : State} (hi : needsRelease i = true) (h : s.Guarded) :
    exec i s = .next (s.stopped 0x11#8) := by
  obtain ⟨body, hb⟩ := exec_operate i (by cases i <;> simp_all [needsRelease, makesNoCheck])
  rw [hb, hi]
  exact State.operate_guarded h

/-- What an operation with checks answers: refused with nothing else changed, or run. -/
theorem exec_cases {i : Instr} {s t : State} (hi : makesNoCheck i = false)
    (h : exec i s = .next t) :
    s.Idle ∧ ((∃ code, t = s.stopped code) ∨
      (s.Ready ∧ (needsRelease i = true → s.wpr = true) ∧ i.wellFormed = true)) := by
  obtain ⟨body, hb⟩ := exec_operate i hi
  rw [hb] at h
  obtain ⟨hidle, ⟨cause, -, rfl⟩ | ⟨hc, -⟩⟩ := State.operate_next h
  · exact ⟨hidle, .inl ⟨_, rfl⟩⟩
  · obtain ⟨h1, h2, h3⟩ := State.check_none.1 hc
    exact ⟨hidle, .inr ⟨⟨hidle, h1⟩, h2, h3⟩⟩

/-! ### The bodies -/

section
variable {s : State}

theorem exec_unlockAndGlobal {cmd : Byte} (h : s.Ready) :
    exec (.unlockAndGlobal cmd) s = .next ((s.memWrites (unlockGlobalWrites s.cfg cmd)).succeed 0) :=
  show execUnlockAndGlobal cmd s = _ from State.operate_run h (by simp) rfl

theorem exec_unlockAndLocal {addr : Addr} {cmd : Byte} (h : s.Ready) :
    exec (.unlockAndLocal addr cmd) s = .next ((s.memWrites (unlockLocalWrites s.cfg addr cmd)).succeed 0) :=
  show execUnlockAndLocal addr cmd s = _ from State.operate_run h (by simp) rfl

theorem exec_readReset (h : s.Ready) :
    exec .readReset s = .next (s.readReset.succeed 0) :=
  show execReadReset s = _ from State.operate_run h (by simp) rfl

theorem exec_showHidden (h : s.Ready) :
    exec .showHidden s = .next (s.runPhases false (rawPhases s.cfg.showSeq ++ [.done])) :=
  show execShowHidden s = _ from State.operate_run h (by simp) rfl

theorem exec_hide (h : s.Ready) :
    exec .hide s = .next (s.runPhases false (rawPhases s.cfg.hideSeq ++ [.done])) :=
  show execHide s = _ from State.operate_run h (by simp) rfl

theorem exec_chipErase (h : s.Released) :
    exec .chipErase s = .next (s.runPhases false (chipErasePhases ++ [.done])) :=
  show execChipErase s = _ from State.operate_run h.1 (fun _ => h.2) rfl

theorem exec_hiddenErase (h : s.Released) :
    exec .hiddenErase s = .next (s.runPhases false (hiddenErasePhases ++ [.done])) :=
  show execHiddenErase s = _ from State.operate_run h.1 (fun _ => h.2) rfl

theorem exec_pageWrite {addr : Addr} {page : List Byte} (h : s.Released)
    (hok : pageOperandsOk addr page = true) :
    exec (.pageWrite addr page) s = .next ((s.sendPage cmdProgram addr page).succeed 0) :=
  show execPageWrite addr page s = _ from State.operate_run h.1 (fun _ => h.2) hok

theorem exec_hiddenWrite {addr : Addr} {page : List Byte} (h : s.Released)
    (hok : pageOperandsOk addr page = true) :
    exec (.hiddenWrite addr page) s = .next (s.runPhases false
      (hiddenWritePhases addr page ++ [.doneErr (chipOf (bankBase addr))])) :=
  show execHiddenWrite addr page s = _ from State.operate_run h.1 (fun _ => h.2) hok

theorem exec_statusStep {c : Chip} (h : s.Ready) :
    exec (.statusStep c) s = .next ((s.look c).2.succeed (s.look c).1.code) :=
  show execStatusStep c s = _ from State.operate_run h (by simp) rfl

theorem exec_waitReady {addr : Addr} (h : s.Ready) :
    exec (.waitReady addr) s = .next (s.runPhases false (waitPhases addr ++ [.doneStatus (chipOf addr)])) :=
  show execWaitReady addr s = _ from State.operate_run h (by simp) rfl

theorem exec_writeRom {buf : List Byte} (h : s.Released)
    (hok : imageLengthOk maxRom buf = true) :
    exec (.writeRom buf) s = .next (s.runPhases true
      (chipErasePhases ++ writeLoopPhases (romA buf) (romB buf) ++
        [.unlockGlobal cmdReset, .doneRom buf.length])) :=
  show execWriteRom buf s = _ from State.operate_run h.1 (fun _ => h.2) hok

theorem exec_writeLoop {rom1 rom2 : List Byte} (h : s.Released)
    (hok : streamsOk rom1 rom2 = true) :
    exec (.writeLoop rom1 rom2) s = .next (s.runPhases false (writeLoopPhases rom1 rom2 ++ [.doneCount])) :=
  show execWriteLoop rom1 rom2 s = _ from State.operate_run h.1 (fun _ => h.2) hok

theorem exec_verifyRom {buf : List Byte} (h : s.Ready)
    (hok : buf.length ≤ maxRom) :
    exec (.verifyRom buf) s = .next ((State.verifyChunks (buf.length / vChunk + 1) buf { s with voff := 0 }).verifyResult
      buf.length) :=
  show execVerifyRom buf s = _ from State.operate_run h (by simp) (decide_eq_true hok)

theorem exec_writeMap {map : List Byte} (h : s.Released)
    (hok : map.length = mapLen) :
    exec (.writeMap map) s = .next (s.runPhases true (.clearErr :: hiddenErasePhases ++
      (mapPagePhases map 0 ++ mapPagePhases map 1 ++ mapPagePhases map 2 ++ mapPagePhases map 3) ++
      [.unlockGlobal cmdReset, .doneMap])) :=
  show execWriteMap map s = _ from State.operate_run h.1 (fun _ => h.2) (beq_iff_eq.2 hok)

theorem exec_verifyMap {map : List Byte} (h : s.Ready)
    (hok : map.length = mapLen) :
    exec (.verifyMap map) s = .next (s.runPhases true (rawPhases s.cfg.showSeq ++ [.mapReadBack map])) :=
  show execVerifyMap map s = _ from State.operate_run h (by simp) (beq_iff_eq.2 hok)

theorem exec_dirPresent (h : s.Ready) :
    exec .dirPresent s = .next ((s.memRead s.cfg.sigAddr 16).2.succeed
      (flagRes ((s.memRead s.cfg.sigAddr 16).1 == sig))) :=
  show execDirPresent s = _ from State.operate_run h (by simp) rfl

theorem exec_dirOpen (h : s.Ready) :
    exec .dirOpen s = .next ({ s with slot := 0, dend := false }.succeed 0) :=
  show execDirOpen s = _ from State.operate_run h (by simp) rfl

theorem exec_wpRelease (h : s.Ready) :
    exec .wpRelease s = .next ({ s.memWrite devReg0 [wpRel] with wpr := true }.succeed 0) :=
  show execWpRelease s = _ from State.operate_run h (by simp) rfl

theorem exec_wpAssert (h : s.Ready) :
    exec .wpAssert s = .next ({ s.memWrite devReg0 [wpSet] with wpr := false }.succeed 0) :=
  show execWpAssert s = _ from State.operate_run h (by simp) rfl

theorem exec_sramWrite {buf : List Byte} (h : s.Released)
    (hok : buf.length ≤ sramMax) :
    exec (.sramWrite buf) s = .next ((s.memWrites (sramWrites s.cfg.sramAddr buf)).succeed (BitVec.ofNat 24 buf.length)) :=
  show execSramWrite buf s = _ from State.operate_run h.1 (fun _ => h.2) (decide_eq_true hok)

theorem exec_dirNext_end (h : s.Ready) (hd : s.dend = true) :
    exec .dirNext s = .next (s.succeed 0) := by
  show execDirNext s = _
  rw [execDirNext, State.operate_run h (by simp) rfl, if_pos hd]

theorem exec_dirNext_read {d : List Byte} {s1 : State} (h : s.Ready) (hd : s.dend = false)
    (hr : s.memRead (slotAddr s.cfg s.slot.toNat) dirRecLen = (d, s1)) :
    exec .dirNext s = .next (if recByte d 0 = dirSentinel
      then { s1 with rbuf := d, dend := true }.succeed 0
      else State.takeEntry { s1 with rbuf := d }) := by
  show execDirNext s = _
  rw [execDirNext, State.operate_run h (by simp) rfl, if_neg (by simp [hd]), hr]

theorem exec_sramVerify {buf : List Byte} (h : s.Ready) (hok : buf.length ≤ sramMax) :
    exec (.sramVerify buf) s =
      let r := s.readSegments s.cfg.sramAddr
      .next (if r.1.take buf.length = buf then r.2.succeed 1 else r.2.raise .verifyMismatch 0) :=
  show execSramVerify buf s = _ from State.operate_run h (by simp) (decide_eq_true hok)

theorem exec_sessionOpen (h : s.Idle) :
    exec .sessionOpen s =
      let r := { s with sess := .closed, wpr := false }.readByte devReg0
      .next (if r.1 = devAwake then r.2.establish
        else if r.1 = devAsleep then (r.2.wake r.2.cfg.wakeSeq).establish
        else r.2.raise .deviceNotDetected (r.1.setWidth 24)) :=
  show execSessionOpen s = _ from State.accept_idle h

theorem exec_sessionClose (h : s.Idle) :
    exec .sessionClose s =
      let s1 := if s.sess = .awake then s.readReset.memWrite devReg0 [wpSet] else s
      .next ({ s1 with wpr := false, sess := .closed }.succeed 0) :=
  show execSessionClose s = _ from State.accept_idle h

end

end Sys2Proof.Machine
end

