-- ==== Sys2Proof/Laws/Bus.lean ====
section
/-! SUPPORT. The induction over a whole operation for what depends on the bus alone: a property that one
bus event keeps, every operation and every step keeps. -/

namespace Sys2Proof.Machine

open Sys2Proof

/-- A property of the environment, the trace and the parameters that every bus event keeps. -/
structure BusStable (P : State → Prop) : Prop where
  regs : ∀ s t, P s → t.env = s.env → t.trace = s.trace → t.cfg = s.cfg → P t
  write : ∀ s addr v, P s → P (s.memWrite addr v)
  read : ∀ s addr n, P s → P (s.memRead addr n).2

namespace BusStable
variable {P : State → Prop} (hP : BusStable P)
include hP

theorem writes (ws : List BusWrite) {s : State} (h : P s) : P (s.memWrites ws) := by
  induction ws generalizing s with
  | nil => exact h
  | cons w ws ih => exact ih (hP.write s w.1 w.2 h)

theorem finish {s : State} (rc : BitVec 8) (res : BitVec 24) (h : P s) : P (s.finish rc res) :=
  hP.regs s _ h rfl rfl rfl

theorem stopped {s : State} (code : BitVec 8) (h : P s) : P (s.stopped code) :=
  hP.regs s _ h rfl rfl rfl

theorem readReset {s : State} (h : P s) : P s.readReset := hP.writes _ h

theorem sendPage {s : State} (cmd : Byte) (addr : Addr) (page : List Byte) (h : P s) :
    P (s.sendPage cmd addr page) :=
  hP.writes _ (hP.writes _ (hP.regs s _ h rfl rfl rfl))

theorem poll {s : State} (addr : Addr) (h : P s) : P (s.poll addr).2 :=
  hP.regs _ _ (hP.read s addr 1 h) rfl rfl rfl

theorem look {s : State} (c : Chip) (h : P s) : P (s.look c).2 :=
  hP.regs _ _ (hP.read s (base c) 1 h) rfl rfl rfl

theorem stable : State.Stable P where
  seq := fun s _ h => hP.regs s _ h rfl rfl rfl
  failOut := fun s c cause info h => by
    unfold State.failOut
    cases c
    · exact hP.finish _ _ h
    · exact hP.finish _ _ (hP.readReset h)

theorem wlIssue {s : State} (c : Chip) (rom : List Byte) (h : P s) : P (s.wlIssue c rom) := by
  unfold State.wlIssue
  exact hP.regs _ _ (hP.sendPage cmdProgram (pageAddr c (s.cur.get c).toNat)
    (pageOf rom (s.cur.get c).toNat) h) rfl rfl rfl

theorem wlReady {s : State} (c : Chip) (h : P s) : P (s.wlReady c) := hP.regs s _ h rfl rfl rfl

theorem wlError {s : State} (c : Chip) (h : P s) : P (s.wlError c) := hP.regs s _ h rfl rfl rfl

theorem wlLook {s : State} (c : Chip) (h : P s) : P (s.wlLook c).2 := by
  have h1 := hP.look c h
  unfold State.wlLook
  simp only
  split
  · exact h1
  · exact hP.wlReady c h1
  · exact hP.wlError c h1

theorem wlRun (n : Nat) (turn : Chip) (rom1 rom2 : List Byte) {s : State} (h : P s) :
    (State.wlRun n turn rom1 rom2 s).Holds P fun _ => True := by
  refine wlRun_keeps (fun _ => trivial) ?_ ?_ n turn s h
  · intro s c h _ _
    exact hP.wlIssue c _ h
  · intro s c h _ _
    exact hP.wlLook c h

theorem mapReadBack {s : State} (map : List Byte) (h : P s) : P (s.mapReadBack map) := by
  unfold State.mapReadBack
  simp only
  split
  · exact hP.finish _ _ (hP.readReset (hP.read _ _ _ (hP.read _ _ _ h)))
  · exact hP.finish _ _ (hP.readReset (hP.read _ _ _ (hP.read _ _ _ h)))

/-- Every phase keeps it. -/
theorem perform (p : Phase) {s : State} (h : P s) : (p.perform s).Holds P fun _ => True := by
  cases p with
  | unlockGlobal cmd => exact hP.writes _ h
  | rawSeq bytes => exact hP.writes _ h
  | page cmd addr data => exact hP.sendPage _ _ _ h
  | waitStart => exact hP.regs _ _ h rfl rfl rfl
  | wait addr =>
    show (s.waitTurn addr).Holds P _
    unfold State.waitTurn
    simp only
    split
    · exact hP.poll addr h
    · split
      · exact hP.poll addr h
      · exact ⟨hP.poll addr h, trivial⟩
  | clearErr => exact hP.regs _ _ h rfl rfl rfl
  | orErr c => exact hP.regs _ _ h rfl rfl rfl
  | wlInit rom1 rom2 => exact hP.regs _ _ h rfl rfl rfl
  | wl turn rom1 rom2 => exact hP.wlRun _ turn rom1 rom2 h
  | mapReadBack map => exact hP.mapReadBack map h
  | done => exact hP.finish _ _ h
  | doneStatus c => exact hP.finish _ _ h
  | doneErr c => exact hP.finish _ _ h
  | doneCount => exact hP.finish _ _ h
  | doneRom len =>
    show P (s.romResult len)
    unfold State.romResult
    split <;> exact hP.finish _ _ h
  | doneMap =>
    show P s.mapResult
    unfold State.mapResult
    split <;> exact hP.finish _ _ h

theorem runPhases (c : Bool) (phases : List Phase) {s : State} (h : P s) :
    P (s.runPhases c phases) :=
  (runPhases_keeps hP.stable (fun p _ _ h => hP.perform p h) c phases (fun _ _ => trivial) s h).1

theorem resume {s : State} (h : P s) : P s.resume := by
  unfold State.resume
  split
  · exact h
  · exact hP.runPhases _ _ (hP.regs _ _ h rfl rfl rfl)

theorem drive (n : Nat) {s : State} (h : P s) : P (s.drive n) := by
  induction n generalizing s with
  | zero => exact h
  | succ n ih => exact ih (hP.resume h)

theorem verifyChunks (n : Nat) (rest : List Byte) {s : State} (h : P s) :
    P (State.verifyChunks n rest s) := by
  induction n generalizing rest s with
  | zero => exact h
  | succ n ih =>
    unfold State.verifyChunks
    split
    · exact h
    · simp only
      split
      · exact ih _ (hP.regs _ _ (hP.read _ _ _ h) rfl rfl rfl)
      · exact hP.read _ _ _ h

theorem readSegments (as : List Addr) {s : State} (h : P s) : P (s.readSegments as).2 := by
  induction as generalizing s with
  | nil => exact h
  | cons a as ih => exact ih (hP.read s a sramSeg h)

theorem wake (xs : List WakeStep) {s : State} (h : P s) : P (s.wake xs) := by
  induction xs generalizing s with
  | nil => exact h
  | cons x xs ih =>
    refine ih ?_
    cases x with
    | write addr value => exact hP.write s addr [value] h
    | read addr => exact hP.read s addr 1 h

theorem establish {s : State} (h : P s) : P s.establish :=
  hP.finish _ _ (hP.readReset (hP.write _ _ _ (hP.regs s _ h rfl rfl rfl)))

/-- Every operation keeps it. -/
theorem exec {i : Instr} {s t : State} (he : Sys2Proof.Machine.exec i s = .next t) (h : P s) : P t := by
  cases hi : makesNoCheck i with
  | false =>
    obtain ⟨hidle, ⟨code, rfl⟩ | ⟨hr, hw, hok⟩⟩ := exec_cases hi he
    · exact hP.stopped _ h
    · cases i with
      | unlockAndGlobal cmd =>
        rw [exec_unlockAndGlobal hr] at he
        cases he
        exact hP.finish _ _ (hP.writes _ h)
      | unlockAndLocal addr cmd =>
        rw [exec_unlockAndLocal hr] at he
        cases he
        exact hP.finish _ _ (hP.writes _ h)
      | readReset =>
        rw [exec_readReset hr] at he
        cases he
        exact hP.finish _ _ (hP.readReset h)
      | showHidden => rw [exec_showHidden hr] at he; cases he; exact hP.runPhases _ _ h
      | hide => rw [exec_hide hr] at he; cases he; exact hP.runPhases _ _ h
      | chipErase => rw [exec_chipErase ⟨hr, hw rfl⟩] at he; cases he; exact hP.runPhases _ _ h
      | hiddenErase => rw [exec_hiddenErase ⟨hr, hw rfl⟩] at he; cases he; exact hP.runPhases _ _ h
      | pageWrite addr page =>
        rw [exec_pageWrite ⟨hr, hw rfl⟩ hok] at he
        cases he
        exact hP.finish _ _ (hP.sendPage _ _ _ h)
      | hiddenWrite addr page =>
        rw [exec_hiddenWrite ⟨hr, hw rfl⟩ hok] at he
        cases he
        exact hP.runPhases _ _ h
      | statusStep c =>
        rw [exec_statusStep hr] at he
        cases he
        exact hP.finish _ _ (hP.look c h)
      | waitReady addr => rw [exec_waitReady hr] at he; cases he; exact hP.runPhases _ _ h
      | writeRom buf =>
        rw [exec_writeRom ⟨hr, hw rfl⟩ hok] at he
        cases he
        exact hP.runPhases _ _ h
      | writeLoop rom1 rom2 =>
        rw [exec_writeLoop ⟨hr, hw rfl⟩ hok] at he
        cases he
        exact hP.runPhases _ _ h
      | verifyRom buf =>
        rw [exec_verifyRom hr (of_decide_eq_true hok)] at he
        cases he
        unfold State.verifyResult
        split <;> exact hP.finish _ _ (hP.verifyChunks _ _ (hP.regs s _ h rfl rfl rfl))
      | writeMap map =>
        rw [exec_writeMap ⟨hr, hw rfl⟩ (beq_iff_eq.1 hok)] at he
        cases he
        exact hP.runPhases _ _ h
      | verifyMap map =>
        rw [exec_verifyMap hr (beq_iff_eq.1 hok)] at he
        cases he
        exact hP.runPhases _ _ h
      | dirPresent =>
        rw [exec_dirPresent hr] at he
        cases he
        exact hP.finish _ _ (hP.read _ _ _ h)
      | dirOpen => rw [exec_dirOpen hr] at he; cases he; exact hP.regs s _ h rfl rfl rfl
      | dirNext =>
        cases hd : s.dend with
        | true => rw [exec_dirNext_end hr hd] at he; cases he; exact hP.finish _ _ h
        | false =>
          have h1 := hP.read s (slotAddr s.cfg s.slot.toNat) dirRecLen h
          obtain ⟨d, s1, hm⟩ : ∃ d s1, s.memRead (slotAddr s.cfg s.slot.toNat) dirRecLen = (d, s1) :=
            ⟨_, _, rfl⟩
          rw [hm] at h1
          rw [exec_dirNext_read hr hd hm] at he
          cases he
          split
          · exact hP.regs s1 _ h1 rfl rfl rfl
          · exact hP.regs s1 _ h1 rfl rfl rfl
      | wpRelease =>
        rw [exec_wpRelease hr] at he
        cases he
        exact hP.regs _ _ (hP.write s devReg0 [wpRel] h) rfl rfl rfl
      | wpAssert =>
        rw [exec_wpAssert hr] at he
        cases he
        exact hP.regs _ _ (hP.write s devReg0 [wpSet] h) rfl rfl rfl
      | sramWrite buf =>
        rw [exec_sramWrite ⟨hr, hw rfl⟩ (of_decide_eq_true hok)] at he
        cases he
        exact hP.finish _ _ (hP.writes _ h)
      | sramVerify buf =>
        rw [exec_sramVerify hr (of_decide_eq_true hok)] at he
        cases he
        split <;> exact hP.finish _ _ (hP.readSegments _ h)
      | sessionOpen => cases hi
      | sessionClose => cases hi
  | true =>
    have hidle := exec_next_idle he
    cases i <;> cases hi
    · rw [exec_sessionOpen hidle] at he
      cases he
      have h1 : P ({ s with sess := .closed, wpr := false }.readByte devReg0).2 :=
        hP.read _ devReg0 1 (hP.regs s _ h rfl rfl rfl)
      split
      · exact hP.establish h1
      · split
        · exact hP.establish (hP.wake _ h1)
        · exact hP.finish _ _ h1
    · rw [exec_sessionClose hidle] at he
      cases he
      have h1 : P (if s.sess = .awake then s.readReset.memWrite devReg0 [wpSet] else s) := by
        split
        · exact hP.write _ _ _ (hP.readReset h)
        · exact h
      exact hP.regs _ _ h1 rfl rfl rfl

/-- Every step keeps it. -/
theorem step {s t : State} (he : Sys2Proof.Machine.step s = .next t) (h : P s) : P t := by
  unfold Sys2Proof.Machine.step at he
  split at he
  · cases he
    exact hP.resume h
  · unfold State.take at he
    cases hb : s.inbox with
    | nil =>
      rw [hb] at he
      cases he
      exact h
    | cons r rs =>
      rw [hb] at he
      simp only at he
      have h1 : P { s with inbox := rs } := hP.regs s _ h rfl rfl rfl
      split at he
      · exact hP.exec he h1
      · cases he
        exact hP.finish _ _ h1

/-- Every point of every operation keeps it. -/
theorem runs {i : Instr} {s t : State} {n : Nat} (hr : s.Runs i n t) (h : P s) : P t := by
  obtain ⟨t0, he, rfl⟩ := hr
  exact hP.drive n (hP.exec he h)

end BusStable

/-! ### What every bus event keeps -/

/-- A property of the environment that its answers and responses keep. -/
theorem BusStable.ofEnv {R : Env → Prop} (hw : ∀ cfg e addr v, R e → R (Env.write cfg e addr v))
    (hr : ∀ cfg e addr n, R e → R (Env.read cfg e addr n).2) : BusStable fun s => R s.env where
  regs := fun _ _ h he _ _ => by rw [he]; exact h
  write := fun _ _ _ h => hw _ _ _ _ h
  read := fun _ _ _ h => hr _ _ _ _ h

theorem busStable_wf : BusStable fun s => s.env.wf = true :=
  .ofEnv (R := fun e => e.wf = true) (fun _ _ addr v h => Env.wf_write addr v h) (fun _ _ addr n h => Env.wf_read addr n h)

theorem busStable_cfg (cfg : Config) : BusStable fun s => s.cfg = cfg where
  regs := fun _ _ h _ _ hc => hc.trans h
  write := fun _ _ _ h => h
  read := fun _ _ _ h => h

theorem busStable_trace (tr : List Event) : BusStable fun s => tr <+: s.trace where
  regs := fun _ _ h _ ht _ => by rw [ht]; exact h
  write := fun _ _ _ h => h.trans (List.prefix_append ..)
  read := fun _ _ _ h => h.trans (List.prefix_append ..)

end Sys2Proof.Machine
end

