-- ==== Sys2Proof/Laws/PerInstr.lean ====
section
/-! SUPPORT. Statements about every operation as syntax, one lemma per constructor.
`EncodedOpcode`: the record of an operation carries one of the 25 opcodes of spec/30_encoding.md R101. -/

namespace Sys2Proof.Laws

open Sys2Proof Sys2Proof.Machine

/-- `cmd` is read back from `arg[7:0]`. -/
@[simp] theorem argCmd_cmdArg (cmd : Byte) : argCmd (cmdArg cmd) = cmd := by
  ext i hi
  simp [argCmd, cmdArg]

/-- The chip is read back from `arg[0]`. -/
@[simp] theorem argChip_chipArg (c : Chip) : argChip (chipArg c) = c := by cases c <;> rfl

namespace EncodedOpcode

/-- The record of `i` carries an opcode of R101. -/
def Statement (i : Instr) : Prop := (encode i).op ∈ opcodes

theorem unlockAndGlobal (cmd : Byte) : Statement (.unlockAndGlobal cmd) := by
  simp [Statement, encode, Command.bare, opcodes]
theorem unlockAndLocal (addr : Addr) (cmd : Byte) : Statement (.unlockAndLocal addr cmd) := by
  simp [Statement, encode, Command.bare, opcodes]
theorem readReset : Statement .readReset := by
  simp [Statement, encode, Command.bare, opcodes]
theorem showHidden : Statement .showHidden := by
  simp [Statement, encode, Command.bare, opcodes]
theorem hide : Statement .hide := by
  simp [Statement, encode, Command.bare, opcodes]
theorem chipErase : Statement .chipErase := by
  simp [Statement, encode, Command.bare, opcodes]
theorem hiddenErase : Statement .hiddenErase := by
  simp [Statement, encode, Command.bare, opcodes]
theorem pageWrite (addr : Addr) (page : List Byte) : Statement (.pageWrite addr page) := by
  simp [Statement, encode, Command.bare, opcodes]
theorem hiddenWrite (addr : Addr) (page : List Byte) : Statement (.hiddenWrite addr page) := by
  simp [Statement, encode, Command.bare, opcodes]
theorem statusStep (chip : Chip) : Statement (.statusStep chip) := by
  simp [Statement, encode, Command.bare, opcodes]
theorem waitReady (addr : Addr) : Statement (.waitReady addr) := by
  simp [Statement, encode, Command.bare, opcodes]
theorem writeRom (buf : List Byte) : Statement (.writeRom buf) := by
  simp [Statement, encode, Command.bare, opcodes]
theorem writeLoop (rom1 : List Byte) (rom2 : List Byte) : Statement (.writeLoop rom1 rom2) := by
  simp [Statement, encode, Command.bare, opcodes]
theorem verifyRom (buf : List Byte) : Statement (.verifyRom buf) := by
  simp [Statement, encode, Command.bare, opcodes]
theorem writeMap (map : List Byte) : Statement (.writeMap map) := by
  simp [Statement, encode, Command.bare, opcodes]
theorem verifyMap (map : List Byte) : Statement (.verifyMap map) := by
  simp [Statement, encode, Command.bare, opcodes]
theorem dirPresent : Statement .dirPresent := by
  simp [Statement, encode, Command.bare, opcodes]
theorem dirOpen : Statement .dirOpen := by
  simp [Statement, encode, Command.bare, opcodes]
theorem dirNext : Statement .dirNext := by
  simp [Statement, encode, Command.bare, opcodes]
theorem sessionOpen : Statement .sessionOpen := by
  simp [Statement, encode, Command.bare, opcodes]
theorem wpRelease : Statement .wpRelease := by
  simp [Statement, encode, Command.bare, opcodes]
theorem wpAssert : Statement .wpAssert := by
  simp [Statement, encode, Command.bare, opcodes]
theorem sessionClose : Statement .sessionClose := by
  simp [Statement, encode, Command.bare, opcodes]
theorem sramWrite (buf : List Byte) : Statement (.sramWrite buf) := by
  simp [Statement, encode, Command.bare, opcodes]
theorem sramVerify (buf : List Byte) : Statement (.sramVerify buf) := by
  simp [Statement, encode, Command.bare, opcodes]

end EncodedOpcode

end Sys2Proof.Laws
end

