-- ==== Sys2Proof/Tests/Slice0.lean ====
section
/-! SUPPORT. Tests of the model against spec/95_test_vectors.md and the encodings of
spec/30_encoding.md, and for every obligation with hypotheses a state and operands that meet them. -/

set_option Elab.async false

namespace Sys2Proof.Tests

open Sys2Proof Sys2Proof.Machine

/-! ### States and traces -/

/-- The start state of spec/95 part 2, with the environment unconstrained and its answers given. -/
def awake (draws : List Byte) : State :=
  { State.reset with
    sess := .awake
    wpr := true
    env := { Env.unconstrained with draws := draws } }

/-- A chip in array mode. -/
def idleChip : ChipState := { ChipState.unknown with mode := .array }

/-- An environment to which the contract applies, with the status bytes its chips will answer. -/
def contractEnv (draws : List Byte) : Env where
  mem := []
  chip := ⟨idleChip, idleChip⟩
  dev := { sleep := .awake, protect := .released, hirom := true, recent := [] }
  draws := draws
  drawn := 0

/-- The start state of part 2 under the environment contract. -/
def lawful (draws : List Byte) : State := { awake draws with env := contractEnv draws }

def guarded (s : State) : State := { s with wpr := false }
def closed (s : State) : State := { s with sess := .closed, wpr := false }
def limited (n : Nat) (s : State) : State := { s with cfg := { s.cfg with pollLimit := some n } }

/-- The state `n` steps after the one that issues `i`. -/
def after (s : State) (i : Instr) (n : Nat) : State := (s.run i).drive n

/-- A page of 128 bytes that ends in `0x5A`. -/
def page (b : Byte) : List Byte := List.replicate 127 b ++ [0x5A#8]

def w1 (addr : Addr) (b : Byte) : Event := .write addr [b]
def r1 (addr : Addr) (b : Byte) : Event := .read addr [b]

/-- A global UNLOCK3 at the default offsets. -/
def unlockBoth (cmd : Byte) : List Event :=
  [w1 0xC05555#24 0xAA#8, w1 0xE05555#24 0xAA#8, w1 0xC02AAA#24 0x55#8, w1 0xE02AAA#24 0x55#8,
   w1 0xC05555#24 cmd, w1 0xE05555#24 cmd]

/-- `RR` of spec/95. -/
def resetTrace : List Event := unlockBoth 0xF0#8

/-- `PW` and `HW` of spec/95: bank, command, address, page, address of the last byte. -/
def pageTrace (off1 off2 : Addr) (cmd : Byte) (addr last : Addr) (p : List Byte) : List Event :=
  [w1 off1 0xAA#8, w1 off2 0x55#8, w1 off1 cmd, .write addr p, w1 last 0x5A#8]

def showTrace : List Event :=
  [w1 0xC00000#24 0x71#8, w1 0xE00000#24 0x71#8, w1 0xC00000#24 0x38#8, w1 0xE00000#24 0x38#8,
   w1 0xC00000#24 0xD0#8, w1 0xE00000#24 0xD0#8, w1 0xC00000#24 0x75#8, w1 0xE00000#24 0x75#8]

/-- The next state a step answers, if any. -/
def nextOf : Host.Outcome State Fault Refusal → Option State
  | .next t => some t
  | .fault _ => none
  | .refused _ => none

/-- What a test looks at: the result registers and the bus trace. -/
def seen (s : State) : BitVec 8 × BitVec 24 × List Event := (s.rc, s.res, s.trace)

/-! ### Decoding: the opcodes of R101, written out bit by bit, with operands of R100 -/

theorem test_decode_command_encoder :
    decodeTableWord 8 0b00000001 = some (.unlockAndGlobal 0) ∧
    decode ⟨0b00000001#8, 0x123456#24, 0b00000000000000011110000#23, [], []⟩ =
      .ok (.unlockAndGlobal 0xF0#8) ∧
    decode ⟨0b00000010#8, 0xC12380#24, 0b11111111111111110100000#23, [], []⟩ =
      .ok (.unlockAndLocal 0xC12380#24 0xA0#8) ∧
    decodeTableWord 8 0b00000011 = some .readReset ∧
    decodeTableWord 8 0b00000100 = some .showHidden ∧
    decodeTableWord 8 0b00000101 = some .hide ∧
    decodeTableWord 8 0b00000110 = some .chipErase ∧
    decodeTableWord 8 0b00000111 = some .hiddenErase ∧
    decode ⟨0b00001000#8, 0xC00080#24, 0#23, [0x11#8], []⟩ = .ok (.pageWrite 0xC00080#24 [0x11#8]) ∧
    decode ⟨0b00001001#8, 0xE0FF80#24, 0#23, [0x22#8], []⟩ = .ok (.hiddenWrite 0xE0FF80#24 [0x22#8]) ∧
    decode ⟨0b00001010#8, 0#24, 0b00000000000000000000001#23, [], []⟩ = .ok (.statusStep .b) ∧
    decode ⟨0b00001010#8, 0#24, 0b11111111111111111111110#23, [], []⟩ = .ok (.statusStep .a) ∧
    decode ⟨0b00001011#8, 0xE00000#24, 0#23, [], []⟩ = .ok (.waitReady 0xE00000#24) := by decide +kernel

theorem test_decode_bulk_writer :
    decode ⟨0b00010000#8, 0#24, 0#23, [0x33#8], [0x44#8]⟩ = .ok (.writeRom [0x33#8]) ∧
    decode ⟨0b00010001#8, 0#24, 0#23, [0x33#8], [0x44#8]⟩ = .ok (.writeLoop [0x33#8] [0x44#8]) ∧
    decode ⟨0b00010010#8, 0#24, 0#23, [0x33#8], []⟩ = .ok (.verifyRom [0x33#8]) ∧
    decode ⟨0b00011000#8, 0#24, 0#23, [0x33#8], []⟩ = .ok (.writeMap [0x33#8]) ∧
    decode ⟨0b00011001#8, 0#24, 0#23, [0x33#8], []⟩ = .ok (.verifyMap [0x33#8]) := by decide +kernel

theorem test_decode_directory :
    decodeTableWord 8 0b00100000 = some .dirPresent ∧
    decodeTableWord 8 0b00100001 = some .dirOpen ∧
    decodeTableWord 8 0b00100010 = some .dirNext := by decide +kernel

theorem test_decode_session :
    decodeTableWord 8 0b00110000 = some .sessionOpen ∧
    decodeTableWord 8 0b00110001 = some .wpRelease ∧
    decodeTableWord 8 0b00110010 = some .wpAssert ∧
    decodeTableWord 8 0b00110011 = some .sessionClose ∧
    decode ⟨0b00111000#8, 0#24, 0#23, [0x55#8], []⟩ = .ok (.sramWrite [0x55#8]) ∧
    decode ⟨0b00111001#8, 0#24, 0#23, [0x55#8], []⟩ = .ok (.sramVerify [0x55#8]) := by decide +kernel

theorem test_decode_rejects :
    decode (Command.bare 0x00#8) = .error (.illegalCommand 0x00#8) ∧
    decode (Command.bare 0x0C#8) = .error (.illegalCommand 0x0C#8) ∧
    decode (Command.bare 0x13#8) = .error (.illegalCommand 0x13#8) ∧
    decode (Command.bare 0x3A#8) = .error (.illegalCommand 0x3A#8) ∧
    decode (Command.bare 0xFF#8) = .error (.illegalCommand 0xFF#8) := by decide +kernel

/-- The word presented by the host's interface is the next operation the engine runs. -/
theorem test_fetch_word :
    nextOf (step (State.reset.withFetchWord 8 0x33)) = some State.reset := by decide +kernel

/-! ### Well-formedness: an ill-formed term for each check -/

theorem test_wellformed_page_address :
    (Instr.pageWrite 0xC00040#24 (page 0)).wellFormed = false ∧
    (Instr.hiddenWrite 0xE0FF01#24 (page 0)).wellFormed = false ∧
    (Instr.pageWrite 0xC00080#24 (page 0)).wellFormed = true := by decide +kernel

theorem test_wellformed_page_length :
    (Instr.pageWrite 0xC00000#24 (List.replicate 127 0)).wellFormed = false ∧
    (Instr.hiddenWrite 0xC0FF00#24 (List.replicate 129 0)).wellFormed = false := by decide +kernel

theorem test_wellformed_image_multiple :
    (Instr.writeRom (List.replicate 100 0)).wellFormed = false ∧
    (Instr.writeLoop (List.replicate 1 0) []).wellFormed = false ∧
    (Instr.writeLoop [] (List.replicate 129 0)).wellFormed = false ∧
    (Instr.writeLoop (page 0) []).wellFormed = true := by decide +kernel

theorem test_wellformed_image_limit (b : List Byte) :
    (b.length = 0x400080 → (Instr.writeRom b).wellFormed = false) ∧
    (b.length = 0x400001 → (Instr.verifyRom b).wellFormed = false) ∧
    (b.length = 0x400000 → (Instr.verifyRom b).wellFormed = true) ∧
    (b.length = 0x200080 → (Instr.writeLoop b []).wellFormed = false) ∧
    (b.length = 0x200080 → (Instr.writeLoop [] b).wellFormed = false) := by
  refine ⟨?_, ?_, ?_, ?_, ?_⟩ <;> intro h <;> simp [Instr.wellFormed, maxRom, half, h]

theorem test_wellformed_map_length :
    (Instr.writeMap (List.replicate 511 0)).wellFormed = false ∧
    (Instr.verifyMap (List.replicate 513 0)).wellFormed = false ∧
    (Instr.writeMap (List.replicate 512 0)).wellFormed = true := by decide +kernel

theorem test_wellformed_sram_limit (b : List Byte) :
    (b.length = 0x8001 → (Instr.sramWrite b).wellFormed = false) ∧
    (b.length = 0x8001 → (Instr.sramVerify b).wellFormed = false) ∧
    (b.length = 0x8000 → (Instr.sramWrite b).wellFormed = true) := by
  refine ⟨?_, ?_, ?_⟩ <;> intro h <;> simp [Instr.wellFormed, sramMax, h]

theorem test_wellformed_config :
    Config.default.wf = true ∧
    { Config.default with dirBase := 0xFF2000#24 }.wf = false ∧
    { Config.default with sigAddr := 0xFFFFF1#24 }.wf = false ∧
    { Config.default with sramAddr := [0x206000#24] }.wf = false ∧
    { Config.default with sramAddr := [0xFFF000#24, 0, 0, 0] }.wf = false ∧
    { Config.default with wakeSeq := [] }.wf = false ∧
    { Config.default with wakeSeq := List.replicate 6 (.read 0x002402#24) }.wf = false ∧
    { Config.default with fLaw := ⟨466, 8⟩ }.wf = false := by decide +kernel

/-! ### Vectors of spec/95 -/

/-- V40.3. -/
theorem test_unlock_global :
    seen ((awake []).run (.unlockAndGlobal 0x80#8)) = (0x00#8, 0, unlockBoth 0x80#8) := by decide +kernel

/-- V40.4, rows 2 and 4. -/
theorem test_unlock_local :
    seen ((awake []).run (.unlockAndLocal 0xDFFF80#24 0xA0#8)) =
      (0x00#8, 0, [w1 0xDF5555#24 0xAA#8, w1 0xDF2AAA#24 0x55#8, w1 0xDF5555#24 0xA0#8]) ∧
    seen ((awake []).run (.unlockAndLocal 0xFFFF80#24 0xA0#8)) =
      (0x00#8, 0, [w1 0xFF5555#24 0xAA#8, w1 0xFF2AAA#24 0x55#8, w1 0xFF5555#24 0xA0#8]) := by decide +kernel

/-- V40.5: with protect asserted, and with no session. -/
theorem test_read_reset :
    seen ((guarded (awake [])).run .readReset) = (0x00#8, 0, resetTrace) ∧
    seen ((closed (awake [])).run .readReset) = (0x10#8, 0, []) := by decide +kernel

/-- V40.8: chip B is not read until chip A is ready. -/
theorem test_show_hidden_chip_a_slow :
    seen (after (awake [0x00, 0x00, 0x80, 0x80]) .showHidden 2) =
      (0x00#8, 0, showTrace ++
        [r1 0xC00000#24 0x00, r1 0xC00000#24 0x00, r1 0xC00000#24 0x80, r1 0xE00000#24 0x80]) := by
  decide +kernel

/-- R129: with the default parameters the trace of `SHOW_HIDDEN`. -/
theorem test_hide :
    seen ((awake [0x80, 0x80]).run .hide) =
      (0x00#8, 0, showTrace ++ [r1 0xC00000#24 0x80, r1 0xE00000#24 0x80]) := by decide +kernel

/-- V40.6: the error bits of the final status bytes are not examined. -/
theorem test_chip_erase_error_bits :
    let t := after (awake [0x90, 0x00, 0x90]) .chipErase 1
    seen t = (0x00#8, 0, unlockBoth 0x80#8 ++ unlockBoth 0x10#8 ++
      [r1 0xC00000#24 0x90, r1 0xE00000#24 0x00, r1 0xE00000#24 0x90]) ∧
    t.st = ⟨0x90#8, 0x90#8⟩ := by decide +kernel

/-- V40.6, last sentence. -/
theorem test_chip_erase_protected :
    (guarded (awake [])).run .chipErase = (guarded (awake [])).stopped 0x11#8 := by decide +kernel

/-- V40.7. -/
theorem test_hidden_erase :
    seen ((awake [0x80, 0x80]).run .hiddenErase) =
      (0x00#8, 0, unlockBoth 0x77#8 ++ unlockBoth 0xE0#8 ++
        [r1 0xC00000#24 0x80, r1 0xE00000#24 0x80]) := by decide +kernel

/-- V40.9, row 3: the last page of chip B. -/
theorem test_page_write_last_page :
    seen ((awake []).run (.pageWrite 0xFFFF80#24 (page 7))) =
      (0x00#8, 0,
        pageTrace 0xFF5555#24 0xFF2AAA#24 0xA0#8 0xFFFF80#24 0xFFFFFF#24 (page 7)) := by decide +kernel

/-- V60.1: the order of the checks. -/
theorem test_page_write_checks :
    ((closed (awake [])).run (.pageWrite 0xC00040#24 (page 7))).rc = 0x10#8 ∧
    ((guarded (awake [])).run (.pageWrite 0xC00040#24 (page 7))).rc = 0x11#8 ∧
    seen ((awake []).run (.pageWrite 0xC00040#24 (page 7))) = (0x12#8, 0, []) := by decide +kernel

/-- V40.10, row 2. -/
theorem test_hidden_write_error :
    seen (after (awake [0x00, 0x90]) (.hiddenWrite 0xE0FF80#24 (page 7)) 1) =
      (0x00#8, 1, pageTrace 0xE05555#24 0xE02AAA#24 0x99#8 0xE0FF80#24 0xE0FFFF#24 (page 7) ++
        [r1 0xE00000#24 0x00, r1 0xE00000#24 0x90]) := by decide +kernel

/-- V40.10, row 3: the flag is that of the byte that ended the wait. -/
theorem test_hidden_write_not_ready_error :
    (after (awake [0x10, 0x80]) (.hiddenWrite 0xC0FF80#24 (page 7)) 1).res = 0 := by decide +kernel

/-- V40.1: the classes. -/
theorem test_status_step_classes :
    [0x00#8, 0x10#8, 0x7F#8, 0x80#8, 0x81#8, 0xEF#8, 0x90#8, 0xFF#8].map
        (fun b => ((awake [b]).run (.statusStep .a)).res) =
      [0, 0, 0, 1, 1, 1, 2, 2] := by decide +kernel

/-- R122, example. -/
theorem test_status_step_chip_b :
    let t := (awake [0x80]).run (.statusStep .b)
    seen t = (0x00#8, 1, [r1 0xE00000#24 0x80]) ∧ t.st = ⟨0, 0x80#8⟩ := by decide +kernel

/-- V40.2: the error bit does not end the wait. -/
theorem test_wait_ready :
    seen (after (awake [0x00, 0x10, 0x90]) (.waitReady 0xE00000#24) 2) =
      (0x00#8, 0x90#24, [r1 0xE00000#24 0x00, r1 0xE00000#24 0x10, r1 0xE00000#24 0x90]) := by decide +kernel

/-- V40.2, with `POLL_LIMIT = 2`. -/
theorem test_wait_ready_timeout :
    let t := after (limited 2 (awake [0x00, 0x00])) (.waitReady 0xE00000#24) 1
    seen t = (0x05#8, 0xE00000#24, [r1 0xE00000#24 0x00, r1 0xE00000#24 0x00]) ∧ t.seq = .idle := by
  decide +kernel

/-- P1, step 3. -/
theorem test_write_rom :
    let t := after (awake [0x00, 0x80, 0x80, 0x80, 0x80]) (.writeRom (page 1 ++ page 2)) 1
    seen t = (0x00#8, 256, unlockBoth 0x80#8 ++ unlockBoth 0x10#8 ++
      [r1 0xC00000#24 0x00, r1 0xC00000#24 0x80, r1 0xE00000#24 0x80] ++
      pageTrace 0xC05555#24 0xC02AAA#24 0xA0#8 0xC00000#24 0xC0007F#24 (page 1) ++
      [r1 0xC00000#24 0x80] ++
      pageTrace 0xC05555#24 0xC02AAA#24 0xA0#8 0xC00080#24 0xC000FF#24 (page 2) ++
      [r1 0xC00000#24 0x80] ++ resetTrace) ∧
    t.trace.length = 33 ∧ t.cur = ⟨256#22, 0⟩ := by decide +kernel

/-- V41.5 and V41.6: a length that is no multiple of 128; the empty image. -/
theorem test_write_rom_edges :
    seen ((awake []).run (.writeRom (List.replicate 100 0))) = (0x04#8, 0, []) ∧
    seen ((awake [0x80, 0x80]).run (.writeRom [])) =
      (0x00#8, 0, unlockBoth 0x80#8 ++ unlockBoth 0x10#8 ++
        [r1 0xC00000#24 0x80, r1 0xE00000#24 0x80] ++ resetTrace) := by decide +kernel

/-- V41.1. -/
theorem test_write_loop :
    let t := after (awake [0x00, 0x80, 0x80, 0x80]) (.writeLoop (page 1 ++ page 2) (page 3)) 1
    seen t = (0x00#8, 384,
      pageTrace 0xC05555#24 0xC02AAA#24 0xA0#8 0xC00000#24 0xC0007F#24 (page 1) ++
      pageTrace 0xE05555#24 0xE02AAA#24 0xA0#8 0xE00000#24 0xE0007F#24 (page 3) ++
      [r1 0xC00000#24 0x00, r1 0xE00000#24 0x80, r1 0xC00000#24 0x80] ++
      pageTrace 0xC05555#24 0xC02AAA#24 0xA0#8 0xC00080#24 0xC000FF#24 (page 2) ++
      [r1 0xC00000#24 0x80]) ∧
    t.cur = ⟨256#22, 128#22⟩ ∧ t.progress = [128, 256, 384] := by decide +kernel

/-- V41.3: an error on chip A leaves chip B alone. -/
theorem test_write_loop_error :
    let t := (awake [0x90, 0x80, 0x80]).run (.writeLoop (page 1 ++ page 2) (page 3 ++ page 4))
    seen t = (0x00#8, 256,
      pageTrace 0xC05555#24 0xC02AAA#24 0xA0#8 0xC00000#24 0xC0007F#24 (page 1) ++
      pageTrace 0xE05555#24 0xE02AAA#24 0xA0#8 0xE00000#24 0xE0007F#24 (page 3) ++
      [r1 0xC00000#24 0x90, r1 0xE00000#24 0x80] ++
      pageTrace 0xE05555#24 0xE02AAA#24 0xA0#8 0xE00080#24 0xE000FF#24 (page 4) ++
      [r1 0xE00000#24 0x80]) ∧
    t.cur = ⟨0, 256#22⟩ ∧ t.abort = ⟨true, false⟩ := by decide +kernel

/-- V41.7, row 2. -/
theorem test_verify_rom :
    seen ((guarded (awake (page 9))).run (.verifyRom (page 9))) =
      (0x00#8, 0x80#24, [.read 0xC00000#24 (page 9)]) := by decide +kernel

/-- R156: a difference in the first chunk. -/
theorem test_verify_rom_mismatch :
    seen ((awake (page 9)).run (.verifyRom (page 8))) =
      (0x03#8, 0, [.read 0xC00000#24 (page 9)]) := by decide +kernel

/-- P2: page 2 of the map reports an error. -/
theorem test_write_map_error :
    let m := page 1 ++ page 2 ++ page 3 ++ page 4
    let t := (awake [0x80, 0x80, 0x80, 0x80, 0x90, 0x80]).run (.writeMap m)
    seen t = (0x02#8, 0, unlockBoth 0x77#8 ++ unlockBoth 0xE0#8 ++
      [r1 0xC00000#24 0x80, r1 0xE00000#24 0x80] ++
      pageTrace 0xC05555#24 0xC02AAA#24 0x99#8 0xC0FF00#24 0xC0FF7F#24 (page 1) ++
      [r1 0xC00000#24 0x80] ++
      pageTrace 0xC05555#24 0xC02AAA#24 0x99#8 0xC0FF80#24 0xC0FFFF#24 (page 2) ++
      [r1 0xC00000#24 0x80] ++
      pageTrace 0xE05555#24 0xE02AAA#24 0x99#8 0xE0FF00#24 0xE0FF7F#24 (page 3) ++
      [r1 0xE00000#24 0x90] ++
      pageTrace 0xE05555#24 0xE02AAA#24 0x99#8 0xE0FF80#24 0xE0FFFF#24 (page 4) ++
      [r1 0xE00000#24 0x80] ++ resetTrace) ∧
    t.trace.length = 44 ∧ t.err = true := by decide +kernel

/-- V42.1 and V42.2. -/
theorem test_write_map :
    (let t := (awake (List.replicate 6 0x80)).run (.writeMap (page 1 ++ page 2 ++ page 3 ++ page 4))
     (t.rc, t.res) = (0x00#8, 512#24)) ∧
    seen ((awake []).run (.writeMap (List.replicate 511 0))) = (0x04#8, 0, []) := by decide +kernel

/-- V42.3: both reads are made and the reset is sent, whether or not the data match. -/
theorem test_verify_map :
    let a := page 1 ++ page 2
    let b := page 3 ++ page 4
    seen ((guarded (awake ([0x80, 0x80] ++ a ++ b))).run (.verifyMap (a ++ b))) =
      (0x00#8, 1, showTrace ++ [r1 0xC00000#24 0x80, r1 0xE00000#24 0x80] ++
        [.read 0xC0FF00#24 a, .read 0xE0FF00#24 b] ++ resetTrace) ∧
    seen ((awake ([0x80, 0x80] ++ b ++ b)).run (.verifyMap (a ++ b))) =
      (0x03#8, 0, showTrace ++ [r1 0xC00000#24 0x80, r1 0xE00000#24 0x80] ++
        [.read 0xC0FF00#24 b, .read 0xE0FF00#24 b] ++ resetTrace) := by decide +kernel

/-- The signature of R182, in hexadecimal. -/
def signature : List Byte :=
  [0x4D, 0x55, 0x4C, 0x54, 0x49, 0x43, 0x41, 0x53, 0x53, 0x45, 0x54, 0x54, 0x45, 0x20, 0x33, 0x32]

/-- V43.6. -/
theorem test_dir_present :
    seen ((awake signature).run .dirPresent) = (0x00#8, 1, [.read 0xC61FF0#24 signature]) ∧
    ((awake (signature.set 15 0x33)).run .dirPresent).res = 0 ∧
    ((awake (signature.set 0 0x6D)).run .dirPresent).res = 0 := by decide +kernel

/-- R183, example. -/
theorem test_dir_open :
    let t := (awake []).run .dirOpen
    seen t = (0x00#8, 0, []) ∧ t.slot = 0 ∧ t.dend = false := by decide +kernel

/-- The record of V43.7. -/
def record : List Byte :=
  [0x02, 0x10, 0x01, 0x00, 0x01, 0x40, 0x00] ++
  [0x53, 0x48, 0x56, 0x43, 0x2D, 0x41, 0x42, 0x43, 0x4A, 0x2D, 0x00, 0x00] ++
  ([0x54, 0x45, 0x53, 0x54] ++ List.replicate 40 0x00) ++ List.replicate 384 0xEE ++
  [0x30, 0x31, 0x2F, 0x30, 0x32, 0x2F, 0x39, 0x37, 0x00, 0x00] ++
  [0x31, 0x32, 0x3A, 0x33, 0x34, 0x3A, 0x35, 0x36] ++
  [0x4C, 0x41, 0x57, 0x00, 0x00, 0x00, 0x00, 0x00]

/-- V43.7. -/
theorem test_dir_next_entry :
    let s := { awake record with slot := 2, dend := false }
    let t := s.run .dirNext
    seen t = (0x00#8, 1, [.read 0xC64000#24 record]) ∧ t.slot = 3 ∧ t.dend = false ∧
    t.ent =
      { index := 2, firstFlashBlock := 0x10, firstSramBlock := 1, flashBlocks := 64, sramBlocks := 4
        gameCode := [0x53, 0x48, 0x56, 0x43, 0x2D, 0x41, 0x42, 0x43, 0x4A, 0x2D]
        title := [0x54, 0x45, 0x53, 0x54]
        date := [0x30, 0x31, 0x2F, 0x30, 0x32, 0x2F, 0x39, 0x37]
        time := [0x31, 0x32, 0x3A, 0x33, 0x34, 0x3A, 0x35, 0x36]
        law := [0x4C, 0x41, 0x57] } := by decide +kernel

/-- V43.1 and V43.3: a sentinel; the entry of slot 7. -/
theorem test_dir_next_end :
    (let t := { awake (0xFF :: List.replicate 472 0) with slot := 0, dend := false }.run .dirNext
     t.res = 0 ∧ t.dend = true ∧ t.slot = 0 ∧ t.trace.length = 1) ∧
    (let t := { awake record with slot := 7, dend := false }.run .dirNext
     t.res = 1 ∧ t.dend = true ∧ t.slot = 8) := by decide +kernel

/-- V43.4 and V43.5. -/
theorem test_entry_fields :
    [(0x00#8, 0x01#8), (0x03, 0x00), (0x04, 0x00), (0xFC, 0x00), (0xFF, 0xFF), (0x80, 0x02)].map
        (fun d => (flashBlocks d.1 d.2).toNat) = [64, 0, 1, 63, 16383, 160] ∧
    [(0x00#8, 0x01#8), (0x0F, 0x00), (0x10, 0x00), (0xF0, 0x00), (0xFF, 0xFF), (0x40, 0x00)].map
        (fun d => (sramBlocks d.1 d.2).toNat) = [16, 0, 1, 15, 4095, 4] ∧
    stripNul [0x41, 0x42, 0x00, 0x00] = [0x41, 0x42] ∧
    stripNul [0x41, 0x00, 0x42, 0x00] = [0x41, 0x00, 0x42] ∧
    stripNul [0x00, 0x00, 0x00, 0x00] = [] ∧
    stripNul [0x20, 0x20, 0x20, 0x20] = [0x20, 0x20, 0x20, 0x20] := by decide +kernel

/-- V44.2: a sleeping device. -/
theorem test_session_open_asleep :
    let t := (closed (awake [0x7D, 0x99])).run .sessionOpen
    seen t = (0x00#8, 0,
      [r1 0x002400#24 0x7D, w1 0x002400#24 0x09, r1 0x002400#24 0x99, w1 0x002401#24 0x28,
       w1 0x002401#24 0x84, w1 0x002400#24 0x06, w1 0x002400#24 0x39, w1 0x002400#24 0x04] ++
      resetTrace) ∧
    t.sess = .awake ∧ t.wpr = false := by decide +kernel

/-- V44.1 and V44.3. -/
theorem test_session_open :
    (let t := (closed (awake [0x2A])).run .sessionOpen
     seen t = (0x00#8, 0, [r1 0x002400#24 0x2A, w1 0x002400#24 0x04] ++ resetTrace)) ∧
    (let t := (closed (awake [0x2B])).run .sessionOpen
     seen t = (0x01#8, 0x2B#24, [r1 0x002400#24 0x2B]) ∧ t.sess = .closed) := by decide +kernel

/-- V44.4. -/
theorem test_wp_release :
    let t := (guarded (awake [])).run .wpRelease
    seen t = (0x00#8, 0, [w1 0x002400#24 0x02]) ∧ t.wpr = true := by decide +kernel

/-- V44.4. -/
theorem test_wp_assert :
    let t := (awake []).run .wpAssert
    seen t = (0x00#8, 0, [w1 0x002400#24 0x03]) ∧ t.wpr = false := by decide +kernel

/-- V44.5. -/
theorem test_session_close :
    (let t := (awake []).run .sessionClose
     seen t = (0x00#8, 0, resetTrace ++ [w1 0x002400#24 0x03]) ∧ t.sess = .closed ∧ t.wpr = false) ∧
    seen ((closed (awake [])).run .sessionClose) = (0x00#8, 0, []) := by decide +kernel

/-- V44.6, in the small: a buffer that ends in the first segment; a buffer that is empty. -/
theorem test_sram_write :
    seen ((awake []).run (.sramWrite (page 5))) = (0x00#8, 128, [.write 0x206000#24 (page 5)]) ∧
    seen ((awake []).run (.sramWrite [])) = (0x00#8, 0, []) ∧
    ((guarded (awake [])).run (.sramWrite (page 5))).rc = 0x11#8 := by decide +kernel

/-- V44.6: which segments a buffer of `0x2001` bytes reaches. -/
theorem test_sram_write_segments :
    (sramWrites [0x206000#24, 0x216000#24, 0x226000#24, 0x236000#24]
        (List.replicate 0x2001 0x77#8)).map (fun w => (w.1, w.2.length)) =
      [(0x206000#24, 0x2000), (0x216000#24, 1)] := by decide +kernel

/-- V44.6: only the prefix is compared, and all four segments are read. -/
theorem test_sram_verify :
    let s : State := { lawful [] with env := { contractEnv [] with mem := [(0x206000, 0x11), (0x206001, 0x22)] } }
    ((s.run (.sramVerify [0x11])).rc, (s.run (.sramVerify [0x11])).res) = (0x00#8, 1#24) ∧
    (s.run (.sramVerify [0x11, 0x23])).rc = 0x03#8 ∧
    (s.run (.sramVerify [0x11])).trace.length = 4 := by decide +kernel

/-- V60.1: an illegal command, with no session. -/
theorem test_illegal_command :
    nextOf (step { State.reset with inbox := [Command.bare 0xFF#8] }) =
      some { State.reset with rc := 0x13#8 } := by decide +kernel

/-- V70.1. -/
theorem test_after_reset :
    (State.reset.run (.writeRom [])).rc = 0x10#8 ∧ (State.reset.run .dirNext).rc = 0x10#8 ∧
    State.reset.run .sessionClose = State.reset := by decide +kernel

/-! ### The environment contract -/

/-- R75: a page sent before the last one is seen complete leaves both pages unspecified (here, drawn),
and the chip and its other bytes as they were. -/
theorem test_second_page_before_completion :
    let s := lawful (List.replicate 128 0x11 ++ [0x80] ++ List.replicate 128 0x22)
    let t := (((s.run (.pageWrite 0xC00000#24 (page 1))).run (.pageWrite 0xC00080#24 (page 2))).run
      (.waitReady 0xC00000#24)).run .readReset
    t.env.chip.a.mode = .array ∧ t.env.arrayAt .a 0 = 0x11 ∧ t.env.arrayAt .a 0x80 = 0x22 ∧
      t.env.arrayAt .a 0x100 = 0xFF := by decide +kernel

/-- R72: the completing byte tells whether the operation failed; a later status byte does not tell
otherwise, whatever is drawn. -/
theorem test_status_after_completion :
    let results := fun (answers : List Byte) =>
      let t := ((lawful answers).run (.pageWrite 0xC00080#24 (page 2))).run (.waitReady 0xC00000#24)
      (t.res, (t.run (.statusStep .a)).res)
    results [0x80, 0x90] = (0x80, 1) ∧
      results (0x90 :: List.replicate 128 0x22 ++ [0x00]) = (0x90, 2) := by decide +kernel

/-- R75: a program that goes wrong in an array that a failed erase left unspecified stores there alone. -/
theorem test_program_after_failed_erase :
    let s : State := { lawful (0x90 :: List.replicate 128 0x22) with
      env := (contractEnv (0x90 :: List.replicate 128 0x22)).setChip .a { idleChip with wild := some 7 } }
    let t := (s.run (.pageWrite 0xC00080#24 (page 2))).run (.waitReady 0xC00000#24)
    t.env.arrayAt .a 0x80 = 0x22 ∧ t.env.arrayAt .a 0xFF = 0x22 ∧
      t.env.chip.a.wild = some 7 ∧ t.env.chip.a.programmed = [0xC00080] := by decide +kernel

/-- R77, R72: `SHOW_HIDDEN` shows; `HIDE` ends that, and the chip answers status until the next reset. -/
theorem test_show_then_hide :
    let t := (lawful [0x80, 0x80, 0x80, 0x80]).run .showHidden
    t.env.chip.a.mode = .hiddenShown ∧ (t.run .hide).env.chip.b.mode = .status ∧
      ((t.run .hide).run .readReset).env.chip.b.mode = .array := by decide +kernel

/-- R253, R76: chips that an engine lost in mid-command left with a key, with both, or with a block, are in
array mode after the next session has been opened; the block's page has any value (U5; here, drawn), and
the bytes around it are as they were. -/
theorem test_session_open_repairs :
    let draws : List Byte := List.replicate 128 0x22
    let opened := fun (a b : Latch) =>
      let chips := PerChip.mk { idleChip with mode := .status, latch := a } { idleChip with latch := b }
      let t := ({ lawful [] with env := { contractEnv draws with chip := chips } } : State).run .sessionOpen
      (t.env.chip.a.mode, t.env.chip.b.mode, t.env.arrayAt .b 0x80, t.env.arrayAt .b 0x100)
    opened (.key1 0xC00000 .fresh) (.key2 0xE50000 (.erase 0x80)) =
        (.array, .array, 0xFF, 0xFF) ∧
      opened (.key2 0xC00000 .fresh) (.loaded 0xA0 0xE00080 (page 1)) =
        (.array, .array, 0x22, 0xFF) := by
  decide +kernel

/-- R59: a directory that the parameters place outside the flash window reads the same twice. -/
theorem test_directory_elsewhere :
    let s : State := { lawful [] with
      cfg := { Config.default with sigAddr := 0x300000#24 }
      env := { contractEnv [] with mem := [(0x300000, 0x4D), (0x300001, 0x55)] } }
    let t := s.run .dirPresent
    t.trace = [.read 0x300000#24 ([0x4D, 0x55] ++ List.replicate 14 0xFF)] ∧ t.env = s.env := by
  decide +kernel

/-- R234: nothing is taken to have survived the sleep of a device but the chips and the memories. -/
theorem test_wake_forgets :
    let s : State := { State.reset with env := { contractEnv [] with
      dev := { sleep := .asleep, protect := .released, hirom := true, recent := [] } } }
    let t := s.run .sessionOpen
    t.env.dev = { sleep := .awake, protect := .unknown, hirom := true, recent := [] } ∧
      t.env.chip.a.mode = .array := by decide +kernel

/-! ### Witnesses: for each obligation with hypotheses, what meets them -/

theorem default_wf : Config.default.wf = true := by decide +kernel

theorem default_apart : sramApart Config.default := by simp [sramApart, Config.default, sramSeg]

theorem default_show : showHeard Config.default :=
  ⟨by decide +kernel, by decide +kernel, fun _ _ => rfl⟩

theorem default_hide : hideHeard Config.default :=
  ⟨by decide +kernel, by decide +kernel, fun _ _ => rfl⟩

theorem awake_released (d : List Byte) : (awake d).Released := ⟨⟨⟨rfl, default_wf⟩, rfl⟩, rfl⟩
theorem lawful_released (d : List Byte) : (lawful d).Released := ⟨⟨⟨rfl, default_wf⟩, rfl⟩, rfl⟩
theorem guarded_awake (d : List Byte) : (guarded (awake d)).Guarded := ⟨⟨⟨rfl, default_wf⟩, rfl⟩, rfl⟩
theorem closed_awake (d : List Byte) : (closed (awake d)).Closed := ⟨⟨rfl, default_wf⟩, rfl⟩
theorem limited_released (n : Nat) (d : List Byte) : (limited n (awake d)).Released :=
  ⟨⟨⟨rfl, default_wf⟩, rfl⟩, rfl⟩

theorem lawful_contract (d : List Byte) : (lawful d).env.Contract :=
  ⟨rfl, rfl, ⟨nofun, rfl, rfl⟩, ⟨nofun, rfl, rfl⟩⟩

theorem lawful_wf (d : List Byte) : (lawful d).env.wf = true := rfl

/-- An idle engine runs any operation to some point. -/
theorem runs_after {s : State} (i : Instr) (n : Nat) (h : s.Idle) : s.Runs i n (after s i n) := by
  obtain ⟨body, hb⟩ := exec_accept i
  refine ⟨body s, by rw [hb, State.accept_idle h], ?_⟩
  rw [after, State.run, hb, State.accept_idle h]

/-- … and, where it is then in IDLE, to its end. -/
theorem ends_after {s : State} {i : Instr} {n : Nat} (h : s.Idle) (h' : (after s i n).seq = .idle) :
    s.Ends i n (after s i n) := ⟨runs_after i n h, h'⟩

theorem allows_any (cfg : Config) (n : Nat) (h : cfg.pollLimit = none) : allowsBusy cfg n :=
  fun l hl => by simp [h] at hl

theorem ends_ready_of (bs : List Byte) (h : bs ≠ []) (hb : ∀ b ∈ bs.dropLast, isReady b = false)
    (hl : isReady (bs.getLast h) = true) : EndsReady bs :=
  ⟨bs.dropLast, bs.getLast h, (List.dropLast_append_getLast h).symm, hb, hl⟩

/-! The records and steps. -/

theorem witness_EncodedRecordDecodesBack :
    decode ⟨0x39, 0x123456, 0x7FFFFF, [1], [2]⟩ = .ok (.sramVerify [1]) ∧
    decode ⟨0x01, 0x123456, 0x7FFFFF, [1], [2]⟩ = .ok (.unlockAndGlobal 0xFF) := by decide +kernel

theorem witness_IllegalCommandRefused :
    ({ State.reset with inbox := [Command.bare 0x00] } : State).seq = .idle ∧
    (Command.bare 0x00).op ∉ opcodes ∧ (Command.bare 0x0C).op ∉ opcodes ∧
    (Command.bare 0x3A).op ∉ opcodes ∧ (Command.bare 0xFF).op ∉ opcodes := by decide +kernel

/-- One state for each clause: a record that decodes; no record; an operation in progress. -/
theorem witness_StepRunsDecodedOperation :
    (State.reset.seq = .idle ∧ decode (Command.bare 0x33) = .ok .sessionClose ∧
      State.reset.inbox = []) ∧
    ((awake [0]).run (.waitReady 0xC00000)).seq =
      .running false (.wait 0xC00000) [.doneStatus .a] := by decide +kernel

theorem witness_OperationsAcceptedInIdleOnly :
    State.reset.Idle ∧ ((awake [0]).run (.waitReady 0xC00000)).seq ≠ .idle ∧
    (let s := { State.reset with cfg := { Config.default with wakeSeq := [] } }
     s.seq = .idle ∧ s.cfg.wf = false) :=
  ⟨⟨rfl, by decide +kernel⟩, by decide +kernel, by decide +kernel⟩

/-- For each clause an operation and a state; the third and the fourth at both codes. -/
theorem witness_ChecksInOrder :
    (makesNoCheck .dirNext = false ∧ (closed (awake [])).Closed) ∧
    (needsRelease (.sramWrite []) = true ∧ (guarded (awake [])).Guarded) ∧
    ((Instr.pageWrite 0xC00001 []).wellFormed = false ∧
      (Instr.writeRom [0]).wellFormed = false ∧ (awake []).Released) ∧
    ((Instr.verifyMap []).wellFormed = false ∧ needsRelease (.verifyMap []) = false ∧
      (guarded (awake [])).Guarded) :=
  ⟨⟨rfl, closed_awake _⟩, ⟨rfl, guarded_awake _⟩, ⟨by decide +kernel, by decide +kernel, awake_released _⟩,
    ⟨by decide +kernel, rfl, guarded_awake _⟩⟩

/-! The Command Encoder. -/

theorem witness_UnlockAndGlobalEvents :
    (guarded (awake [])).Ready ∧ (awake []).Ready ∧ (closed (awake [])).Closed :=
  ⟨(guarded_awake _).1, (awake_released _).1, closed_awake _⟩

theorem witness_UnlockAndLocalEvents :
    (guarded (awake [])).Ready ∧ (closed (awake [])).Closed :=
  ⟨(guarded_awake _).1, closed_awake _⟩

theorem witness_ReadResetEvents : (guarded (awake [])).Ready ∧ (closed (awake [])).Closed :=
  ⟨(guarded_awake _).1, closed_awake _⟩

/-- The page operands at their bounds: the last page of chip B; one byte off; one byte short. -/
theorem witness_PageWriteEvents :
    ((awake []).Released ∧ (0xFFFF80#24).toNat % 128 = 0 ∧ (page 0).length = 128) ∧
    ¬((0xC00001#24).toNat % 128 = 0 ∧ (page 0).length = 128) ∧
    ¬((0xC00000#24).toNat % 128 = 0 ∧ (List.replicate 127 0#8).length = 128) ∧
    (guarded (awake [])).Guarded ∧ (closed (awake [])).Closed :=
  ⟨⟨awake_released _, by decide +kernel, by decide +kernel⟩, by decide +kernel, by decide +kernel, guarded_awake _, closed_awake _⟩

theorem witness_StatusStepResult : (guarded (awake [0x7F])).Ready ∧ (closed (awake [])).Closed :=
  ⟨(guarded_awake _).1, closed_awake _⟩

/-- Ready at once; ready at the third read, with a limit of three. -/
theorem witness_WaitReadyEndsAtReady :
    ((awake [0x80]).Ready ∧
      EndsReady ((awake [0x80]).env.polls (awake [0x80]).cfg 0xC00000 1).1 ∧
      allowsBusy (awake [0x80]).cfg 0) ∧
    (let s := limited 3 (awake [0x00, 0x7F, 0xFF])
     s.Ready ∧ EndsReady (s.env.polls s.cfg 0xE00000 3).1 ∧ allowsBusy s.cfg 2) := by
  refine ⟨⟨(awake_released _).1, ?_, allows_any _ _ rfl⟩, (limited_released _ _).1, ?_, ?_⟩
  · exact ends_ready_of _ (by decide +kernel) (by decide +kernel) (by decide +kernel)
  · exact ends_ready_of _ (by decide +kernel) (by decide +kernel) (by decide +kernel)
  · intro l hl
    have : 3 = l := Option.some.inj hl
    omega

/-- `WAIT_READY` with limits of one and of two reads; the first wait of an erase, the second of `VERIFY_MAP`,
both of `WRITE_ROM`; a hidden page; and the first and the last wait of `WRITE_MAP`. -/
theorem witness_PollTimeoutAfterLimit :
    (let s := limited 1 (awake [0x00])
     s.Ready ∧ s.cfg.pollLimit = some (0 + 1) ∧
       ∀ b ∈ (s.env.polls s.cfg 0xC00000 1).1, isReady b = false) ∧
    (let s := limited 2 (awake [0x00, 0x7F])
     s.Ready ∧ s.cfg.pollLimit = some (1 + 1) ∧
       ∀ b ∈ (s.env.polls s.cfg 0xE00000 2).1, isReady b = false) ∧
    (let s := limited 2 (awake [0x00, 0x7F])
     waitsFirst .chipErase = true ∧ Instr.wellFormed .chipErase = true ∧ s.Released ∧ s.cfg.pollLimit = some (1 + 1) ∧
       ∀ b ∈ ((s.env.after s.cfg (globalWrites s.cfg .chipErase)).polls s.cfg 0xC00000 2).1,
         isReady b = false) ∧
    (let s := limited 2 (awake [0x00, 0x90, 0x00, 0x7F])
     let i : Instr := .verifyMap (List.replicate 512 0)
     let ra := (s.env.after s.cfg (globalWrites s.cfg i)).polls s.cfg 0xC00000 2
     waitsFirst i = true ∧ i.wellFormed = true ∧ s.Ready ∧ s.cfg.pollLimit = some (1 + 1) ∧
       EndsReady ra.1 ∧ ∀ b ∈ (ra.2.polls s.cfg 0xE00000 2).1, isReady b = false) ∧
    (let s := limited 1 (awake [0x7F])
     let i : Instr := .writeRom []
     waitsFirst i = true ∧ i.wellFormed = true ∧ s.Released ∧ s.cfg.pollLimit = some (0 + 1) ∧
       ∀ b ∈ ((s.env.after s.cfg (globalWrites s.cfg i)).polls s.cfg 0xC00000 1).1,
         isReady b = false) ∧
    (let s := limited 1 (awake [0x90, 0x00])
     let i : Instr := .writeRom (page 1)
     let ra := (s.env.after s.cfg (globalWrites s.cfg i)).polls s.cfg 0xC00000 1
     waitsFirst i = true ∧ i.wellFormed = true ∧ s.Released ∧ s.cfg.pollLimit = some (0 + 1) ∧
       EndsReady ra.1 ∧ ∀ b ∈ (ra.2.polls s.cfg 0xE00000 1).1, isReady b = false) ∧
    (let s := limited 1 (awake [0x10])
     s.Released ∧ (0xE0FF80#24).toNat % 128 = 0 ∧ (page 0).length = 128 ∧
       s.cfg.pollLimit = some (0 + 1) ∧
       ∀ b ∈ ((s.env.after s.cfg (pageEvents s.cfg 0x99 0xE0FF80 (page 0))).polls s.cfg
         (0xE0FF80#24 &&& 0xFF0000) 1).1, isReady b = false) ∧
    (let s := limited 1 (awake [0x00, 0x55])
     s.Released ∧ s.cfg.pollLimit = some [0x00#8].length ∧
       ((mapWaits s.cfg (List.replicate 512 0))[([] : List Byte).length]?).isSome = true ∧
       isReady 0x00 = false ∧ s.env.Answers ([] ++ [0x00]) [0x55]) ∧
    (let ready : List Byte := [0x80, 0x90, 0x80, 0x80, 0xFF]
     let s := limited 2 (awake (ready ++ [0x00, 0x7F]))
     s.Released ∧ s.cfg.pollLimit = some [0x00#8, 0x7F].length ∧
       ((mapWaits s.cfg (List.replicate 512 0))[ready.length]?).isSome = true ∧
       (∀ b ∈ ready, isReady b = true) ∧ (∀ b ∈ [0x00#8, 0x7F], isReady b = false) ∧
       s.env.Answers (ready ++ [0x00, 0x7F]) []) :=
  ⟨⟨(limited_released _ _).1, rfl, by decide +kernel⟩,
    ⟨(limited_released _ _).1, rfl, by decide +kernel⟩,
    ⟨rfl, rfl, limited_released _ _, rfl, by decide +kernel⟩,
    ⟨rfl, by decide +kernel, (limited_released _ _).1, rfl,
      ends_ready_of _ (by decide +kernel) (by decide +kernel) (by decide +kernel), by decide +kernel⟩,
    ⟨rfl, rfl, limited_released _ _, rfl, by decide +kernel⟩,
    ⟨rfl, by decide +kernel, limited_released _ _, rfl,
      ends_ready_of _ (by decide +kernel) (by decide +kernel) (by decide +kernel), by decide +kernel⟩,
    ⟨limited_released _ _, by decide +kernel, by decide +kernel, rfl, by decide +kernel⟩,
    ⟨limited_released _ _, rfl, rfl, by decide +kernel, nofun, rfl⟩,
    ⟨limited_released _ _, rfl, rfl, by decide +kernel, by decide +kernel, nofun, rfl⟩⟩

/-- A wait; an erase and a loop that get no ready answer; the second wait of an erase; and a loop one of
whose chips has finished while the other goes on answering busy. -/
theorem witness_WaitHangsWithoutReady :
    (let s := awake [0x00, 0x10]
     s.Ready ∧ s.cfg.pollLimit = none ∧
       ∀ b ∈ (s.env.polls s.cfg 0xC00000 2).1, isReady b = false) ∧
    (let s := awake [0x00, 0x10]
     let i := Instr.chipErase
     waits i = true ∧ s.Released ∧ i.wellFormed = true ∧ s.cfg.pollLimit = none ∧
       s.Runs i 1 (after s i 1) ∧ (after s i 1).trace = s.trace ++
         (wrote (globalWrites s.cfg i) ++ [r1 0xC00000 0x00, r1 0xC00000 0x10]) ∧
       readyBytes (wrote (globalWrites s.cfg i) ++ [r1 0xC00000 0x00, r1 0xC00000 0x10]) = []) ∧
    (let s := awake [0x00]
     let i := Instr.writeLoop [] (page 3)
     let ev := streamPage s.cfg .b (page 3) 0 ++ [r1 0xE00000 0x00]
     [] ++ page 3 ≠ [] ∧ i.wellFormed = true ∧ s.Runs i 0 (after s i 0) ∧
       (after s i 0).trace = s.trace ++ ev ∧ readyBytes ev = []) ∧
    (let s := awake [0x80, 0x00, 0x10]
     let t := after s .chipErase 0
     s.Runs .chipErase 0 t ∧ t.seq ≠ .idle ∧
       (t.drive 1).trace = t.trace ++ [r1 0xE00000 0x10] ∧ readyBytes [r1 0xE00000 0x10] = []) ∧
    (let s := awake [0x00, 0x80, 0x00]
     let i := Instr.writeLoop (page 1) (page 3)
     s.Runs i 1 (after s i 1) ∧ (after s i 1).seq ≠ .idle) :=
  ⟨⟨(awake_released _).1, rfl, by decide +kernel⟩,
    ⟨rfl, awake_released _, rfl, rfl, runs_after _ _ (awake_released _).1.1, by decide +kernel,
      by decide +kernel⟩,
    ⟨by decide +kernel, by decide +kernel, runs_after _ _ (awake_released _).1.1, by decide +kernel,
      by decide +kernel⟩,
    ⟨runs_after _ _ (awake_released _).1.1, by decide +kernel, by decide +kernel, by decide +kernel⟩,
    runs_after _ _ (awake_released _).1.1, by decide +kernel⟩

/-- Chip A busy once, chip B ready at once, with the error bit set. -/
theorem witness_GlobalCommandsWaitForBoth :
    let s := awake [0x00, 0x90, 0xFF]
    let ra := (s.env.after s.cfg (globalWrites s.cfg .chipErase)).polls s.cfg 0xC00000 2
    let rb := ra.2.polls s.cfg 0xE00000 1
    waitsForBoth .chipErase = true ∧ s.Ready ∧ s.wpr = true ∧ EndsReady ra.1 ∧ EndsReady rb.1 ∧
      allowsBusy s.cfg 1 ∧ allowsBusy s.cfg 0 :=
  ⟨rfl, (awake_released _).1, rfl, ends_ready_of _ (by decide +kernel) (by decide +kernel) (by decide +kernel),
    ends_ready_of _ (by decide +kernel) (by decide +kernel) (by decide +kernel), allows_any _ _ rfl,
    allows_any _ _ rfl⟩

theorem witness_HiddenWriteResult :
    let s := awake [0x00, 0x90]
    s.Released ∧ (0xE0FF80#24).toNat % 128 = 0 ∧ (page 0).length = 128 ∧
      EndsReady ((s.env.after s.cfg (pageEvents s.cfg 0x99 0xE0FF80 (page 0))).polls s.cfg
        (0xE0FF80#24 &&& 0xFF0000) 2).1 ∧ allowsBusy s.cfg 1 :=
  ⟨awake_released _, by decide +kernel, by decide +kernel,
    ends_ready_of _ (by decide +kernel) (by decide +kernel) (by decide +kernel), allows_any _ _ rfl⟩

theorem witness_WaitsAnsweredAtOnceComplete :
    let s := awake [0x80, 0x90]
    let ra := (s.env.after s.cfg (globalWrites s.cfg .hiddenErase)).read s.cfg 0xC00000 1
    let va := (s.env.after s.cfg (rawEvents s.cfg s.cfg.showSeq)).read s.cfg 0xC00000 1
    (s.Released ∧ s.wpr = true ∧ (page 0).length = 128 ∧ (List.replicate 512 0#8).length = 512) ∧
      isReady ((s.env.read s.cfg 0xE00000 1).1.headD 0) = true ∧
      isReady (ra.1.headD 0) = true ∧ isReady ((ra.2.read s.cfg 0xE00000 1).1.headD 0) = true ∧
      isReady (((s.env.after s.cfg (pageEvents s.cfg 0x99 0xC0FF00 (page 0))).read s.cfg
        (0xC0FF00#24 &&& 0xFF0000) 1).1.headD 0) = true ∧
      isReady (va.1.headD 0) = true ∧ isReady ((va.2.read s.cfg 0xE00000 1).1.headD 0) = true :=
  ⟨⟨awake_released _, rfl, by decide +kernel, List.length_replicate⟩, by decide +kernel⟩

/-! The bulk writer and verifier. -/

/-- Streams of two pages and of none; answers of class Ready. -/
theorem witness_WriteLoopWhenAlwaysReady :
    let rom1 := page 1 ++ page 2
    let s := awake [0x80, 0x80, 0x2A]
    s.Released ∧ streamsOk rom1 [] = true ∧
      classify 0x80 = .ready ∧
      s.env.Answers ((rounds rom1 []).flatMap
        (roundAnswers rom1 [] (fun _ => 0x80#8) (fun _ => 0x80#8))) [0x2A] :=
  ⟨awake_released _, by decide +kernel, by decide +kernel, nofun, by decide +kernel⟩

/-- A run with an error on chip A, to its end. -/
theorem witness_WriteLoopCount :
    let s := awake [0x90, 0x80, 0x80]
    let i := Instr.writeLoop (page 1 ++ page 2) (page 3 ++ page 4)
    s.Released ∧ streamsOk (page 1 ++ page 2) (page 3 ++ page 4) = true ∧ s.Ends i 0 (after s i 0) :=
  ⟨awake_released _, by decide +kernel, ends_after (awake_released _).1.1 (by decide +kernel)⟩

theorem witness_WriteLoopOnePageOutstanding :
    let s := awake [0x00, 0x80]
    let i := Instr.writeLoop (page 1) (page 3)
    s.Released ∧ streamsOk (page 1) (page 3) = true ∧ s.Runs i 1 (after s i 1) :=
  ⟨awake_released _, by decide +kernel, runs_after _ _ (awake_released _).1.1⟩

theorem witness_WriteRomWhenAlwaysReady :
    let buf := page 1
    let rom1 := buf.take 0x200000
    let rom2 := buf.drop 0x200000
    let s := awake [0x90, 0x80, 0x80]
    s.Released ∧ buf.length % 128 = 0 ∧ buf.length ≤ 0x400000 ∧ isReady 0x90 = true ∧
      isReady 0x80 = true ∧ classify 0x80 = .ready ∧
      s.env.Answers ([0x90, 0x80] ++ (rounds rom1 rom2).flatMap
        (roundAnswers rom1 rom2 (fun _ => 0x80#8) (fun _ => 0x80#8))) [] :=
  ⟨awake_released _, by decide +kernel, by decide +kernel, by decide +kernel, by decide +kernel, by decide +kernel, by decide +kernel,
    by decide +kernel⟩

/-- The three composites, each on a path of its own: short, all or nothing, no match. -/
theorem witness_CompositesEndWithReset :
    (let s := awake [0x80, 0x80, 0x90]
     s.Released ∧ (Instr.writeRom (page 1)).wellFormed = true ∧
       s.Ends (.writeRom (page 1)) 0 (after s (.writeRom (page 1)) 0)) ∧
    (let s := limited 1 (awake [0x00])
     let i := Instr.writeMap (page 1 ++ page 2 ++ page 3 ++ page 4)
     s.Released ∧ i.wellFormed = true ∧ s.Ends i 0 (after s i 0)) ∧
    (let s := awake [0x80, 0x80]
     let i := Instr.verifyMap (page 1 ++ page 2 ++ page 3 ++ page 4)
     s.Ready ∧ i.wellFormed = true ∧ s.Ends i 0 (after s i 0)) :=
  ⟨⟨awake_released _, by decide +kernel, ends_after (awake_released _).1.1 (by decide +kernel)⟩,
    ⟨limited_released _ _, by decide +kernel, ends_after (limited_released _ _).1.1 (by decide +kernel)⟩,
    ⟨(awake_released _).1, by decide +kernel, ends_after (awake_released _).1.1 (by decide +kernel)⟩⟩

theorem witness_WriteRomReport :
    let s := awake [0x80, 0x80, 0x90]
    s.Released ∧ (page 1).length % 128 = 0 ∧ (page 1).length ≤ 0x400000 ∧
      s.Ends (.writeRom (page 1)) 0 (after s (.writeRom (page 1)) 0) :=
  ⟨awake_released _, by decide +kernel, by decide +kernel, ends_after (awake_released _).1.1 (by decide +kernel)⟩

/-- A length that is no multiple of anything, the bound itself, and one byte more. -/
theorem witness_VerifyRomReport :
    (guarded (awake [])).Ready ∧ (List.replicate 3 0#8).length ≤ 0x400000 ∧
      (List.replicate 0x400000 0#8).length ≤ 0x400000 ∧
      0x400000 < (List.replicate 0x400001 0#8).length ∧ (closed (awake [])).Closed :=
  ⟨(guarded_awake _).1, by decide +kernel, le_of_eq List.length_replicate,
    lt_of_lt_of_eq (by decide) List.length_replicate.symm, closed_awake _⟩

/-! The hidden sector. -/

theorem witness_WriteMapWhenAlwaysReady :
    let s := awake [0x80, 0x90, 0x80, 0x80, 0x90, 0xFF, 0x12]
    s.Released ∧ (List.replicate 512 0#8).length = 512 ∧
      (∀ x ∈ [0x80#8, 0x90, 0x80, 0x80, 0x90, 0xFF], isReady x = true) ∧
      s.env.Answers [0x80, 0x90, 0x80, 0x80, 0x90, 0xFF] [0x12] :=
  ⟨awake_released _, List.length_replicate, by decide +kernel, by decide +kernel, by decide +kernel⟩

theorem witness_WriteMapAllOrNothing :
    let s := awake [0x80, 0x80, 0x80, 0x80, 0x90, 0x80]
    let m := page 1 ++ page 2 ++ page 3 ++ page 4
    s.Released ∧ m.length = 512 ∧ s.Ends (.writeMap m) 0 (after s (.writeMap m) 0) ∧
      (after s (.writeMap m) 0).rc ≠ 0x05 :=
  ⟨awake_released _, by decide +kernel, ends_after (awake_released _).1.1 (by decide +kernel),
    by decide +kernel⟩

theorem witness_VerifyMapResult :
    let s := guarded (awake [0x00, 0x80, 0x80])
    let ra := (s.env.after s.cfg (rawEvents s.cfg s.cfg.showSeq)).polls s.cfg 0xC00000 2
    s.Ready ∧ (List.replicate 512 0#8).length = 512 ∧ EndsReady ra.1 ∧
      EndsReady (ra.2.polls s.cfg 0xE00000 1).1 ∧ allowsBusy s.cfg 1 ∧ allowsBusy s.cfg 0 :=
  ⟨(guarded_awake _).1, List.length_replicate,
    ends_ready_of _ (by decide +kernel) (by decide +kernel) (by decide +kernel),
    ends_ready_of _ (by decide +kernel) (by decide +kernel) (by decide +kernel), allows_any _ _ rfl,
    allows_any _ _ rfl⟩

/-! The directory. -/

theorem witness_DirectoryPresenceAndOpen :
    (guarded (awake signature)).Ready ∧ (closed (awake [])).Closed :=
  ⟨(guarded_awake _).1, closed_awake _⟩

/-- A table that has ended; a sentinel in slot 7; an entry in slot 7; no session. -/
theorem witness_DirNextResult :
    ((awake []).Ready ∧ (awake []).dend = true) ∧
    (let s := { awake (0xFF :: List.replicate 472 0) with slot := 7, dend := false }
     s.Ready ∧ s.dend = false ∧
       (s.env.read s.cfg (s.cfg.dirBase + BitVec.ofNat 24 (s.slot.toNat * 0x2000)) 0x1D9).1.getD 0 0 =
         0xFF) ∧
    (let s := { awake record with slot := 7, dend := false }
     s.Ready ∧ s.dend = false ∧
       (s.env.read s.cfg (s.cfg.dirBase + BitVec.ofNat 24 (s.slot.toNat * 0x2000)) 0x1D9).1.getD 0 0 ≠
         0xFF) ∧
    (closed (awake [])).Closed :=
  ⟨⟨(awake_released _).1, rfl⟩, ⟨⟨⟨rfl, by decide +kernel⟩, rfl⟩, rfl, by decide +kernel⟩,
    ⟨⟨⟨rfl, by decide +kernel⟩, rfl⟩, rfl, by decide +kernel⟩, closed_awake _⟩

/-- A table that is empty, one of one entry, and one that is full. -/
theorem witness_DirectoryEnumeration :
    let stop : List Byte := 0xFF :: List.replicate 472 0
    (let s := awake [stop].flatten
     s.Ready ∧ (∀ r ∈ [stop], r.length = 0x1D9) ∧ [stop].length = min (0 + 1) 8 ∧
       stop.getD 0 0 = 0xFF ∧ s.env.Answers [stop].flatten []) ∧
    (let s := awake [record, stop].flatten
     s.Ready ∧ (∀ r ∈ [record, stop], r.length = 0x1D9) ∧ [record, stop].length = min (1 + 1) 8 ∧
       record.getD 0 0 ≠ 0xFF ∧ s.env.Answers [record, stop].flatten []) ∧
    (let full := List.replicate 8 record
     (∀ r ∈ full, r.length = 0x1D9) ∧ full.length = min (8 + 1) 8 ∧
       ∀ i < 8, (full.getD i []).getD 0 0 ≠ 0xFF) :=
  ⟨⟨(awake_released _).1, by decide +kernel, rfl, rfl, by decide +kernel, by decide +kernel⟩,
    ⟨(awake_released _).1, by decide +kernel, rfl, by decide +kernel, by decide +kernel, by decide +kernel⟩,
    by decide +kernel⟩

/-! The session and the SRAM. -/

/-- The three answers; for the last, both neighbours of the awake value. -/
theorem witness_SessionOpenResult :
    (awake []).Idle ∧
    (let f := fun b : Byte => ((awake [b]).env.read (awake [b]).cfg 0x002400 1).1.headD 0
     f 0x2A = 0x2A ∧ f 0x7D = 0x7D ∧ f 0x29 = 0x29 ∧ f 0x2B = 0x2B) :=
  ⟨(awake_released _).1.1, by decide +kernel⟩

theorem witness_WriteProtectCommands : (guarded (awake [])).Ready ∧ (closed (awake [])).Closed :=
  ⟨(guarded_awake _).1, closed_awake _⟩

theorem witness_SessionCloseResult : (guarded (awake [])).Ready ∧ (closed (awake [])).Closed :=
  ⟨(guarded_awake _).1, closed_awake _⟩

/-- The buffer lengths at their bounds. -/
theorem witness_SramWriteEvents :
    (awake []).cfg.sramAddr = [0x206000, 0x216000, 0x226000, 0x236000] ∧ (awake []).Released ∧
      (List.replicate 0x8000 0#8).length ≤ 0x8000 ∧ 0x8000 < (List.replicate 0x8001 0#8).length ∧
      (guarded (awake [])).Guarded ∧ (closed (awake [])).Closed :=
  ⟨rfl, awake_released _, le_of_eq List.length_replicate,
    lt_of_lt_of_eq (by decide +kernel) List.length_replicate.symm, guarded_awake _, closed_awake _⟩

theorem witness_SramVerifyResult :
    (awake []).cfg.sramAddr = [0x206000, 0x216000, 0x226000, 0x236000] ∧
      (guarded (awake [])).Ready ∧
      (List.replicate 0x8000 0#8).length ≤ 0x8000 ∧ 0x8000 < (List.replicate 0x8001 0#8).length ∧
      (closed (awake [])).Closed :=
  ⟨rfl, (guarded_awake _).1, le_of_eq List.length_replicate,
    lt_of_lt_of_eq (by decide +kernel) List.length_replicate.symm, closed_awake _⟩

/-! The invariants. -/

/-- Reset, with an operation issued; and an operation in progress. -/
theorem witness_StepKeepsModesLegal :
    (let s := { State.reset with inbox := [Command.bare 0x30] }
     s.ModesLegal ∧ s.DirectoryLegal ∧ s.rc ∈ legalCodes ∧ (nextOf (step s)).isSome = true) ∧
    (let s := (awake [0]).run (.waitReady 0xC00000)
     s.ModesLegal ∧ s.DirectoryLegal ∧ s.rc ∈ legalCodes ∧ (nextOf (step s)).isSome = true) :=
  ⟨⟨⟨fun _ => rfl, fun h => absurd rfl h⟩, ⟨by decide +kernel, fun h => absurd h (by decide +kernel)⟩, by decide +kernel,
      by decide +kernel⟩,
    ⟨⟨fun h => absurd h (by decide +kernel), fun _ => by decide +kernel⟩,
      ⟨by decide +kernel, fun h => absurd h (by decide +kernel)⟩, by decide +kernel,
      by decide +kernel⟩⟩

/-- Reset; and a loop suspended with a page outstanding. -/
theorem witness_StepKeepsWorkLegal :
    (State.reset.WorkLegal ∧ (nextOf (step State.reset)).isSome = true) ∧
    (let s := (awake [0x00]).run (.writeLoop (page 1) [])
     s.WorkLegal ∧ s.busy.a = true ∧ (nextOf (step s)).isSome = true) := by
  refine ⟨⟨⟨?_, ?_, by decide +kernel, by decide +kernel, by decide +kernel, trivial⟩, by decide +kernel⟩,
    ⟨?_, ?_, by decide +kernel, by decide +kernel, by decide +kernel, ?_⟩, by decide +kernel,
    by decide +kernel⟩
  · exact ⟨by decide +kernel, by decide +kernel, by decide +kernel, by decide +kernel, by decide +kernel⟩
  · exact ⟨by decide +kernel, by decide +kernel, by decide +kernel, by decide +kernel, by decide +kernel⟩
  · exact ⟨by decide +kernel, by decide +kernel, by decide +kernel, by decide +kernel, by decide +kernel⟩
  · exact ⟨by decide +kernel, by decide +kernel, by decide +kernel, by decide +kernel, by decide +kernel⟩
  · have h : ((awake [0x00]).run (.writeLoop (page 1) [])).seq =
        .running false (.wl .b (page 1) []) [.doneCount] := by decide +kernel
    simp only [State.SeqLegal, h]
    decide +kernel

/-- The last byte of a hidden sector; one byte further is none of it, nor is a page below its first. -/
theorem witness_StepKeepsMemoryCanonical :
    let chip (hid : Memory) (op : ChipOp) : Bool :=
      ((contractEnv []).setChip .b { idleChip with hid := hid, op := op }).wf
    (chip [(255, 0x11)] (.hiddenProgram 0xE0FF80 (page 1)) = true ∧
      chip [(256, 0x11)] .none = false ∧ chip [] (.hiddenProgram 0xE0FE80 (page 1)) = false) ∧
    let s : State := { lawful [] with env := { contractEnv [] with mem := [(0xC00000, 0x11)] } }
    s.env.wf = true ∧ (nextOf (step s)).isSome = true := by decide +kernel

theorem witness_TraceOnlyGrows :
    (nextOf (step ((awake [0]).run (.waitReady 0xC00000)))).isSome = true ∧
      State.reset.cfg.wf = true := by decide +kernel

/-- Two states that differ in a working register, and a run that ends in an entry. -/
theorem witness_WorkingRegistersNeverReadFirst :
    let s := { awake record with dend := false }
    let s' := { s with pcnt := 7, ent := { Entry.blank with index := 9 } }
    s.forget = s'.forget ∧ s.Runs .dirNext 0 (after s .dirNext 0) ∧ s.pcnt ≠ s'.pcnt :=
  ⟨rfl, runs_after _ _ ⟨rfl, default_wf⟩, by decide⟩

/-! The frames. -/

theorem witness_RegistersWrittenOnlyAsListed :
    (awake []).Runs .dirOpen 0 (after (awake []) .dirOpen 0) ∧
    (awake [0]).Runs .hide 1 (after (awake [0]) .hide 1) :=
  ⟨runs_after _ _ (awake_released _).1.1, runs_after _ _ (awake_released _).1.1⟩

/-- A chip with a page program in flight, and one with none. -/
theorem witness_ReadersWriteNothing :
    let s := (lawful [0x80]).run (.pageWrite 0xC00000 (page 1))
    readsOnly (.statusStep .a) = true ∧ s.Runs (.statusStep .a) 0 (after s (.statusStep .a) 0) ∧
      s.env.inFlightAt .a 0xC00000 = true ∧ s.env.inFlightAt .a 0xC00080 = false ∧
      s.env.inFlightAt .b 0xC00000 = false ∧ s.env.hiddenInFlightAt .a 0 = false :=
  ⟨rfl, runs_after _ _ ⟨by decide +kernel, by decide +kernel⟩, by decide +kernel⟩

/-- The write-protect commands and the others, with a page pending that a reset disturbs, and with none. -/
theorem witness_CommandsStoreNothing :
    (let s := (lawful []).run (.pageWrite 0xC00000 (page 1))
     s.Runs .wpAssert 0 (after s .wpAssert 0) ∧ s.Runs .readReset 0 (after s .readReset 0) ∧
       s.env.pendingAt .a 0xC0007F = true ∧ s.env.pendingAt .a 0xC00080 = false ∧
       s.env.hiddenPendingAt .a 0 = false) ∧
    (lawful []).Runs .sessionClose 0 (after (lawful []) .sessionClose 0) :=
  ⟨⟨runs_after _ _ ⟨by decide +kernel, by decide +kernel⟩,
      runs_after _ _ ⟨by decide +kernel, by decide +kernel⟩, by decide +kernel⟩,
    runs_after _ _ (lawful_released _).1.1⟩

/-- An erase in flight on both chips, after the last of its writes and just below their windows; nothing
stored while a sector is shown; and, under the contract, both erases and the others with the default
parameters. -/
theorem witness_WaitingCommandsFrame :
    let s := lawful [0x80, 0x80]
    let e := s.env.after s.cfg (globalWrites s.cfg .chipErase)
    let e' := s.env.after s.cfg (globalWrites s.cfg .showHidden)
    (s.Runs .chipErase 0 (after s .chipErase 0) ∧ s.Runs .hiddenErase 0 (after s .hiddenErase 0) ∧
      s.Runs .hide 0 (after s .hide 0) ∧ s.env.Contract ∧ s.env.wf = true ∧
      s.cfg.hiddenCmdOff.setWidth 16 ≠ s.cfg.unlockOff1) ∧
      (s.env.after s.cfg ((globalWrites s.cfg .chipErase).take 11)).inFlightAt .b 0xE00000 = false ∧
      s.env.pendingAt .a 0xC00000 = false ∧ s.env.hiddenPendingAt .b 0 = false ∧
      e.inFlightAt .a 0xBFFFFF = false ∧ e.inFlightAt .b 0xDFFFFF = false ∧
      e.inFlightAt .b 0xE00000 = true ∧ e.hiddenInFlightAt .a 0 = false ∧
      e'.inFlightAt .a 0xC00000 = false ∧ inFlash 0xBFFFFF = false :=
  ⟨⟨runs_after _ _ (lawful_released _).1.1, runs_after _ _ (lawful_released _).1.1,
    runs_after _ _ (lawful_released _).1.1, lawful_contract _, lawful_wf _, by decide +kernel⟩,
    by decide +kernel⟩

/-- The bytes just outside the streams, and just outside the chips; the first after the hidden sector. -/
theorem witness_BulkWritersFrame :
    let s := lawful (List.replicate 6 0x80)
    let map := page 1 ++ page 2 ++ page 3 ++ page 4
    s.Runs (.writeLoop (page 1) []) 0 (after s (.writeLoop (page 1) []) 0) ∧
      ¬(0xC00000 ≤ 0xC00080 ∧ 0xC00080 < 0xC00000 + (page 1).length) ∧
      ¬(0xE00000 ≤ 0xE00000 ∧ 0xE00000 < 0xE00000 + ([] : List Byte).length) ∧
      (∀ c, s.env.pendingAt c 0xC00080 = false ∧ s.env.hiddenPendingAt c 256 = false) ∧
      s.Runs (.writeRom (page 1)) 0 (after s (.writeRom (page 1)) 0) ∧
      ¬(0xC00000 ≤ 0xBFFFFF ∧ 0xBFFFFF < 0x1000000) ∧
      s.env.wf = true ∧ s.Runs (.writeMap map) 0 (after s (.writeMap map) 0) ∧ ¬256 < 256 :=
  ⟨runs_after _ _ (lawful_released _).1.1, by decide +kernel, by decide +kernel,
    fun c => by cases c <;> decide +kernel, runs_after _ _ (lawful_released _).1.1, by decide +kernel,
    lawful_wf _, runs_after _ _ (lawful_released _).1.1, by decide +kernel⟩

/-- An address in the flash window, with the bytes around a hidden page, and one outside it with the bytes
around what is written. -/
theorem witness_LocalCommandsFrame :
    let s := lawful [0x80]
    (s.Runs (.hiddenWrite 0xC0FF80 (page 1)) 0 (after s (.hiddenWrite 0xC0FF80 (page 1)) 0) ∧
      inFlash (0xC0FF80#24).toNat = true ∧
      ¬(chipOff (0xC0FF80#24).toNat - 0xFF00 ≤ 127 ∧ 127 < chipOff (0xC0FF80#24).toNat - 0xFF00 + 128) ∧
      s.env.pendingAt .a 0xC0FF80 = false ∧ s.env.hiddenPendingAt .a 127 = false) ∧
    s.Runs (.pageWrite 0x206000 (page 1)) 0 (after s (.pageWrite 0x206000 (page 1)) 0) ∧
      inFlash (0x206000#24).toNat = false ∧ inFlash (0xC00000#24).toNat = true ∧
      inFlash (0xFFFFFF#24).toNat = true ∧
      0x205FFF ≠ (bankBase 0x206000 + s.cfg.unlockOff1.setWidth 24).toNat ∧
      0x206080 ≠ (bankBase 0x206000 + s.cfg.unlockOff2.setWidth 24).toNat ∧
      ¬((0x206000#24).toNat ≤ 0x205FFF ∧ 0x205FFF < (0x206000#24).toNat + 128) ∧
      ¬((0x206000#24).toNat ≤ 0x206080 ∧ 0x206080 < (0x206000#24).toNat + 128) :=
  ⟨⟨runs_after _ _ (lawful_released _).1.1, by decide +kernel⟩,
    runs_after _ _ (lawful_released _).1.1, by decide +kernel⟩

/-- The first byte after a short segment; a byte that is not the mode register; nothing pending. -/
theorem witness_SramAndSessionFrame :
    let s := lawful []
    (nextOf (exec (.sramWrite [0x11]) s)).isSome = true ∧
      (∀ k addr, s.cfg.sramAddr[k]? = some addr →
        ¬(addr.toNat ≤ 0x206001 ∧ 0x206001 < addr.toNat + min 0x2000 ([0x11#8].length - k * 0x2000))) ∧
      (∀ addr ∈ s.cfg.sramAddr, inFlash addr.toNat = false) ∧
      (nextOf (exec .sessionOpen s)).isSome = true ∧ 0x2401 ≠ s.cfg.modeAddr.toNat ∧
      ∀ c, s.env.pendingAt c 0x2401 = false := by
  refine ⟨by decide +kernel, ?_, fun addr h => ?_, by decide +kernel, by decide +kernel,
    fun c => by cases c <;> decide +kernel⟩
  case refine_2 =>
    have := (default_apart.2 addr h).1
    simp only [sramSeg] at this
    simp only [inFlash, Bool.and_eq_false_iff, decide_eq_false_iff_not]
    omega
  intro k addr h
  match k, h with
  | 0, h =>
    obtain rfl := Option.some.inj h
    decide +kernel
  | k + 1, _ =>
    simp only [List.length_cons, List.length_nil]
    omega

/-! The environment contract. -/

/-- Both erases, seen complete without error. -/
theorem witness_EraseEffect :
    let s := lawful [0x00, 0x80, 0x80]
    s.Released ∧ s.env.Contract ∧
      s.Ends .chipErase 1 (after s .chipErase 1) ∧ s.Ends .hiddenErase 1 (after s .hiddenErase 1) ∧
      (after s .chipErase 1).rc = 0x00 ∧ isError ((after s .chipErase 1).st.get .b) = false ∧
      (after s .hiddenErase 1).rc = 0x00 ∧ isError ((after s .hiddenErase 1).st.get .a) = false :=
  ⟨lawful_released _, lawful_contract _, ends_after (lawful_released _).1.1 (by decide +kernel),
    ends_after (lawful_released _).1.1 (by decide +kernel), by decide +kernel⟩

/-- The last page of chip B; the second hidden page of chip B. -/
theorem witness_ProgramEffect :
    (let s := lawful [0x00, 0x80]
     let u := s.run (.pageWrite 0xFFFF80 (page 1))
     let t := after u (.waitReady (bankBase 0xFFFF80)) 1
     s.Released ∧ s.env.Contract ∧ s.env.wf = true ∧ inFlash (0xFFFF80#24).toNat = true ∧
       ((0xFFFF80#24).toNat % 128 = 0 ∧ (page 1).length = 128 ∧ chipOf 0xFFFF80 = .b ∧
         (0xFFFF80#24).toNat ∉ (s.env.chip.get .b).programmed ∧
         ∀ i < 128, s.env.arrayAt .b ((0xFFFF80#24).toNat - (base .b).toNat + i) = 0xFF) ∧
       u.Ends (.waitReady (bankBase 0xFFFF80)) 1 t ∧ t.rc = 0x00 ∧ isError (t.st.get .b) = false) ∧
    (let s := lawful [0x00, 0x80]
     let i := Instr.hiddenWrite (base .b + 0xFF00#24 + BitVec.ofNat 24 128) (page 1)
     128 ∉ (s.env.chip.get .b).hidProgrammed ∧
       (∀ i < 128, (s.env.chip.get .b).hid.read (128 + i) = 0xFF) ∧ s.Ends i 1 (after s i 1) ∧
       (after s i 1).rc = 0x00 ∧ (after s i 1).res = 0) :=
  ⟨⟨lawful_released _, lawful_contract _, rfl, by decide +kernel, by decide +kernel,
      ends_after ⟨by decide +kernel, by decide +kernel⟩ (by decide +kernel), by decide +kernel⟩,
    by decide +kernel, by decide +kernel, ends_after (lawful_released _).1.1 (by decide +kernel),
    by decide +kernel⟩

/-- Chips in array mode; and with their hidden sectors shown. -/
theorem witness_DataReadsIdempotent :
    (let s : State := { lawful [] with dend := false, slot := 7 }
     s.DirectoryLegal ∧ s.env.dev.mapped = true ∧ (∀ c, (s.env.chip.get c).mode = .array) ∧
       (nextOf (exec .dirNext s)).isSome = true ∧
       (nextOf (exec (.verifyRom (page 1)) s)).isSome = true) ∧
    (let e := ((lawful [0x80, 0x80]).run .showHidden).env
     e.dev.mapped = true ∧ ∀ c, (e.chip.get c).mode = .hiddenShown) := by
  refine ⟨⟨⟨by decide +kernel, fun h => absurd h (by decide +kernel)⟩, rfl,
    fun c => by cases c <;> rfl, by decide +kernel, by decide +kernel⟩, by decide +kernel,
    fun c => by cases c <;> decide +kernel⟩

theorem witness_DeviceEffects :
    ((lawful []).Ready ∧ (lawful []).env.dev.sleep = .awake ∧ (lawful []).env.dev.mapped = true ∧
      inFlash (lawful []).cfg.modeAddr.toNat = false ∧
      ((lawful []).env.chip.get .a).resettable (lawful []).cfg .a ∧
      ({ idleChip with latch := .key2 0xC00000 .fresh } : ChipState).resettable (lawful []).cfg .a ∧
      ({ idleChip with mode := .lost, latch := .key1 0xC00000 .aborted } : ChipState).resettable
        (lawful []).cfg .a) ∧
    (let s : State := { State.reset with env := { contractEnv [] with
        dev := { sleep := .asleep, protect := .unknown, hirom := false, recent := [] } } }
     s.Idle ∧ s.env.dev.sleep = .asleep ∧ s.env.dev.recent = []) ∧
    (let s := lawful [0x80, 0x80]
     s.Ready ∧ s.env.Contract ∧ showHeard s.cfg ∧ (s.env.chip.get .a).mode ≠ .hiddenShown ∧
       s.Ends .showHidden 0 (after s .showHidden 0) ∧ (after s .showHidden 0).rc = 0x00) ∧
    (let s : State := { lawful [0x80, 0x80] with env := { contractEnv [0x80, 0x80] with
        chip := ⟨idleChip, { idleChip with mode := .hiddenShown }⟩ } }
     s.Ready ∧ s.env.Contract ∧ hideHeard s.cfg ∧ (s.env.chip.get .b).mode = .hiddenShown ∧
       s.Ends .hide 0 (after s .hide 0) ∧ (after s .hide 0).rc = 0x00) :=
  ⟨⟨(lawful_released _).1, rfl, rfl, by decide +kernel, ⟨.inl nofun, rfl, trivial⟩,
      ⟨.inl nofun, rfl, trivial⟩, ⟨.inr rfl, rfl, trivial⟩⟩, ⟨⟨rfl, default_wf⟩, rfl, rfl⟩,
    ⟨(lawful_released _).1, lawful_contract _, default_show, by decide +kernel,
      ends_after (lawful_released _).1.1 (by decide +kernel), by decide +kernel⟩,
    ⟨⟨⟨rfl, default_wf⟩, rfl⟩, ⟨rfl, rfl, ⟨nofun, rfl, rfl⟩, ⟨nofun, rfl, rfl⟩⟩, default_hide,
      by decide +kernel, ends_after ⟨rfl, default_wf⟩ (by decide +kernel), by decide +kernel⟩⟩

/-- A loop on the way, and at its end after an error. -/
theorem witness_CompositesKeepContract :
    let s := lawful [0x00, 0x90]
    let i := Instr.writeLoop (page 1) []
    s.Released ∧ s.env.Contract ∧ i.wellFormed = true ∧ s.cfg.pollLimit = none ∧
      s.Runs i 0 (after s i 0) ∧ s.Runs i 1 (after s i 1) ∧ (after s i 1).seq = .idle :=
  ⟨lawful_released _, lawful_contract _, by decide +kernel, rfl, runs_after _ _ (lawful_released _).1.1,
    runs_after _ _ (lawful_released _).1.1, by decide +kernel⟩

theorem witness_RomRoundTrip :
    let s := lawful [0x80, 0x80, 0x80]
    let t := after s (.writeRom (page 0xFF)) 0
    s.Released ∧ s.env.Contract ∧ s.env.wf = true ∧ s.Ends (.writeRom (page 0xFF)) 0 t ∧
      t.rc = 0x00 ∧ t.trace = s.trace ++ t.trace ∧ ∀ c, FirstReadyIsGood c t.trace := by
  refine ⟨lawful_released _, lawful_contract _, rfl,
    ends_after (lawful_released _).1.1 (by decide +kernel), by decide +kernel, (List.nil_append _).symm, ?_⟩
  intro c b hb
  have h : ∀ c, (readyBytes ((after (lawful [0x80, 0x80, 0x80]) (.writeRom (page 0xFF)) 0).trace.filter
      (Event.reaches c))).head? = some 0x80 := by
    intro c
    cases c <;> decide +kernel
  obtain rfl := Option.some.inj ((h c).symm.trans hb)
  rfl

theorem witness_MapRoundTrip :
    let m := page 0xFF ++ page 0xFF ++ page 0xFF ++ page 0xFF
    let s := lawful (List.replicate 8 0x80)
    let t := after s (.writeMap m) 0
    let u := after t (.verifyMap m) 0
    s.Released ∧ s.env.Contract ∧ s.env.wf = true ∧ showHeard s.cfg ∧ s.Ends (.writeMap m) 0 t ∧
      t.rc = 0x00 ∧ t.trace = s.trace ++ t.trace ∧ (∀ c, FirstReadyIsGood c t.trace) ∧
      t.Ends (.verifyMap m) 0 u ∧ u.rc ≠ 0x05 := by
  refine ⟨lawful_released _, lawful_contract _, rfl, default_show,
    ends_after (lawful_released _).1.1 (by decide +kernel), by decide +kernel, (List.nil_append _).symm, ?_,
    ends_after ⟨by decide +kernel, by decide +kernel⟩ (by decide +kernel), by decide +kernel⟩
  intro c b hb
  have h : ∀ c, (readyBytes ((after (lawful (List.replicate 8 0x80))
      (.writeMap (page 0xFF ++ page 0xFF ++ page 0xFF ++ page 0xFF)) 0).trace.filter
      (Event.reaches c))).head? = some 0x80 := by
    intro c
    cases c <;> decide +kernel
  obtain rfl := Option.some.inj ((h c).symm.trans hb)
  rfl

theorem witness_SramRoundTrip :
    (lawful []).Released ∧ (lawful []).env.Contract ∧ (lawful []).env.wf = true ∧
      sramApart (lawful []).cfg ∧ (List.replicate 0x8000 0#8).length ≤ 0x8000 :=
  ⟨lawful_released _, lawful_contract _, rfl,
    default_apart,
    le_of_eq List.length_replicate⟩

end Sys2Proof.Tests
end

/-! Proofs of the state family: when an operation is run, the registers each operation may write, and the
ranges every step keeps. -/

namespace Sys2Proof.Machine

open Sys2Proof

/-! ### Steps and acceptance -/

theorem take_nil {s : State} (h : s.inbox = []) : s.take = none := by simp [State.take, h]

theorem take_cons {s : State} {r : Command} {rs : List Command} (h : s.inbox = r :: rs) :
    s.take = some (r, { s with inbox := rs }) := by simp [State.take, h]

theorem step_idle_none {s : State} (hi : s.seq = .idle) (hb : s.inbox = []) : step s = .next s := by
  simp [step, hi, take_nil hb]

/-- A record that decodes is run, on the state without it. -/
theorem step_idle_ok {s : State} {r : Command} {rs : List Command} {i : Instr} (hi : s.seq = .idle)
    (hb : s.inbox = r :: rs) (hd : decode r = .ok i) : step s = exec i { s with inbox := rs } := by
  simp [step, hi, take_cons hb, hd]

/-- A record that does not is refused. -/
theorem step_idle_error {s : State} {r : Command} {rs : List Command} {e : DecodeError}
    (hi : s.seq = .idle) (hb : s.inbox = r :: rs) (hd : decode r = .error e) :
    step s = .next (State.refuse { s with inbox := rs } .illegalCommand) := by
  simp [step, hi, take_cons hb, hd]

/-- An operation in progress goes on with the phases it has left. -/
theorem step_running {s : State} {c : Bool} {now : Phase} {rest : List Phase}
    (h : s.seq = .running c now rest) :
    step s = .next (State.runPhases c (now :: rest) { s with seq := .idle }) := by
  simp [step, State.resume, h]

/-- Settles O5: one equation of `step` per case. -/
theorem stepRunsDecodedOperation : Obligations.StepRunsDecodedOperation :=
  ⟨fun _ _ _ _ => step_idle_ok, fun _ => step_idle_none, fun _ _ _ _ => step_running⟩

theorem State.accept_busy {s : State} {body : State → State} (h : s.seq ≠ .idle) :
    s.accept body = .refused .notIdle := if_pos h

theorem State.accept_illFormed {s : State} {body : State → State} (hi : s.seq = .idle)
    (hw : s.cfg.wf = false) : s.accept body = .fault .illFormedConfig := by
  simp [State.accept, hi, hw]

/-- Settles O6: every operation is `accept` of a body, and `accept` decides by `seq` and the parameters. -/
theorem operationsAcceptedInIdleOnly : Obligations.OperationsAcceptedInIdleOnly := by
  unfold Obligations.OperationsAcceptedInIdleOnly
  refine ⟨fun i s h => ?_, fun i s h => ?_, fun i s hi hw => ?_⟩ <;>
    obtain ⟨body, hb⟩ := exec_accept i
  · exact ⟨body s, (hb s).trans (State.accept_idle h)⟩
  · exact (hb s).trans (State.accept_busy h)
  · exact (hb s).trans (State.accept_illFormed hi hw)


/-! ### Operations that run in phases -/

/-- The operations that can stop at a busy answer: those that wait, and the writer loop. -/
def runsInPhases (i : Instr) : Bool := waits i || writesStreams i

/-- The phases of such an operation; none of any other. -/
def phasesOf (cfg : Config) : Instr → List Phase
  | .showHidden => rawPhases cfg.showSeq ++ [.done]
  | .hide => rawPhases cfg.hideSeq ++ [.done]
  | .chipErase => chipErasePhases ++ [.done]
  | .hiddenErase => hiddenErasePhases ++ [.done]
  | .hiddenWrite addr page => hiddenWritePhases addr page ++ [.doneErr (chipOf (bankBase addr))]
  | .waitReady addr => waitPhases addr ++ [.doneStatus (chipOf addr)]
  | .writeRom buf =>
    chipErasePhases ++ writeLoopPhases (romA buf) (romB buf) ++ [.unlockGlobal cmdReset, .doneRom buf.length]
  | .writeLoop rom1 rom2 => writeLoopPhases rom1 rom2 ++ [.doneCount]
  | .writeMap map =>
    .clearErr :: hiddenErasePhases ++
      (mapPagePhases map 0 ++ mapPagePhases map 1 ++ mapPagePhases map 2 ++ mapPagePhases map 3) ++
      [.unlockGlobal cmdReset, .doneMap]
  | .verifyMap map => rawPhases cfg.showSeq ++ [.mapReadBack map]
  | _ => []

/-- The composites, whose failure sends `READ_RESET` first (R224). -/
def cleansUp : Instr → Bool
  | .writeRom _ => true
  | .writeMap _ => true
  | .verifyMap _ => true
  | _ => false

/-- An operation that runs in phases is its checks and its phases. -/
theorem exec_operate_phases {i : Instr} (hi : runsInPhases i = true) (s : State) :
    exec i s = s.operate (needsRelease i) i.wellFormed (badCause i)
      fun s => s.runPhases (cleansUp i) (phasesOf s.cfg i) := by
  cases i <;> cases hi <;> rfl

/-- What it answers: refused with nothing else changed, or its phases run, on operands that are well
formed. -/
theorem exec_phases {i : Instr} {s t : State} (hi : runsInPhases i = true)
    (he : exec i s = .next t) :
    (∃ code, t = s.stopped code) ∨
      (i.wellFormed = true ∧ t = s.runPhases (cleansUp i) (phasesOf s.cfg i)) := by
  rw [exec_operate_phases hi] at he
  obtain ⟨-, ⟨cause, -, ht⟩ | ⟨hc, ht⟩⟩ := State.operate_next he
  · exact .inl ⟨_, ht⟩
  · exact .inr ⟨(State.check_none.1 hc).2.2, ht⟩

/-- A refusal is an end of the operation. -/
theorem stopped_eq_finish {s : State} (h : s.seq = .idle) (code : BitVec 8) :
    s.stopped code = s.finish code 0 := (finish_idle h code 0).symm

/-! ### The registers an operation leaves alone -/

/-- The state without the registers operation `i` may write, and without what no register frame speaks of:
`seq`, `RC`, `RES`, the trace, the notifications and the environment. -/
def State.unwritten (i : Instr) (s : State) : State :=
  { s with
    seq := .idle
    rc := 0
    res := 0
    trace := []
    progress := []
    env := Env.unconstrained
    sess := if writesSession i then .closed else s.sess
    wpr := if writesShadow i then false else s.wpr
    slot := if writesIterator i then 0 else s.slot
    dend := if writesIterator i then false else s.dend
    ent := if writesEntry i then Entry.blank else s.ent
    rbuf := if writesEntry i then [] else s.rbuf
    cur := if writesStreams i then ⟨0, 0⟩ else s.cur
    len := if writesStreams i then ⟨0, 0⟩ else s.len
    busy := if writesStreams i then ⟨false, false⟩ else s.busy
    abort := if writesStreams i then ⟨false, false⟩ else s.abort
    voff := if writesVerifyOffset i then 0 else s.voff
    st := if writesStatus i then ⟨0, 0⟩ else s.st
    pcnt := if waits i then 0 else s.pcnt
    err := if writesErr i then false else s.err
    pbuf := if writesPage i then [] else s.pbuf }

theorem writesStatus_of_waits {i : Instr} (h : waits i = true) : writesStatus i = true := by
  cases i <;> cases h <;> rfl

theorem writesStatus_of_writesStreams {i : Instr} (h : writesStreams i = true) :
    writesStatus i = true := by cases i <;> cases h <;> rfl

theorem writesPage_of_writesStreams {i : Instr} (h : writesStreams i = true) :
    writesPage i = true := by cases i <;> cases h <;> rfl

theorem writesShadow_of_writesSession {i : Instr} (h : writesSession i = true) :
    writesShadow i = true := by cases i <;> cases h <;> rfl

section
variable (s : State) (i : Instr)

@[simp] theorem setSeq_unwritten (q : Seq) : State.unwritten i { s with seq := q } = s.unwritten i := rfl

@[simp] theorem finish_unwritten (rc : BitVec 8) (res : BitVec 24) :
    (s.finish rc res).unwritten i = s.unwritten i := rfl

@[simp] theorem stopped_unwritten (code : BitVec 8) :
    (s.stopped code).unwritten i = s.unwritten i := rfl

@[simp] theorem memWrite_unwritten (addr : Addr) (v : List Byte) :
    (s.memWrite addr v).unwritten i = s.unwritten i := rfl

@[simp] theorem memWrites_unwritten (ws : List BusWrite) :
    (s.memWrites ws).unwritten i = s.unwritten i := by rw [memWrites_eq]; rfl

@[simp] theorem memRead_unwritten (addr : Addr) (n : Nat) :
    (s.memRead addr n).2.unwritten i = s.unwritten i := rfl

@[simp] theorem readByte_unwritten (addr : Addr) :
    (s.readByte addr).2.unwritten i = s.unwritten i := rfl

@[simp] theorem readReset_unwritten : s.readReset.unwritten i = s.unwritten i :=
  memWrites_unwritten ..

@[simp] theorem failOut_unwritten (c : Bool) (cause : Cause) (info : BitVec 24) :
    (s.failOut c cause info).unwritten i = s.unwritten i := by
  cases c <;> simp [State.failOut]

@[simp] theorem mapReadBack_unwritten (map : List Byte) :
    (s.mapReadBack map).unwritten i = s.unwritten i := by
  unfold State.mapReadBack
  simp only
  split <;> simp

@[simp] theorem readSegments_unwritten (as : List Addr) :
    (s.readSegments as).2.unwritten i = s.unwritten i := by
  induction as generalizing s with
  | nil => rfl
  | cons a as ih => exact ih (s.memRead a sramSeg).2

@[simp] theorem wake_unwritten (xs : List WakeStep) : (s.wake xs).unwritten i = s.unwritten i := by
  induction xs generalizing s with
  | nil => rfl
  | cons x xs ih =>
    refine (ih (s.wakeStep x)).trans ?_
    cases x <;> rfl

variable {s i}

theorem sendPage_unwritten (hi : writesPage i = true) (cmd : Byte) (addr : Addr) (page : List Byte) :
    (s.sendPage cmd addr page).unwritten i = s.unwritten i := by
  rw [State.sendPage_eq]
  simp [State.unwritten, hi]

theorem look_unwritten (hi : writesStatus i = true) (c : Chip) :
    (s.look c).2.unwritten i = s.unwritten i := by
  simp [State.unwritten, hi]

theorem poll_unwritten (hi : waits i = true) (addr : Addr) :
    (s.poll addr).2.unwritten i = s.unwritten i := by
  simp [State.unwritten, hi, writesStatus_of_waits hi]

theorem wlIssue_unwritten (hi : writesStreams i = true) (c : Chip) (rom : List Byte) :
    (s.wlIssue c rom).unwritten i = s.unwritten i := by
  refine Eq.trans ?_ (sendPage_unwritten (writesPage_of_writesStreams hi) cmdProgram
    (pageAddr c (s.cur.get c).toNat) (pageOf rom (s.cur.get c).toNat))
  simp [State.unwritten, State.wlIssue, hi]

theorem wlLook_unwritten (hi : writesStreams i = true) (c : Chip) :
    (s.wlLook c).2.unwritten i = s.unwritten i := by
  refine Eq.trans ?_ (look_unwritten (writesStatus_of_writesStreams hi) c)
  unfold State.wlLook
  simp only
  split
  · rfl
  · simp [State.unwritten, State.wlReady, hi]
  · simp [State.unwritten, State.wlError, hi]

theorem verifyChunks_unwritten (hi : writesVerifyOffset i = true) (n : Nat) (rest : List Byte) :
    (State.verifyChunks n rest s).unwritten i = s.unwritten i := by
  induction n generalizing rest s with
  | zero => rfl
  | succ n ih =>
    unfold State.verifyChunks
    split
    · rfl
    · simp only
      split
      · rw [ih]
        simp [State.unwritten, hi]
      · rfl

theorem closed_unwritten (hi : writesSession i = true) :
    State.unwritten i { s with sess := .closed, wpr := false } = s.unwritten i := by
  simp [State.unwritten, hi, writesShadow_of_writesSession hi]

theorem established_unwritten (hi : writesSession i = true) :
    (State.memWrite { s with sess := .awake } s.cfg.modeAddr [s.cfg.modeValue]).readReset.unwritten i =
      s.unwritten i := by
  rw [readReset_unwritten, memWrite_unwritten]
  simp [State.unwritten, hi]

end

/-! ### … in the phases of an operation -/

/-- The registers phase `p` writes are among those of operation `i`. -/
def Phase.fits (i : Instr) : Phase → Bool
  | .page _ _ _ => writesPage i
  | .waitStart => waits i
  | .wait _ => waits i
  | .clearErr => writesErr i
  | .orErr _ => writesErr i
  | .wlInit _ _ => writesStreams i
  | .wl _ _ _ => writesStreams i
  | _ => true

theorem phasesOf_fits (cfg : Config) (i : Instr) : ∀ p ∈ phasesOf cfg i, p.fits i = true :=
  List.all_eq_true.1 (by cases i <;> rfl)

/-- A phase that fits leaves alone what its operation does. -/
theorem perform_unwritten {i : Instr} {u s : State} (p : Phase) (hp : p.fits i = true)
    (h : s.unwritten i = u) :
    (p.perform s).Holds (fun t => t.unwritten i = u) fun q => q.fits i = true := by
  subst h
  cases p with
  | unlockGlobal cmd => exact memWrites_unwritten ..
  | rawSeq bytes => exact memWrites_unwritten ..
  | page cmd addr data => exact sendPage_unwritten hp ..
  | waitStart =>
    have hw : waits i = true := hp
    simp [Phase.perform, Progress.Holds, State.unwritten, hw]
  | wait addr =>
    show (s.waitTurn addr).Holds _ _
    unfold State.waitTurn
    simp only
    split
    · exact poll_unwritten hp addr
    · split
      · exact poll_unwritten hp addr
      · exact ⟨poll_unwritten hp addr, hp⟩
  | clearErr =>
    have hw : writesErr i = true := hp
    simp [Phase.perform, Progress.Holds, State.unwritten, hw]
  | orErr c =>
    have hw : writesErr i = true := hp
    simp [Phase.perform, Progress.Holds, State.unwritten, hw]
  | wlInit rom1 rom2 =>
    have hw : writesStreams i = true := hp
    simp [Phase.perform, Progress.Holds, State.unwritten, State.wlInit, hw]
  | wl turn rom1 rom2 =>
    refine wlRun_keeps (fun _ => hp) ?_ ?_ _ turn s rfl
    · intro s' c h' _ _
      exact (wlIssue_unwritten hp c _).trans h'
    · intro s' c h' _ _
      exact (wlLook_unwritten hp c).trans h'
  | mapReadBack map => exact mapReadBack_unwritten ..
  | done => rfl
  | doneStatus c => rfl
  | doneErr c => rfl
  | doneCount => rfl
  | doneRom len =>
    show (s.romResult len).unwritten i = _
    unfold State.romResult
    split <;> rfl
  | doneMap =>
    show s.mapResult.unwritten i = _
    unfold State.mapResult
    split <;> rfl

theorem stable_unwritten (i : Instr) (u : State) : State.Stable fun t => t.unwritten i = u where
  seq := fun s q h => (setSeq_unwritten s i q).trans h
  failOut := fun s c cause info h => (failOut_unwritten s i c cause info).trans h

/-! ### … in a whole operation -/

/-- The operation ends at once, with a result and with nothing changed but the registers it may write. -/
def EndsAtOnce (i : Instr) (s t : State) : Prop :=
  ∃ (u : State) (rc : BitVec 8) (res : BitVec 24), t = u.finish rc res ∧ u.unwritten i = s.unwritten i

theorem EndsAtOnce.finish {i : Instr} {s u : State} (h : u.unwritten i = s.unwritten i)
    (rc : BitVec 8) (res : BitVec 24) : EndsAtOnce i s (u.finish rc res) := ⟨u, rc, res, rfl, h⟩

theorem exec_sessionOpen_endsAtOnce {s t : State} (he : exec .sessionOpen s = .next t) :
    EndsAtOnce .sessionOpen s t := by
  have hread := (readByte_unwritten { s with sess := .closed, wpr := false } .sessionOpen devReg0).trans
    (closed_unwritten rfl)
  cases (exec_sessionOpen (exec_next_idle he)).symm.trans he
  split
  · exact .finish ((established_unwritten rfl).trans hread) rcOk 0
  · split
    · exact .finish (((established_unwritten rfl).trans (wake_unwritten ..)).trans hread) rcOk 0
    · exact .finish hread _ _

theorem exec_sessionClose_endsAtOnce {s t : State} (he : exec .sessionClose s = .next t) :
    EndsAtOnce .sessionClose s t := by
  have hreset : (if s.sess = .awake then s.readReset.memWrite devReg0 [wpSet] else s).unwritten
      .sessionClose = s.unwritten .sessionClose := by
    split <;> simp
  cases (exec_sessionClose (exec_next_idle he)).symm.trans he
  exact .finish ((closed_unwritten rfl).trans hreset) rcOk 0

/-- An operation without phases ends at once. -/
theorem exec_immediate {i : Instr} {s t : State} (hi : runsInPhases i = false)
    (he : exec i s = .next t) : EndsAtOnce i s t := by
  have hidle := exec_next_idle he
  cases hc : makesNoCheck i with
  | false =>
    obtain ⟨-, ⟨code, rfl⟩ | ⟨hr, hw, hok⟩⟩ := exec_cases hc he
    · exact stopped_eq_finish hidle.1 code ▸ .finish rfl _ _
    cases i with
    | unlockAndGlobal cmd =>
      cases (exec_unlockAndGlobal hr).symm.trans he
      exact .finish (memWrites_unwritten ..) _ _
    | unlockAndLocal addr cmd =>
      cases (exec_unlockAndLocal hr).symm.trans he
      exact .finish (memWrites_unwritten ..) _ _
    | readReset =>
      cases (exec_readReset hr).symm.trans he
      exact .finish (readReset_unwritten ..) _ _
    | pageWrite addr page =>
      cases (exec_pageWrite ⟨hr, hw rfl⟩ hok).symm.trans he
      exact .finish (sendPage_unwritten rfl ..) _ _
    | statusStep c =>
      cases (exec_statusStep hr).symm.trans he
      exact .finish (look_unwritten rfl c) _ _
    | verifyRom buf =>
      cases (exec_verifyRom hr (of_decide_eq_true hok)).symm.trans he
      unfold State.verifyResult
      split <;> exact .finish (verifyChunks_unwritten rfl ..) _ _
    | dirPresent =>
      cases (exec_dirPresent hr).symm.trans he
      exact .finish (memRead_unwritten ..) _ _
    | dirOpen =>
      cases (exec_dirOpen hr).symm.trans he
      exact .finish rfl _ _
    | dirNext =>
      cases hd : s.dend with
      | true =>
        cases (exec_dirNext_end hr hd).symm.trans he
        exact .finish rfl _ _
      | false =>
        cases (exec_dirNext_read hr hd rfl).symm.trans he
        split <;> exact .finish rfl _ _
    | wpRelease =>
      cases (exec_wpRelease hr).symm.trans he
      exact .finish rfl _ _
    | wpAssert =>
      cases (exec_wpAssert hr).symm.trans he
      exact .finish rfl _ _
    | sramWrite buf =>
      cases (exec_sramWrite ⟨hr, hw rfl⟩ (of_decide_eq_true hok)).symm.trans he
      exact .finish (memWrites_unwritten ..) _ _
    | sramVerify buf =>
      cases (exec_sramVerify hr (of_decide_eq_true hok)).symm.trans he
      split <;> exact .finish (readSegments_unwritten ..) _ _
    | sessionOpen => cases hc
    | sessionClose => cases hc
    | _ => cases hi
  | true =>
    cases i with
    | sessionOpen => exact exec_sessionOpen_endsAtOnce he
    | sessionClose => exact exec_sessionClose_endsAtOnce he
    | _ => cases hc

/-- At every point of every operation, nothing has changed but the registers it may write. -/
theorem runs_unwritten {i : Instr} {s t : State} {n : Nat} (hr : s.Runs i n t) :
    t.unwritten i = s.unwritten i := by
  obtain ⟨t0, he, rfl⟩ := hr
  have hstable := stable_unwritten i (s.unwritten i)
  have hperform : ∀ (p : Phase) (s' : State), p.fits i = true → s'.unwritten i = s.unwritten i →
      (p.perform s').Holds (fun t => t.unwritten i = s.unwritten i) fun q => q.fits i = true :=
    fun p _ hp h => perform_unwritten p hp h
  have h0 : t0.unwritten i = s.unwritten i ∧ t0.seq.Holds fun q => q.fits i = true := by
    cases hi : runsInPhases i with
    | true =>
      obtain ⟨code, rfl⟩ | ⟨-, rfl⟩ := exec_phases hi he
      · refine ⟨stopped_unwritten s i code, ?_⟩
        rw [stopped_eq_finish (exec_next_idle he).1]
        trivial
      · exact runPhases_keeps hstable hperform _ _ (phasesOf_fits s.cfg i) s rfl
    | false =>
      obtain ⟨u, rc, res, rfl, hu⟩ := exec_immediate hi he
      exact ⟨hu, trivial⟩
  exact (drive_keeps hstable hperform n h0.1 h0.2).1

/-- What is masked on both sides under a flag agrees where the flag is clear. -/
theorem eq_of_ite_eq {α : Type} {b : Bool} {x y z : α}
    (h : (if b = true then x else y) = if b = true then x else z) (hb : b = false) : y = z := by
  simpa [hb] using h

/-- Settles O46: each register is read off `unwritten`, which masks those the operation may write. -/
theorem registersWrittenOnlyAsListed : Obligations.RegistersWrittenOnlyAsListed := by
  unfold Obligations.RegistersWrittenOnlyAsListed
  intro s i n t hr
  obtain ⟨hcfg, hinbox, -, hsess, hwpr, hslot, hdend, -, -, hent, hcur, hlen, hvoff, hst, hpcnt, hbusy,
    habort, herr, hpbuf, hrbuf, -⟩ := State.mk.inj (runs_unwritten hr)
  exact ⟨eq_of_ite_eq hsess, eq_of_ite_eq hwpr,
    fun hi => ⟨eq_of_ite_eq hslot hi, eq_of_ite_eq hdend hi⟩,
    fun hi => ⟨eq_of_ite_eq hent hi, eq_of_ite_eq hrbuf hi⟩,
    fun hi => ⟨eq_of_ite_eq hcur hi, eq_of_ite_eq hlen hi, eq_of_ite_eq hbusy hi, eq_of_ite_eq habort hi⟩,
    eq_of_ite_eq hvoff, eq_of_ite_eq hst, eq_of_ite_eq hpcnt, eq_of_ite_eq herr, eq_of_ite_eq hpbuf,
    hcfg, hinbox⟩

/-! ### One stream of the writer loop -/

section
variable {cur len : BitVec 22} {busy abort : Bool}

/-- A page may be issued while the cursor is short of the length. -/
theorem streamLegal_issue (h : streamLegal cur len busy abort) (hlt : cur.toNat < len.toNat)
    (ha : abort = false) : streamLegal cur len true abort := by
  obtain ⟨hcur, hlen, hle, hhalf, -⟩ := h
  exact ⟨hcur, hlen, hle, hhalf, fun _ => ⟨hlt, ha⟩⟩

/-- A page that has completed leaves room for the cursor to advance by a whole page. -/
theorem streamLegal_advance (h : streamLegal cur len true abort) :
    streamLegal (cur + 128#22) len false abort := by
  obtain ⟨hcur, hlen, -, hhalf, hbusy⟩ := h
  have hlt := (hbusy rfl).1
  simp only [pageSize, half] at hcur hlen hhalf
  have hadd : (cur + 128#22).toNat = cur.toNat + 128 := by bv_omega
  refine ⟨?_, hlen, ?_, hhalf, nofun⟩
  · rw [hadd, pageSize]
    omega
  · omega

/-- An aborted stream keeps its cursor and has no page outstanding. -/
theorem streamLegal_abort (h : streamLegal cur len busy abort) : streamLegal cur len false true := by
  obtain ⟨hcur, hlen, hle, hhalf, -⟩ := h
  exact ⟨hcur, hlen, hle, hhalf, nofun⟩

/-- A stream whose length is legal, at its start. -/
theorem streamLegal_start {rom : List Byte} (h : imageLengthOk half rom = true) :
    streamLegal 0 (BitVec.ofNat 22 rom.length) false false ∧
      (BitVec.ofNat 22 rom.length).toNat = rom.length := by
  obtain ⟨hmod, hle⟩ : rom.length % pageSize = 0 ∧ rom.length ≤ half := by
    simpa [imageLengthOk] using h
  have hlen : (BitVec.ofNat 22 rom.length).toNat = rom.length := by
    rw [BitVec.toNat_ofNat]
    exact Nat.mod_eq_of_lt (by simp only [half] at hle; omega)
  refine ⟨⟨rfl, ?_, Nat.zero_le _, ?_, nofun⟩, hlen⟩ <;> rw [hlen] <;> assumption

end

/-- A page of a stream that the cursor has not passed is whole. -/
theorem length_pageOf {rom : List Byte} {off : Nat} (hoff : off % pageSize = 0)
    (hrom : rom.length % pageSize = 0) (hlt : off < rom.length) : (pageOf rom off).length = pageSize := by
  simp only [pageOf, List.length_take, List.length_drop]
  simp only [pageSize] at *
  omega

theorem live_iff {s : State} {c : Chip} :
    s.live c = true ↔ s.abort.get c = false ∧
      (s.busy.get c = true ∨ (s.cur.get c).toNat < (s.len.get c).toNat) := by
  simp [State.live]

/-! ### The working registers in their ranges -/

/-- `State.WorkLegal` but for the operation in progress, with the streams by chip. -/
structure State.InRange (s : State) : Prop where
  stream : ∀ c, streamLegal (s.cur.get c) (s.len.get c) (s.busy.get c) (s.abort.get c)
  voff : s.voff.toNat ≤ maxRom
  pbuf : s.pbuf.length = pageSize
  rbuf : s.rbuf.length = dirRecLen

theorem workLegal_iff {s : State} : s.WorkLegal ↔ s.InRange ∧ s.SeqLegal := by
  constructor
  · rintro ⟨ha, hb, hvoff, hpbuf, hrbuf, hseq⟩
    exact ⟨⟨fun c => by cases c <;> assumption, hvoff, hpbuf, hrbuf⟩, hseq⟩
  · rintro ⟨h, hseq⟩
    exact ⟨h.stream .a, h.stream .b, h.voff, h.pbuf, h.rbuf, hseq⟩

theorem State.SeqLegal.of_idle {s : State} (h : s.seq = .idle) : s.SeqLegal := by
  simp [State.SeqLegal, h]

namespace State.InRange
variable {s : State} (h : s.InRange)
include h

/-- Only the streams, `VOFF`, `PBUF` and `RBUF` matter. -/
theorem congr {t : State} (hcur : t.cur = s.cur) (hlen : t.len = s.len) (hbusy : t.busy = s.busy)
    (habort : t.abort = s.abort) (hvoff : t.voff = s.voff) (hpbuf : t.pbuf = s.pbuf)
    (hrbuf : t.rbuf = s.rbuf) : t.InRange :=
  ⟨by rw [hcur, hlen, hbusy, habort]; exact h.stream, hvoff ▸ h.voff, hpbuf ▸ h.pbuf, hrbuf ▸ h.rbuf⟩

theorem memWrites (ws : List BusWrite) : (s.memWrites ws).InRange := by
  rw [memWrites_eq]
  exact h.congr rfl rfl rfl rfl rfl rfl rfl

theorem finish (rc : BitVec 8) (res : BitVec 24) : (s.finish rc res).InRange :=
  h.congr rfl rfl rfl rfl rfl rfl rfl

theorem poll (addr : Addr) : (s.poll addr).2.InRange := h.congr rfl rfl rfl rfl rfl rfl rfl

theorem look (c : Chip) : (s.look c).2.InRange := h.congr rfl rfl rfl rfl rfl rfl rfl

theorem memRead (addr : Addr) (n : Nat) : (s.memRead addr n).2.InRange :=
  h.congr rfl rfl rfl rfl rfl rfl rfl

theorem sendPage (cmd : Byte) (addr : Addr) {page : List Byte} (hp : page.length = pageSize) :
    (s.sendPage cmd addr page).InRange := by
  rw [State.sendPage_eq]
  exact ⟨h.stream, h.voff, hp, h.rbuf⟩

theorem mapReadBack (map : List Byte) : (s.mapReadBack map).InRange := by
  have h1 := ((h.memRead (hiddenBase .a) hidRead).memRead (hiddenBase .b) hidRead).memWrites
    (unlockGlobalWrites s.cfg cmdReset)
  unfold State.mapReadBack
  simp only
  split <;> exact h1.finish _ _

theorem romResult (len : Nat) : (s.romResult len).InRange := by
  unfold State.romResult
  split <;> exact h.finish _ _

theorem mapResult : s.mapResult.InRange := by
  unfold State.mapResult
  split <;> exact h.finish _ _

theorem failOut (c : Bool) (cause : Cause) (info : BitVec 24) : (s.failOut c cause info).InRange := by
  cases c
  · exact h.finish _ _
  · exact (h.memWrites _).finish _ _

/-- A change of one stream's registers. -/
theorem setStream {t : State} (c : Chip)
    (hc : streamLegal (t.cur.get c) (t.len.get c) (t.busy.get c) (t.abort.get c))
    (hother : ∀ d, d ≠ c → t.cur.get d = s.cur.get d ∧ t.len.get d = s.len.get d ∧
      t.busy.get d = s.busy.get d ∧ t.abort.get d = s.abort.get d)
    (hvoff : t.voff = s.voff) (hpbuf : t.pbuf = s.pbuf) (hrbuf : t.rbuf = s.rbuf) : t.InRange := by
  refine ⟨fun d => ?_, hvoff ▸ h.voff, hpbuf ▸ h.pbuf, hrbuf ▸ h.rbuf⟩
  rcases eq_or_ne d c with rfl | hd
  · exact hc
  · obtain ⟨hcur, hlen, hbusy, habort⟩ := hother d hd
    rw [hcur, hlen, hbusy, habort]
    exact h.stream d

/-- Of a live chip with no page outstanding the next page is whole, and then outstanding. -/
theorem wlIssue {c : Chip} {rom : List Byte} (hl : s.live c = true) (hb : s.busy.get c = false)
    (hlen : (s.len.get c).toNat = rom.length) : (s.wlIssue c rom).InRange := by
  obtain ⟨ha, hlt⟩ := live_iff.1 hl
  have hlt : (s.cur.get c).toNat < (s.len.get c).toNat := hlt.resolve_left (by simp [hb])
  obtain ⟨hcur, hmod, -, -, -⟩ := h.stream c
  have h1 := h.sendPage cmdProgram (pageAddr c (s.cur.get c).toNat)
    (length_pageOf hcur (hlen ▸ hmod) (hlen ▸ hlt))
  refine h1.setStream c ?_ ?_ rfl rfl rfl
  · simpa [State.wlIssue, State.sendPage_eq] using streamLegal_issue (h.stream c) hlt ha
  · intro d hd
    simp [State.wlIssue, PerChip_get_set_of_ne _ _ hd]

theorem wlReady {c : Chip} (hb : s.busy.get c = true) : (s.wlReady c).InRange := by
  refine h.setStream c ?_ ?_ rfl rfl rfl
  · simpa [State.wlReady] using streamLegal_advance (hb ▸ h.stream c)
  · intro d hd
    simp [State.wlReady, PerChip_get_set_of_ne _ _ hd]

theorem wlError (c : Chip) : (s.wlError c).InRange := by
  refine h.setStream c ?_ ?_ rfl rfl rfl
  · simpa [State.wlError] using streamLegal_abort (h.stream c)
  · intro d hd
    simp [State.wlError, PerChip_get_set_of_ne _ _ hd]

theorem wlLook {c : Chip} (hb : s.busy.get c = true) : (s.wlLook c).2.InRange := by
  have h1 := h.look c
  unfold State.wlLook
  simp only
  split
  · exact h1
  · exact h1.wlReady hb
  · exact h1.wlError c

theorem wlInit {rom1 rom2 : List Byte} (hr : streamsOk rom1 rom2 = true) :
    (s.wlInit rom1 rom2).InRange := by
  obtain ⟨h1, h2⟩ := Bool.and_eq_true_iff.1 hr
  refine ⟨fun c => ?_, h.voff, h.pbuf, h.rbuf⟩
  cases c
  · exact (streamLegal_start h1).1
  · exact (streamLegal_start h2).1

end State.InRange

/-! ### The phases still to run -/

/-- What the loop over two streams needs of the state: `LEN` is their lengths. -/
def State.LoopReady (s : State) (rom1 rom2 : List Byte) : Prop :=
  streamsOk rom1 rom2 = true ∧ s.len.a.toNat = rom1.length ∧ s.len.b.toNat = rom2.length

/-- What `State.SeqLegal` asks of an operation in progress, as a condition on its phases. -/
def State.PhasesReady (s : State) : List Phase → Prop
  | .wl _ rom1 rom2 :: rest => s.LoopReady rom1 rom2 ∧ phasesLegal rest = true
  | phases => phasesLegal phases = true

theorem seqLegal_running {s : State} {c : Bool} {now : Phase} {rest : List Phase}
    (h : s.seq = .running c now rest) : s.SeqLegal ↔ s.PhasesReady (now :: rest) := by
  cases now <;> simp [State.SeqLegal, State.PhasesReady, State.LoopReady, h, and_assoc]

theorem phasesReady_of_legal (s : State) {phases : List Phase} (h : phasesLegal phases = true) :
    s.PhasesReady phases := by
  cases phases with
  | nil => exact h
  | cons p rest =>
    cases p with
    | wl turn rom1 rom2 => cases h
    | _ => exact h

/-- A loop follows its own initialisation. -/
theorem phasesLegal_wlInit {rom1 rom2 : List Byte} {rest : List Phase}
    (h : phasesLegal (.wlInit rom1 rom2 :: rest) = true) :
    ∃ rest', rest = .wl .a rom1 rom2 :: rest' ∧ streamsOk rom1 rom2 = true ∧
      phasesLegal rest' = true := by
  cases rest with
  | nil => cases h
  | cons p rest' =>
    cases p with
    | wl turn rom1' rom2' =>
      cases turn with
      | a =>
        obtain ⟨⟨⟨hok, rfl⟩, rfl⟩, hrest⟩ :
            ((streamsOk rom1 rom2 = true ∧ rom1 = rom1') ∧ rom2 = rom2') ∧ phasesLegal rest' = true := by
          simpa [phasesLegal] using h
        exact ⟨rest', rfl, hok, hrest⟩
      | b => cases h
    | _ => cases h

theorem loopReady_wlInit (s : State) {rom1 rom2 : List Byte} (h : streamsOk rom1 rom2 = true) :
    (s.wlInit rom1 rom2).LoopReady rom1 rom2 := by
  obtain ⟨h1, h2⟩ := Bool.and_eq_true_iff.1 h
  exact ⟨h, (streamLegal_start h1).2, (streamLegal_start h2).2⟩

theorem wlLook_len (s : State) (c : Chip) : (s.wlLook c).2.len = s.len := by
  unfold State.wlLook
  simp only
  split <;> rfl

theorem wlIssue_len (s : State) (c : Chip) (rom : List Byte) : (s.wlIssue c rom).len = s.len := by
  simp [State.wlIssue, State.sendPage_eq]

theorem State.LoopReady.congr {s t : State} {rom1 rom2 : List Byte} (h : s.LoopReady rom1 rom2)
    (hlen : t.len = s.len) : t.LoopReady rom1 rom2 := by
  unfold State.LoopReady
  rw [hlen]
  exact h

/-- A phase leaves the registers in range, and the state ready for the phases that follow. -/
def Progress.Legal (rest : List Phase) : Progress → Prop
  | .goOn s => s.InRange ∧ s.PhasesReady rest
  | .again now s => s.InRange ∧ s.PhasesReady (now :: rest)
  | .fail _ _ s => s.InRange

/-- The loop keeps its streams in range, and `LEN`. -/
theorem wlRun_legal {s : State} {rom1 rom2 : List Byte} (n : Nat) (turn : Chip) {rest : List Phase}
    (h : s.InRange) (hl : s.LoopReady rom1 rom2) (hrest : phasesLegal rest = true) :
    (State.wlRun n turn rom1 rom2 s).Legal rest := by
  have hkeeps : (State.wlRun n turn rom1 rom2 s).Holds (fun s => s.InRange ∧ s.LoopReady rom1 rom2)
      fun p => ∃ turn, p = .wl turn rom1 rom2 := by
    refine wlRun_keeps (fun turn => ⟨turn, rfl⟩) ?_ ?_ n turn s ⟨h, hl⟩
    · rintro s c ⟨h, hl⟩ hlive hb
      obtain ⟨-, ha, hb'⟩ := id hl
      refine ⟨h.wlIssue hlive hb ?_, hl.congr (wlIssue_len ..)⟩
      cases c <;> assumption
    · rintro s c ⟨h, hl⟩ - hb
      exact ⟨h.wlLook hb, hl.congr (wlLook_len ..)⟩
  cases hw : State.wlRun n turn rom1 rom2 s with
  | goOn s1 =>
    rw [hw] at hkeeps
    exact ⟨hkeeps.1, phasesReady_of_legal s1 hrest⟩
  | again now s1 =>
    rw [hw] at hkeeps
    obtain ⟨⟨h1, hl1⟩, turn', rfl⟩ := hkeeps
    exact ⟨h1, hl1, hrest⟩
  | fail cause info s1 =>
    rw [hw] at hkeeps
    exact hkeeps.1

/-- Every phase, run where the state is ready for it. -/
theorem perform_legal {s : State} (p : Phase) {rest : List Phase} (h : s.InRange)
    (hp : s.PhasesReady (p :: rest)) : (p.perform s).Legal rest := by
  cases p with
  | unlockGlobal cmd => exact ⟨h.memWrites _, phasesReady_of_legal _ hp⟩
  | rawSeq bytes => exact ⟨h.memWrites _, phasesReady_of_legal _ hp⟩
  | page cmd addr data =>
    obtain ⟨hok, hrest⟩ := Bool.and_eq_true_iff.1 hp
    exact ⟨h.sendPage cmd addr (eq_of_beq (Bool.and_eq_true_iff.1 hok).2), phasesReady_of_legal _ hrest⟩
  | waitStart => exact ⟨h.congr rfl rfl rfl rfl rfl rfl rfl, phasesReady_of_legal _ hp⟩
  | wait addr =>
    show (s.waitTurn addr).Legal rest
    unfold State.waitTurn
    simp only
    split
    · exact ⟨h.poll addr, phasesReady_of_legal _ hp⟩
    · split
      · exact h.poll addr
      · exact ⟨h.poll addr, hp⟩
  | clearErr => exact ⟨h.congr rfl rfl rfl rfl rfl rfl rfl, phasesReady_of_legal _ hp⟩
  | orErr c => exact ⟨h.congr rfl rfl rfl rfl rfl rfl rfl, phasesReady_of_legal _ hp⟩
  | wlInit rom1 rom2 =>
    obtain ⟨rest', rfl, hok, hrest⟩ := phasesLegal_wlInit hp
    exact ⟨h.wlInit hok, loopReady_wlInit s hok, hrest⟩
  | wl turn rom1 rom2 => exact wlRun_legal _ turn h hp.1 hp.2
  | mapReadBack map => exact ⟨h.mapReadBack map, phasesReady_of_legal _ hp⟩
  | done => exact ⟨h.finish _ _, phasesReady_of_legal _ hp⟩
  | doneStatus c => exact ⟨h.finish _ _, phasesReady_of_legal _ hp⟩
  | doneErr c => exact ⟨h.finish _ _, phasesReady_of_legal _ hp⟩
  | doneCount => exact ⟨h.finish _ _, phasesReady_of_legal _ hp⟩
  | doneRom len => exact ⟨h.romResult len, phasesReady_of_legal _ hp⟩
  | doneMap => exact ⟨h.mapResult, phasesReady_of_legal _ hp⟩

/-- The phases of an operation end, or stop, with the working registers legal. -/
theorem runPhases_workLegal (c : Bool) {phases : List Phase} {s : State} (h : s.InRange)
    (hp : s.PhasesReady phases) : (s.runPhases c phases).WorkLegal := by
  induction phases generalizing s with
  | nil => exact workLegal_iff.2 ⟨h.congr rfl rfl rfl rfl rfl rfl rfl, .of_idle rfl⟩
  | cons p rest ih =>
    have h1 := perform_legal p h hp
    unfold State.runPhases
    split
    · next s1 he => rw [he] at h1; exact ih h1.1 h1.2
    · next now s1 he =>
      rw [he] at h1
      exact workLegal_iff.2 ⟨h1.1.congr rfl rfl rfl rfl rfl rfl rfl, (seqLegal_running rfl).2 h1.2⟩
    · next cause info s1 he =>
      rw [he] at h1
      exact workLegal_iff.2 ⟨State.InRange.failOut h1 c cause info, .of_idle rfl⟩

/-! ### The operands of an operation's phases -/

/-- The two halves of an image are streams. -/
theorem streamsOk_rom {buf : List Byte} (h : imageLengthOk maxRom buf = true) :
    streamsOk (romA buf) (romB buf) = true := by
  have h' : buf.length % pageSize = 0 ∧ buf.length ≤ maxRom := by simpa [imageLengthOk] using h
  simp only [pageSize, maxRom] at h'
  simp only [streamsOk, imageLengthOk, romA, romB, List.length_take, List.length_drop, half, pageSize,
    Bool.and_eq_true, beq_iff_eq, decide_eq_true_eq]
  omega

/-- Each page of a map is whole, and its hidden page is aligned. -/
theorem pageOperandsOk_map {map : List Byte} (h : map.length = mapLen) (k : Fin 4) :
    pageOperandsOk (hiddenPage k) (mapPage map k) = true := by
  have haddr : (hiddenPage k).toNat % pageSize = 0 :=
    (by decide : ∀ k, (hiddenPage k).toNat % pageSize = 0) k
  have hpage : (mapPage map k).length = pageSize := by
    refine length_pageOf (Nat.mul_mod_left ..) (by rw [h]; rfl) ?_
    have := k.isLt
    simp only [h, mapLen, pageSize]
    omega
  simp [pageOperandsOk, haddr, hpage]

/-- An operation whose operands are well formed has legal phases. -/
theorem phasesLegal_phasesOf (cfg : Config) {i : Instr} (h : i.wellFormed = true) :
    phasesLegal (phasesOf cfg i) = true := by
  cases i with
  | hiddenWrite addr page => exact Bool.and_eq_true_iff.2 ⟨h, rfl⟩
  | writeRom buf =>
    simp [phasesOf, chipErasePhases, waitBoth, waitPhases, writeLoopPhases, phasesLegal, streamsOk_rom h]
  | writeLoop rom1 rom2 =>
    have hok : streamsOk rom1 rom2 = true := h
    simp [phasesOf, writeLoopPhases, phasesLegal, hok]
  | writeMap map =>
    simp [phasesOf, hiddenErasePhases, waitBoth, waitPhases, mapPagePhases, hiddenWritePhases,
      phasesLegal, pageOperandsOk_map (eq_of_beq h)]
  | _ => rfl

/-! ### The operations without phases -/

/-- The verifier's offset does not pass the end of the image. -/
theorem verifyChunks_voff_le {s : State} {rest : List Byte} (n : Nat)
    (h : s.voff.toNat + rest.length ≤ maxRom) : (State.verifyChunks n rest s).voff.toNat ≤ maxRom := by
  induction n generalizing rest s with
  | zero => exact (Nat.le_add_right ..).trans h
  | succ n ih =>
    unfold State.verifyChunks
    split
    · exact (Nat.le_add_right ..).trans h
    · simp only
      split
      · refine ih ?_
        simp only [maxRom] at h
        simp only [notify_voff, memRead_voff, BitVec.toNat_add, BitVec.toNat_ofNat, List.length_drop,
          maxRom]
        omega
      · exact (Nat.le_add_right ..).trans h

theorem verifyRom_voff_le {buf : List Byte} {s t : State} (he : exec (.verifyRom buf) s = .next t)
    (h : s.voff.toNat ≤ maxRom) : t.voff.toNat ≤ maxRom := by
  obtain ⟨-, ⟨code, rfl⟩ | ⟨hr, -, hok⟩⟩ := exec_cases rfl he
  · exact h
  have hok := of_decide_eq_true hok
  cases (exec_verifyRom hr hok).symm.trans he
  have hchunks := verifyChunks_voff_le (s := { s with voff := 0 }) (buf.length / vChunk + 1)
    (rest := buf) (by simpa using hok)
  unfold State.verifyResult
  split <;> exact hchunks

theorem pageWrite_pbuf_length {addr : Addr} {page : List Byte} {s t : State}
    (he : exec (.pageWrite addr page) s = .next t) (h : s.pbuf.length = pageSize) :
    t.pbuf.length = pageSize := by
  obtain ⟨-, ⟨code, rfl⟩ | ⟨hr, hw, hok⟩⟩ := exec_cases rfl he
  · exact h
  cases (exec_pageWrite ⟨hr, hw rfl⟩ hok).symm.trans he
  have hlen : page.length = pageSize := eq_of_beq (Bool.and_eq_true_iff.1 hok).2
  simpa [State.sendPage_eq] using hlen

/-- `DIR_NEXT` reads a whole record. -/
theorem dirNext_rbuf_length {s t : State} (he : exec .dirNext s = .next t)
    (h : s.rbuf.length = dirRecLen) : t.rbuf.length = dirRecLen := by
  obtain ⟨-, ⟨code, rfl⟩ | ⟨hr, -, -⟩⟩ := exec_cases rfl he
  · exact h
  cases hd : s.dend with
  | true =>
    cases (exec_dirNext_end hr hd).symm.trans he
    exact h
  | false =>
    cases (exec_dirNext_read hr hd rfl).symm.trans he
    split <;> exact Env.read_length ..

/-- An operation without phases keeps the ranges: it writes at most one of the registers. -/
theorem exec_immediate_inRange {i : Instr} {s t : State} (hi : runsInPhases i = false)
    (he : exec i s = .next t) (h : s.InRange) : t.InRange := by
  obtain ⟨-, -, -, hentry, hstreams, hvoff, -, -, -, hpage, -, -⟩ :=
    registersWrittenOnlyAsListed s i 0 t ⟨t, he, rfl⟩
  obtain ⟨hcur, hlen, hbusy, habort⟩ := hstreams (Bool.or_eq_false_iff.1 hi).2
  refine ⟨by rw [hcur, hlen, hbusy, habort]; exact h.stream, ?_, ?_, ?_⟩
  · cases i with
    | verifyRom buf => exact verifyRom_voff_le he h.voff
    | _ => exact hvoff rfl ▸ h.voff
  · cases i with
    | pageWrite addr page => exact pageWrite_pbuf_length he h.pbuf
    | hiddenWrite | writeRom | writeLoop | writeMap => cases hi
    | _ => exact hpage rfl ▸ h.pbuf
  · cases i with
    | dirNext => exact dirNext_rbuf_length he h.rbuf
    | _ => exact (hentry rfl).2 ▸ h.rbuf

/-- Every operation keeps the working registers legal. -/
theorem exec_workLegal {i : Instr} {s t : State} (he : exec i s = .next t) (h : s.InRange) :
    t.WorkLegal := by
  cases hi : runsInPhases i with
  | true =>
    obtain ⟨code, rfl⟩ | ⟨hok, rfl⟩ := exec_phases hi he
    · rw [stopped_eq_finish (exec_next_idle he).1]
      exact workLegal_iff.2 ⟨h.finish _ _, .of_idle rfl⟩
    · exact runPhases_workLegal _ h (phasesReady_of_legal s (phasesLegal_phasesOf s.cfg hok))
  | false =>
    refine workLegal_iff.2 ⟨exec_immediate_inRange hi he h, ?_⟩
    obtain ⟨u, rc, res, rfl, -⟩ := exec_immediate hi he
    exact .of_idle rfl

/-- Settles O42: an operation in progress goes on from phases its state is ready for; one taken from the
host starts on operands its checks have passed. -/
theorem stepKeepsWorkLegal : Obligations.StepKeepsWorkLegal := by
  unfold Obligations.StepKeepsWorkLegal
  intro s t hs he
  obtain ⟨h, hseq⟩ := workLegal_iff.1 hs
  cases hq : s.seq with
  | running c now rest =>
    cases (step_running hq).symm.trans he
    exact runPhases_workLegal c (h.congr rfl rfl rfl rfl rfl rfl rfl) ((seqLegal_running hq).1 hseq)
  | idle =>
    cases hb : s.inbox with
    | nil =>
      cases (step_idle_none hq hb).symm.trans he
      exact hs
    | cons r rs =>
      have htaken : State.InRange { s with inbox := rs } := h.congr rfl rfl rfl rfl rfl rfl rfl
      cases hd : decode r with
      | ok i => exact exec_workLegal ((step_idle_ok hq hb hd).symm.trans he) htaken
      | error e =>
        cases (step_idle_error hq hb hd).symm.trans he
        exact workLegal_iff.2 ⟨htaken.finish _ _, .of_idle rfl⟩

end Sys2Proof.Machine

/-! Proofs of the memory family: what every step keeps, which bytes each command may change, and what an
erase, a program and an SRAM write store. -/

namespace Sys2Proof.Machine

open Sys2Proof

/-! ### What every step keeps -/

/-- Settles O43: each bus event keeps the memories canonical and in their bounds (`busStable_wf`), and a
step reaches the environment through bus events alone. -/
theorem stepKeepsMemoryCanonical : Obligations.StepKeepsMemoryCanonical :=
  fun _ _ h he => busStable_wf.step he h

@[simp] theorem memWrites_progress (s : State) (ws : List BusWrite) :
    (s.memWrites ws).progress = s.progress := by rw [memWrites_eq, afterWrites_progress]

@[simp] theorem readReset_progress (s : State) : s.readReset.progress = s.progress :=
  memWrites_progress ..

@[simp] theorem sendPage_progress (s : State) (cmd : Byte) (addr : Addr) (page : List Byte) :
    (s.sendPage cmd addr page).progress = s.progress := by
  rw [State.sendPage_eq, afterWrites_progress]

@[simp] theorem wake_progress (s : State) (xs : List WakeStep) :
    (s.wake xs).progress = s.progress := by
  induction xs generalizing s with
  | nil => rfl
  | cons x xs ih => exact (ih _).trans (by cases x <;> rfl)

@[simp] theorem establish_progress (s : State) : s.establish.progress = s.progress :=
  readReset_progress ..

@[simp] theorem readSegments_progress (s : State) (as : List Addr) :
    (s.readSegments as).2.progress = s.progress := by
  induction as generalizing s with
  | nil => rfl
  | cons a as ih => exact ih _

theorem wlLook_progress (s : State) (c : Chip) : s.progress <+: (s.wlLook c).2.progress := by
  unfold State.wlLook
  simp only
  split
  · exact List.prefix_rfl
  · exact List.prefix_append ..
  · exact List.prefix_rfl

/-- Each chunk that compares equal is notified. -/
theorem verifyChunks_progress (n : Nat) (rest : List Byte) (s : State) :
    s.progress <+: (State.verifyChunks n rest s).progress := by
  induction n generalizing rest s with
  | zero => exact List.prefix_rfl
  | succ n ih =>
    unfold State.verifyChunks
    split
    · exact List.prefix_rfl
    · simp only
      split
      · refine List.IsPrefix.trans ?_ (ih ..)
        exact List.prefix_append ..
      · exact List.prefix_rfl

theorem stable_progress (p : List Nat) : State.Stable fun s => p <+: s.progress where
  seq := fun _ _ h => h
  failOut := fun s c _ _ h => by cases c <;> simpa [State.failOut] using h

theorem mapReadBack_progress (s : State) (map : List Byte) :
    (s.mapReadBack map).progress = s.progress := by
  unfold State.mapReadBack
  simp only
  split <;> simp

/-- A phase only appends notifications. -/
theorem perform_progress {l : List Nat} (p : Phase) {s : State} (h : l <+: s.progress) :
    (p.perform s).Holds (fun t => l <+: t.progress) fun _ => True := by
  cases p with
  | unlockGlobal cmd => simpa [Phase.perform, Progress.Holds] using h
  | rawSeq bytes => simpa [Phase.perform, Progress.Holds] using h
  | page cmd addr data => simpa [Phase.perform, Progress.Holds] using h
  | wait addr =>
    show (s.waitTurn addr).Holds _ _
    unfold State.waitTurn
    simp only
    split
    · exact h
    · split
      · exact h
      · exact ⟨h, trivial⟩
  | wl turn rom1 rom2 =>
    refine wlRun_keeps (fun _ => trivial) ?_ ?_ _ turn s h
    · intro s' c h' _ _
      simpa [State.wlIssue] using h'
    · intro s' c h' _ _
      exact h'.trans (wlLook_progress s' c)
  | mapReadBack map => simpa [Phase.perform, Progress.Holds, mapReadBack_progress] using h
  | doneRom len =>
    show l <+: (s.romResult len).progress
    unfold State.romResult
    split <;> exact h
  | doneMap =>
    show l <+: s.mapResult.progress
    unfold State.mapResult
    split <;> exact h
  | waitStart | clearErr | orErr | wlInit | done | doneStatus | doneErr | doneCount => exact h

/-- The phases of an operation only append notifications. -/
theorem runPhases_progress (c : Bool) (phases : List Phase) {l : List Nat} {s : State}
    (h : l <+: s.progress) : l <+: (s.runPhases c phases).progress :=
  (runPhases_keeps (stable_progress l) (fun p _ _ h => perform_progress p h) c phases
    (fun _ _ => trivial) s h).1

/-- Of the operations without phases the verifier alone notifies. -/
theorem exec_immediate_progress {i : Instr} {s t : State} (hi : runsInPhases i = false)
    (he : exec i s = .next t) : s.progress <+: t.progress := by
  have hidle := exec_next_idle he
  cases hc : makesNoCheck i with
  | true =>
    cases i with
    | sessionOpen =>
      cases (exec_sessionOpen hidle).symm.trans he
      split
      · simp
      · split <;> simp
    | sessionClose =>
      cases (exec_sessionClose hidle).symm.trans he
      by_cases hs : s.sess = .awake <;> simp [hs]
    | _ => cases hc
  | false =>
    obtain ⟨-, ⟨code, rfl⟩ | ⟨hr, hw, hok⟩⟩ := exec_cases hc he
    · exact List.prefix_rfl
    cases i with
    | unlockAndGlobal cmd => cases (exec_unlockAndGlobal hr).symm.trans he; simp
    | unlockAndLocal addr cmd => cases (exec_unlockAndLocal hr).symm.trans he; simp
    | readReset => cases (exec_readReset hr).symm.trans he; simp
    | pageWrite addr page => cases (exec_pageWrite ⟨hr, hw rfl⟩ hok).symm.trans he; simp
    | statusStep c => cases (exec_statusStep hr).symm.trans he; simp
    | verifyRom buf =>
      cases (exec_verifyRom hr (of_decide_eq_true hok)).symm.trans he
      have hchunks := verifyChunks_progress (buf.length / vChunk + 1) buf { s with voff := 0 }
      unfold State.verifyResult
      split <;> exact hchunks
    | dirPresent => cases (exec_dirPresent hr).symm.trans he; simp
    | dirOpen => cases (exec_dirOpen hr).symm.trans he; simp
    | dirNext =>
      cases hd : s.dend with
      | true => cases (exec_dirNext_end hr hd).symm.trans he; simp
      | false =>
        cases (exec_dirNext_read hr hd rfl).symm.trans he
        split <;> exact List.prefix_rfl
    | wpRelease => cases (exec_wpRelease hr).symm.trans he; simp
    | wpAssert => cases (exec_wpAssert hr).symm.trans he; simp
    | sramWrite buf =>
      cases (exec_sramWrite ⟨hr, hw rfl⟩ (of_decide_eq_true hok)).symm.trans he
      simp
    | sramVerify buf =>
      cases (exec_sramVerify hr (of_decide_eq_true hok)).symm.trans he
      split <;> simp
    | sessionOpen => cases hc
    | sessionClose => cases hc
    | _ => cases hi

theorem exec_progress {i : Instr} {s t : State} (he : exec i s = .next t) :
    s.progress <+: t.progress := by
  cases hi : runsInPhases i with
  | true =>
    obtain ⟨code, rfl⟩ | ⟨-, rfl⟩ := exec_phases hi he
    · exact List.prefix_rfl
    · exact runPhases_progress _ _ List.prefix_rfl
  | false => exact exec_immediate_progress hi he

theorem step_progress {s t : State} (he : step s = .next t) : s.progress <+: t.progress := by
  cases hq : s.seq with
  | running c now rest =>
    cases (step_running hq).symm.trans he
    exact runPhases_progress c _ List.prefix_rfl
  | idle =>
    cases hb : s.inbox with
    | nil => cases (step_idle_none hq hb).symm.trans he; exact List.prefix_rfl
    | cons r rs =>
      cases hd : decode r with
      | ok i => exact exec_progress (s := { s with inbox := rs }) ((step_idle_ok hq hb hd).symm.trans he)
      | error e => cases (step_idle_error hq hb hd).symm.trans he; exact List.prefix_rfl

/-- While the parameters are well formed nothing stops the engine. -/
theorem step_total {s : State} (hw : s.cfg.wf = true) : ∃ t, step s = .next t := by
  cases hq : s.seq with
  | running c now rest => exact ⟨_, step_running hq⟩
  | idle =>
    cases hb : s.inbox with
    | nil => exact ⟨_, step_idle_none hq hb⟩
    | cons r rs =>
      cases hd : decode r with
      | ok i =>
        obtain ⟨body, hbody⟩ := exec_accept i
        exact ⟨_, (step_idle_ok hq hb hd).trans ((hbody _).trans (State.accept_idle ⟨hq, hw⟩))⟩
      | error e => exact ⟨_, step_idle_error hq hb hd⟩

/-- Settles O44: the trace and the parameters by the induction over bus events, the notifications by the
one over the phases. -/
theorem traceOnlyGrows : Obligations.TraceOnlyGrows :=
  ⟨fun s _ he => ⟨(busStable_trace s.trace).step he List.prefix_rfl, step_progress he,
    (busStable_cfg s.cfg).step he rfl⟩, fun _ => step_total⟩

end Sys2Proof.Machine


/-! Addresses of the flash window, as numbers. -/

namespace Sys2Proof.Machine

open Sys2Proof

theorem bankBase_toNat (addr : Addr) : (bankBase addr).toNat = addr.toNat / 65536 * 65536 := by
  have h : bankBase addr = (addr >>> 16) <<< 16 := by
    refine BitVec.eq_of_getLsbD_eq fun i hi => ?_
    interval_cases i <;> simp [bankBase]
  rw [h, BitVec.toNat_shiftLeft, BitVec.toNat_ushiftRight, Nat.shiftLeft_eq, Nat.shiftRight_eq_div_pow,
    Nat.mod_eq_of_lt (by have := addr.isLt; omega)]

theorem inFlash_iff {a : Nat} : inFlash a = true ↔ 0xC00000 ≤ a ∧ a < 0x1000000 := by
  simp [inFlash]

@[simp] theorem base_a_toNat : (base .a).toNat = 0xC00000 := rfl

@[simp] theorem base_b_toNat : (base .b).toNat = 0xE00000 := rfl

theorem base_toNat (c : Chip) : (base c).toNat = 0xC00000 ∨ (base c).toNat = 0xE00000 := by
  cases c
  · exact .inl rfl
  · exact .inr rfl

/-- The chip a bus address selects. -/
theorem chipOf_eq (addr : Addr) :
    chipOf addr = if addr.toNat / 0x200000 % 2 = 1 then .b else .a := by
  simp [chipOf, BitVec.getLsbD, Nat.testBit_eq_decide_div_mod_eq]

/-- An address of the flash window lies in the window of the chip it selects, and nowhere else. -/
theorem chipOf_window {addr : Addr} {c : Chip} :
    inFlash addr.toNat = true ∧ chipOf addr = c ↔
      (base c).toNat ≤ addr.toNat ∧ addr.toNat < (base c).toNat + half := by
  have := addr.isLt
  rw [inFlash_iff, chipOf_eq]
  cases c
  · simp only [base_a_toNat, half]; split <;> simp <;> omega
  · simp only [base_b_toNat, half]; split <;> simp <;> omega

/-- `n` bytes on from the base of a chip, short of the other chip. -/
theorem chipOf_base_add {c : Chip} {x : Addr} (h : x.toNat < half) :
    inFlash (base c + x).toNat = true ∧ chipOf (base c + x) = c := by
  have hb := base_toNat c
  have hx : (base c + x).toNat = (base c).toNat + x.toNat := by
    rw [BitVec.toNat_add]
    refine Nat.mod_eq_of_lt ?_
    simp only [half] at h
    omega
  rw [chipOf_window, hx]
  omega

/-- An offset of at most 21 bits is short of the other chip. -/
theorem setWidth_lt_half {w : Nat} (hw : w ≤ 21) (off : BitVec w) : (off.setWidth 24).toNat < half := by
  rw [BitVec.toNat_setWidth]
  calc off.toNat % 2 ^ 24 ≤ off.toNat := Nat.mod_le ..
    _ < 2 ^ w := off.isLt
    _ ≤ 2 ^ 21 := Nat.pow_le_pow_right (by decide) hw

/-- A bank base is the base of its own bank, and an offset of 16 bits stays in the bank. -/
theorem bankBase_add (addr : Addr) (off : BitVec 16) :
    bankBase (bankBase addr + off.setWidth 24) = bankBase addr := by
  have := addr.isLt
  have := off.isLt
  refine BitVec.eq_of_toNat_eq ?_
  rw [bankBase_toNat, BitVec.toNat_add, bankBase_toNat, BitVec.toNat_setWidth]
  omega

theorem bankBase_base (c : Chip) : bankBase (base c) = base c := by cases c <;> rfl

/-- A bank of a chip's window lies in it. -/
theorem chipOf_bankBase_add {addr : Addr} (h : inFlash addr.toNat = true) (off : BitVec 16) :
    inFlash (bankBase addr + off.setWidth 24).toNat = true ∧
      chipOf (bankBase addr + off.setWidth 24) = chipOf addr := by
  obtain ⟨hlo, hhi⟩ := chipOf_window.1 ⟨h, rfl⟩
  have := addr.isLt
  have := off.isLt
  have hx : (bankBase addr + off.setWidth 24).toNat = addr.toNat / 65536 * 65536 + off.toNat := by
    rw [BitVec.toNat_add, bankBase_toNat, BitVec.toNat_setWidth]
    omega
  rw [chipOf_window, hx]
  have hb := base_toNat (chipOf addr)
  simp only [half] at *
  omega

/-- A device register is outside the flash window. -/
theorem inFlash_device {addr : Addr} (h : addr = devReg0 ∨ addr = devReg1) :
    inFlash addr.toNat = false := by rcases h with rfl | rfl <;> rfl

theorem device_ne_flash {addr : Addr} (h : inFlash addr.toNat = true) :
    addr ≠ devReg0 ∧ addr ≠ devReg1 :=
  not_or.1 fun he => by rw [inFlash_device he] at h; cases h

end Sys2Proof.Machine


/-! Where what a chip has in flight, or awaits, may store: what a bus event adds to it, and the frame of a
bus event in those terms. -/

namespace Sys2Proof.Machine

open Sys2Proof

/-! ### What a chip may yet store -/

theorem erase_storesAt {c : Chip} {a : Nat} : ChipOp.erase.storesAt c a = true ↔
    (base c).toNat ≤ a ∧ a < (base c).toNat + half := by
  simp [ChipOp.storesAt]

theorem program_storesAt {c : Chip} {addr : Addr} {page : List Byte} {a : Nat} :
    (ChipOp.program addr page).storesAt c a = true ↔
      addr.toNat ≤ a ∧ a < addr.toNat + max pageSize page.length := by
  simp [ChipOp.storesAt]

/-- An operation of chip `c` stores at the bus addresses `bus` and the hidden offsets `hidden` alone. -/
structure ChipOp.Within (c : Chip) (bus : Nat → Prop) (hidden : Chip → Nat → Prop) (op : ChipOp) :
    Prop where
  bus : ∀ a, op.storesAt c a = true → bus a
  hidden : ∀ o, op.hiddenStoresAt o = true → hidden c o

/-- What chip `c` has in flight and what it awaits store there alone. -/
structure ChipState.Within (c : Chip) (bus : Nat → Prop) (hidden : Chip → Nat → Prop)
    (st : ChipState) : Prop where
  op : st.op.Within c bus hidden
  awaited : st.latch.awaited.Within c bus hidden

section
variable {bus : Nat → Prop} {hidden : Chip → Nat → Prop} {c : Chip}

theorem ChipOp.Within.none : ChipOp.Within c bus hidden .none := ⟨nofun, nofun⟩
theorem ChipOp.Within.showing : ChipOp.Within c bus hidden .showing := ⟨nofun, nofun⟩
theorem ChipOp.Within.hiding : ChipOp.Within c bus hidden .hiding := ⟨nofun, nofun⟩

theorem ChipState.Within.congr {st st' : ChipState} (h : st.Within c bus hidden) (hop : st'.op = st.op)
    (hlatch : st'.latch = st.latch) : st'.Within c bus hidden :=
  ⟨hop ▸ h.op, hlatch ▸ h.awaited⟩

/-- Nothing in flight and no block received. -/
theorem ChipState.Within.of_none {st : ChipState} (hop : st.op = .none)
    (hlatch : st.latch.awaited = .none) : st.Within c bus hidden :=
  ⟨hop ▸ .none, hlatch ▸ .none⟩

/-- `Within`, in the terms of the statements. -/
theorem chipWithin_iff {e : Env} : (e.chip.get c).Within c bus hidden ↔
    (∀ a, e.pendingAt c a = true → bus a) ∧ ∀ o, e.hiddenPendingAt c o = true → hidden c o := by
  simp only [Env.pendingAt, Env.hiddenPendingAt, Env.inFlightAt, Env.hiddenInFlightAt, Bool.or_eq_true]
  constructor
  · rintro ⟨hop, haw⟩
    exact ⟨fun a h => h.elim (hop.bus a) (haw.bus a), fun o h => h.elim (hop.hidden o) (haw.hidden o)⟩
  · rintro ⟨hb, hh⟩
    exact ⟨⟨fun a h => hb a (.inl h), fun o h => hh o (.inl h)⟩,
      ⟨fun a h => hb a (.inr h), fun o h => hh o (.inr h)⟩⟩

end

/-! ### What a write may begin -/

/-- A command byte starts an erase, at the first unlock offset of the chip, or nothing. -/
theorem hearCommand_start {c : Chip} {bank : Addr} {after : Armed} {cmd : Byte} {op : ChipOp}
    (h : hearCommand c bank after cmd = .start op) :
    bank = base c ∧ (op = .erase ∧ cmd = cmdErase2 ∨ op = .hiddenErase ∧ cmd = cmdHErase2) := by
  unfold hearCommand at h
  split at h
  · cases h
  cases after with
  | fresh =>
    simp only at h
    split at h
    · cases h
    · split at h <;> cases h
  | erase k =>
    simp only at h
    split at h
    · next hk => cases h; exact ⟨hk.2.2, .inl ⟨rfl, hk.2.1⟩⟩
    · split at h
      · next hk => cases h; exact ⟨hk.2.2, .inr ⟨rfl, hk.2.1⟩⟩
      · cases h
  | aborted => cases h

theorem hearRaw_start {cfg : Config} {c : Chip} {shown : Bool} {bytes : List Byte} {addr : Addr}
    {v : List Byte} {op : ChipOp} (h : hearRaw cfg c shown bytes addr v = .start op) :
    op = .showing ∨ op = .hiding := by
  unfold hearRaw at h
  simp only at h
  repeat' split at h
  all_goals cases h
  · exact .inl rfl
  · exact .inr rfl

/-- A write starts the program that was awaited, a show or a hide, or the erase whose last byte it is. -/
theorem hear_start {cfg : Config} {c : Chip} {shown : Bool} {l : Latch} {addr : Addr} {v : List Byte}
    {op : ChipOp} (h : hear cfg c shown l addr v = .start op) :
    op = l.awaited ∨ op = .showing ∨ op = .hiding ∨
      (addr = base c + cfg.unlockOff1.setWidth 24 ∧
        (op = .erase ∧ v = [cmdErase2] ∨ op = .hiddenErase ∧ v = [cmdHErase2])) := by
  unfold hear at h
  cases l with
  | idle | raw =>
    simp only at h
    split at h
    · cases h
    · exact .inr ((hearRaw_start h).imp_right .inl)
  | armed k => simp only at h; split at h <;> cases h
  | key1 bank after => simp only at h; repeat' split at h
                       all_goals cases h
  | key2 bank after =>
    simp only at h
    split at h
    · split at h
      · cases h
      · split at h
        · next ha =>
          obtain ⟨rfl, hop⟩ := hearCommand_start h
          exact .inr (.inr (.inr ⟨ha, by simpa using hop⟩))
        · cases h
    · cases h
  | program cmd bank => simp only at h; repeat' split at h
                        all_goals cases h
  | loaded cmd a page =>
    simp only at h
    split at h
    · cases h; exact .inl rfl
    · split at h <;> cases h

/-- What a chip goes on to has received no block, unless it was sent one. -/
def Heard.Unloaded : Heard → Prop
  | .wait l => l.awaited = .none
  | .cut l => l.awaited = .none
  | .drop l => l.awaited = .none
  | .start _ => True
  | .reset => True
  | .foreign => True

theorem hear_unloaded {cfg : Config} {c : Chip} {shown : Bool} {l : Latch} {addr : Addr}
    {v : List Byte} (hv : v.length ≠ pageSize) : (hear cfg c shown l addr v).Unloaded := by
  have hraw : ∀ bytes, (hearRaw cfg c shown bytes addr v).Unloaded := by
    intro bytes
    unfold hearRaw
    simp only
    repeat' split
    all_goals trivial
  have hcommand : ∀ bank after cmd, (hearCommand c bank after cmd).Unloaded := by
    intro bank after cmd
    unfold hearCommand
    split
    · trivial
    · cases after <;> simp only <;> repeat' split
      all_goals trivial
  unfold hear
  cases l with
  | idle | raw =>
    simp only
    split
    · rfl
    · exact hraw _
  | key2 bank after =>
    simp only
    split
    · split
      · rfl
      · split
        · exact hcommand ..
        · trivial
    · trivial
  | program cmd bank =>
    simp only
    split
    · rfl
    · split
      · next h => exact absurd (by simpa [pageOperandsOk] using (Bool.and_eq_true_iff.1 h.2.1).2) hv
      · trivial
  | armed | key1 | loaded =>
    simp only
    repeat' split
    all_goals trivial

end Sys2Proof.Machine


/-! What one bus event leaves of what a chip has in flight or awaits, and its frame. -/

namespace Sys2Proof.Machine

open Sys2Proof

/-- An operation that ends is no longer in flight, and the chip keeps its place in a command. -/
theorem Env.complete_get_self (e : Env) (c : Chip) (err : Bool) :
    ((e.complete c err).chip.get c).op = .none ∧
      ((e.complete c err).chip.get c).latch = (e.chip.get c).latch := by
  unfold Env.complete
  simp only
  split
  · next hop => exact ⟨hop, rfl⟩
  · unfold Env.eraseArray; simp only; split <;> simp [Env.setChip]
  · simp [Env.eraseHidden]
  · simp [Env.programPage, Env.setChip]
  · simp [Env.programHidden]
  · simp
  · simp

theorem Env.complete_none {e : Env} {c : Chip} (h : (e.chip.get c).op = .none) (err : Bool) :
    e.complete c err = e := by
  unfold Env.complete
  simp only [h]

section
variable {cfg : Config} {e : Env} {bus : Nat → Prop} {hidden : Chip → Nat → Prop} {c : Chip}

/-- After a write to it that is no block, a chip has no block. -/
theorem Env.chipWrite_awaited {addr : Addr} {v : List Byte} (hv : v.length ≠ pageSize) :
    ((e.chipWrite cfg c addr v).chip.get c).latch.awaited = .none := by
  have hun := hear_unloaded (cfg := cfg) (c := c) (shown := (e.chip.get c).mode = .hiddenShown)
    (l := (e.chip.get c).latch) (addr := addr) hv
  obtain hw | ⟨l, m, d, hl, hw⟩ | ⟨l, d, hl, hw⟩ | ⟨op, d, -, hw⟩ | ⟨-, hw⟩ :=
    Env.chipWrite_cases cfg e c addr v <;> rw [hw]
  · simp [Env.lose, Latch.awaited]
  · rw [Env.setChip_get_self]
    rcases hl with hl | hl <;> rw [hl] at hun <;> exact hun
  · rw [hl] at hun
    rw [(Env.dropBlock_op e c l d).2.1]
    exact hun
  · rw [Env.begin, Env.setChip_get_self]
    rfl
  · rw [Env.setChip_get_self]
    rfl

/-- … and in flight what it had, unless the write starts an operation. -/
theorem Env.chipWrite_op {addr : Addr} {v : List Byte} {op : ChipOp}
    (h : ((e.chipWrite cfg c addr v).chip.get c).op = op) :
    op = .none ∨ op = (e.chip.get c).op ∨
      hear cfg c ((e.chip.get c).mode = .hiddenShown) (e.chip.get c).latch addr v = .start op := by
  obtain hw | ⟨l, m, d, -, hw⟩ | ⟨l, d, -, hw⟩ | ⟨op', d, ho, hw⟩ | ⟨-, hw⟩ :=
    Env.chipWrite_cases cfg e c addr v <;> rw [hw] at h <;> subst h
  · exact .inl (by simp [Env.lose])
  · exact .inr (.inl (by simp))
  · exact .inr (.inl (Env.dropBlock_op e c l d).1)
  · exact .inr (.inr (by rw [ho]; simp [Env.begin]))
  · exact .inr (.inl (by simp))

/-- The operations a write may start are within bounds: no block is sent, and the last byte of an erase
at the first unlock offset of a chip only where that erase is. -/
structure StartsWithin (cfg : Config) (bus : Nat → Prop) (hidden : Chip → Nat → Prop) (w : BusWrite) :
    Prop where
  length : w.2.length ≠ pageSize
  erase : ∀ c, w.1 = base c + cfg.unlockOff1.setWidth 24 → w.2 = [cmdErase2] →
    ChipOp.erase.Within c bus hidden
  hiddenErase : ∀ c, w.1 = base c + cfg.unlockOff1.setWidth 24 → w.2 = [cmdHErase2] →
    ChipOp.hiddenErase.Within c bus hidden

/-- A byte that is not the last of an erase. -/
theorem StartsWithin.of_byte {addr : Addr} {b : Byte} (h : b ≠ cmdErase2) (hh : b ≠ cmdHErase2) :
    StartsWithin cfg bus hidden (addr, [b]) :=
  ⟨by simp [pageSize], fun _ _ hb => absurd (List.cons.inj hb).1 h,
    fun _ _ hb => absurd (List.cons.inj hb).1 hh⟩

/-- A byte sent elsewhere in the bank. -/
theorem StartsWithin.of_addr {addr : Addr} {b : Byte}
    (h : ∀ c, addr ≠ base c + cfg.unlockOff1.setWidth 24) : StartsWithin cfg bus hidden (addr, [b]) :=
  ⟨by simp [pageSize], fun c hc => absurd hc (h c), fun c hc => absurd hc (h c)⟩

/-- A write outside the flash window does not reach the chips. -/
theorem Env.write_outside_get {addr : Addr} (hin : inFlash addr.toNat = false) (v : List Byte) :
    ((e.write cfg addr v).chip.get c).op = (e.chip.get c).op ∧
      ((e.write cfg addr v).chip.get c).latch = (e.chip.get c).latch := by
  have hdev : ∀ b, (((e.modeWrite cfg addr v).devWrite cfg addr b).chip.get c).op = (e.chip.get c).op ∧
      (((e.modeWrite cfg addr v).devWrite cfg addr b).chip.get c).latch = (e.chip.get c).latch := by
    intro b
    rw [← Env.modeWrite_chip cfg e addr v]
    unfold Env.devWrite
    split
    · repeat' split
      all_goals cases c <;> exact ⟨rfl, rfl⟩
    all_goals exact ⟨rfl, rfl⟩
  unfold Env.write
  simp only [hin]
  rw [if_neg (by simp)]
  split
  · split
    · exact hdev _
    · simp [Env.plainWrite_chip]
  · simp [Env.plainWrite_chip]

theorem Env.write_flash {addr : Addr} (hin : inFlash addr.toNat = true) (v : List Byte) :
    e.write cfg addr v = (e.modeWrite cfg addr v).chipWrite cfg (chipOf addr) addr v := if_pos hin

/-- After a write that is no block, a chip has no block but the one it had. -/
theorem Env.write_awaited {w : BusWrite} (hv : w.2.length ≠ pageSize) :
    ((e.write cfg w.1 w.2).chip.get c).latch.awaited = .none ∨
      ((e.write cfg w.1 w.2).chip.get c).latch.awaited = (e.chip.get c).latch.awaited := by
  obtain ⟨addr, v⟩ := w
  cases hin : inFlash addr.toNat with
  | false => exact .inr (by rw [(Env.write_outside_get hin v).2])
  | true =>
    rw [Env.write_flash hin]
    by_cases hc : c = chipOf addr
    · subst hc
      exact .inl (Env.chipWrite_awaited hv)
    · exact .inr (by rw [Env.chipWrite_get_of_ne _ _ _ _ hc, Env.modeWrite_chip])

/-- A write leaves each chip what it had, but for what it may start. -/
theorem Env.write_within {w : BusWrite} (h : (e.chip.get c).Within c bus hidden)
    (hw : StartsWithin cfg bus hidden w) :
    ((e.write cfg w.1 w.2).chip.get c).Within c bus hidden := by
  refine ⟨?_, ?_⟩
  · obtain ⟨addr, v⟩ := w
    cases hin : inFlash addr.toNat with
    | false =>
      rw [(Env.write_outside_get hin v).1]
      exact h.op
    | true =>
      rw [Env.write_flash hin]
      by_cases hc : c = chipOf addr
      · subst hc
        have hstart := Env.chipWrite_op (cfg := cfg) (e := e.modeWrite cfg addr v) (c := chipOf addr)
          (addr := addr) (v := v) rfl
        rw [Env.modeWrite_chip] at hstart
        generalize ((e.modeWrite cfg addr v).chipWrite cfg (chipOf addr) addr v |>.chip.get
          (chipOf addr)).op = op at hstart ⊢
        obtain rfl | rfl | hstart := hstart
        · exact .none
        · exact h.op
        obtain rfl | rfl | rfl | ⟨haddr, ⟨rfl, hv⟩ | ⟨rfl, hv⟩⟩ := hear_start hstart
        · exact h.awaited
        · exact .showing
        · exact .hiding
        · exact hw.erase _ haddr hv
        · exact hw.hiddenErase _ haddr hv
      · rw [Env.chipWrite_get_of_ne _ _ _ _ hc, Env.modeWrite_chip]
        exact h.op
  · obtain ha | ha := Env.write_awaited (cfg := cfg) (e := e) (c := c) hw.length <;> rw [ha]
    · exact .none
    · exact h.awaited

/-- The frame of a write: in the flash window, what was pending on its chip; outside, the bytes written. -/
theorem Env.write_frame {addr : Addr} {v : List Byte}
    (hin : inFlash addr.toNat = true → (e.chip.get (chipOf addr)).Within (chipOf addr) bus hidden)
    (hout : inFlash addr.toNat = false → ∀ a, addr.toNat ≤ a → a < addr.toNat + v.length → bus a) :
    e.SameOutside (e.write cfg addr v) bus hidden := by
  refine (Env.write_same cfg e addr v).mono (fun a ha => ?_) fun d o hd => ?_
  · cases hf : inFlash addr.toNat with
    | true => exact (chipWithin_iff.1 (hin hf)).1 a (by simpa [hf] using ha)
    | false =>
      simp only [hf] at ha
      exact hout hf a ha.1 ha.2
  · obtain ⟨hf, rfl, hd⟩ := hd
    exact (chipWithin_iff.1 (hin hf)).2 o hd

/-- A write to a device register stores nothing (R59). -/
theorem Env.write_device_same {addr : Addr} (b : Byte) (h : addr = devReg0 ∨ addr = devReg1) :
    e.SameOutside (e.write cfg addr [b]) bus hidden := by
  have hw : e.write cfg addr [b] = (e.modeWrite cfg addr [b]).devWrite cfg addr b := by
    unfold Env.write
    simp [inFlash_device h, h]
  rw [hw]
  refine .ofMem (fun d => ?_) (fun d => ?_) (fun d => ?_) fun a _ => by simp
  · rw [(Env.devWrite_contents ..).1, Env.modeWrite_chip]
  · rw [(Env.devWrite_contents ..).2.1, Env.modeWrite_chip]
  · rw [(Env.devWrite_contents ..).2.2, Env.modeWrite_chip]

/-- A read leaves a chip its place in a command, and what it had in flight unless it sees it complete. -/
theorem Env.read_get (cfg : Config) (e : Env) (addr : Addr) (n : Nat) (c : Chip) :
    (((e.read cfg addr n).2.chip.get c).op = (e.chip.get c).op ∨
      ((e.read cfg addr n).2.chip.get c).op = .none) ∧
      ((e.read cfg addr n).2.chip.get c).latch = (e.chip.get c).latch := by
  have hkeep : ∀ e' : Env, e'.chip = e.chip →
      ((e'.chip.get c).op = (e.chip.get c).op ∨ (e'.chip.get c).op = .none) ∧
        (e'.chip.get c).latch = (e.chip.get c).latch := fun e' h => by simp [h]
  unfold Env.read
  split
  · simp only
    unfold Env.readOne
    split
    · exact hkeep _ (Env.readDevice_keeps ..).2
    split
    · exact hkeep _ (Env.readDevice1_keeps ..).2
    split
    · obtain hr | hr | hr := Env.readStatus_cases e (chipOf addr) <;> rw [hr]
      · exact hkeep _ e.draw_chip
      · by_cases hc : c = chipOf addr
        · subst hc
          obtain ⟨hop, hlatch⟩ := Env.complete_get_self
            (e.draw.2.setChip (chipOf addr) { e.chip.get (chipOf addr) with failed := isError e.draw.1 })
            (chipOf addr) (isError e.draw.1)
          exact ⟨.inr hop, by simpa using hlatch⟩
        · rw [Env.complete_get_of_ne _ _ hc, Env.setChip_get_of_ne _ _ hc]
          exact hkeep _ e.draw_chip
      · exact hkeep _ e.draw_chip
    · exact hkeep _ (Env.byteAt_keeps ..).2.1
  · exact hkeep _ (Env.bytesFrom_keeps ..).2.1

theorem Env.read_within (addr : Addr) (n : Nat) (h : (e.chip.get c).Within c bus hidden) :
    ((e.read cfg addr n).2.chip.get c).Within c bus hidden := by
  obtain ⟨hop, hlatch⟩ := Env.read_get cfg e addr n c
  refine ⟨?_, hlatch ▸ h.awaited⟩
  rcases hop with hop | hop
  · exact hop ▸ h.op
  · exact hop ▸ .none

/-- The frame of a read: what was in flight on its chip. -/
theorem Env.read_frame {addr : Addr} (n : Nat)
    (h : (e.chip.get (chipOf addr)).op.Within (chipOf addr) bus hidden) :
    e.SameOutside (e.read cfg addr n).2 bus hidden :=
  (Env.read_same cfg e addr n).mono (fun a ha => h.bus a ha.2) fun _ o hd =>
    hd.2.1 ▸ h.hidden o (hd.2.1 ▸ hd.2.2)

/-! ### Writes in order -/

/-- Writes leave each chip what it had, but for what they may start. -/
theorem Env.after_within {ws : List BusWrite} (hw : ∀ w ∈ ws, StartsWithin cfg bus hidden w)
    (h : (e.chip.get c).Within c bus hidden) :
    ((e.after cfg ws).chip.get c).Within c bus hidden := by
  induction ws generalizing e with
  | nil => exact h
  | cons w ws ih =>
    exact ih (fun x hx => hw x (List.mem_cons_of_mem _ hx))
      (Env.write_within h (hw w (List.mem_cons_self ..)))

/-- Writes that are no block leave a chip no block but the one it had. -/
theorem Env.after_awaited {ws : List BusWrite} (hv : ∀ w ∈ ws, w.2.length ≠ pageSize) :
    ((e.after cfg ws).chip.get c).latch.awaited = .none ∨
      ((e.after cfg ws).chip.get c).latch.awaited = (e.chip.get c).latch.awaited := by
  induction ws generalizing e with
  | nil => exact .inr rfl
  | cons w ws ih =>
    have h1 := Env.write_awaited (cfg := cfg) (e := e) (c := c) (hv w (List.mem_cons_self ..))
    exact (ih fun x hx => hv x (List.mem_cons_of_mem _ hx)).elim .inl fun h => h.symm ▸ h1

/-- The frame of writes in the flash window: what the chips have pending before each. -/
theorem Env.after_frame {ws : List BusWrite} (hin : ∀ w ∈ ws, inFlash w.1.toNat = true)
    (h : ∀ k c, ((e.after cfg (ws.take k)).chip.get c).Within c bus hidden) :
    e.SameOutside (e.after cfg ws) bus hidden := by
  induction ws generalizing e with
  | nil => exact .refl ..
  | cons w ws ih =>
    have hw := hin w (List.mem_cons_self ..)
    have h1 : e.SameOutside (e.write cfg w.1 w.2) bus hidden :=
      Env.write_frame (fun _ => h 0 _) fun hf => absurd (hw.symm.trans hf) (by decide)
    exact h1.trans (ih (fun x hx => hin x (List.mem_cons_of_mem _ hx)) fun k => h (k + 1))

/-- … and none but those before, if they start nothing beyond. -/
theorem Env.after_frame_of_within {ws : List BusWrite} (hin : ∀ w ∈ ws, inFlash w.1.toNat = true)
    (hw : ∀ w ∈ ws, StartsWithin cfg bus hidden w)
    (h : ∀ c, (e.chip.get c).Within c bus hidden) : e.SameOutside (e.after cfg ws) bus hidden :=
  Env.after_frame hin fun _ c => Env.after_within (fun w hk => hw w (List.mem_of_mem_take hk)) (h c)

end

end Sys2Proof.Machine


/-! The frames of the commands: those that store nothing, those that wait for both chips. -/

namespace Sys2Proof.Machine

open Sys2Proof

/-! ### The writes of a format -/

/-- One byte at one offset, to chip A and then to chip B (R92). -/
def toBoth (off : Addr) (b : Byte) : List BusWrite := [(base .a + off, [b]), (base .b + off, [b])]

theorem globalUnlock_eq (cfg : Config) (cmd : Byte) :
    globalUnlock cfg cmd = toBoth (cfg.unlockOff1.setWidth 24) key1 ++
      (toBoth (cfg.unlockOff2.setWidth 24) key2 ++ toBoth (cfg.unlockOff1.setWidth 24) cmd) := rfl

theorem toBoth_inFlash {off : Addr} (h : off.toNat < half) (b : Byte) :
    ∀ w ∈ toBoth off b, inFlash w.1.toNat = true :=
  List.forall_mem_cons.2 ⟨(chipOf_base_add h).1, List.forall_mem_cons.2 ⟨(chipOf_base_add h).1, nofun⟩⟩

theorem globalUnlock_inFlash (cfg : Config) (cmd : Byte) :
    ∀ w ∈ globalUnlock cfg cmd, inFlash w.1.toNat = true := by
  have h : ∀ (off : BitVec 16) b, ∀ w ∈ toBoth (off.setWidth 24) b, inFlash w.1.toNat = true :=
    fun off => toBoth_inFlash (setWidth_lt_half (by decide) off)
  rw [globalUnlock_eq]
  exact List.forall_mem_append.2 ⟨h _ _, List.forall_mem_append.2 ⟨h _ _, h _ _⟩⟩

theorem rawEvents_eq (cfg : Config) (bytes : List Byte) :
    rawEvents cfg bytes = bytes.flatMap (toBoth (cfg.hiddenCmdOff.setWidth 24)) := rfl

theorem rawEvents_inFlash (cfg : Config) (bytes : List Byte) :
    ∀ w ∈ rawEvents cfg bytes, inFlash w.1.toNat = true := by
  intro w hw
  rw [rawEvents_eq] at hw
  obtain ⟨b, -, hw⟩ := List.mem_flatMap.1 hw
  exact toBoth_inFlash (setWidth_lt_half (by decide) _) b w hw

section
variable {cfg : Config} {bus : Nat → Prop} {hidden : Chip → Nat → Prop}

theorem toBoth_startsWithin {off : Addr} {b : Byte}
    (h : ∀ addr, StartsWithin cfg bus hidden (addr, [b])) :
    ∀ w ∈ toBoth off b, StartsWithin cfg bus hidden w :=
  List.forall_mem_cons.2 ⟨h _, List.forall_mem_cons.2 ⟨h _, nofun⟩⟩

/-- A global UNLOCK3, of which only the command byte may start anything. -/
theorem globalUnlock_startsWithin {cmd : Byte} (h : ∀ addr, StartsWithin cfg bus hidden (addr, [cmd])) :
    ∀ w ∈ globalUnlock cfg cmd, StartsWithin cfg bus hidden w := by
  rw [globalUnlock_eq]
  exact List.forall_mem_append.2 ⟨toBoth_startsWithin fun _ => .of_byte (by decide) (by decide),
    List.forall_mem_append.2 ⟨toBoth_startsWithin fun _ => .of_byte (by decide) (by decide),
      toBoth_startsWithin h⟩⟩

/-- A show or hide sequence that is not sent where an unlock key would be. -/
theorem rawEvents_startsWithin (h : cfg.hiddenCmdOff.setWidth 16 ≠ cfg.unlockOff1)
    (bytes : List Byte) : ∀ w ∈ rawEvents cfg bytes, StartsWithin cfg bus hidden w := by
  have haddr : ∀ c d : Chip,
      base c + cfg.hiddenCmdOff.setWidth 24 ≠ base d + cfg.unlockOff1.setWidth 24 := by
    intro c d he
    have hlow := congrArg (BitVec.setWidth 16) he
    have hbase : ∀ c, (base c).setWidth 16 = 0#16 := fun c => by cases c <;> rfl
    simp only [BitVec.setWidth_add _ _ (show 16 ≤ 24 by decide), hbase, BitVec.zero_add] at hlow
    exact h (by simpa using hlow)
  intro w hw
  rw [rawEvents_eq] at hw
  obtain ⟨b, -, hw⟩ := List.mem_flatMap.1 hw
  simp only [toBoth, List.mem_cons, List.not_mem_nil, or_false] at hw
  rcases hw with rfl | rfl
  · exact .of_addr (haddr .a)
  · exact .of_addr (haddr .b)

end

/-! ### The commands that store nothing -/

/-- No byte has changed outside, and nothing a chip has in flight or awaits would store there. -/
structure Env.Confined (e e' : Env) (bus : Nat → Prop) (hidden : Chip → Nat → Prop) : Prop where
  same : e.SameOutside e' bus hidden
  within : ∀ c, (e'.chip.get c).Within c bus hidden

section
variable {cfg : Config} {e e' : Env} {bus : Nat → Prop} {hidden : Chip → Nat → Prop}

theorem Env.Confined.refl (h : ∀ c, (e.chip.get c).Within c bus hidden) :
    e.Confined e bus hidden := ⟨.refl .., h⟩

theorem Env.Confined.read (h : e.Confined e' bus hidden) (addr : Addr) (n : Nat) :
    e.Confined (e'.read cfg addr n).2 bus hidden :=
  ⟨h.same.trans (Env.read_frame n (h.within _).op), fun c => Env.read_within addr n (h.within c)⟩

theorem Env.Confined.writes (h : e.Confined e' bus hidden) {ws : List BusWrite}
    (hin : ∀ w ∈ ws, inFlash w.1.toNat = true) (hw : ∀ w ∈ ws, StartsWithin cfg bus hidden w) :
    e.Confined (e'.after cfg ws) bus hidden :=
  ⟨h.same.trans (Env.after_frame_of_within hin hw h.within), fun c => Env.after_within hw (h.within c)⟩

/-- A byte that ends no erase, to both chips. -/
theorem Env.Confined.toBoth (h : e.Confined e' bus hidden) (off : BitVec 16) {b : Byte}
    (hb : b ≠ cmdErase2) (hb' : b ≠ cmdHErase2) :
    e.Confined (e'.after cfg (toBoth (off.setWidth 24) b)) bus hidden :=
  h.writes (toBoth_inFlash (setWidth_lt_half (by decide) off) b)
    (toBoth_startsWithin fun _ => .of_byte hb hb')

theorem Env.Confined.readReset (h : e.Confined e' bus hidden) :
    e.Confined (e'.after cfg (globalUnlock cfg 0xF0#8)) bus hidden :=
  h.writes (globalUnlock_inFlash _ _) (globalUnlock_startsWithin fun _ => .of_byte (by decide) (by decide))

end

/-- What was pending before, and nothing else. -/
theorem Env.confined_pending (e : Env) :
    e.Confined e (fun a => ∃ c, e.pendingAt c a = true) (fun c o => e.hiddenPendingAt c o = true) :=
  .refl fun c => chipWithin_iff.2 ⟨fun _ h => ⟨c, h⟩, fun _ h => h⟩

/-- A command byte may begin an erase, but the chip it reaches is sent nothing more: of a global UNLOCK3,
with any command byte, no chip stores but what it had pending. -/
theorem globalUnlock_frame (cfg : Config) (e : Env) (cmd : Byte) :
    e.SameOutside (e.after cfg (globalUnlock cfg cmd)) (fun a => ∃ c, e.pendingAt c a = true)
      (fun c o => e.hiddenPendingAt c o = true) := by
  have hkeys := (e.confined_pending.toBoth (cfg := cfg) cfg.unlockOff1 (b := key1) (by decide)
    (by decide)).toBoth (cfg := cfg) cfg.unlockOff2 (b := key2) (by decide) (by decide)
  rw [globalUnlock_eq, Env.after_append, Env.after_append]
  generalize (e.after cfg _).after cfg _ = e1 at hkeys ⊢
  have hbase : ∀ c, inFlash (base c + cfg.unlockOff1.setWidth 24).toNat = true ∧
      chipOf (base c + cfg.unlockOff1.setWidth 24) = c :=
    fun c => chipOf_base_add (setWidth_lt_half (by decide) _)
  have hcmd : ∀ {e2 : Env} (c : Chip), (e2.chip.get c).Within c _ _ →
      e2.SameOutside (e2.write cfg (base c + cfg.unlockOff1.setWidth 24) [cmd])
        (fun a => ∃ c, e.pendingAt c a = true) (fun c o => e.hiddenPendingAt c o = true) :=
    fun c h => Env.write_frame (fun _ => by rw [(hbase c).2]; exact h)
      fun hf => absurd ((hbase c).1.symm.trans hf) (by decide)
  have hother : ((e1.write cfg (base .a + cfg.unlockOff1.setWidth 24) [cmd]).chip.get .b) =
      e1.chip.get .b := by
    rw [Env.write_flash (hbase .a).1, (hbase .a).2, Env.chipWrite_get_of_ne _ _ _ _ (by decide),
      Env.modeWrite_chip]
  exact (hkeys.same.trans (hcmd .a (hkeys.within .a))).trans (hcmd .b (hother ▸ hkeys.within .b))

/-- An operation without phases has ended when it is issued. -/
theorem runs_immediate {i : Instr} {s t : State} {n : Nat} (hi : runsInPhases i = false)
    (hr : s.Runs i n t) : exec i s = .next t := by
  obtain ⟨t0, he, rfl⟩ := hr
  obtain ⟨u, rc, res, rfl, -⟩ := exec_immediate hi he
  rw [drive_idle n (finish_seq ..), he]

/-- A write-protect command is one write to a device register. -/
theorem wpCommands_same {s t : State} {i : Instr} (hi : i = .wpRelease ∨ i = .wpAssert)
    (he : exec i s = .next t) (bus : Nat → Prop) (hidden : Chip → Nat → Prop) :
    s.env.SameOutside t.env bus hidden := by
  have hc : makesNoCheck i = false := by rcases hi with rfl | rfl <;> rfl
  obtain ⟨-, ⟨code, rfl⟩ | ⟨hr, -, -⟩⟩ := exec_cases hc he
  · exact .refl ..
  rcases hi with rfl | rfl
  · cases (exec_wpRelease hr).symm.trans he
    exact Env.write_device_same wpRel (.inl rfl)
  · cases (exec_wpAssert hr).symm.trans he
    exact Env.write_device_same wpSet (.inl rfl)

/-- A global unlock, and what may follow it in SESSION_CLOSE, disturb what was pending alone. -/
theorem unlockCommands_frame {s t : State} {i : Instr}
    (hi : i = .readReset ∨ i = .sessionClose ∨ ∃ cmd, i = .unlockAndGlobal cmd)
    (he : exec i s = .next t) :
    s.env.SameOutside t.env (fun a => ∃ c, s.env.pendingAt c a = true)
      (fun c o => s.env.hiddenPendingAt c o = true) := by
  rcases hi with rfl | rfl | ⟨cmd, rfl⟩
  · obtain ⟨-, ⟨code, rfl⟩ | ⟨hr, -, -⟩⟩ := exec_cases rfl he
    · exact .refl ..
    cases (exec_readReset hr).symm.trans he
    simp only [State.readReset_eq]
    exact globalUnlock_frame ..
  · cases (exec_sessionClose (exec_next_idle he)).symm.trans he
    split
    · rw [State.readReset_eq]
      exact (globalUnlock_frame ..).trans (Env.write_device_same wpSet (.inl rfl))
    · exact .refl ..
  · obtain ⟨-, ⟨code, rfl⟩ | ⟨hr, -, -⟩⟩ := exec_cases rfl he
    · exact .refl ..
    cases (exec_unlockAndGlobal hr).symm.trans he
    simp only [memWrites_eq, unlockGlobalWrites_eq]
    exact globalUnlock_frame ..

/-- Settles O48: a device register stores nothing, and a global unlock starts at most what no later write
of the command disturbs. -/
theorem commandsStoreNothing : Obligations.CommandsStoreNothing := by
  unfold Obligations.CommandsStoreNothing
  refine ⟨fun s i n t hi hr => ?_, fun s i n t hi hr => ?_⟩
  · cases i with
    | wpRelease => exact wpCommands_same (.inl rfl) (runs_immediate rfl hr) _ _
    | wpAssert => exact wpCommands_same (.inr rfl) (runs_immediate rfl hr) _ _
    | _ => exact hi.elim
  · cases i with
    | readReset => exact unlockCommands_frame (.inl rfl) (runs_immediate rfl hr)
    | sessionClose => exact unlockCommands_frame (.inr (.inl rfl)) (runs_immediate rfl hr)
    | unlockAndGlobal cmd =>
      exact unlockCommands_frame (.inr (.inr ⟨cmd, rfl⟩)) (runs_immediate rfl hr)
    | _ => exact hi.elim

end Sys2Proof.Machine


/-! The frame of the commands that wait for both chips. -/

namespace Sys2Proof.Machine

open Sys2Proof

/-! ### The phases that only read, after the writes of the command -/

/-- What such a command does after its waits. -/
def lastPhase : Instr → Phase
  | .verifyMap map => .mapReadBack map
  | _ => .done

theorem runPhases_unlockGlobal (s : State) (c : Bool) (cmd : Byte) (rest : List Phase) :
    s.runPhases c (.unlockGlobal cmd :: rest) =
      (s.afterWrites (globalUnlock s.cfg cmd)).runPhases c rest :=
  congrArg (State.runPhases c rest) (memWrites_eq ..)

theorem runPhases_rawSeq (s : State) (c : Bool) (bytes : List Byte) (rest : List Phase) :
    s.runPhases c (.rawSeq bytes :: rest) =
      (s.afterWrites (rawEvents s.cfg bytes)).runPhases c rest :=
  congrArg (State.runPhases c rest) ((memWrites_eq ..).trans (by rw [rawWrites_eq]))

/-- The command sends its writes, and then waits. -/
theorem runPhases_phasesOf {i : Instr} (hi : waitsFirst i = true) (hw : writesStreams i = false)
    (s : State) (c : Bool) : s.runPhases c (phasesOf s.cfg i) =
      (s.afterWrites (globalWrites s.cfg i)).runPhases c (waitBoth ++ [lastPhase i]) := by
  have herase : ∀ cmd1 cmd2 rest, s.runPhases c (.unlockGlobal cmd1 :: .unlockGlobal cmd2 :: rest) =
      (s.afterWrites (globalUnlock s.cfg cmd1 ++ globalUnlock s.cfg cmd2)).runPhases c rest := by
    intro cmd1 cmd2 rest
    rw [runPhases_unlockGlobal, runPhases_unlockGlobal, afterWrites_cfg, State.afterWrites_append]
  cases i with
  | showHidden => exact runPhases_rawSeq ..
  | hide => exact runPhases_rawSeq ..
  | verifyMap map => exact runPhases_rawSeq ..
  | chipErase => exact herase ..
  | hiddenErase => exact herase ..
  | writeRom buf => cases hw
  | _ => cases hi

/-- A phase that only reads, or ends the operation. -/
def Phase.looks : Phase → Bool
  | .waitStart => true
  | .wait _ => true
  | .mapReadBack _ => true
  | .done => true
  | _ => false

section
variable {e : Env} {bus : Nat → Prop} {hidden : Chip → Nat → Prop}

theorem Env.Confined.readReset_state {s : State} (h : e.Confined s.env bus hidden) :
    e.Confined s.readReset.env bus hidden := by
  rw [State.readReset_eq]
  exact h.readReset

theorem stable_confined : State.Stable fun s => e.Confined s.env bus hidden where
  seq := fun _ _ h => h
  failOut := fun s c _ _ h => by
    cases c
    · exact h
    · exact h.readReset_state

/-- Such a phase sees at most complete what was in flight, and its `READ_RESET` disturbs it. -/
theorem looks_confined (p : Phase) (s : State) (hp : p.looks = true)
    (h : e.Confined s.env bus hidden) :
    (p.perform s).Holds (fun t => e.Confined t.env bus hidden) fun p => p.looks = true := by
  cases p with
  | waitStart => exact h
  | done => exact h
  | wait addr =>
    have hpoll : e.Confined (s.poll addr).2.env bus hidden := h.read addr 1
    show (s.waitTurn addr).Holds _ _
    unfold State.waitTurn
    simp only
    split
    · exact hpoll
    · split
      · exact hpoll
      · exact ⟨hpoll, rfl⟩
  | mapReadBack map =>
    have hread : e.Confined
        ((s.memRead (hiddenBase .a) hidRead).2.memRead (hiddenBase .b) hidRead).2.env bus hidden := by
      rw [memRead_env, memRead_env]
      exact (h.read _ _).read _ _
    have hreset := hread.readReset_state
    show e.Confined (s.mapReadBack map).env bus hidden
    unfold State.mapReadBack
    simp only
    split <;> exact hreset
  | _ => cases hp

end

theorem globalWrites_inFlash (cfg : Config) (i : Instr) :
    ∀ w ∈ globalWrites cfg i, inFlash w.1.toNat = true := by
  have herase : ∀ cmd1 cmd2, ∀ w ∈ globalUnlock cfg cmd1 ++ globalUnlock cfg cmd2,
      inFlash w.1.toNat = true :=
    fun _ _ => List.forall_mem_append.2 ⟨globalUnlock_inFlash _ _, globalUnlock_inFlash _ _⟩
  cases i with
  | showHidden => exact rawEvents_inFlash _ _
  | hide => exact rawEvents_inFlash _ _
  | verifyMap map => exact rawEvents_inFlash _ _
  | chipErase => exact herase _ _
  | hiddenErase => exact herase _ _
  | writeRom buf => exact herase _ _
  | _ => exact nofun

/-- Each write of these commands is one byte. -/
theorem globalWrites_length (cfg : Config) (i : Instr) :
    ∀ w ∈ globalWrites cfg i, w.2.length = 1 := by
  have hraw : ∀ bytes, ∀ w ∈ rawEvents cfg bytes, w.2.length = 1 := by
    intro bytes w hw
    obtain ⟨b, -, hw⟩ := List.mem_flatMap.1 hw
    simp only [List.mem_cons, List.not_mem_nil, or_false] at hw
    rcases hw with rfl | rfl <;> rfl
  have herase : ∀ cmd1 cmd2, ∀ w ∈ globalUnlock cfg cmd1 ++ globalUnlock cfg cmd2, w.2.length = 1 := by
    intro cmd1 cmd2
    simp [globalUnlock]
  cases i with
  | showHidden => exact hraw _
  | hide => exact hraw _
  | verifyMap map => exact hraw _
  | chipErase => exact herase _ _
  | hiddenErase => exact herase _ _
  | writeRom buf => exact herase _ _
  | _ => exact nofun

theorem runsInPhases_of_waitsFirst {i : Instr} (h : waitsFirst i = true) : runsInPhases i = true := by
  cases i with
  | showHidden | hide | chipErase | hiddenErase | writeRom | verifyMap => rfl
  | _ => cases h

/-- Where every operation in flight after some of the command's writes stores within bounds, and every
block received before it, the whole command does. -/
theorem waits_frame {s t : State} {i : Instr} {n : Nat} {bus : Nat → Prop} {hidden : Chip → Nat → Prop}
    (hr : s.Runs i n t) (hi : waitsFirst i = true) (hw : writesStreams i = false)
    (hop : ∀ k c, ((s.env.after s.cfg ((globalWrites s.cfg i).take k)).chip.get c).op.Within c bus hidden)
    (hawaited : ∀ c, (s.env.chip.get c).latch.awaited.Within c bus hidden) :
    s.env.SameOutside t.env bus hidden := by
  obtain ⟨t0, he, rfl⟩ := hr
  have hwithin : ∀ k c, ((s.env.after s.cfg ((globalWrites s.cfg i).take k)).chip.get c).Within c
      bus hidden := by
    intro k c
    refine ⟨hop k c, ?_⟩
    obtain ha | ha := Env.after_awaited (cfg := s.cfg) (e := s.env) (c := c)
      (ws := (globalWrites s.cfg i).take k) (fun w hw => by
        rw [globalWrites_length s.cfg i w (List.mem_of_mem_take hw)]; simp [pageSize]) <;> rw [ha]
    · exact .none
    · exact hawaited c
  have hsent : s.env.Confined (s.env.after s.cfg (globalWrites s.cfg i)) bus hidden :=
    ⟨Env.after_frame (globalWrites_inFlash s.cfg i) hwithin,
      by simpa using hwithin (globalWrites s.cfg i).length⟩
  have h0 : s.env.Confined t0.env bus hidden ∧ t0.seq.Holds fun p => p.looks = true := by
    obtain ⟨code, rfl⟩ | ⟨-, rfl⟩ := exec_phases (runsInPhases_of_waitsFirst hi) he
    · rw [stopped_eq_finish (exec_next_idle he).1]
      exact ⟨.refl (hwithin 0), trivial⟩
    · rw [runPhases_phasesOf hi hw]
      refine runPhases_keeps stable_confined looks_confined _ _ ?_ _ hsent
      exact List.all_eq_true.1 (by cases i <;> rfl)
  exact (drive_keeps stable_confined looks_confined n h0.1 h0.2).1.same

/-- Where a command may start nothing beyond, and nothing pending stores beyond. -/
theorem waits_frame_of_within {s t : State} {i : Instr} {n : Nat} {bus : Nat → Prop}
    {hidden : Chip → Nat → Prop} (hr : s.Runs i n t) (hi : waitsFirst i = true)
    (hw : writesStreams i = false)
    (hstart : ∀ w ∈ globalWrites s.cfg i, StartsWithin s.cfg bus hidden w)
    (h : ∀ c, (s.env.chip.get c).Within c bus hidden) :
    s.env.SameOutside t.env bus hidden :=
  waits_frame hr hi hw (fun _ c => (Env.after_within
    (fun w hk => hstart w (List.mem_of_mem_take hk)) (h c)).op) fun c => (h c).awaited

/-- Under the contract nothing is pending. -/
theorem Env.Contract.within {e : Env} (h : e.Contract) (bus : Nat → Prop) (hidden : Chip → Nat → Prop)
    (c : Chip) : (e.chip.get c).Within c bus hidden := by
  obtain ⟨-, -, ha, hb⟩ := h
  have hq : (e.chip.get c).quiet := by cases c <;> assumption
  exact .of_none hq.2.1 (by rw [hq.2.2]; rfl)

/-- The two halves of an UNLOCK6, of which only the second command byte may start anything. -/
theorem erase_startsWithin {cfg : Config} {bus : Nat → Prop} {hidden : Chip → Nat → Prop}
    {cmd1 cmd2 : Byte} (h1 : cmd1 ≠ cmdErase2) (h1' : cmd1 ≠ cmdHErase2)
    (h2 : ∀ addr, StartsWithin cfg bus hidden (addr, [cmd2])) :
    ∀ w ∈ globalUnlock cfg cmd1 ++ globalUnlock cfg cmd2, StartsWithin cfg bus hidden w :=
  List.forall_mem_append.2 ⟨globalUnlock_startsWithin fun _ => .of_byte h1 h1',
    globalUnlock_startsWithin h2⟩

/-- An erase stores in its chip's window. -/
theorem erase_within (c : Chip) (hidden : Chip → Nat → Prop) :
    ChipOp.erase.Within c (fun a => inFlash a = true) hidden := by
  refine ⟨fun a ha => ?_, nofun⟩
  have hb := base_toNat c
  rw [erase_storesAt, half] at ha
  rw [inFlash_iff]
  omega

theorem Memory.read_of_within {m : Memory} {n a : Nat} (h : m.within n = true) (ha : n ≤ a) :
    m.read a = erasedByte := by
  induction m with
  | nil => rfl
  | cons cell m ih =>
    obtain ⟨k, v⟩ := cell
    have hk : k < n ∧ Memory.within n m = true := by simpa [Memory.within] using h
    rw [Memory.read, if_neg (by omega), ih hk.2]

/-- Beyond its 256 bytes a hidden sector reads as erased. -/
theorem Env.hid_read_beyond {e : Env} (h : e.wf = true) (c : Chip) {o : Nat} (ho : hidRead ≤ o) :
    (e.chip.get c).hid.read o = erasedByte :=
  Memory.read_of_within (Bool.and_eq_true_iff.1 (Env.chip_hid_wf h c)).2 ho

/-- Settles O49: the frame by what is in flight after some of the writes, and what the writes of
each command may start. -/
theorem waitingCommandsFrame : Obligations.WaitingCommandsFrame := by
  unfold Obligations.WaitingCommandsFrame
  refine ⟨fun s i n t hi hr => ?_, fun s i n t hi hc hoff hr => ?_, fun s n t hc hr => ?_,
    fun s n t hc hwf hr => ?_⟩
  · have hi : waitsFirst i = true ∧ writesStreams i = false := by cases i <;> trivial
    refine waits_frame hr hi.1 hi.2 (fun k c => ⟨fun a h => ?_, fun o h => ?_⟩)
      fun c => ⟨fun a h => ?_, fun o h => ?_⟩
    · exact ⟨c, .inr ⟨k, h⟩⟩
    · exact .inr ⟨k, h⟩
    · exact ⟨c, .inl (Bool.or_eq_true_iff.2 (.inr h))⟩
    · exact .inl (Bool.or_eq_true_iff.2 (.inr h))
  · cases i with
    | showHidden | hide | verifyMap =>
      exact waits_frame_of_within hr rfl rfl (rawEvents_startsWithin hoff _) (hc.within _ _)
    | _ => exact hi.elim
  · refine waits_frame_of_within hr rfl rfl
      (erase_startsWithin (by decide) (by decide) fun addr => ?_) (hc.within _ _)
    exact ⟨by simp [pageSize], fun c _ _ => erase_within c _,
      fun _ _ h => absurd h (by simp [cmdHErase2])⟩
  · have h : s.env.SameOutside t.env (fun _ => False) fun _ _ => True := by
      refine waits_frame_of_within hr rfl rfl
        (erase_startsWithin (by decide) (by decide) fun addr => ?_) (hc.within _ _)
      exact ⟨by simp [pageSize], fun _ _ h => absurd h (by simp [cmdErase2]),
        fun _ _ _ => ⟨nofun, fun _ _ => trivial⟩⟩
    refine ⟨h.mem, h.array, fun c o ho => ?_⟩
    have ho : hidRead ≤ o := Nat.le_of_not_lt ho
    rw [Env.hid_read_beyond (busStable_wf.runs hr hwf) c ho, Env.hid_read_beyond hwf c ho]

end Sys2Proof.Machine


/-! The frame of SRAM_WRITE and SESSION_OPEN, with what a chip hears of an unlock sequence. -/

namespace Sys2Proof.Machine

open Sys2Proof

/-! ### An unlock sequence, heard by a chip that awaits it -/

section
variable {cfg : Config} {c : Chip} {shown : Bool} {bank : Addr}

theorem isKey1_bank (h : bankBase bank = bank) :
    isKey1 cfg (bank + cfg.unlockOff1.setWidth 24) [key1] = true := by
  have hadd := bankBase_add bank cfg.unlockOff1
  rw [h] at hadd
  simp [isKey1, hadd]

theorem hear_idle_key1 (h : bankBase bank = bank) :
    hear cfg c shown .idle (bank + cfg.unlockOff1.setWidth 24) [key1] = .wait (.key1 bank .fresh) := by
  have hadd := bankBase_add bank cfg.unlockOff1
  rw [h] at hadd
  simp only [hear, isKey1_bank h, if_true, hadd]

theorem hear_armed_key1 (h : bankBase bank = bank) (k : Byte) :
    hear cfg c shown (.armed k) (bank + cfg.unlockOff1.setWidth 24) [key1] =
      .wait (.key1 bank (.erase k)) := by
  have hadd := bankBase_add bank cfg.unlockOff1
  rw [h] at hadd
  simp only [hear, isKey1_bank h, if_true, hadd]

theorem hear_key2 (after : Armed) :
    hear cfg c shown (.key1 bank after) (bank + cfg.unlockOff2.setWidth 24) [key2] =
      .wait (.key2 bank after) := by
  simp [hear]

theorem hear_command (after : Armed) {cmd : Byte} (h : cmd ≠ key1) :
    hear cfg c shown (.key2 bank after) (bank + cfg.unlockOff1.setWidth 24) [cmd] =
      hearCommand c bank after cmd := by
  simp [hear, isKey1, h]

end

section
variable {cfg : Config} {e : Env} {bus : Nat → Prop} {hidden : Chip → Nat → Prop}

/-- A write in one chip's window leaves the other chip alone. -/
theorem Env.write_get_of_ne {addr : Addr} (hin : inFlash addr.toNat = true) (v : List Byte) {d : Chip}
    (h : d ≠ chipOf addr) : (e.write cfg addr v).chip.get d = e.chip.get d := by
  rw [Env.write_flash hin, Env.chipWrite_get_of_ne _ _ _ _ h, Env.modeWrite_chip]

theorem Env.same_modeWrite (addr : Addr) (v : List Byte) :
    e.SameOutside (e.modeWrite cfg addr v) bus hidden :=
  .ofMem (by simp) (by simp) (by simp) (by simp)

/-- A chip that goes on in a command, or is reset, keeps its bytes. -/
theorem Env.write_heard {addr : Addr} {v : List Byte} {c : Chip} {l l' : Latch}
    (hin : inFlash addr.toNat = true) (hc : chipOf addr = c)
    (hh : ∀ shown, hear cfg c shown l addr v = .wait l' ∨ hear cfg c shown l addr v = .reset)
    (hl : (e.chip.get c).latch = l) :
    e.SameOutside (e.write cfg addr v) bus hidden ∧
      (((e.write cfg addr v).chip.get c).Within c bus hidden ∨
        ((e.write cfg addr v).chip.get c).latch = l') := by
  subst hc
  have hh := hh (decide (((e.modeWrite cfg addr v).chip.get (chipOf addr)).mode = .hiddenShown))
  rw [Env.write_flash hin]
  have hm : e.SameOutside (e.modeWrite cfg addr v) bus hidden := Env.same_modeWrite addr v
  have hl : ((e.modeWrite cfg addr v).chip.get (chipOf addr)).latch = l := by
    rw [Env.modeWrite_chip]; exact hl
  generalize e.modeWrite cfg addr v = e1 at hm hh hl ⊢
  obtain hw | ⟨k, m, d, hk, hw⟩ | ⟨k, d, hk, hw⟩ | ⟨op, d, ho, hw⟩ | ⟨hop, hw⟩ :=
    Env.chipWrite_cases cfg e1 (chipOf addr) addr v
  · rw [hw]
    exact ⟨hm.trans (Env.same_setChip rfl rfl rfl),
      .inl (.of_none (by simp [Env.lose]) (by simp [Env.lose, Latch.awaited]))⟩
  · rw [hl] at hk
    have hkl : k = l' := by
      rcases hk with hk | hk <;> rcases hh with hh | hh <;> cases hk.symm.trans hh
      rfl
    rw [hw]
    exact ⟨hm.trans (Env.same_setChip rfl rfl rfl), .inr (by simp [hkl])⟩
  · rw [hl] at hk
    rcases hh with hh | hh <;> cases hk.symm.trans hh
  · rw [hl] at ho
    rcases hh with hh | hh <;> cases ho.symm.trans hh
  · rw [hw]
    exact ⟨hm.trans (Env.same_setChip rfl rfl rfl),
      .inl (.of_none (by simpa using hop) (by simp [Latch.awaited]))⟩

/-- A chip that has nothing pending beyond, or is at the place `l` in a sequence. -/
def ChipState.WithinOrAt (c : Chip) (bus : Nat → Prop) (hidden : Chip → Nat → Prop) (l : Latch)
    (st : ChipState) : Prop := st.Within c bus hidden ∨ st.latch = l

/-- One byte of a sequence, to one chip. -/
theorem Env.write_withinOrAt {addr : Addr} {v : List Byte} {c : Chip} {l l' : Latch}
    (hin : inFlash addr.toNat = true ∧ chipOf addr = c) (hs : StartsWithin cfg bus hidden (addr, v))
    (hh : ∀ shown, hear cfg c shown l addr v = .wait l' ∨ hear cfg c shown l addr v = .reset)
    (h : (e.chip.get c).WithinOrAt c bus hidden l) :
    e.SameOutside (e.write cfg addr v) bus hidden ∧
      ((e.write cfg addr v).chip.get c).WithinOrAt c bus hidden l' := by
  obtain ⟨hin, hc⟩ := hin
  rcases h with h | h
  · exact ⟨Env.write_frame (fun _ => hc.symm ▸ h) fun hf => absurd (hin.symm.trans hf) (by decide),
      .inl (Env.write_within h hs)⟩
  · exact Env.write_heard hin hc hh h

/-- One byte of a sequence, to both chips. -/
theorem Env.writes_withinOrAt {off : Addr} {b : Byte} {l l' : Chip → Latch} (hoff : off.toNat < half)
    (hb : b ≠ cmdErase2 ∧ b ≠ cmdHErase2)
    (hh : ∀ c shown, hear cfg c shown (l c) (base c + off) [b] = .wait (l' c) ∨
      hear cfg c shown (l c) (base c + off) [b] = .reset)
    (h : ∀ c, (e.chip.get c).WithinOrAt c bus hidden (l c)) :
    e.SameOutside (e.after cfg (toBoth off b)) bus hidden ∧
      ∀ c, ((e.after cfg (toBoth off b)).chip.get c).WithinOrAt c bus hidden (l' c) := by
  have hat := fun c : Chip => chipOf_base_add (c := c) hoff
  have hs : ∀ c, StartsWithin cfg bus hidden (base c + off, [b]) := fun _ => .of_byte hb.1 hb.2
  obtain ⟨ha, ha'⟩ := Env.write_withinOrAt (hat .a) (hs .a) (hh .a) (h .a)
  have hother := Env.write_get_of_ne (cfg := cfg) (e := e) (hat .a).1 [b] (d := .b)
    (by rw [(hat .a).2]; decide)
  obtain ⟨hb, hb'⟩ := Env.write_withinOrAt (hat .b) (hs .b) (hh .b) (hother ▸ h .b)
  refine ⟨ha.trans hb, fun c => ?_⟩
  cases c with
  | b => exact hb'
  | a =>
    rw [toBoth, Env.after_cons, Env.after_cons, Env.after_nil]
    simp only
    rw [Env.write_get_of_ne (hat .b).1 [b] (by rw [(hat .b).2]; decide)]
    exact ha'

/-- The reset sequence stores nothing of a chip that is not in the middle of a command, whatever it has in
flight. -/
theorem resetWrites_frame (h : ∀ c, (e.chip.get c).WithinOrAt c bus hidden .idle) :
    e.SameOutside (e.after cfg (globalUnlock cfg 0xF0#8)) bus hidden := by
  have hoff : ∀ off : BitVec 16, (off.setWidth 24).toNat < half := setWidth_lt_half (by decide)
  obtain ⟨h1, h1'⟩ := Env.writes_withinOrAt (cfg := cfg) (hoff cfg.unlockOff1) (b := key1)
    ⟨by decide, by decide⟩ (fun c _ => .inl (hear_idle_key1 (bankBase_base c))) h
  obtain ⟨h2, h2'⟩ := Env.writes_withinOrAt (cfg := cfg) (hoff cfg.unlockOff2) (b := key2)
    ⟨by decide, by decide⟩ (fun _ _ => .inl (hear_key2 .fresh)) h1'
  obtain ⟨h3, -⟩ := Env.writes_withinOrAt (cfg := cfg) (hoff cfg.unlockOff1) (b := cmdReset)
    (l' := fun _ => .idle) ⟨by decide, by decide⟩
    (fun c _ => .inr ((hear_command .fresh (by decide)).trans (if_pos ⟨rfl, rfl⟩))) h2'
  rw [globalUnlock_eq, Env.after_append, Env.after_append]
  exact (h1.trans h2).trans h3

/-! ### SRAM_WRITE -/

/-- Each write of a buffer but the last is a whole segment, which no chip takes for a command. -/
theorem sramWrites_frame {as : List Addr} {buf : List Byte}
    (hin : ∀ addr ∈ as, inFlash addr.toNat = true →
      (e.chip.get (chipOf addr)).Within (chipOf addr) bus hidden)
    (hout : ∀ k addr, as[k]? = some addr → ∀ a, addr.toNat ≤ a →
      a < addr.toNat + min sramSeg (buf.length - k * sramSeg) → bus a) :
    e.SameOutside (e.after cfg (sramWrites as buf)) bus hidden := by
  induction as generalizing e buf with
  | nil => exact .refl ..
  | cons addr as ih =>
    unfold sramWrites
    split
    · exact .refl ..
    have hfirst : e.SameOutside (e.write cfg addr (buf.take sramSeg)) bus hidden :=
      Env.write_frame (hin addr (List.mem_cons_self ..)) fun _ a h1 h2 =>
        hout 0 addr rfl a h1 (by simpa using h2)
    refine hfirst.trans ?_
    by_cases hlast : buf.length ≤ sramSeg
    · have hrest : sramWrites as (buf.drop sramSeg) = [] := by
        rw [List.drop_eq_nil_of_le hlast]
        cases as <;> rfl
      rw [hrest]
      exact .refl ..
    · have hlen : (buf.take sramSeg).length = 0x2000 := by
        rw [List.length_take]
        simp only [sramSeg] at *
        omega
      have hs : StartsWithin cfg bus hidden (addr, buf.take sramSeg) := by
        refine ⟨by rw [hlen]; decide, fun _ _ h => ?_, fun _ _ h => ?_⟩ <;>
          exact absurd (hlen.symm.trans (congrArg List.length h)) (by simp)
      refine ih (fun x hx hf => Env.write_within (hin x (List.mem_cons_of_mem _ hx) hf) hs)
        fun k x hk a h1 h2 => hout (k + 1) x hk a h1 ?_
      rw [List.length_drop] at h2
      rw [Nat.add_mul, Nat.one_mul, Nat.add_comm (k * sramSeg), Nat.sub_add_eq]
      exact h2

/-! ### SESSION_OPEN -/

/-- A write to a device register stores nothing and does not reach the chips. -/
theorem Env.Confined.device {e' : Env} (h : e.Confined e' bus hidden) {addr : Addr} (b : Byte)
    (ha : addr = devReg0 ∨ addr = devReg1) : e.Confined (e'.write cfg addr [b]) bus hidden :=
  ⟨h.same.trans (Env.write_device_same b ha), fun c =>
    (h.within c).congr (Env.write_outside_get (inFlash_device ha) _).1
      (Env.write_outside_get (inFlash_device ha) _).2⟩

/-- The wake sequence goes to the device registers alone. -/
theorem Env.Confined.wake {s : State} {xs : List WakeStep} (hx : ∀ x ∈ xs, wakeStepOk x = true)
    (h : e.Confined s.env bus hidden) : e.Confined (s.wake xs).env bus hidden := by
  induction xs generalizing s with
  | nil => exact h
  | cons x xs ih =>
    have hok := hx x (List.mem_cons_self ..)
    refine ih (fun y hy => hx y (List.mem_cons_of_mem _ hy)) ?_
    cases x with
    | write addr value => exact h.device value (by simpa [wakeStepOk] using hok)
    | read addr => exact h.read addr 1

/-- A chip that takes a byte has nothing more pending, or is at the start of a command. -/
theorem Env.write_withinOrAt_idle {c : Chip} {addr : Addr} {v : List Byte} (hv : v.length ≠ pageSize)
    (h : (e.chip.get c).Within c bus hidden) :
    ((e.write cfg addr v).chip.get c).WithinOrAt c bus hidden .idle := by
  cases hin : inFlash addr.toNat with
  | false =>
    exact .inl (h.congr (Env.write_outside_get hin v).1 (Env.write_outside_get hin v).2)
  | true =>
    by_cases hc : c = chipOf addr
    · have hawaited := Env.chipWrite_awaited (cfg := cfg) (e := e.modeWrite cfg addr v) (c := chipOf addr)
        (addr := addr) hv
      have hm : ((e.modeWrite cfg addr v).chip.get (chipOf addr)).op = (e.chip.get (chipOf addr)).op := by
        rw [Env.modeWrite_chip]
      subst hc
      rw [Env.write_flash hin]
      obtain hw | ⟨k, m, d, -, hw⟩ | ⟨k, d, -, hw⟩ | ⟨op, d, -, hw⟩ | ⟨-, hw⟩ :=
        Env.chipWrite_cases cfg (e.modeWrite cfg addr v) (chipOf addr) addr v <;> rw [hw] at hawaited ⊢
      · exact .inr (by simp [Env.lose])
      · refine .inl ⟨?_, hawaited ▸ .none⟩
        rw [Env.setChip_get_self]
        exact hm ▸ h.op
      · refine .inl ⟨?_, hawaited ▸ .none⟩
        rw [(Env.dropBlock_op ..).1, hm]
        exact h.op
      · exact .inr (by simp [Env.begin])
      · exact .inr (by simp)
    · exact .inl (by rw [Env.write_get_of_ne hin v hc]; exact h)

/-- The mode write and `READ_RESET`. -/
theorem establish_frame {s : State} (hmode : bus s.cfg.modeAddr.toNat)
    (h : e.Confined s.env bus hidden) : e.SameOutside s.establish.env bus hidden := by
  have hwrite : s.env.SameOutside (s.env.write s.cfg s.cfg.modeAddr [s.cfg.modeValue]) bus hidden := by
    refine Env.write_frame (fun _ => h.within _) fun _ a h1 h2 => ?_
    simp only [List.length_cons, List.length_nil] at h2
    rwa [show a = s.cfg.modeAddr.toNat by omega]
  have hreset := resetWrites_frame (cfg := s.cfg) fun c => Env.write_withinOrAt_idle (cfg := s.cfg)
    (addr := s.cfg.modeAddr) (v := [s.cfg.modeValue]) (by simp [pageSize]) (h.within c)
  simp only [State.establish, State.readReset_eq, succeed_eq, finish_env, afterWrites_env, memWrite_env,
    memWrite_cfg]
  exact (h.same.trans hwrite).trans hreset

end

/-- Settles O52: SRAM_WRITE write by write; SESSION_OPEN by what the chips have pending after the mode
write, from where the reset sequence starts nothing. -/
theorem sramAndSessionFrame : Obligations.SramAndSessionFrame := by
  unfold Obligations.SramAndSessionFrame
  refine ⟨fun s t buf he => ?_, fun s t he => ?_⟩
  · obtain ⟨-, ⟨code, rfl⟩ | ⟨hr, hw, hok⟩⟩ := exec_cases rfl he
    · exact .refl ..
    cases (exec_sramWrite ⟨hr, hw rfl⟩ (of_decide_eq_true hok)).symm.trans he
    simp only [memWrites_eq, succeed_eq, finish_env, afterWrites_env]
    refine sramWrites_frame (fun addr haddr hf => chipWithin_iff.2 ⟨fun a h => ?_, fun o h => ?_⟩)
      fun k addr hk a h1 h2 => .inl ⟨k, addr, hk, h1, h2⟩
    · exact .inr ⟨_, ⟨addr, haddr, hf, rfl⟩, h⟩
    · exact ⟨⟨addr, haddr, hf, rfl⟩, h⟩
  · have hidle := exec_next_idle he
    have hwf := hidle.2
    simp only [Config.wf, Bool.and_eq_true] at hwf
    obtain ⟨⟨-, -, hwake⟩, -⟩ := hwf
    have hread : s.env.Confined (s.env.read s.cfg devReg0 1).2
        (fun a => a = s.cfg.modeAddr.toNat ∨ ∃ c, s.env.pendingAt c a = true)
        (fun c o => s.env.hiddenPendingAt c o = true) :=
      .read (.refl fun c => chipWithin_iff.2 ⟨fun _ h => .inr ⟨c, h⟩, fun _ h => h⟩) devReg0 1
    cases (exec_sessionOpen hidle).symm.trans he
    split
    · exact establish_frame (.inl rfl) hread
    · split
      · have hcfg := (busStable_cfg s.cfg).wake s.cfg.wakeSeq
          (s := (State.readByte { s with sess := .closed, wpr := false } devReg0).2) rfl
        exact establish_frame (.inl (congrArg (·.modeAddr.toNat) hcfg))
          (Env.Confined.wake (List.all_eq_true.1 hwake) hread)
      · exact hread.same

end Sys2Proof.Machine


/-! Reads of what is stored: the arrays, the directory, the SRAM, a hidden sector that is shown. -/

namespace Sys2Proof.Machine

open Sys2Proof

/-! ### One read -/

section
variable {cfg : Config} {e : Env}

/-- A byte of an array, or of the data outside the flash window, is read without a draw. -/
theorem Env.byteAt_stored {a : Nat} (hm : e.dev.mapped = true) (hmode : ∀ c, (e.chip.get c).mode = .array)
    (h : inFlash a = true ∨ isData cfg a = true) : (e.byteAt cfg a).2 = e := by
  unfold Env.byteAt
  rw [if_neg (by simp [hm])]
  split
  · simp [Env.chipByte, hmode]
  · next hf => rw [if_pos (h.resolve_left hf)]

/-- A byte of data outside the flash window is the memory's. -/
theorem Env.byteAt_data {a : Nat} (hm : e.dev.mapped = true) (hf : inFlash a = false)
    (h : isData cfg a = true) : e.byteAt cfg a = (e.mem.read a, e) := by
  simp [Env.byteAt, hm, hf, h]

theorem Env.bytesFrom_stored {a n : Nat} (h : ∀ x, a ≤ x → x < a + n → (e.byteAt cfg x).2 = e) :
    (Env.bytesFrom cfg a e n).2 = e := by
  induction n generalizing a with
  | zero => rfl
  | succ n ih =>
    show (Env.bytesFrom cfg (a + 1) (e.byteAt cfg a).2 n).2 = e
    rw [h a (Nat.le_refl a) (by omega)]
    exact ih fun x h1 h2 => h x (by omega) (by omega)

/-- Bytes that stand in one memory are read from it. -/
theorem Env.bytesFrom_eq_readBytes {m : Memory} {a b n : Nat}
    (h : ∀ i < n, e.byteAt cfg (a + i) = (m.read (b + i), e)) :
    Env.bytesFrom cfg a e n = (m.readBytes b n, e) := by
  induction n generalizing a b with
  | zero => rfl
  | succ n ih =>
    have h0 : e.byteAt cfg a = (m.read b, e) := h 0 (Nat.succ_pos n)
    have hrest := ih (a := a + 1) (b := b + 1) fun i hi => by
      have := h (i + 1) (by omega)
      rwa [show a + (i + 1) = a + 1 + i by omega, show b + (i + 1) = b + 1 + i by omega] at this
    simp only [Env.bytesFrom, h0, hrest]
    rfl

/-- A read of stored bytes leaves the environment as it was (R59, R71). -/
theorem Env.read_stored {addr : Addr} {n : Nat} (hm : e.dev.mapped = true)
    (hmode : ∀ c, (e.chip.get c).mode = .array) (hone : n = 1 → inFlash addr.toNat = true)
    (h : ∀ x, addr.toNat ≤ x → x < addr.toNat + n → inFlash x = true ∨ isData cfg x = true) :
    (e.read cfg addr n).2 = e := by
  unfold Env.read
  split
  · next hn =>
    obtain ⟨h0, h1⟩ := device_ne_flash (hone hn)
    simp only [Env.readOne, if_neg h0, if_neg h1]
    rw [if_neg (by simp [Env.statusAt, hmode])]
    exact Env.byteAt_stored hm hmode (h _ (Nat.le_refl _) (by omega))
  · exact Env.bytesFrom_stored fun x h1 h2 => Env.byteAt_stored hm hmode (h x h1 h2)

end

/-! ### Where the data stand -/

/-- A directory record, below the end of the address space. -/
theorem isData_slot {cfg : Config} {i x : Nat} (hi : i < dirSlots)
    (h1 : cfg.dirBase.toNat + i * dirStride ≤ x) (h2 : x < cfg.dirBase.toNat + i * dirStride + dirRecLen) :
    isData cfg x = true := by
  have hany : ((List.range dirSlots).any fun i => decide (cfg.dirBase.toNat + i * dirStride ≤ x) &&
      decide (x < cfg.dirBase.toNat + i * dirStride + dirRecLen)) = true :=
    List.any_eq_true.2 ⟨i, List.mem_range.2 hi, by simp [h1, h2]⟩
  simp [isData, inDirectory, hany]

theorem isData_sig {cfg : Config} {x : Nat} (h1 : cfg.sigAddr.toNat ≤ x)
    (h2 : x < cfg.sigAddr.toNat + 16) : isData cfg x = true := by
  have h2 : x < cfg.sigAddr.toNat + sig.length := h2
  simp [isData, inDirectory, h1, h2]

theorem isData_sram {cfg : Config} {addr : Addr} {x : Nat} (ha : addr ∈ cfg.sramAddr)
    (h1 : addr.toNat ≤ x) (h2 : x < addr.toNat + sramSeg) : isData cfg x = true := by
  have hany : inSram cfg x 1 = true :=
    List.any_eq_true.2 ⟨addr, ha, by simp only [h1, decide_true, Bool.true_and, decide_eq_true_eq]; omega⟩
  simp [isData, hany]

/-- The record of a slot does not wrap around (R62). -/
theorem slotAddr_toNat {cfg : Config} (hw : cfg.wf = true) {i : Nat} (hi : i < dirSlots) :
    (slotAddr cfg i).toNat = cfg.dirBase.toNat + i * dirStride := by
  simp only [Config.wf, Bool.and_eq_true, decide_eq_true_eq] at hw
  obtain ⟨⟨⟨⟨hdir, -⟩, -⟩, -⟩, -⟩ := hw
  simp only [dirSlots, dirStride, dirRecLen] at *
  rw [slotAddr, BitVec.toNat_add, BitVec.toNat_ofNat, dirStride]
  omega

/-! ### The operations that read data -/

/-- The verifier reads in the flash window. -/
theorem verifyChunks_env {s : State} {rest : List Byte} (n : Nat) (hm : s.env.dev.mapped = true)
    (hmode : ∀ c, (s.env.chip.get c).mode = .array) (h : s.voff.toNat + rest.length ≤ maxRom) :
    (State.verifyChunks n rest s).env = s.env := by
  induction n generalizing rest s with
  | zero => rfl
  | succ n ih =>
    unfold State.verifyChunks
    split
    · rfl
    · next hne =>
      have hpos : 0 < rest.length := List.length_pos_iff.2 (by simpa using hne)
      simp only [maxRom] at h
      have haddr : (verifyAddr s.voff.toNat).toNat = 0xC00000 + s.voff.toNat := by
        rw [verifyAddr, BitVec.toNat_add, BitVec.toNat_ofNat]
        simp only [aBase, BitVec.toNat_ofNat]
        omega
      have hread : (s.env.read s.cfg (verifyAddr s.voff.toNat) (min vChunk rest.length)).2 = s.env :=
        Env.read_stored hm hmode (fun _ => by rw [haddr, inFlash_iff]; omega) fun x h1 h2 =>
          .inl (by rw [haddr] at h1 h2; rw [inFlash_iff]; omega)
      simp only
      split
      · rw [ih]
        · exact hread
        · simpa [hread] using hm
        · simpa [hread] using hmode
        · simp only [notify_voff, memRead_voff, BitVec.toNat_add, BitVec.toNat_ofNat, List.length_drop,
            maxRom]
          omega
      · exact hread

theorem readSegments_env {s : State} {as : List Addr}
    (h : ∀ a ∈ as, (s.env.read s.cfg a sramSeg).2 = s.env) : (s.readSegments as).2.env = s.env := by
  induction as generalizing s with
  | nil => rfl
  | cons a as ih =>
    have ha : (s.memRead a sramSeg).2.env = s.env :=
      (memRead_env ..).trans (h a (List.mem_cons_self ..))
    refine (ih (s := (s.memRead a sramSeg).2) fun x hx => ?_).trans ha
    rw [ha]
    exact h x (List.mem_cons_of_mem _ hx)

theorem verifyRom_env {s t : State} {buf : List Byte} (hm : s.env.dev.mapped = true)
    (hmode : ∀ c, (s.env.chip.get c).mode = .array) (he : exec (.verifyRom buf) s = .next t) :
    t.env = s.env := by
  obtain ⟨-, ⟨code, rfl⟩ | ⟨hr, -, hok⟩⟩ := exec_cases rfl he
  · rfl
  have hok := of_decide_eq_true hok
  cases (exec_verifyRom hr hok).symm.trans he
  have henv := verifyChunks_env (s := { s with voff := 0 }) (rest := buf) (buf.length / vChunk + 1) hm
    hmode (by simpa using hok)
  unfold State.verifyResult
  split <;> exact henv

theorem dirPresent_env {s t : State} (hm : s.env.dev.mapped = true)
    (hmode : ∀ c, (s.env.chip.get c).mode = .array) (he : exec .dirPresent s = .next t) :
    t.env = s.env := by
  obtain ⟨-, ⟨code, rfl⟩ | ⟨hr, -, -⟩⟩ := exec_cases rfl he
  · rfl
  have hread : (s.env.read s.cfg s.cfg.sigAddr 16).2 = s.env :=
    Env.read_stored hm hmode (by simp) fun x h1 h2 => .inr (isData_sig h1 h2)
  rw [exec_dirPresent hr, Host.Outcome.next.injEq] at he
  rw [← he, succeed_eq, finish_env, memRead_env, hread]

theorem dirNext_env {s t : State} (hdir : s.DirectoryLegal) (hm : s.env.dev.mapped = true)
    (hmode : ∀ c, (s.env.chip.get c).mode = .array) (he : exec .dirNext s = .next t) :
    t.env = s.env := by
  obtain ⟨⟨-, hwf⟩, ⟨code, rfl⟩ | ⟨hr, -, -⟩⟩ := exec_cases rfl he
  · rfl
  cases hd : s.dend with
  | true =>
    cases (exec_dirNext_end hr hd).symm.trans he
    rfl
  | false =>
    have hslot : s.slot.toNat < dirSlots := by
      refine lt_of_le_of_ne hdir.1 fun h => ?_
      rw [hdir.2 h] at hd
      cases hd
    have hread : (s.env.read s.cfg (slotAddr s.cfg s.slot.toNat) dirRecLen).2 = s.env := by
      refine Env.read_stored hm hmode (by simp [dirRecLen]) fun x h1 h2 => .inr ?_
      rw [slotAddr_toNat hwf hslot] at h1 h2
      exact isData_slot hslot h1 h2
    rw [← memRead_env] at hread
    obtain ⟨d, s1, hs1⟩ : ∃ d s1, s.memRead (slotAddr s.cfg s.slot.toNat) dirRecLen = (d, s1) :=
      ⟨_, _, rfl⟩
    rw [hs1] at hread
    cases (exec_dirNext_read hr hd hs1).symm.trans he
    split <;> exact hread

theorem sramVerify_env {s t : State} {buf : List Byte} (hm : s.env.dev.mapped = true)
    (hmode : ∀ c, (s.env.chip.get c).mode = .array) (he : exec (.sramVerify buf) s = .next t) :
    t.env = s.env := by
  obtain ⟨-, ⟨code, rfl⟩ | ⟨hr, -, hok⟩⟩ := exec_cases rfl he
  · rfl
  have henv := readSegments_env (s := s) (as := s.cfg.sramAddr) fun a ha =>
    Env.read_stored hm hmode (by simp [sramSeg]) fun x h1 h2 => .inr (isData_sram ha h1 h2)
  cases (exec_sramVerify hr (of_decide_eq_true hok)).symm.trans he
  split <;> exact henv

/-- A hidden sector that is shown answers its bytes (R77). -/
theorem read_shown {cfg : Config} {e : Env} {c : Chip} (hm : e.dev.mapped = true)
    (hmode : (e.chip.get c).mode = .hiddenShown) :
    e.read cfg (base c + 0xFF00#24) 256 = ((e.chip.get c).hid.readBytes 0 256, e) := by
  have haddr : (base c + 0xFF00#24).toNat = (base c).toNat + 0xFF00 := by cases c <;> rfl
  have hb := base_toNat c
  rw [Env.read, if_neg (by decide), haddr]
  refine Env.bytesFrom_eq_readBytes fun i hi => ?_
  have hf : inFlash ((base c).toNat + 0xFF00 + i) = true := by rw [inFlash_iff]; omega
  have hat : chipAt ((base c).toNat + 0xFF00 + i) = c := by
    unfold chipAt
    cases c
    · exact if_pos (by rw [base_a_toNat]; omega)
    · exact if_neg (by rw [base_b_toNat]; omega)
  have hoff : chipOff ((base c).toNat + 0xFF00 + i) = hidOff + i := by
    simp only [chipOff, half, hidOff]
    omega
  have hin : inHidden (hidOff + i) = true := by
    simp [inHidden, hidRead, hi]
  simp [Env.byteAt, hm, hf, hat, Env.chipByte, hmode, hoff, hin]

/-- Settles O55: every byte these operations read is in an array, in the directory or in the SRAM, and a
shown hidden sector answers its own bytes. -/
theorem dataReadsIdempotent : Obligations.DataReadsIdempotent := by
  unfold Obligations.DataReadsIdempotent
  refine ⟨fun s t i hi hdir hm hmode he => ?_, fun _ _ _ => read_shown⟩
  cases i with
  | verifyRom buf => exact verifyRom_env hm hmode he
  | dirPresent => exact dirPresent_env hm hmode he
  | dirNext => exact dirNext_env hdir hm hmode he
  | sramVerify buf => exact sramVerify_env hm hmode he
  | _ => exact hi.elim

end Sys2Proof.Machine


/-! The SRAM: what a write with protect released stores, segment by segment, and what a read finds. -/

namespace Sys2Proof.Machine

open Sys2Proof

/-- A device in its addressing mode is left in it. -/
theorem Env.modeWrite_mapped {cfg : Config} {e : Env} (hm : e.dev.mapped = true) (addr : Addr)
    (v : List Byte) : e.modeWrite cfg addr v = e := by
  have hh : e.dev.hirom = true := (Bool.and_eq_true_iff.1 hm).2
  unfold Env.modeWrite
  split
  · rw [← hh]
  · rfl

/-- A segment that lies below the flash window and apart from the device registers. -/
def segmentApart (addr : Addr) : Prop :=
  addr.toNat + sramSeg ≤ 0xC00000 ∧ (addr.toNat + sramSeg ≤ 0x002400 ∨ 0x002401 < addr.toNat)

section
variable {cfg : Config} {e : Env} {addr : Addr}

/-- A write to such a segment, with protect released, stores its bytes (R79; log 21). -/
theorem Env.write_segment (hm : e.dev.mapped = true) (hp : e.dev.protect = .released)
    (ha : addr ∈ cfg.sramAddr) (hs : segmentApart addr) {v : List Byte} (hv : v.length ≤ sramSeg) :
    e.write cfg addr v = { e with mem := e.mem.writeBytes addr.toNat v } := by
  obtain ⟨hflash, hdev⟩ := hs
  simp only [sramSeg] at hflash hdev hv
  have hin : inFlash addr.toNat = false := by
    rw [← Bool.not_eq_true, inFlash_iff]
    omega
  have hreg : ¬(addr = devReg0 ∨ addr = devReg1) := by
    rintro (rfl | rfl)
    · simp [devReg0] at hdev
    · simp [devReg1] at hdev
  have hsram : inSram cfg addr.toNat v.length = true :=
    List.any_eq_true.2 ⟨addr, ha, by simp [sramSeg, hv]⟩
  have hcover : (decide (addr.toNat ≤ devReg1.toNat) &&
      decide (devReg0.toNat < addr.toNat + v.length)) = false := by
    rw [← Bool.not_eq_true, Bool.and_eq_true, decide_eq_true_eq, decide_eq_true_eq]
    simp only [devReg0, devReg1, BitVec.toNat_ofNat]
    omega
  have hplain : e.plainWrite cfg addr.toNat v = { e with mem := e.mem.writeBytes addr.toNat v } := by
    unfold Env.plainWrite
    rw [if_neg (by simp [hm]), if_neg (by simp [hcover]), if_pos (by simp [hsram, hp])]
  unfold Env.write
  simp only [hin, Env.modeWrite_mapped hm, if_neg hreg, hplain]
  rw [if_neg (by simp)]
  split <;> rfl

/-- A read of a whole segment answers what is stored there. -/
theorem Env.read_segment (hm : e.dev.mapped = true) (ha : addr ∈ cfg.sramAddr) (hs : segmentApart addr) :
    e.read cfg addr sramSeg = (e.mem.readBytes addr.toNat sramSeg, e) := by
  rw [Env.read, if_neg (by decide)]
  refine Env.bytesFrom_eq_readBytes fun i hi => Env.byteAt_data hm ?_
    (isData_sram ha (Nat.le_add_right ..) (by omega))
  rw [← Bool.not_eq_true, inFlash_iff]
  have := hs.1
  omega

end

theorem Memory.take_readBytes (m : Memory) (a n k : Nat) :
    (m.readBytes a n).take k = m.readBytes a (min k n) := by
  refine (Memory.readBytes_eq_iff.2 ⟨by simp, fun i hi => ?_⟩).symm
  rw [List.getElem_take, Memory.getElem_readBytes]

/-- Two segments that do not meet. -/
def segmentsApart (x y : Addr) : Prop :=
  x.toNat + sramSeg ≤ y.toNat ∨ y.toNat + sramSeg ≤ x.toNat

/-- A buffer written to segments that lie apart stands in them, in order, and no other byte has changed. -/
theorem after_sramWrites {cfg : Config} {as : List Addr} {buf : List Byte} {e : Env}
    (hm : e.dev.mapped = true) (hp : e.dev.protect = .released) (hw : e.mem.wf = true)
    (has : ∀ a ∈ as, a ∈ cfg.sramAddr ∧ segmentApart a) (hpair : as.Pairwise segmentsApart)
    (hlen : buf.length ≤ as.length * sramSeg) :
    ∃ m : Memory, e.after cfg (sramWrites as buf) = { e with mem := m } ∧
      (as.flatMap fun a => m.readBytes a.toNat sramSeg).take buf.length = buf ∧
      ∀ x, (∀ a ∈ as, x < a.toNat ∨ a.toNat + sramSeg ≤ x) → m.read x = e.mem.read x := by
  induction as generalizing buf e with
  | nil =>
    have hnil : buf = [] := List.length_eq_zero_iff.1 (by simpa using hlen)
    exact ⟨e.mem, rfl, by simp [hnil], fun _ _ => rfl⟩
  | cons a as ih =>
    by_cases hbuf : buf.isEmpty = true
    · refine ⟨e.mem, by simp [sramWrites, hbuf], by simp [List.isEmpty_iff.1 hbuf], fun _ _ => rfl⟩
    obtain ⟨ha, hapart⟩ := has a (List.mem_cons_self ..)
    obtain ⟨hdisj, hpair⟩ := List.pairwise_cons.1 hpair
    have hchunk : (buf.take sramSeg).length = min sramSeg buf.length := List.length_take ..
    have hwrite := Env.write_segment hm hp ha hapart (v := buf.take sramSeg) (by omega)
    obtain ⟨m, hafter, hread, hframe⟩ := ih (buf := buf.drop sramSeg)
      (e := { e with mem := e.mem.writeBytes a.toNat (buf.take sramSeg) }) hm hp
      (Memory.wf_writeBytes _ _ hw) (fun x hx => has x (List.mem_cons_of_mem _ hx)) hpair
      (by rw [List.length_drop]; simp only [List.length_cons, Nat.add_mul, Nat.one_mul] at hlen; omega)
    refine ⟨m, ?_, ?_, fun x hx => ?_⟩
    · rw [sramWrites, if_neg hbuf, Env.after_cons, hwrite, hafter]
    · have hsame : m.readBytes a.toNat (buf.take sramSeg).length = buf.take sramSeg := by
        refine Eq.trans (Memory.readBytes_congr fun i hi => hframe _ fun b hb => ?_)
          (Memory.readBytes_writeBytes a.toNat (buf.take sramSeg) hw)
        have := hdisj b hb
        unfold segmentsApart at this
        omega
      rw [hchunk] at hsame
      rw [List.flatMap_cons, List.take_append, Memory.readBytes_length, Memory.take_readBytes,
        Nat.min_comm, hsame, ← List.length_drop, hread, List.take_append_drop]
    · rw [hframe x fun b hb => hx b (List.mem_cons_of_mem _ hb)]
      refine Memory.read_writeBytes_outside ?_
      have := hx a (List.mem_cons_self ..)
      omega

/-- The segments, read in order, are what is stored there. -/
theorem readSegments_eq {s : State} {as : List Addr} (hm : s.env.dev.mapped = true)
    (has : ∀ a ∈ as, a ∈ s.cfg.sramAddr ∧ segmentApart a) :
    (s.readSegments as).1 = as.flatMap fun a => s.env.mem.readBytes a.toNat sramSeg := by
  induction as generalizing s with
  | nil => rfl
  | cons a as ih =>
    obtain ⟨ha, hapart⟩ := has a (List.mem_cons_self ..)
    have hread := Env.read_segment hm ha hapart
    have henv : (s.memRead a sramSeg).2.env = s.env := by rw [memRead_env, hread]
    have hfst : (s.memRead a sramSeg).1 = s.env.mem.readBytes a.toNat sramSeg := congrArg Prod.fst hread
    have hrest := ih (s := (s.memRead a sramSeg).2) (by rw [henv]; exact hm)
      fun x hx => has x (List.mem_cons_of_mem _ hx)
    rw [henv] at hrest
    rw [State.readSegments, List.flatMap_cons, ← hrest, ← hfst]

/-- The verify answers OK when the segments begin with the buffer. -/
theorem sramVerify_finds {s : State} {buf : List Byte} (h : s.Ready) (hlen : buf.length ≤ sramMax)
    (hread : (s.readSegments s.cfg.sramAddr).1.take buf.length = buf) :
    exec (.sramVerify buf) s = .next ((s.readSegments s.cfg.sramAddr).2.succeed 1) := by
  rw [exec_sramVerify h hlen]
  simp only [if_pos hread]

/-- Settles O60: the buffer stands in the segments, and the verify reads them. -/
theorem sramRoundTrip : Obligations.SramRoundTrip := by
  unfold Obligations.SramRoundTrip
  rintro s buf hrel ⟨hm, hp, -, -⟩ hwf ⟨hpair, hapart⟩ hlen
  have hcfg := hrel.1.1.2
  simp only [Config.wf, Bool.and_eq_true, beq_iff_eq] at hcfg
  obtain ⟨⟨⟨-, hfour, -⟩, -⟩, -⟩ := hcfg
  have has : ∀ a ∈ s.cfg.sramAddr, a ∈ s.cfg.sramAddr ∧ segmentApart a := fun a ha => ⟨ha, hapart a ha⟩
  obtain ⟨m, hafter, hread, -⟩ := after_sramWrites hm hp (Env.wf_iff.1 hwf).1 has hpair
    (buf := buf) (by rw [hfour]; exact hlen)
  have hwrite := exec_sramWrite hrel hlen
  rw [memWrites_eq, succeed_eq] at hwrite
  generalize ht : (s.afterWrites (sramWrites s.cfg.sramAddr buf)).finish rcOk
    (BitVec.ofNat 24 buf.length) = t at hwrite
  have htcfg : t.cfg = s.cfg := by rw [← ht]; rfl
  have htenv : t.env = { s.env with mem := m } := by rw [← ht]; exact hafter
  have htready : t.Ready := by rw [← ht]; exact ⟨⟨rfl, hrel.1.1.2⟩, hrel.1.2⟩
  have hsegs : (t.readSegments t.cfg.sramAddr).1.take buf.length = buf := by
    rw [htcfg, readSegments_eq (by rw [htenv]; exact hm) (by rw [htcfg]; exact has), htenv]
    exact hread
  exact ⟨t, _, hwrite, sramVerify_finds htready hlen hsegs, rfl, rfl⟩

end Sys2Proof.Machine


/-! A chip that takes a whole command: from the first unlock key to the operation in flight. -/

namespace Sys2Proof.Machine

open Sys2Proof

/-- A chip that will take what it hears at the place `l` in a sequence. -/
structure ChipState.Listening (st : ChipState) (l : Latch) : Prop where
  mode : st.mode ≠ .lost
  op : st.op = .none
  latch : st.latch = l
  undisturbed : l = .idle ∨ st.disturbed = false

/-- What such a chip becomes: on in the sequence, or with an operation in flight. -/
def ChipState.hearing (st : ChipState) (protect : Protect) : Heard → ChipState
  | .wait l => { st with latch := l, disturbed := false }
  | .start op =>
    { st with
      latch := .idle
      mode := .status
      op := op
      sound := protect = .released
      disturbed := false }
  | _ => st

/-- A step of a command. -/
def Heard.proceeds : Heard → Prop
  | .wait _ => True
  | .start _ => True
  | _ => False

theorem ChipState.quiet.listening {st : ChipState} (h : st.quiet) : st.Listening .idle :=
  ⟨h.1, h.2.1, h.2.2, .inl rfl⟩

theorem ChipState.Listening.wait {st : ChipState} {l : Latch} (h : st.Listening l) (protect : Protect)
    (l' : Latch) : (st.hearing protect (.wait l')).Listening l' :=
  ⟨h.mode, h.op, rfl, .inr rfl⟩

/-- Of what a chip heard before in the same sequence nothing is left. -/
theorem ChipState.hearing_hearing (st : ChipState) (protect : Protect) (l : Latch) {h : Heard}
    (hh : h.proceeds) : (st.hearing protect (.wait l)).hearing protect h = st.hearing protect h := by
  cases h with
  | wait | start => rfl
  | _ => exact hh.elim

/-- Memory and device are the same. -/
structure Env.SameRest (e e' : Env) : Prop where
  mem : e'.mem = e.mem
  dev : e'.dev = e.dev

/-- From `e` to `e'` the chips `chips` have heard `h`, and nothing else has changed but draws. -/
structure Env.HeardBy (e e' : Env) (chips : Chip → Prop) (h : Chip → Heard) : Prop extends
    e.SameRest e' where
  self : ∀ c, chips c → e'.chip.get c = (e.chip.get c).hearing e.dev.protect (h c)
  other : ∀ c, ¬chips c → e'.chip.get c = e.chip.get c

section
variable {e e1 e2 : Env} {chips : Chip → Prop}

/-- A further step of the same command: of the step before nothing is left. -/
theorem Env.HeardBy.trans {l : Chip → Latch} {h : Chip → Heard}
    (h1 : e.HeardBy e1 chips fun c => .wait (l c)) (h2 : e1.HeardBy e2 chips h) (hp : ∀ c, (h c).proceeds) :
    e.HeardBy e2 chips h where
  mem := h2.mem.trans h1.mem
  dev := h2.dev.trans h1.dev
  other c hc := (h2.other c hc).trans (h1.other c hc)
  self c hc := by
    rw [h2.self c hc, h1.self c hc, h1.dev, ChipState.hearing_hearing _ _ _ (hp c)]

/-- The chips go on listening. -/
theorem Env.HeardBy.listening {l l' : Chip → Latch} (h : e.HeardBy e1 chips fun c => .wait (l' c))
    (hl : ∀ c, chips c → (e.chip.get c).Listening (l c)) :
    ∀ c, chips c → (e1.chip.get c).Listening (l' c) := fun c hc => by
  rw [h.self c hc]
  exact (hl c hc).wait _ _

theorem Env.SameRest.mapped (h : e.SameRest e1) (hm : e.dev.mapped = true) : e1.dev.mapped = true := by
  rw [h.dev]
  exact hm

end

section
variable {cfg : Config} {e : Env} {c : Chip} {l : Latch} {h : Heard}

/-- One write of a command, at a chip that takes it. -/
theorem Env.write_hearing {addr : Addr} {v : List Byte} (hm : e.dev.mapped = true)
    (hat : inFlash addr.toNat = true ∧ chipOf addr = c) (hl : (e.chip.get c).Listening l)
    (hh : ∀ shown, hear cfg c shown l addr v = h) (hp : h.proceeds) :
    e.write cfg addr v = e.setChip c ((e.chip.get c).hearing e.dev.protect h) := by
  obtain ⟨hin, rfl⟩ := hat
  obtain ⟨hmode, hop, hlatch, hdist⟩ := hl
  have hbusy : (decide ((e.chip.get (chipOf addr)).op ≠ .none) || ((e.chip.get (chipOf addr)).disturbed &&
      decide ((e.chip.get (chipOf addr)).latch ≠ .idle))) = false := by
    rcases hdist with rfl | hd
    · simp [hop, hlatch]
    · simp [hop, hd]
  rw [Env.write_flash hin, Env.modeWrite_mapped hm]
  unfold Env.chipWrite
  simp only [hbusy]
  rw [if_neg (by simp [hm, hmode, hop]), hlatch, hh]
  cases h with
  | wait l' => rfl
  | start op =>
    simp only [Env.begin, Env.complete_none hop]
    rfl
  | _ => exact hp.elim

theorem Env.write_hears {addr : Addr} {v : List Byte} (hm : e.dev.mapped = true)
    (hat : inFlash addr.toNat = true ∧ chipOf addr = c) (hl : (e.chip.get c).Listening l)
    (hh : ∀ shown, hear cfg c shown l addr v = h) (hp : h.proceeds) :
    e.HeardBy (e.write cfg addr v) (· = c) fun _ => h := by
  rw [Env.write_hearing hm hat hl hh hp]
  exact ⟨⟨rfl, rfl⟩, fun d hd => by subst hd; simp, fun d hd => Env.setChip_get_of_ne e _ hd⟩

/-- One byte of a command, to both chips. -/
theorem Env.after_both_hear {off : Addr} {b : Byte} {l : Chip → Latch} {h : Chip → Heard}
    (hm : e.dev.mapped = true) (hoff : off.toNat < half) (hl : ∀ c, True → (e.chip.get c).Listening (l c))
    (hh : ∀ c shown, hear cfg c shown (l c) (base c + off) [b] = h c) (hp : ∀ c, (h c).proceeds) :
    e.HeardBy (e.after cfg (toBoth off b)) (fun _ => True) h := by
  have ha := Env.write_hears hm (chipOf_base_add hoff) (hl .a trivial) (hh .a) (hp .a)
  have hother := ha.other .b (by decide)
  have hb := Env.write_hears (cfg := cfg) (ha.mapped hm) (chipOf_base_add hoff)
    (by rw [hother]; exact hl .b trivial) (hh .b) (hp .b)
  refine ⟨⟨hb.mem.trans ha.mem, hb.dev.trans ha.dev⟩, fun c _ => ?_, fun _ hc => absurd trivial hc⟩
  cases c with
  | a => exact (hb.other .a (by decide)).trans (ha.self .a rfl)
  | b => rw [← ha.dev, ← hother]; exact hb.self .b rfl

/-- A global UNLOCK3, at chips that take it. -/
theorem globalUnlock_hears {l : Chip → Latch} {h : Chip → Heard} {after : Armed} {cmd : Byte}
    (hm : e.dev.mapped = true) (hl : ∀ c, True → (e.chip.get c).Listening (l c))
    (hkey : ∀ c shown, hear cfg c shown (l c) (base c + cfg.unlockOff1.setWidth 24) [key1] =
      .wait (.key1 (base c) after))
    (hcmd : cmd ≠ key1) (hh : ∀ c, hearCommand c (base c) after cmd = h c) (hp : ∀ c, (h c).proceeds) :
    e.HeardBy (e.after cfg (globalUnlock cfg cmd)) (fun _ => True) h := by
  have hoff : ∀ off : BitVec 16, (off.setWidth 24).toNat < half := setWidth_lt_half (by decide)
  have h1 := Env.after_both_hear (cfg := cfg) hm (hoff cfg.unlockOff1) hl hkey fun _ => trivial
  have h2 := Env.after_both_hear (cfg := cfg) (h1.mapped hm) (hoff cfg.unlockOff2) (h1.listening hl)
    (fun _ _ => hear_key2 after) fun _ => trivial
  have h12 := h1.trans h2 fun _ => trivial
  have h3 := Env.after_both_hear (cfg := cfg) (h12.mapped hm) (hoff cfg.unlockOff1) (h12.listening hl)
    (fun c _ => (hear_command after hcmd).trans (hh c)) hp
  rw [globalUnlock_eq, Env.after_append, Env.after_append]
  exact h12.trans h3 hp

/-- An UNLOCK6, at chips that take it, starts its erase on both. -/
theorem unlock6_hears {cmd1 cmd2 : Byte} {op : ChipOp} (hm : e.dev.mapped = true)
    (hl : ∀ c, (e.chip.get c).Listening .idle) (h1 : cmd1 ≠ key1) (h2 : cmd2 ≠ key1)
    (hh1 : ∀ c, hearCommand c (base c) .fresh cmd1 = .wait (.armed cmd1))
    (hh2 : ∀ c, hearCommand c (base c) (.erase cmd1) cmd2 = .start op) :
    e.HeardBy (e.after cfg (globalUnlock cfg cmd1 ++ globalUnlock cfg cmd2)) (fun _ => True)
      fun _ => .start op := by
  have hfirst := globalUnlock_hears (cfg := cfg) hm (fun c _ => hl c)
    (fun c _ => hear_idle_key1 (bankBase_base c)) h1 hh1 fun _ => trivial
  have hsecond := globalUnlock_hears (cfg := cfg) (hfirst.mapped hm)
    (hfirst.listening fun c _ => hl c) (fun c _ => hear_armed_key1 (bankBase_base c) cmd1) h2 hh2
    fun _ => trivial
  rw [Env.after_append]
  exact hfirst.trans hsecond fun _ => trivial

/-- A local UNLOCK3 in chip `c`'s window. -/
theorem localUnlock_hears {addr : Addr} {cmd : Byte} (hm : e.dev.mapped = true)
    (hat : inFlash addr.toNat = true ∧ chipOf addr = c) (hl : (e.chip.get c).Listening .idle)
    (hcmd : cmd ≠ key1)
    (hh : hearCommand c (bankBase addr) .fresh cmd = .wait (.program cmd (bankBase addr))) :
    e.HeardBy (e.after cfg (localUnlock cfg addr cmd)) (· = c)
      fun _ => .wait (.program cmd (bankBase addr)) := by
  obtain ⟨hin, rfl⟩ := hat
  have hbank : bankBase (bankBase addr) = bankBase addr := by simpa using bankBase_add addr 0
  have hl' : ∀ d, d = chipOf addr → (e.chip.get d).Listening .idle := fun d hd => hd ▸ hl
  have h1 := Env.write_hears (cfg := cfg) hm (chipOf_bankBase_add hin _) hl
    (fun _ => hear_idle_key1 hbank) trivial
  have h2 := Env.write_hears (cfg := cfg) (h1.mapped hm) (chipOf_bankBase_add hin _)
    (h1.listening hl' _ rfl) (fun _ => hear_key2 .fresh) trivial
  have h12 := h1.trans h2 fun _ => trivial
  have h3 := Env.write_hears (cfg := cfg) (h12.mapped hm) (chipOf_bankBase_add hin _)
    (h12.listening hl' _ rfl) (fun _ => (hear_command .fresh hcmd).trans hh) trivial
  exact h12.trans h3 fun _ => trivial

/-- A page, aligned and in the window of a chip that takes it, with its command. -/
theorem pageEvents_hears {addr : Addr} {cmd : Byte} {page : List Byte} (hm : e.dev.mapped = true)
    (hl : (e.chip.get c).Listening .idle) (hin : pageIn c addr page = true)
    (hcmd : cmd = cmdProgram ∨ cmd = cmdHProgram) (htarget : pageTarget c cmd addr = true) :
    e.HeardBy (e.after cfg (pageEvents cfg cmd addr page)) (· = c)
      fun _ => .start (Latch.loaded cmd addr page).awaited := by
  simp only [pageIn, Bool.and_eq_true, beq_iff_eq] at hin
  obtain ⟨⟨hin, hc⟩, hok⟩ := hin
  have hlen : page.length = pageSize := eq_of_beq (Bool.and_eq_true_iff.1 hok).2
  have halign : addr.toNat % pageSize = 0 := eq_of_beq (Bool.and_eq_true_iff.1 hok).1
  have hlast : inFlash (lastAddr addr).toNat = true ∧ chipOf (lastAddr addr) = c := by
    have hwin := chipOf_window.1 ⟨hin, hc⟩
    have hb := base_toNat c
    simp only [half, pageSize] at hwin halign
    rw [chipOf_window, lastAddr, BitVec.toNat_add]
    simp only [lastOff, half, BitVec.toNat_ofNat]
    omega
  have hl' : ∀ d, d = c → (e.chip.get d).Listening .idle := fun d hd => hd ▸ hl
  have hunlock := localUnlock_hears (cfg := cfg) (cmd := cmd) hm ⟨hin, hc⟩ hl
    (by rcases hcmd with rfl | rfl <;> decide) (by rcases hcmd with rfl | rfl <;> rfl)
  have hnokey : isKey1 cfg addr page = false := by
    have : page ≠ [key1] := fun h => by rw [h] at hlen; exact absurd hlen (by decide)
    simp [isKey1, this]
  have hblock := Env.write_hears (cfg := cfg) (addr := addr) (v := page)
    (h := .wait (.loaded cmd addr page)) (hunlock.mapped hm) ⟨hin, hc⟩ (hunlock.listening hl' c rfl)
    (fun _ => by simp [hear, hnokey, hok, htarget]) trivial
  have hsent := hunlock.trans hblock fun _ => trivial
  have hagain := Env.write_hears (cfg := cfg) (addr := lastAddr addr) (v := [page.getD 127 0])
    (h := .start (Latch.loaded cmd addr page).awaited) (hsent.mapped hm) hlast
    (hsent.listening hl' c rfl) (fun _ => by simp [hear]) trivial
  rw [pageEvents, Env.after_append]
  exact hsent.trans hagain fun _ => trivial

end

end Sys2Proof.Machine


/-! A wait that has ended: the answers it has read, and the operation that the last of them completed. -/

namespace Sys2Proof.Machine

open Sys2Proof

/-! ### Driven to its end -/

/-- One turn of a wait. -/
theorem runPhases_wait_cases (s : State) (addr : Addr) (c : Bool) (rest : List Phase) :
    isReady (s.poll addr).1 = true ∧
        s.runPhases c (.wait addr :: rest) = (s.poll addr).2.runPhases c rest ∨
      isReady (s.poll addr).1 = false ∧
        (s.runPhases c (.wait addr :: rest) = (s.poll addr).2.failOut c .pollTimeout addr ∨
          s.runPhases c (.wait addr :: rest) =
            { (s.poll addr).2 with seq := .running c (.wait addr) rest }) := by
  rw [State.runPhases]
  simp only [Phase.perform, State.waitTurn]
  cases hready : isReady (s.poll addr).1 with
  | true => exact .inl ⟨rfl, rfl⟩
  | false =>
    refine .inr ⟨rfl, ?_⟩
    cases (s.poll addr).2.timedOut with
    | true => exact .inl rfl
    | false => exact .inr rfl

theorem failOut_idle (s : State) (c : Bool) (cause : Cause) (info : BitVec 24) :
    (s.failOut c cause info).seq = .idle ∧ (s.failOut c cause info).rc = cause.code := ⟨rfl, rfl⟩

/-- A wait that has ended, and not by its limit, has read busy answers and then a ready one. -/
theorem ends_wait {s : State} {addr : Addr} {c : Bool} {rest : List Phase} {n : Nat} (hi : s.seq = .idle)
    (hend : ((s.runPhases c (.wait addr :: rest)).drive n).seq = .idle)
    (hrc : ((s.runPhases c (.wait addr :: rest)).drive n).rc ≠ 0x05#8) :
    ∃ k m, EndsReady (s.env.polls s.cfg addr (k + 1)).1 ∧
      (s.runPhases c (.wait addr :: rest)).drive n =
        ((s.waited addr (s.env.polls s.cfg addr (k + 1)).1
          (s.env.polls s.cfg addr (k + 1)).2).runPhases c rest).drive m := by
  induction n generalizing s with
  | zero =>
    obtain ⟨hready, hgo⟩ | ⟨-, hfail | hagain⟩ := runPhases_wait_cases s addr c rest
    · refine ⟨0, 0, ⟨[], _, rfl, nofun, hready⟩, ?_⟩
      rw [hgo, State.poll_eq]
    · rw [hfail] at hrc
      exact absurd rfl hrc
    · rw [hagain] at hend
      cases hend
  | succ n ih =>
    obtain ⟨hready, hgo⟩ | ⟨hbusy, hfail | hagain⟩ := runPhases_wait_cases s addr c rest
    · refine ⟨0, n + 1, ⟨[], _, rfl, nofun, hready⟩, ?_⟩
      rw [hgo, State.poll_eq]
    · rw [hfail, drive_idle _ (failOut_idle ..).1] at hrc
      exact absurd rfl hrc
    · have hseq : (s.poll addr).2.seq = .idle := hi
      have hnext : (s.runPhases c (.wait addr :: rest)).drive (n + 1) =
          ((s.poll addr).2.runPhases c (.wait addr :: rest)).drive n := by
        rw [hagain]
        show State.drive n (State.runPhases c (.wait addr :: rest) { (s.poll addr).2 with seq := .idle }) = _
        rw [← hseq]
      rw [hnext] at hend hrc ⊢
      obtain ⟨k, m, ⟨busy, last, hbs, hb, hl⟩, ht⟩ := ih hseq hend hrc
      refine ⟨k + 1, m, ⟨(s.poll addr).1 :: busy, last, ?_, ?_, hl⟩, ?_⟩
      · exact congrArg ((s.poll addr).1 :: ·) hbs
      · exact List.forall_mem_cons.2 ⟨hbusy, hb⟩
      · rw [ht, State.poll_eq]
        have hne : ((s.poll addr).2.env.polls s.cfg addr (k + 1)).1 ≠ [] := by
          intro h
          have := congrArg List.length h
          simp at this
        exact congrArg (fun u => (State.runPhases c rest u).drive m)
          (State.waited_waited s addr _ _ _ _ hne)

/-- The same of a whole wait, with what it leaves. -/
theorem ends_waitPhases {s t : State} {addr : Addr} {c : Bool} {rest : List Phase} {n : Nat}
    (hi : s.seq = .idle) (ht : (s.runPhases c (waitPhases addr ++ rest)).drive n = t)
    (hend : t.seq = .idle) (hrc : t.rc ≠ 0x05#8) :
    ∃ bs e m, s.env.polls s.cfg addr bs.length = (bs, e) ∧ EndsReady bs ∧
      ((s.waitedAt addr bs e).runPhases c rest).drive m = t := by
  subst ht
  obtain ⟨k, m, hready, ht⟩ := ends_wait (s := { s with pcnt := 0 }) (c := c) (rest := rest) hi hend hrc
  refine ⟨(s.env.polls s.cfg addr (k + 1)).1, (s.env.polls s.cfg addr (k + 1)).2, m, ?_, hready, ?_⟩
  · rw [Env.polls_length]
  · refine Eq.trans ?_ ht.symm
    simp only [State.waited, State.waitedAt, Nat.zero_add]

/-! ### The operation the last answer completes -/

/-- From `e` to `e'` nothing has changed but draws. -/
structure Env.Drawn (e e' : Env) : Prop extends e.SameRest e' where
  chip : e'.chip = e.chip

theorem Env.drawn_draw (e : Env) : e.Drawn e.draw.2 := ⟨⟨e.draw_mem, e.draw_dev⟩, e.draw_chip⟩

/-- Chip `c`'s operation is seen complete by a byte with the error flag `err`, after some draws. -/
def Env.Completes (e e' : Env) (c : Chip) (err : Bool) : Prop :=
  ∃ e1, e.Drawn e1 ∧ e' = (e1.setChip c { e.chip.get c with failed := err }).complete c err

/-- A status read of a chip with an operation in flight. -/
theorem Env.read_status {cfg : Config} {e : Env} {addr : Addr} (h : e.statusAt addr = true)
    (hop : (e.chip.get (chipOf addr)).op ≠ .none) :
    (isReady ((e.read cfg addr 1).1.headD 0) = false → e.Drawn (e.read cfg addr 1).2) ∧
      (isReady ((e.read cfg addr 1).1.headD 0) = true → e.Completes (e.read cfg addr 1).2 (chipOf addr)
        (isError ((e.read cfg addr 1).1.headD 0))) := by
  have hin : inFlash addr.toNat = true := by
    simp only [Env.statusAt, Bool.and_eq_true] at h
    exact h.1.1.2
  obtain ⟨h0, h1⟩ := device_ne_flash hin
  have hread : e.read cfg addr 1 = ([(e.readStatus (chipOf addr)).1], (e.readStatus (chipOf addr)).2) := by
    rw [Env.read, if_pos rfl]
    simp only [Env.readOne, if_neg h0, if_neg h1, if_pos h]
  rw [hread]
  unfold Env.readStatus
  simp only [if_neg hop]
  cases hready : isReady e.draw.1 with
  | true => simpa [hready] using ⟨e.draw.2, e.drawn_draw, rfl⟩
  | false => simpa [hready] using e.drawn_draw

/-- A wait for a chip with an operation in flight completes it. -/
theorem Env.polls_completes {cfg : Config} {e e' : Env} {addr : Addr} {bs : List Byte}
    (h : e.statusAt addr = true) (hop : (e.chip.get (chipOf addr)).op ≠ .none)
    (hp : e.polls cfg addr bs.length = (bs, e')) (hr : EndsReady bs) :
    e.Completes e' (chipOf addr) (isError (bs.getLastD 0)) := by
  obtain ⟨busy, last, rfl, hbusy, hlast⟩ := hr
  rw [List.getLastD_concat]
  induction busy generalizing e with
  | nil =>
    obtain ⟨hhead, rfl⟩ := Prod.mk.inj hp
    have hhead : (e.read cfg addr 1).1.headD 0 = last := (List.cons.inj hhead).1
    exact hhead ▸ (Env.read_status h hop).2 (hhead ▸ hlast)
  | cons b busy ih =>
    obtain ⟨hbs, rfl⟩ := Prod.mk.inj hp
    obtain ⟨hhead, htail⟩ := List.cons.inj hbs
    have hdrawn := (Env.read_status (cfg := cfg) h hop).1 (hhead ▸ hbusy b (List.mem_cons_self ..))
    obtain ⟨e1, hd1, he1⟩ := ih (e := (e.read cfg addr 1).2)
      (by simpa only [Env.statusAt, hdrawn.dev, hdrawn.chip] using h)
      (by rw [hdrawn.chip]; exact hop) (Prod.ext htail rfl)
      fun x hx => hbusy x (List.mem_cons_of_mem _ hx)
    rw [hdrawn.chip] at he1
    exact ⟨e1, ⟨⟨hd1.mem.trans hdrawn.mem, hd1.dev.trans hdrawn.dev⟩, hd1.chip.trans hdrawn.chip⟩, he1⟩

end Sys2Proof.Machine


/-! What an erase that is seen complete leaves. -/

namespace Sys2Proof.Machine

open Sys2Proof

/-! ### An operation seen complete -/

section
variable {e e' : Env} {c : Chip} {err : Bool}

theorem Env.Completes.same (h : e.Completes e' c err) :
    e.SameOutside e' (fun a => e.inFlightAt c a = true) fun d o => d = c ∧ e.hiddenInFlightAt c o = true := by
  obtain ⟨e1, hd, rfl⟩ := h
  have h1 : e.SameOutside (e1.setChip c { e.chip.get c with failed := err })
      (fun a => e.inFlightAt c a = true) fun d o => d = c ∧ e.hiddenInFlightAt c o = true := by
    have h0 : e.SameOutside e1 (fun a => e.inFlightAt c a = true)
        fun d o => d = c ∧ e.hiddenInFlightAt c o = true :=
      .ofMem (by simp [hd.chip]) (by simp [hd.chip]) (by simp [hd.chip]) (by simp [hd.mem])
    exact h0.trans (Env.same_setChip (by simp [hd.chip]) (by simp [hd.chip]) (by simp [hd.chip]))
  refine h1.trans ((Env.complete_same _ c err).mono (fun a ha => ?_) fun d o hd => ⟨hd.1, ?_⟩)
  · simpa [Env.inFlightAt] using ha
  · simpa [Env.hiddenInFlightAt] using hd.2

theorem Env.Completes.other (h : e.Completes e' c err) {d : Chip} (hd : d ≠ c) :
    e'.chip.get d = e.chip.get d := by
  obtain ⟨e1, h1, rfl⟩ := h
  rw [Env.complete_get_of_ne _ err hd, Env.setChip_get_of_ne _ _ hd, h1.chip]

theorem Env.Completes.dev (h : e.Completes e' c err) : e'.dev = e.dev := by
  obtain ⟨e1, h1, rfl⟩ := h
  rw [Env.complete_dev, Env.setChip_dev, h1.dev]

/-- An erase of the array that counts (R74). -/
theorem Env.Completes.erased (h : e.Completes e' c false) (hop : (e.chip.get c).op = .erase)
    (hsound : (e.chip.get c).sound = true) (hp : e.dev.protect = .released) {o : Nat} (ho : o < half) :
    e'.arrayAt c o = erasedByte := by
  obtain ⟨e1, h1, rfl⟩ := h
  simp only [Env.complete, Env.setChip_get_self, hop, hsound, Env.setChip_dev, h1.dev, hp]
  simp [Env.eraseArray, Env.arrayAt, Env.arrayByte, Memory.read_clear, ho]

/-- An erase of the hidden sector that counts. -/
theorem Env.Completes.hiddenErased (h : e.Completes e' c false)
    (hop : (e.chip.get c).op = .hiddenErase) (hsound : (e.chip.get c).sound = true)
    (hp : e.dev.protect = .released) (o : Nat) : (e'.chip.get c).hid.read o = erasedByte := by
  obtain ⟨e1, h1, rfl⟩ := h
  simp only [Env.complete, Env.setChip_get_self, hop, hsound, Env.setChip_dev, h1.dev, hp]
  simp [Env.eraseHidden, Memory.writeBytes]

end

/-! ### Both chips, one after the other -/

theorem statusAt_base {e : Env} (hm : e.dev.mapped = true) {c : Chip}
    (h : (e.chip.get c).mode = .status) : e.statusAt (base c) = true := by
  have hin : inFlash (base c).toNat = true ∧ chipOf (base c) = c := by cases c <;> exact ⟨rfl, rfl⟩
  simp [Env.statusAt, hm, hin, bankBase_base, h]

/-- A wait for both chips that has ended completes chip A's operation and then chip B's. -/
theorem ends_waitBoth {s t : State} {n : Nat} (hi : s.seq = .idle)
    (ht : (s.runPhases false (waitBoth ++ [.done])).drive n = t) (hend : t.seq = .idle)
    (hrc : t.rc ≠ 0x05#8) (hm : s.env.dev.mapped = true)
    (hmode : ∀ c, (s.env.chip.get c).mode = .status) (hop : ∀ c, (s.env.chip.get c).op ≠ .none) :
    ∃ e1, s.env.Completes e1 .a (isError (t.st.get .a)) ∧
      e1.Completes t.env .b (isError (t.st.get .b)) := by
  obtain ⟨bsa, ea, m, hpa, hra, ha⟩ := ends_waitPhases (rest := waitPhases (base .b) ++ [.done]) hi ht hend hrc
  obtain ⟨bsb, eb, k, hpb, hrb, hb⟩ := ends_waitPhases (s := s.waitedAt (base .a) bsa ea) hi ha hend hrc
  have hdone : t = ((s.waitedAt (base .a) bsa ea).waitedAt (base .b) bsb eb).finish rcOk 0 :=
    hb.symm.trans (drive_idle k rfl)
  have hca := Env.polls_completes (statusAt_base hm (hmode .a)) (hop .a) hpa hra
  have hother := hca.other (d := .b) (by decide)
  have hcb := Env.polls_completes (e := ea) (statusAt_base (by rw [hca.dev]; exact hm)
    (by rw [hother]; exact hmode .b)) (by rw [show chipOf (base .b) = .b from rfl, hother]; exact hop .b)
    hpb hrb
  exact ⟨ea, by rw [hdone]; exact hca, by rw [hdone]; exact hcb⟩

/-- The two erases, and the operation each starts. -/
def Erases (i : Instr) (op : ChipOp) : Prop :=
  i = .chipErase ∧ op = .erase ∨ i = .hiddenErase ∧ op = .hiddenErase

theorem exec_erase {s : State} {i : Instr} {op : ChipOp} (hi : Erases i op) (hrel : s.Released) :
    exec i s = .next ((s.afterWrites (globalWrites s.cfg i)).runPhases false (waitBoth ++ [.done])) := by
  rcases hi with ⟨rfl, rfl⟩ | ⟨rfl, rfl⟩
  · exact (exec_chipErase hrel).trans (congrArg _ (runPhases_phasesOf (i := .chipErase) rfl rfl s false))
  · exact (exec_hiddenErase hrel).trans
      (congrArg _ (runPhases_phasesOf (i := .hiddenErase) rfl rfl s false))

theorem Env.Contract.quiet {e : Env} (h : e.Contract) (c : Chip) : (e.chip.get c).quiet := by
  obtain ⟨-, -, ha, hb⟩ := h
  cases c
  · exact ha
  · exact hb

/-- Under the contract the writes of an erase start it on both chips. -/
theorem erase_starts {cfg : Config} {e : Env} {i : Instr} {op : ChipOp} (hi : Erases i op)
    (hc : e.Contract) :
    e.HeardBy (e.after cfg (globalWrites cfg i)) (fun _ => True) fun _ => .start op := by
  have hl : ∀ c, (e.chip.get c).Listening .idle := fun c => (hc.quiet c).listening
  rcases hi with ⟨rfl, rfl⟩ | ⟨rfl, rfl⟩ <;>
    exact unlock6_hears hc.1 hl (by decide) (by decide) (fun c => by cases c <;> rfl)
      fun c => by cases c <;> rfl

/-- An erase that has ended OK has been seen complete on both chips, write-protect being released from its
start: by the byte each wait ended with. -/
theorem erase_ends {s t : State} {i : Instr} {n : Nat} {op : ChipOp} (hi : Erases i op)
    (hrel : s.Released) (hc : s.env.Contract) (hends : s.Ends i n t) (hrc : t.rc = 0x00#8) :
    ∃ e0 e1 : Env, (∀ c, (e0.chip.get c).op = op ∧ (e0.chip.get c).sound = true) ∧
      e0.dev.protect = .released ∧ e0.Completes e1 .a (isError (t.st.get .a)) ∧
      e1.Completes t.env .b (isError (t.st.get .b)) := by
  obtain ⟨⟨t0, he, ht⟩, hend⟩ := hends
  obtain rfl := Host.Outcome.next.inj ((exec_erase hi hrel).symm.trans he)
  have hsent := erase_starts (cfg := s.cfg) hi hc
  have hchip : ∀ c, ((s.afterWrites (globalWrites s.cfg i)).env.chip.get c) =
      (s.env.chip.get c).hearing s.env.dev.protect (.start op) := fun c => hsent.self c trivial
  have hop : op ≠ .none := by rcases hi with ⟨-, rfl⟩ | ⟨-, rfl⟩ <;> nofun
  obtain ⟨e1, ha, hb⟩ := ends_waitBoth (s := s.afterWrites (globalWrites s.cfg i)) hrel.1.1.1 ht hend
    (by rw [hrc]; decide) (hsent.mapped hc.1) (fun c => by rw [hchip]; rfl)
    fun c => by rw [hchip]; exact hop
  refine ⟨_, e1, fun c => ?_, ?_, ha, hb⟩
  · rw [hchip]
    exact ⟨rfl, decide_eq_true hc.2.1⟩
  · exact (congrArg Device.protect hsent.dev).trans hc.2.1

/-- Settles O53: each chip's erase is completed by the byte its wait ended with, and the other chip's
changes nothing there. -/
theorem eraseEffect : Obligations.EraseEffect := by
  unfold Obligations.EraseEffect
  refine ⟨fun s n t c hrel hc hends hrc herr o ho => ?_, fun s n t c hrel hc hends hrc herr o => ?_⟩
  · obtain ⟨e0, e1, hop, hp, ha, hb⟩ := erase_ends (.inl ⟨rfl, rfl⟩) hrel hc hends hrc
    have hopb : (e1.chip.get .b).op = .erase ∧ (e1.chip.get .b).sound = true := by
      rw [ha.other (by decide)]; exact hop .b
    cases c with
    | a =>
      rw [herr] at ha
      refine (hb.same.array .a o ho fun h => ?_).trans (ha.erased (hop .a).1 (hop .a).2 hp ho)
      rw [Env.inFlightAt, hopb.1, erase_storesAt, base_a_toNat, base_b_toNat] at h
      omega
    | b =>
      rw [herr] at hb
      exact hb.erased hopb.1 hopb.2 (by rw [ha.dev, hp]) ho
  · obtain ⟨e0, e1, hop, hp, ha, hb⟩ := erase_ends (.inr ⟨rfl, rfl⟩) hrel hc hends hrc
    have hopb : (e1.chip.get .b).op = .hiddenErase ∧ (e1.chip.get .b).sound = true := by
      rw [ha.other (by decide)]; exact hop .b
    cases c with
    | a =>
      rw [herr] at ha
      exact (hb.same.hid .a o (by simp)).trans (ha.hiddenErased (hop .a).1 (hop .a).2 hp o)
    | b =>
      rw [herr] at hb
      exact hb.hiddenErased hopb.1 hopb.2 (by rw [ha.dev, hp]) o

end Sys2Proof.Machine


/-! What a program that is seen complete leaves. -/

namespace Sys2Proof.Machine

open Sys2Proof

/-! ### The program of a page, completed -/

section
variable {e e' : Env} {c : Chip} {addr : Addr} {page : List Byte}

theorem Env.programPage_good (hfresh : addr.toNat ∉ (e.chip.get c).programmed)
    (herased : e.pageErased c addr.toNat = true) :
    (e.programPage c true addr page).mem = e.mem.writeBytes addr.toNat page ∧
      ((e.programPage c true addr page).chip.get c).programmed =
        (e.chip.get c).programmed.insert addr.toNat := by
  simp [Env.programPage, hfresh, herased, Env.setChip]

/-- A program that counts stores its page (R75). -/
theorem Env.Completes.programmed (h : e.Completes e' c false)
    (hop : (e.chip.get c).op = .program addr page) (hsound : (e.chip.get c).sound = true)
    (hdist : (e.chip.get c).disturbed = false) (hp : e.dev.protect = .released)
    (hfresh : addr.toNat ∉ (e.chip.get c).programmed) (herased : e.pageErased c addr.toNat = true) :
    e'.mem = e.mem.writeBytes addr.toNat page ∧
      (e'.chip.get c).programmed = (e.chip.get c).programmed.insert addr.toNat := by
  obtain ⟨e1, h1, rfl⟩ := h
  have herased1 : (e1.setChip c { e.chip.get c with failed := false }).pageErased c addr.toNat = true := by
    rw [← herased]
    simp [Env.pageErased, Env.arrayByte, h1.mem]
  have hgood := Env.programPage_good (page := page)
    (e := e1.setChip c { e.chip.get c with failed := false }) (by simpa using hfresh) herased1
  have hcomplete : (e1.setChip c { e.chip.get c with failed := false }).complete c false =
      (e1.setChip c { e.chip.get c with failed := false }).programPage c true addr page := by
    simp [Env.complete, hop, h1.dev, hsound, hp, hdist]
  rw [hcomplete, hgood.1, hgood.2, Env.setChip_mem, Env.setChip_get_self, h1.mem]
  exact ⟨rfl, rfl⟩

/-- Its bytes read as the page, also in an array that a failed erase left unspecified. -/
theorem arrayAt_programmed {o i : Nat} (hw : e.mem.wf = true)
    (hm : e'.mem = e.mem.writeBytes ((base c).toNat + o) page)
    (hp : (base c).toNat + o ∈ (e'.chip.get c).programmed) (halign : ((base c).toNat + o) % pageSize = 0)
    (hlen : page.length = pageSize) (hi : i < pageSize) : e'.arrayAt c (o + i) = page.getD i 0 := by
  have hpage : (base c).toNat + (o + i) - ((base c).toNat + (o + i)) % pageSize = (base c).toNat + o := by
    simp only [pageSize] at *
    omega
  have hread : e'.mem.read ((base c).toNat + (o + i)) = page.getD i 0 := by
    rw [hm, ← Nat.add_assoc, Memory.read_writeBytes_inside hw (hlen ▸ hi),
      List.getD_eq_getElem _ _ (hlen ▸ hi)]
  unfold Env.arrayAt Env.arrayByte
  rw [hpage, hread]
  split
  · rw [if_pos (by simpa using hp)]
  · rfl

/-- A hidden program that counts stores its page. -/
theorem Env.Completes.hiddenProgrammed (h : e.Completes e' c false)
    (hop : (e.chip.get c).op = .hiddenProgram addr page) (hsound : (e.chip.get c).sound = true)
    (hdist : (e.chip.get c).disturbed = false) (hp : e.dev.protect = .released)
    (hfresh : chipOff addr.toNat - hidOff ∉ (e.chip.get c).hidProgrammed)
    (herased : (e.chip.get c).hid.erased (chipOff addr.toNat - hidOff) = true) :
    (e'.chip.get c).hid = (e.chip.get c).hid.writeBytes (chipOff addr.toNat - hidOff) page := by
  obtain ⟨e1, h1, rfl⟩ := h
  simp only [Env.complete, Env.setChip_get_self, hop, Env.setChip_dev, h1.dev, hsound, hp, hdist]
  simp [Env.programHidden, hfresh, herased]

end

/-! ### The wait that completes it -/

/-- A wait at the bank base of a page's address that ends OK completes what its chip has in flight, and
the operation ends on the status it latched. -/
theorem ends_waitBank {s t : State} {addr : Addr} {last : Phase} {n : Nat}
    (hlast : ∀ s : State, (s.runPhases false [last]).env = s.env ∧ (s.runPhases false [last]).st = s.st ∧
      (s.runPhases false [last]).seq = .idle)
    (hi : s.seq = .idle) (ht : (s.runPhases false (waitPhases (bankBase addr) ++ [last])).drive n = t)
    (hend : t.seq = .idle) (hrc : t.rc ≠ 0x05#8) (hm : s.env.dev.mapped = true)
    (hin : inFlash addr.toNat = true) (hmode : (s.env.chip.get (chipOf addr)).mode = .status)
    (hop : (s.env.chip.get (chipOf addr)).op ≠ .none) :
    s.env.Completes t.env (chipOf addr) (isError (t.st.get (chipOf addr))) ∧
      ∃ u : State, u.st = t.st ∧ u.runPhases false [last] = t := by
  obtain ⟨bs, e, m, hp, hr, hgo⟩ := ends_waitPhases hi ht hend hrc
  obtain ⟨henv, hst, hidle⟩ := hlast (s.waitedAt (bankBase addr) bs e)
  have hbank : inFlash (bankBase addr).toNat = true ∧ chipOf (bankBase addr) = chipOf addr := by
    simpa using chipOf_bankBase_add hin 0
  have hbb : bankBase (bankBase addr) = bankBase addr := by simpa using bankBase_add addr 0
  have hstatus : s.env.statusAt (bankBase addr) = true := by
    simp [Env.statusAt, hm, hbank, hbb, hmode]
  have hc := Env.polls_completes hstatus (by rw [hbank.2]; exact hop) hp hr
  rw [drive_idle m hidle] at hgo
  refine ⟨?_, _, by rw [← hgo, hst], hgo⟩
  rw [← hgo, henv, hst]
  simpa [State.waitedAt, hbank.2] using hc

/-- What chips hear changes no byte. -/
theorem Env.HeardBy.same {e e' : Env} {chips : Chip → Prop} {h : Chip → Heard}
    (hh : e.HeardBy e' chips h) (bus : Nat → Prop) (hidden : Chip → Nat → Prop) :
    e.SameOutside e' bus hidden := by
  have hkeep : ∀ c, (e'.chip.get c).wild = (e.chip.get c).wild ∧
      (e'.chip.get c).programmed = (e.chip.get c).programmed ∧
      (e'.chip.get c).hid = (e.chip.get c).hid := by
    intro c
    by_cases hc : chips c
    · rw [hh.self c hc]
      cases h c <;> exact ⟨rfl, rfl, rfl⟩
    · rw [hh.other c hc]
      exact ⟨rfl, rfl, rfl⟩
  exact .ofMem (fun c => (hkeep c).1) (fun c => (hkeep c).2.1) (fun c => (hkeep c).2.2)
    fun a _ => by rw [hh.mem]

/-- PAGE_WRITE and a wait that ends without error (R75). -/
theorem pageWrite_effect {s t : State} {addr : Addr} {page : List Byte} {n : Nat} {c : Chip} {o : Nat}
    (hrel : s.Released) (hc : s.env.Contract) (hwf : s.env.wf = true)
    (hin : pageIn c addr page = true) (ho : addr.toNat = (base c).toNat + o)
    (hfresh : addr.toNat ∉ (s.env.chip.get c).programmed)
    (herased : ∀ i < pageSize, s.env.arrayAt c (o + i) = erasedByte)
    (hends : (s.run (.pageWrite addr page)).Ends (.waitReady (bankBase addr)) n t) (hrc : t.rc = 0x00#8)
    (herr : isError (t.st.get c) = false) :
    (∀ i < pageSize, t.env.arrayAt c (o + i) = page.getD i 0) ∧
      s.env.SameOutside t.env (fun a => addr.toNat ≤ a ∧ a < addr.toNat + pageSize)
        fun _ _ => False := by
  have hin' := hin
  simp only [pageIn, Bool.and_eq_true, beq_iff_eq] at hin'
  obtain ⟨⟨hflash, rfl⟩, hok⟩ := hin'
  have hlen : page.length = pageSize := eq_of_beq (Bool.and_eq_true_iff.1 hok).2
  have halign : addr.toNat % pageSize = 0 := eq_of_beq (Bool.and_eq_true_iff.1 hok).1
  have hstart := pageEvents_hears (cfg := s.cfg) (cmd := cmdProgram) hc.1 (hc.quiet _).listening hin
    (.inl rfl) rfl
  have hsent : s.run (.pageWrite addr page) = (s.sendPage cmdProgram addr page).succeed 0 := by
    simp [State.run, exec_pageWrite hrel hok]
  rw [hsent] at hends
  generalize hu : (s.sendPage cmdProgram addr page).succeed 0 = u at hends
  have huenv : u.env = s.env.after s.cfg (pageEvents s.cfg cmdProgram addr page) := by
    rw [← hu, State.sendPage_eq]; rfl
  have hready : u.Ready := by
    rw [← hu, State.sendPage_eq]; exact ⟨⟨rfl, hrel.1.1.2⟩, hrel.1.2⟩
  rw [← huenv] at hstart
  have hchip := hstart.self _ rfl
  obtain ⟨⟨t0, he, ht⟩, hend⟩ := hends
  cases (exec_waitReady hready).symm.trans he
  obtain ⟨hcomplete, -⟩ := ends_waitBank (addr := addr) (s := u) (fun _ => ⟨rfl, rfl, rfl⟩) hready.1.1 ht hend
    (by rw [hrc]; decide) (hstart.mapped hc.1) hflash (by rw [hchip]; rfl) (by rw [hchip]; nofun)
  rw [herr] at hcomplete
  have herased' : u.env.pageErased (chipOf addr) addr.toNat = true := by
    simp only [Env.pageErased, List.all_eq_true, List.mem_range, beq_iff_eq]
    intro i hi
    rw [← herased i hi, Env.arrayAt, ← Nat.add_assoc, ← ho, Env.arrayByte, Env.arrayByte, hchip, hstart.mem]
    rfl
  obtain ⟨hmem, hprog⟩ := hcomplete.programmed (by rw [hchip]; rfl)
    (by rw [hchip]; exact decide_eq_true hc.2.1) (by rw [hchip]; rfl) (by rw [hstart.dev]; exact hc.2.1)
    (by rw [hchip]; exact hfresh) herased'
  rw [hstart.mem, ho] at hmem
  refine ⟨fun i hi => arrayAt_programmed (Env.wf_iff.1 hwf).1 hmem ?_ (ho ▸ halign) hlen hi, ?_⟩
  · rw [hprog, ← ho]
    simp
  · refine (hstart.same _ _).trans (hcomplete.same.mono (fun a ha => ?_) fun d x hd => ?_)
    · rw [Env.inFlightAt, hchip] at ha
      have ha := program_storesAt.1 ha
      rwa [hlen, Nat.max_self] at ha
    · rw [Env.hiddenInFlightAt, hchip] at hd
      cases hd.2

/-! ### A page of the hidden sector -/

theorem Memory.erased_iff {m : Memory} {a : Nat} :
    m.erased a = true ↔ ∀ i < pageSize, m.read (a + i) = erasedByte := by
  simp only [Memory.erased, List.all_eq_true, beq_iff_eq, List.mem_iff_getElem]
  constructor
  · intro h i hi
    exact h _ ⟨i, by simpa using hi, Memory.getElem_readBytes _⟩
  · rintro h _ ⟨i, hi, rfl⟩
    rw [Memory.getElem_readBytes]
    exact h i (by simpa using hi)

theorem hiddenProgram_storesAt {addr : Addr} {page : List Byte} {o : Nat} :
    (ChipOp.hiddenProgram addr page).hiddenStoresAt o = true ↔
      chipOff addr.toNat - hidOff ≤ o ∧ o < chipOff addr.toNat - hidOff + max pageSize page.length := by
  simp [ChipOp.hiddenStoresAt]

/-- The two pages of a chip's hidden sector (R170). -/
theorem hiddenPage_placed (c : Chip) (second : Bool) {page : List Byte} (hlen : page.length = 128) :
    let p := if second then 128 else 0
    let addr := base c + 0xFF00#24 + BitVec.ofNat 24 p
    pageIn c addr page = true ∧ pageTarget c cmdHProgram addr = true ∧
      chipOff addr.toNat - hidOff = p := by
  cases c <;> cases second <;> simp only [pageIn, pageOperandsOk, hlen] <;> decide

/-- HIDDEN_WRITE that ends OK with `RES` 0 (R75, R133). -/
theorem hiddenWrite_effect {s t : State} {addr : Addr} {page : List Byte} {n : Nat} {c : Chip} {p : Nat}
    (hrel : s.Released) (hc : s.env.Contract) (hwf : s.env.wf = true)
    (hin : pageIn c addr page = true) (htarget : pageTarget c cmdHProgram addr = true)
    (hp : chipOff addr.toNat - hidOff = p) (hfresh : p ∉ (s.env.chip.get c).hidProgrammed)
    (herased : ∀ i < pageSize, (s.env.chip.get c).hid.read (p + i) = erasedByte)
    (hends : s.Ends (.hiddenWrite addr page) n t) (hrc : t.rc = 0x00#8) (hres : t.res = 0) :
    (∀ i < pageSize, (t.env.chip.get c).hid.read (p + i) = page.getD i 0) ∧
      s.env.SameOutside t.env (fun _ => False) fun d o => d = c ∧ p ≤ o ∧ o < p + pageSize := by
  have hin' := hin
  simp only [pageIn, Bool.and_eq_true, beq_iff_eq] at hin'
  obtain ⟨⟨hflash, rfl⟩, hok⟩ := hin'
  have hlen : page.length = pageSize := eq_of_beq (Bool.and_eq_true_iff.1 hok).2
  have hbank : chipOf (bankBase addr) = chipOf addr := by simpa using (chipOf_bankBase_add hflash 0).2
  have hstart := pageEvents_hears (cfg := s.cfg) (cmd := cmdHProgram) hc.1 (hc.quiet _).listening hin
    (.inr rfl) htarget
  obtain ⟨⟨t0, he, ht⟩, hend⟩ := hends
  rw [exec_hiddenWrite hrel hok, Host.Outcome.next.injEq] at he
  generalize hu : s.sendPage cmdHProgram addr page = u at hstart
  have huenv : u.env = s.env.after s.cfg (pageEvents s.cfg cmdHProgram addr page) := by
    rw [← hu, State.sendPage_eq]; rfl
  have hrun : (u.runPhases false (waitPhases (bankBase addr) ++ [.doneErr (chipOf (bankBase addr))])).drive
      n = t := by
    rw [← ht, ← he, ← hu]; rfl
  rw [← huenv] at hstart
  have hchip := hstart.self _ rfl
  obtain ⟨hcomplete, v, hv, hdone⟩ := ends_waitBank (addr := addr) (s := u) (fun _ => ⟨rfl, rfl, rfl⟩)
    (by rw [← hu, State.sendPage_eq]; exact hrel.1.1.1) hrun hend (by rw [hrc]; decide)
    (hstart.mapped hc.1) hflash (by rw [hchip]; rfl) (by rw [hchip]; nofun)
  have herr : isError (t.st.get (chipOf addr)) = false := by
    rw [← hdone] at hres
    have hflag : flagRes (isError (v.st.get (chipOf (bankBase addr)))) = 0 := hres
    rw [hv, hbank] at hflag
    cases h : isError (t.st.get (chipOf addr)) with
    | false => rfl
    | true => rw [h] at hflag; cases hflag
  rw [herr] at hcomplete
  have hhid := hcomplete.hiddenProgrammed (by rw [hchip]; rfl)
    (by rw [hchip]; exact decide_eq_true hc.2.1) (by rw [hchip]; rfl) (by rw [hstart.dev]; exact hc.2.1)
    (by rw [hchip, hp]; exact hfresh) (by rw [hchip, hp]; exact Memory.erased_iff.2 herased)
  rw [hp] at hhid
  replace hhid : (t.env.chip.get (chipOf addr)).hid =
      (s.env.chip.get (chipOf addr)).hid.writeBytes p page := by rw [hhid, hchip]; rfl
  refine ⟨fun i hi => ?_, ?_⟩
  · rw [hhid, Memory.read_writeBytes_inside (Bool.and_eq_true_iff.1 (Env.chip_hid_wf hwf _)).1 (hlen ▸ hi),
      List.getD_eq_getElem _ _ (hlen ▸ hi)]
  · refine (hstart.same _ _).trans (hcomplete.same.mono (fun a ha => ?_) fun d x hd => ?_)
    · rw [Env.inFlightAt, hchip] at ha
      cases ha
    · rw [Env.hiddenInFlightAt, hchip] at hd
      have hx := hiddenProgram_storesAt.1 hd.2
      rw [hp, hlen, Nat.max_self] at hx
      exact ⟨hd.1, hx⟩

/-- Settles O54: the page's program is started by its writes and completed by the wait, and stores nothing
else. -/
theorem programEffect : Obligations.ProgramEffect := by
  unfold Obligations.ProgramEffect
  refine ⟨?_, ?_⟩
  · intro s addr page n t c o hrel hc hwf hin halign hlen hfresh herased hends hrc herr
    have hwin : (base c).toNat ≤ addr.toNat ∧ addr.toNat < (base c).toNat + half :=
      chipOf_window.1 ⟨hin, rfl⟩
    have ho : addr.toNat = (base c).toNat + o := (Nat.add_sub_cancel' hwin.1).symm
    obtain ⟨hpage, hframe⟩ := pageWrite_effect hrel hc hwf
      (by simp [pageIn, pageOperandsOk, pageSize, hin, halign, hlen, c]) ho hfresh herased hends hrc herr
    have hb := base_toNat c
    have hbo := base_toNat c.other
    have hne : (base c).toNat ≠ (base c.other).toNat := by cases c <;> decide
    refine ⟨hpage, fun x hx hout => hframe.array c x hx fun h => hout ?_, fun x hx =>
      hframe.array c.other x hx fun h => ?_⟩
    · rw [ho] at h
      simp only [pageSize] at h
      omega
    · simp only [half, pageSize] at hwin h
      omega
  · intro s c second page n t p hid hrel hc hwf hlen hfresh herased hends hrc hres
    obtain ⟨hin, htarget, hp⟩ := hiddenPage_placed c second hlen
    obtain ⟨hpage, hframe⟩ := hiddenWrite_effect hrel hc hwf hin htarget hp hfresh herased hends hrc hres
    refine ⟨hpage, fun x hx => hframe.hid c x fun h => hx h.2, fun x => hframe.hid c.other x fun h => ?_,
      fun d x hx => hframe.array d x hx nofun⟩
    cases c <;> cases h.1

end Sys2Proof.Machine

/-! Proofs of the encoding family: every operation's record decodes back to it, and a record whose opcode is
on no row of the table is refused. -/

namespace Sys2Proof.Machine

open Sys2Proof Sys2Proof.Laws

/-! ### The decoder and the encoder -/

/-- R100: the command byte is `arg[7:0]`. -/
theorem argCmd_eq_extractLsb' (arg : BitVec 23) : argCmd arg = arg.extractLsb' 0 8 :=
  BitVec.setWidth_eq_extractLsb' (by decide)

/-- R100: the chip is `arg[0]`, 0 = A and 1 = B. -/
theorem argChip_eq_extractLsb' (arg : BitVec 23) :
    argChip arg = if arg.extractLsb' 0 1 = 1#1 then .b else .a := by
  have hbit : arg.extractLsb' 0 1 = 1#1 ↔ arg.getLsbD 0 = true := by
    simp [BitVec.eq_of_getLsbD_eq_iff]
  simp only [argChip, hbit]

/-- The encoder puts each operand where the decoder reads it. -/
@[simp] theorem decode_encode (i : Instr) : decode (encode i) = .ok i := by
  cases i with
  | unlockAndGlobal cmd => simp [encode, decode, Command.bare]
  | unlockAndLocal addr cmd => simp [encode, decode, Command.bare]
  | statusStep chip => simp [encode, decode, Command.bare]
  | _ => rfl

/-- Each operation has one opcode: the decoder answers it on no other. -/
theorem encode_op_of_decode {r : Command} {i : Instr} (h : decode r = .ok i) : (encode i).op = r.op := by
  unfold decode at h
  split at h <;> cases h
  all_goals
    next hop => exact BitVec.eq_of_toNat_eq hop.symm

open EncodedOpcode in
/-- The encoder answers the opcodes of R101 only: its law for each operation. -/
theorem encode_op_mem_opcodes (i : Instr) : (encode i).op ∈ opcodes :=
  i.casesOn (motive := Statement) unlockAndGlobal unlockAndLocal readReset showHidden hide chipErase
    hiddenErase pageWrite hiddenWrite statusStep waitReady writeRom writeLoop verifyRom writeMap verifyMap
    dirPresent dirOpen dirNext sessionOpen wpRelease wpAssert sessionClose sramWrite sramVerify

/-- R106: the decoder answers on the opcodes of R101 only. -/
theorem decode_of_not_mem_opcodes {r : Command} (hop : r.op ∉ opcodes) :
    ∃ e, decode r = .error e := by
  cases hd : decode r with
  | error e => exact ⟨e, rfl⟩
  | ok i => exact absurd (encode_op_of_decode hd ▸ encode_op_mem_opcodes i) hop

/-- Settles O2: an operand is read back from where the encoder puts it, and each row of the decoder is
that of one operation. -/
theorem encodedRecordDecodesBack : Obligations.EncodedRecordDecodesBack :=
  ⟨decode_encode, fun _ _ => encode_op_of_decode⟩

/-- Settles O1: row by row; the operands in `arg` are the fields R100 names. -/
theorem opcodeMap : Obligations.OpcodeMap := by
  intro addr arg b1 b2
  rw [← argCmd_eq_extractLsb', ← argChip_eq_extractLsb']
  exact ⟨⟨rfl, rfl, rfl, rfl, rfl, rfl, rfl, rfl, rfl, rfl, rfl⟩,
    ⟨rfl, rfl, rfl, rfl, rfl, rfl, rfl, rfl⟩, ⟨rfl, rfl, rfl, rfl, rfl, rfl⟩⟩

/-- Settles O3: a finite check of 26 words. -/
theorem tableWordsDecode : Obligations.TableWordsDecode := by
  unfold Obligations.TableWordsDecode
  decide

/-! ### The refusal -/

/-- Settles O4: the record decodes to no operation, and the refusal of an idle engine changes `RC` and
`RES` alone. -/
theorem illegalCommandRefused : Obligations.IllegalCommandRefused := by
  intro s r rs hidle hinbox hop
  obtain ⟨e, hd⟩ := decode_of_not_mem_opcodes hop
  rw [step_idle_error hidle hinbox hd, refuse_eq]
  exact congrArg _ (finish_idle (s := { s with inbox := rs }) hidle _ _)

end Sys2Proof.Machine


/-! The command encoder: the operations that end when their writes, or their one look, are done. -/

namespace Sys2Proof.Machine

open Sys2Proof

/-! ### Results and refusals -/

/-- Success of an operation that is issued in IDLE and has not left it. -/
theorem succeed_idle {s : State} (h : s.seq = .idle) (res : BitVec 24) :
    s.succeed res = { s with rc := 0x00#8, res := res } := finish_idle h rcOk res

theorem afterWrites_succeed {s : State} (h : s.seq = .idle) (ws : List BusWrite) (res : BitVec 24) :
    (s.afterWrites ws).succeed res = { s.afterWrites ws with rc := 0x00#8, res := res } :=
  succeed_idle (s := s.afterWrites ws) h res

/-- Ill-formed operands, where the session and write-protect are as the operation asks. -/
theorem exec_illFormed {i : Instr} {s : State} (hi : makesNoCheck i = false) (h : s.Ready)
    (hw : needsRelease i = true → s.wpr = true) (hok : i.wellFormed = false) :
    exec i s = .next (s.stopped (badCause i).code) := by
  obtain ⟨body, hb⟩ := exec_operate i hi
  rw [hb, hok]
  exact State.operate_bad h hw

theorem pageOperandsOk_iff {addr : Addr} {page : List Byte} :
    pageOperandsOk addr page = true ↔ addr.toNat % 128 = 0 ∧ page.length = 128 := by
  simp [pageOperandsOk, pageSize]

/-- `RES` of a look (R98, R122). -/
theorem code_classify (b : Byte) :
    (classify b).code = if b.getLsbD 7 then (if b.getLsbD 4 then 2 else 1) else 0 := by
  unfold classify isReady isError
  cases b.getLsbD 7 <;> cases b.getLsbD 4 <;> rfl

/-! ### The obligations -/

/-- Settles O8: the six writes are those of the format, and an accepted operation stays in IDLE. -/
theorem unlockAndGlobalEvents : Obligations.UnlockAndGlobalEvents := by
  intro s cmd
  refine ⟨fun h => ?_, exec_closed rfl⟩
  rw [exec_unlockAndGlobal h, memWrites_eq, unlockGlobalWrites_eq, afterWrites_succeed h.1.1]

/-- Settles O9: likewise, at the bank base. -/
theorem unlockAndLocalEvents : Obligations.UnlockAndLocalEvents := by
  intro s addr cmd
  refine ⟨fun h => ?_, exec_closed rfl⟩
  rw [exec_unlockAndLocal h, memWrites_eq, unlockLocalWrites_eq, afterWrites_succeed h.1.1]

/-- Settles O10: `READ_RESET` is the global unlock with 0xF0. -/
theorem readResetEvents : Obligations.ReadResetEvents := by
  intro s
  refine ⟨fun h => ?_, exec_closed rfl⟩
  rw [exec_readReset h, State.readReset_eq, afterWrites_succeed h.1.1]

/-- Settles O11: the page is sent and nothing is polled; the checks decide the other cases. -/
theorem pageWriteEvents : Obligations.PageWriteEvents := by
  intro s addr page
  refine ⟨fun h halign hlen => ?_, fun h hbad => ?_, exec_guarded rfl, exec_closed rfl⟩
  · rw [exec_pageWrite h (pageOperandsOk_iff.2 ⟨halign, hlen⟩), State.sendPage_eq,
      afterWrites_succeed (s := { s with pbuf := page }) h.1.1.1]
    rfl
  · exact exec_illFormed rfl h.1 (fun _ => h.2)
      (Bool.eq_false_iff.2 fun hok => hbad (pageOperandsOk_iff.1 hok))

/-- Settles O12: one look, whose class is the result. -/
theorem statusStepResult : Obligations.StatusStepResult := by
  intro s c
  refine ⟨fun h => ?_, exec_closed rfl⟩
  have hidle : (s.look c).2.seq = .idle := h.1.1
  have hcode : (s.look c).1.code = _ := code_classify ((s.env.read s.cfg (base c) 1).1.headD 0)
  rw [exec_statusStep h, succeed_idle hidle, hcode]
  simp only [← Env.read_one]
  rfl

end Sys2Proof.Machine


/-! The command encoder: the operations that wait, answered ready in the end or never. -/

namespace Sys2Proof.Machine

open Sys2Proof

/-! ### A whole wait -/

/-- The bank base of an address is its chip's. -/
@[simp] theorem chipOf_bankBase (addr : Addr) : chipOf (bankBase addr) = chipOf addr := by
  simp [chipOf, bankBase]

/-- One poll is a one-byte read. -/
theorem Env.polls_one (cfg : Config) (addr : Addr) (e : Env) :
    e.polls cfg addr 1 = e.read cfg addr 1 := Prod.ext (Env.read_one cfg e addr).symm rfl

/-- The event of one poll. -/
theorem polled_read (cfg : Config) (e : Env) (addr : Addr) :
    polled addr (e.read cfg addr 1).1 = [.read addr (e.read cfg addr 1).1] := by
  rw [Env.read_one]
  rfl

theorem getLastD_read (cfg : Config) (e : Env) (addr : Addr) :
    (e.read cfg addr 1).1.getLastD 0 = (e.read cfg addr 1).1.headD 0 := by
  rw [Env.read_one]
  rfl

section
variable {s : State} {addr : Addr} {k : Nat} (c : Bool) (rest : List Phase)

/-- A wait that is answered ready at once, whatever the limit is. -/
theorem runPhases_waitPhases_ready (h : isReady ((s.env.read s.cfg addr 1).1.headD 0) = true) :
    s.runPhases c (waitPhases addr ++ rest) =
      (s.waitedAt addr (s.env.read s.cfg addr 1).1 (s.env.read s.cfg addr 1).2).runPhases c rest := by
  obtain ⟨-, hgo⟩ | ⟨hbusy, -⟩ := runPhases_wait_cases { s with pcnt := 0 } addr c rest
  · refine hgo.trans ?_
    rw [State.poll_eq, Env.polls_one]
    simp only [State.waited, State.waitedAt, Nat.zero_add]
  · exact absurd (hbusy.symm.trans h) (by decide)

/-- Both waits of `WaitBoth`, answered ready at once. -/
theorem runPhases_waitBoth_ready
    (ha : isReady ((s.env.read s.cfg (base .a) 1).1.headD 0) = true)
    (hb : isReady (((s.env.read s.cfg (base .a) 1).2.read s.cfg (base .b) 1).1.headD 0) = true) :
    s.runPhases c (waitBoth ++ rest) =
      let ra := s.env.read s.cfg (base .a) 1
      let rb := ra.2.read s.cfg (base .b) 1
      ((s.waitedAt (base .a) ra.1 ra.2).waitedAt (base .b) rb.1 rb.2).runPhases c rest :=
  (runPhases_waitPhases_ready c (waitPhases (base .b) ++ rest) ha).trans
    (runPhases_waitPhases_ready (s := s.waitedAt (base .a) _ _) c rest hb)

/-- A whole wait none of whose answers is ready, up to the limit. -/
theorem drive_waitPhases_timeout (hi : s.seq = .idle) (hl : s.cfg.pollLimit = some (k + 1))
    (hb : ∀ b ∈ (s.env.polls s.cfg addr (k + 1)).1, isReady b = false) :
    (s.runPhases c (waitPhases addr ++ rest)).drive k =
      (s.waitedAt addr (s.env.polls s.cfg addr (k + 1)).1
        (s.env.polls s.cfg addr (k + 1)).2).failOut c .pollTimeout addr := by
  refine (drive_wait_timeout (s := { s with pcnt := 0 }) c rest hi hb (by simpa using hl)).trans ?_
  simp only [State.waited, State.waitedAt, Nat.zero_add]

end

/-! ### The ends of the operations that wait -/

/-- A result that is written in IDLE ends the phases. -/
theorem runPhases_done {s : State} (hi : s.seq = .idle) (c : Bool) :
    s.runPhases c [.done] = { s with rc := 0x00#8, res := 0 } := succeed_idle hi 0

theorem runPhases_doneStatus {s : State} (hi : s.seq = .idle) (c : Bool) (chip : Chip) :
    s.runPhases c [.doneStatus chip] =
      { s with rc := 0x00#8, res := (s.st.get chip).setWidth 24 } := succeed_idle hi _

theorem runPhases_doneErr {s : State} (hi : s.seq = .idle) (c : Bool) (chip : Chip) :
    s.runPhases c [.doneErr chip] =
      { s with rc := 0x00#8, res := if (s.st.get chip).getLsbD 4 then 1 else 0 } := succeed_idle hi _

theorem runPhases_page (s : State) (c : Bool) (cmd : Byte) (addr : Addr) (page : List Byte)
    (rest : List Phase) : s.runPhases c (.page cmd addr page :: rest) =
      (State.afterWrites { s with pbuf := page } (pageEvents s.cfg cmd addr page)).runPhases c rest :=
  congrArg (State.runPhases c rest) (State.sendPage_eq s cmd addr page)

/-- A failure of an operation that sends nothing after it. -/
theorem failOut_false {s : State} (hi : s.seq = .idle) (cause : Cause) (info : BitVec 24) :
    s.failOut false cause info = { s with rc := cause.code, res := info } := finish_idle hi _ _

/-- The failure of a composite sends `READ_RESET` first (R224). -/
theorem failOut_true {s : State} (hi : s.seq = .idle) (cause : Cause) (info : BitVec 24) :
    s.failOut true cause info =
      { s.afterWrites (globalUnlock s.cfg 0xF0#8) with rc := cause.code, res := info } := by
  show s.readReset.finish cause.code info = _
  rw [State.readReset_eq]
  exact finish_idle (s := s.afterWrites _) hi _ _

/-- The failure of an operation that waits for both chips first. -/
theorem failOut_cleanupWrites {s : State} {i : Instr} (hw : waitsFirst i = true) (hi : s.seq = .idle)
    (cause : Cause) (info : BitVec 24) : s.failOut (cleansUp i) cause info =
      { s.afterWrites (cleanupWrites s.cfg i) with rc := cause.code, res := info } := by
  have hfalse : s.failOut false cause info =
      { s.afterWrites [] with rc := cause.code, res := info } := by
    rw [State.afterWrites_nil]
    exact failOut_false hi cause info
  cases i with
  | showHidden | hide | chipErase | hiddenErase => exact hfalse
  | verifyMap | writeRom => exact failOut_true hi cause info
  | _ => cases hw

/-! ### The operations that wait for both chips first -/

/-- What such an operation does after its waits. -/
def afterWaits : Instr → List Phase
  | .writeRom buf =>
    writeLoopPhases (romA buf) (romB buf) ++ [.unlockGlobal cmdReset, .doneRom buf.length]
  | i => [lastPhase i]

/-- It sends its writes, waits for both chips, and goes on. -/
theorem exec_waitsFirst {s : State} {i : Instr} (hi : waitsFirst i = true) (h : s.Ready)
    (hw : needsRelease i = true → s.wpr = true) (hok : i.wellFormed = true) :
    exec i s = .next
      ((s.afterWrites (globalWrites s.cfg i)).runPhases (cleansUp i) (waitBoth ++ afterWaits i)) := by
  rw [exec_operate_phases (runsInPhases_of_waitsFirst hi), State.operate_run h hw hok]
  refine congrArg _ ?_
  cases i with
  | writeRom buf =>
    refine (runPhases_unlockGlobal s _ cmdErase1 _).trans
      ((runPhases_unlockGlobal _ _ cmdErase2 _).trans ?_)
    rw [afterWrites_cfg, State.afterWrites_append]
    rfl
  | showHidden | hide | chipErase | hiddenErase | verifyMap => exact runPhases_phasesOf hi rfl s _
  | _ => cases hi

theorem waitsFirst_of_waitsForBoth {i : Instr} (h : waitsForBoth i = true) : waitsFirst i = true := by
  cases i <;> cases h <;> rfl

/-- One of the four global commands: no composite, and ended after its waits. -/
theorem exec_waitsForBoth {s : State} {i : Instr} (hi : waitsForBoth i = true) (h : s.Ready)
    (hw : needsRelease i = true → s.wpr = true) :
    exec i s = .next ((s.afterWrites (globalWrites s.cfg i)).runPhases false (waitBoth ++ [.done])) := by
  rw [exec_waitsFirst (waitsFirst_of_waitsForBoth hi) h hw (by cases i <;> cases hi <;> rfl)]
  cases i <;> cases hi <;> rfl

/-- Settles O16: the writes, `WaitBoth` and the result, whatever the error bits are. -/
theorem globalCommandsWaitForBoth : Obligations.GlobalCommandsWaitForBoth := by
  intro s i j k hi ws ra rb h hw ha hb hj hk
  refine ⟨_, exec_waitsForBoth hi h hw, ?_⟩
  exact (drive_waitBoth (s := s.afterWrites ws) false [.done] h.1.1 ha hb hj hk).trans
    (runPhases_done (by exact h.1.1) false)

/-! ### The operations that wait for one chip -/

/-- Settles O13: one wait, and the byte that ended it. -/
theorem waitReadyEndsAtReady : Obligations.WaitReadyEndsAtReady := by
  intro s addr k r last h hr hl
  refine ⟨_, exec_waitReady h, ?_⟩
  refine (drive_waitPhases false [.doneStatus (chipOf addr)] h.1.1 hr hl).trans ?_
  refine (runPhases_doneStatus (by exact h.1.1) false _).trans ?_
  simp only [State.waitedAt, Env.polls_length, PerChip_get_set_self]
  rfl

/-- HIDDEN_WRITE sends its page and waits at its bank base. -/
theorem exec_hiddenWrite_sent {s : State} {addr : Addr} {page : List Byte} (h : s.Released)
    (halign : addr.toNat % 128 = 0) (hlen : page.length = 128) :
    exec (.hiddenWrite addr page) s = .next
      ((State.afterWrites { s with pbuf := page } (pageEvents s.cfg 0x99#8 addr page)).runPhases false
        (waitPhases (bankBase addr) ++ [.doneErr (chipOf addr)])) := by
  rw [exec_hiddenWrite h (pageOperandsOk_iff.2 ⟨halign, hlen⟩), chipOf_bankBase]
  exact congrArg _ (runPhases_page s false cmdHProgram addr page _)

/-- Settles O17: the page, the wait at the bank base, and the error flag of the byte that ended it. -/
theorem hiddenWriteResult : Obligations.HiddenWriteResult := by
  intro s addr page k bank ws r last h halign hlen hr hl
  refine ⟨_, exec_hiddenWrite_sent h halign hlen, ?_⟩
  have hwait := drive_waitPhases (s := State.afterWrites { s with pbuf := page } ws)
    (addr := bankBase addr) false [.doneErr (chipOf addr)] h.1.1.1 hr hl
  refine hwait.trans ((runPhases_doneErr (by exact h.1.1.1) false _).trans ?_)
  simp only [State.waitedAt, Env.polls_length, chipOf_bankBase, PerChip_get_set_self]
  rfl

end Sys2Proof.Machine


/-! The command encoder: waits that are answered at once, and waits that reach the limit. -/

namespace Sys2Proof.Machine

open Sys2Proof

/-! ### Answered at once -/

/-- `VERIFY_MAP` after its waits: two reads, `READ_RESET`, and whether the bytes read are the map (R172). -/
theorem State.mapReadBack_eq (s : State) (map : List Byte) :
    s.mapReadBack map =
      let da := s.memRead (hiddenBase .a) hidRead
      let db := da.2.memRead (hiddenBase .b) hidRead
      (db.2.afterWrites (globalUnlock s.cfg 0xF0#8)).finish
        (if da.1 ++ db.1 = map then 0x00#8 else 0x03#8) (if da.1 ++ db.1 = map then 1 else 0) := by
  simp only [State.mapReadBack, State.readReset_eq]
  split <;> rfl

/-- Its result and its trace. -/
theorem mapReadBack_result (s : State) (map : List Byte) :
    let da := s.env.read s.cfg 0xC0FF00#24 256
    let db := da.2.read s.cfg 0xE0FF00#24 256
    (s.mapReadBack map).rc = (if da.1 ++ db.1 = map then 0x00#8 else 0x03#8) ∧
      (s.mapReadBack map).res = (if da.1 ++ db.1 = map then 1 else 0) ∧
      (s.mapReadBack map).trace = s.trace ++ [.read 0xC0FF00#24 da.1, .read 0xE0FF00#24 db.1] ++
        wrote (globalUnlock s.cfg 0xF0#8) := by
  have ha : hiddenBase .a = 0xC0FF00#24 := rfl
  have hb : hiddenBase .b = 0xE0FF00#24 := rfl
  have hn : hidRead = 256 := rfl
  rw [State.mapReadBack_eq, ha, hb, hn]
  simp [State.memRead]

theorem runPhases_mapReadBack (s : State) (c : Bool) (map : List Byte) :
    s.runPhases c [.mapReadBack map] = s.mapReadBack map := by
  show ({ s.mapReadBack map with seq := .idle } : State) = s.mapReadBack map
  rw [State.mapReadBack_eq]
  rfl

/-- The trace of two waits that are answered at once. -/
theorem waitedAt_read_trace (s : State) (addr1 addr2 : Addr) :
    let ra := s.env.read s.cfg addr1 1
    let rb := ra.2.read s.cfg addr2 1
    ((s.waitedAt addr1 ra.1 ra.2).waitedAt addr2 rb.1 rb.2).trace =
      s.trace ++ [.read addr1 ra.1, .read addr2 rb.1] := by
  simp [State.waitedAt, polled_read]

section
variable {s : State}

/-- `WAIT_READY`, answered ready at once. -/
theorem exec_waitReady_ready {addr : Addr} (h : s.Ready)
    (hready : isReady ((s.env.read s.cfg addr 1).1.headD 0) = true) :
    exec (.waitReady addr) s =
      let r := s.env.read s.cfg addr 1
      .next { s.waitedAt addr r.1 r.2 with rc := 0x00#8, res := (r.1.headD 0).setWidth 24 } := by
  have hend := (runPhases_waitPhases_ready false [.doneStatus (chipOf addr)] hready).trans
    (runPhases_doneStatus (by exact h.1.1) false _)
  refine (exec_waitReady h).trans (congrArg _ (hend.trans ?_))
  simp only [State.waitedAt, PerChip_get_set_self, getLastD_read]

/-- A global command, both of whose waits are answered ready at once. -/
theorem exec_waitsForBoth_ready {i : Instr} (hi : waitsForBoth i = true) (h : s.Ready)
    (hw : needsRelease i = true → s.wpr = true) {u : State} (hu : u = s.afterWrites (globalWrites s.cfg i))
    (ha : isReady ((u.env.read u.cfg (base .a) 1).1.headD 0) = true)
    (hb : isReady (((u.env.read u.cfg (base .a) 1).2.read u.cfg (base .b) 1).1.headD 0) = true) :
    exec i s =
      let ra := u.env.read u.cfg (base .a) 1
      let rb := ra.2.read u.cfg (base .b) 1
      .next { (u.waitedAt (base .a) ra.1 ra.2).waitedAt (base .b) rb.1 rb.2 with rc := 0x00#8, res := 0 } := by
  have hidle : u.seq = .idle := by rw [hu]; exact h.1.1
  rw [exec_waitsForBoth hi h hw, ← hu]
  exact congrArg _ ((runPhases_waitBoth_ready false [.done] ha hb).trans
    (runPhases_done (by exact hidle) false))

/-- `HIDDEN_WRITE`, answered ready at once. -/
theorem exec_hiddenWrite_ready {addr : Addr} {page : List Byte} (h : s.Released)
    (halign : addr.toNat % 128 = 0) (hlen : page.length = 128) {u : State}
    (hu : u = State.afterWrites { s with pbuf := page } (pageEvents s.cfg 0x99#8 addr page))
    (hready : isReady ((u.env.read u.cfg (bankBase addr) 1).1.headD 0) = true) :
    exec (.hiddenWrite addr page) s =
      let r := u.env.read u.cfg (bankBase addr) 1
      .next { u.waitedAt (bankBase addr) r.1 r.2 with
        rc := 0x00#8, res := if (r.1.headD 0).getLsbD 4 then 1 else 0 } := by
  have hidle : u.seq = .idle := by rw [hu]; exact h.1.1.1
  have hend := (runPhases_waitPhases_ready false [.doneErr (chipOf addr)] hready).trans
    (runPhases_doneErr (by exact hidle) false _)
  rw [exec_hiddenWrite_sent h halign hlen, ← hu]
  refine congrArg _ (hend.trans ?_)
  simp only [State.waitedAt, chipOf_bankBase, PerChip_get_set_self, getLastD_read]

/-- `VERIFY_MAP`, both of whose waits are answered ready at once. -/
theorem exec_verifyMap_ready {map : List Byte} (h : s.Ready) (hlen : map.length = 512) {u : State}
    (hu : u = s.afterWrites (rawEvents s.cfg s.cfg.showSeq))
    (ha : isReady ((u.env.read u.cfg (base .a) 1).1.headD 0) = true)
    (hb : isReady (((u.env.read u.cfg (base .a) 1).2.read u.cfg (base .b) 1).1.headD 0) = true) :
    exec (.verifyMap map) s =
      let ra := u.env.read u.cfg (base .a) 1
      let rb := ra.2.read u.cfg (base .b) 1
      .next (((u.waitedAt (base .a) ra.1 ra.2).waitedAt (base .b) rb.1 rb.2).mapReadBack map) := by
  rw [exec_waitsFirst (i := .verifyMap map) rfl h (by simp [needsRelease]) (beq_iff_eq.2 hlen)]
  subst hu
  exact congrArg _ ((runPhases_waitBoth_ready true [.mapReadBack map] ha hb).trans
    (runPhases_mapReadBack _ true map))

end

/-- Settles O18: no busy answer, so no step is left at a wait. -/
theorem waitsAnsweredAtOnceComplete : Obligations.WaitsAnsweredAtOnceComplete := by
  refine ⟨?_, ?_, ?_, ?_⟩
  · intro s addr h hready
    refine ⟨_, exec_waitReady_ready h hready, h.1.1, rfl, rfl, ?_⟩
    exact congrArg (s.trace ++ ·) (polled_read ..)
  · intro s i hi h hw ra rb ha hb
    exact ⟨_, exec_waitsForBoth_ready hi h hw rfl ha hb, h.1.1, rfl, rfl,
      waitedAt_read_trace (s.afterWrites (globalWrites s.cfg i)) (base .a) (base .b)⟩
  · intro s addr page h halign hlen r hready
    refine ⟨_, exec_hiddenWrite_ready h halign hlen rfl hready, h.1.1.1, rfl, rfl, ?_⟩
    exact congrArg (_ ++ ·) (polled_read ..)
  · intro s map h hlen ra rb da db ha hb
    obtain ⟨hrc, hres, htrace⟩ := mapReadBack_result
      (((s.afterWrites (rawEvents s.cfg s.cfg.showSeq)).waitedAt (base .a) ra.1 ra.2).waitedAt (base .b)
        rb.1 rb.2) map
    refine ⟨_, exec_verifyMap_ready h hlen rfl ha hb, by rw [State.mapReadBack_eq]; rfl, hrc, hres, ?_⟩
    have hwaits := waitedAt_read_trace (s.afterWrites (rawEvents s.cfg s.cfg.showSeq)) (base .a) (base .b)
    refine (htrace.trans (congrArg (· ++ _ ++ _) hwaits)).trans ?_
    simp only [afterWrites_trace, List.append_assoc]
    rfl

/-! ### The limit -/

section
variable {s : State} {i : Instr} {j k : Nat}

/-- The first wait of an operation that waits for both chips fails. -/
theorem waitsFirst_timeout_a (hi : waitsFirst i = true) (hidle : s.seq = .idle)
    (hl : s.cfg.pollLimit = some (k + 1))
    (hb : ∀ b ∈ (s.env.polls s.cfg (base .a) (k + 1)).1, isReady b = false) :
    (s.runPhases (cleansUp i) (waitBoth ++ afterWaits i)).drive k =
      let ra := s.env.polls s.cfg (base .a) (k + 1)
      { (s.waitedAt (base .a) ra.1 ra.2).afterWrites (cleanupWrites s.cfg i) with
        rc := 0x05#8, res := base .a } :=
  (drive_waitPhases_timeout (cleansUp i) (waitPhases (base .b) ++ afterWaits i) hidle hl hb).trans
    (failOut_cleanupWrites (s := s.waitedAt (base .a) _ _) hi hidle .pollTimeout (base .a))

/-- … or the second. -/
theorem waitsFirst_timeout_b (hi : waitsFirst i = true) (hidle : s.seq = .idle)
    (hl : s.cfg.pollLimit = some (k + 1)) (hjk : j ≤ k)
    (ha : EndsReady (s.env.polls s.cfg (base .a) (j + 1)).1)
    (hb : ∀ b ∈ ((s.env.polls s.cfg (base .a) (j + 1)).2.polls s.cfg (base .b) (k + 1)).1,
      isReady b = false) :
    (s.runPhases (cleansUp i) (waitBoth ++ afterWaits i)).drive (j + k) =
      let ra := s.env.polls s.cfg (base .a) (j + 1)
      let rb := ra.2.polls s.cfg (base .b) (k + 1)
      { ((s.waitedAt (base .a) ra.1 ra.2).waitedAt (base .b) rb.1 rb.2).afterWrites
          (cleanupWrites s.cfg i) with rc := 0x05#8, res := base .b } := by
  have hj : allowsBusy s.cfg j := fun n hn => by cases hl.symm.trans hn; omega
  rw [drive_add]
  refine (congrArg (State.drive k) (drive_waitPhases (cleansUp i) (waitPhases (base .b) ++ afterWaits i)
    hidle ha hj)).trans ?_
  exact (drive_waitPhases_timeout (s := s.waitedAt (base .a) _ _) (cleansUp i) (afterWaits i) hidle hl hb).trans
    (failOut_cleanupWrites (s := (s.waitedAt (base .a) _ _).waitedAt (base .b) _ _) hi hidle .pollTimeout
      (base .b))

end

/-! ### The unconstrained environment -/

section
variable {cfg : Config} {e : Env} {as bs rest : List Byte} {addr : Addr}

theorem Env.Answers.unmapped (h : e.Answers as rest) : e.dev.mapped = false := by
  simp [Device.mapped, h.1]

/-- A write in the flash window takes no answer. -/
theorem Env.Answers.write (h : e.Answers as rest) (hin : inFlash addr.toNat = true) (v : List Byte) :
    (e.write cfg addr v).Answers as rest := by
  have hmode : e.modeWrite cfg addr v = e := by simp [Env.modeWrite, h.1]
  have hlose : e.chipWrite cfg (chipOf addr) addr v = e.lose (chipOf addr) := by
    simp [Env.chipWrite, h.unmapped]
  rw [Env.write_flash hin, hmode, hlose]
  exact h

theorem Env.Answers.after {ws : List BusWrite} (h : e.Answers as rest)
    (hin : ∀ w ∈ ws, inFlash w.1.toNat = true) : (e.after cfg ws).Answers as rest := by
  induction ws generalizing e with
  | nil => exact h
  | cons w ws ih =>
    exact ih (h.write (hin w (List.mem_cons_self ..)) w.2) fun x hx => hin x (List.mem_cons_of_mem _ hx)

/-- A one-byte read in the flash window takes the next. -/
theorem Env.Answers.read {b : Byte} (h : e.Answers (b :: as) rest) (hin : inFlash addr.toNat = true) :
    (e.read cfg addr 1).1 = [b] ∧ (e.read cfg addr 1).2.Answers as rest := by
  obtain ⟨h0, h1⟩ := device_ne_flash hin
  have hread : e.read cfg addr 1 = ([b], { e with draws := as ++ rest }) := by
    simp [Env.read, Env.readOne, h0, h1, Env.statusAt, Env.byteAt, h.unmapped, Env.draw_cons h.2]
  rw [hread]
  exact ⟨rfl, h.1, rfl⟩

theorem Env.Answers.polls (h : e.Answers (bs ++ as) rest) (hin : inFlash addr.toNat = true) :
    (e.polls cfg addr bs.length).1 = bs ∧ (e.polls cfg addr bs.length).2.Answers as rest := by
  induction bs generalizing e with
  | nil => exact ⟨rfl, h⟩
  | cons b bs ih =>
    obtain ⟨hb, h'⟩ := h.read (cfg := cfg) hin
    obtain ⟨hbs, has⟩ := ih h'
    exact ⟨by simp [Env.polls, hb, hbs], has⟩

end

/-! ### An operation as a series of waits -/

/-- From `s` to `s'` the writes `ws` have been sent. -/
structure State.Sent (s s' : State) (ws : List BusWrite) : Prop where
  env : s'.env = s.env.after s.cfg ws
  trace : s'.trace = s.trace ++ wrote ws
  cfg : s'.cfg = s.cfg
  seq : s'.seq = s.seq

/-- The phases `pre` send the writes `ws` and poll nothing. -/
def Sends (cfg : Config) (pre : List Phase) (ws : List BusWrite) : Prop :=
  ∀ (s : State) (c : Bool) (rest : List Phase), s.cfg = cfg →
    ∃ s', s.runPhases c (pre ++ rest) = s'.runPhases c rest ∧ s.Sent s' ws

section
variable {cfg : Config} {pre : List Phase} {ws : List BusWrite}

theorem State.Sent.trans {s s1 s2 : State} {vs : List BusWrite} (h1 : s.Sent s1 vs) (h2 : s1.Sent s2 ws) :
    s.Sent s2 (vs ++ ws) where
  env := by rw [h2.env, h1.env, h1.cfg, Env.after_append]
  trace := by rw [h2.trace, h1.trace, wrote_append, List.append_assoc]
  cfg := h2.cfg.trans h1.cfg
  seq := h2.seq.trans h1.seq

theorem State.sent_afterWrites (s : State) (vs : List BusWrite) : s.Sent (s.afterWrites vs) vs :=
  ⟨rfl, rfl, rfl, rfl⟩

theorem sends_nil : Sends cfg [] [] := fun s _ _ _ =>
  ⟨s, rfl, ⟨rfl, (List.append_nil _).symm, rfl, rfl⟩⟩

/-- A phase that sends `vs`, before the others. -/
theorem sends_cons {p : Phase} {vs : List BusWrite} (h : Sends cfg pre ws)
    (hp : ∀ (s : State) c rest, s.cfg = cfg →
      ∃ s1, s.runPhases c (p :: rest) = s1.runPhases c rest ∧ s.Sent s1 vs) :
    Sends cfg (p :: pre) (vs ++ ws) := by
  intro s c rest hcfg
  obtain ⟨s1, hgo1, h1⟩ := hp s c (pre ++ rest) hcfg
  obtain ⟨s2, hgo2, h2⟩ := h s1 c rest (h1.cfg.trans hcfg)
  exact ⟨s2, hgo1.trans hgo2, h1.trans h2⟩

theorem sends_unlockGlobal (cmd : Byte) (h : Sends cfg pre ws) :
    Sends cfg (.unlockGlobal cmd :: pre) (globalUnlock cfg cmd ++ ws) :=
  sends_cons h fun s c rest hcfg =>
    ⟨_, runPhases_unlockGlobal s c cmd rest, hcfg ▸ s.sent_afterWrites _⟩

theorem sends_page (cmd : Byte) (addr : Addr) (page : List Byte) (h : Sends cfg pre ws) :
    Sends cfg (.page cmd addr page :: pre) (pageEvents cfg cmd addr page ++ ws) :=
  sends_cons h fun s c rest hcfg =>
    ⟨_, runPhases_page s c cmd addr page rest, hcfg ▸ ⟨rfl, rfl, rfl, rfl⟩⟩

/-- `ERR` is cleared or set on the way. -/
theorem sends_err {p : Phase} (hp : p = .clearErr ∨ ∃ c, p = .orErr c) (h : Sends cfg pre ws) :
    Sends cfg (p :: pre) ws := by
  refine sends_cons (vs := []) h fun s c rest _ => ?_
  rcases hp with rfl | ⟨chip, rfl⟩ <;>
    exact ⟨_, rfl, ⟨rfl, (List.append_nil _).symm, rfl, rfl⟩⟩

end

/-- The phases make the waits `waits`, each after the writes before it, and may then go on. -/
inductive MakesWaits (cfg : Config) : List Phase → List (List BusWrite × Addr) → Prop
  | rest (phases : List Phase) : MakesWaits cfg phases []
  | wait {pre phases : List Phase} {ws : List BusWrite} {addr : Addr}
      {waits : List (List BusWrite × Addr)} (hpre : Sends cfg pre ws) (h : MakesWaits cfg phases waits) :
      MakesWaits cfg (pre ++ (waitPhases addr ++ phases)) ((ws, addr) :: waits)

theorem waitedEvents_cons (ws : List BusWrite) (addr : Addr) (waits : List (List BusWrite × Addr)) (b : Byte)
    (bs : List Byte) : waitedEvents ((ws, addr) :: waits) (b :: bs) =
      wrote ws ++ (.read addr [b] :: waitedEvents waits bs) := by
  simp [waitedEvents]

/-- The waits before one that reaches the limit are answered ready at once: in the unconstrained
environment. -/
theorem drive_waits_timeout {cfg : Config} {phases : List Phase} {waits : List (List BusWrite × Addr)}
    (hm : MakesWaits cfg phases waits) {s : State} {c : Bool} {ready busy rest : List Byte}
    {ws : List BusWrite} {addr : Addr} (hcfg : s.cfg = cfg) (hidle : s.seq = .idle)
    (hl : cfg.pollLimit = some busy.length) (hne : busy ≠ [])
    (hget : waits[ready.length]? = some (ws, addr))
    (hflash : ∀ w ∈ waits, (∀ x ∈ w.1, inFlash x.1.toNat = true) ∧ inFlash w.2.toNat = true)
    (hready : ∀ b ∈ ready, isReady b = true) (hbusy : ∀ b ∈ busy, isReady b = false)
    (ha : s.env.Answers (ready ++ busy) rest) :
    ∃ u : State, (s.runPhases c phases).drive (busy.length - 1) = u.failOut c .pollTimeout addr ∧
      u.seq = .idle ∧ u.cfg = cfg ∧ u.pcnt = busy.length ∧ u.env.Answers [] rest ∧
      u.trace = s.trace ++ waitedEvents waits ready ++ wrote ws ++ polled addr busy := by
  induction hm generalizing s ready with
  | rest phases => cases hget
  | @wait pre phases ws' addr' waits hpre _ ih =>
    obtain ⟨s', hgo, hsent⟩ := hpre s c (waitPhases addr' ++ phases) hcfg
    have hcfg' : s'.cfg = cfg := hsent.cfg.trans hcfg
    have hidle' : s'.seq = .idle := hsent.seq.trans hidle
    obtain ⟨⟨hws, haddr⟩, hflash⟩ := List.forall_mem_cons.1 hflash
    have ha' : s'.env.Answers (ready ++ busy) rest := by
      rw [hsent.env]
      exact ha.after hws
    rw [hgo]
    cases ready with
    | nil =>
      cases hget
      obtain ⟨hbs, hrest⟩ := Env.Answers.polls (cfg := s'.cfg) (as := []) (by simpa using ha') haddr
      have hlen : busy.length = busy.length - 1 + 1 := by
        have := List.length_pos_iff.2 hne
        omega
      rw [hlen] at hbs hrest
      refine ⟨_, drive_waitPhases_timeout c phases hidle' (by rw [hcfg', hl, ← hlen]) (by rwa [hbs]),
        hidle', hcfg', ?_, hrest, ?_⟩
      · rw [hbs, State.waitedAt]
      · rw [hbs, State.waitedAt, hsent.trace]
        simp [waitedEvents]
    | cons b ready =>
      obtain ⟨hb, hready⟩ := List.forall_mem_cons.1 hready
      obtain ⟨hread, hrest⟩ := Env.Answers.read (cfg := s'.cfg) ha' haddr
      rw [runPhases_waitPhases_ready c phases (by rwa [hread])]
      obtain ⟨u, hu, huidle, hucfg, hpcnt, hdraws, htrace⟩ := ih
        (s := s'.waitedAt addr' (s'.env.read s'.cfg addr' 1).1 (s'.env.read s'.cfg addr' 1).2)
        hcfg' hidle' hget hflash hready hrest
      refine ⟨u, hu, huidle, hucfg, hpcnt, hdraws, htrace.trans ?_⟩
      rw [hread, State.waitedAt, hsent.trace, waitedEvents_cons]
      simp [polled]

/-! ### WRITE_MAP -/

theorem pageEvents_inFlash {addr : Addr} (cfg : Config) (cmd : Byte) (page : List Byte)
    (hin : inFlash addr.toNat = true) (hlast : inFlash (lastAddr addr).toNat = true) :
    ∀ w ∈ pageEvents cfg cmd addr page, inFlash w.1.toNat = true := by
  have hbank := fun off : BitVec 16 => (chipOf_bankBase_add hin off).1
  have hunlock : ∀ w ∈ localUnlock cfg addr cmd, inFlash w.1.toNat = true :=
    List.forall_mem_cons.2 ⟨hbank _, List.forall_mem_cons.2 ⟨hbank _,
      List.forall_mem_cons.2 ⟨hbank _, nofun⟩⟩⟩
  exact List.forall_mem_append.2
    ⟨hunlock, List.forall_mem_cons.2 ⟨hin, List.forall_mem_cons.2 ⟨hlast, nofun⟩⟩⟩

theorem mapWaits_inFlash (cfg : Config) (map : List Byte) :
    ∀ w ∈ mapWaits cfg map, (∀ x ∈ w.1, inFlash x.1.toNat = true) ∧ inFlash w.2.toNat = true := by
  have hpage : ∀ (addr : Addr) page, inFlash addr.toNat = true → inFlash (lastAddr addr).toNat = true →
      ∀ w ∈ pageEvents cfg 0x99#8 addr page, inFlash w.1.toNat = true :=
    fun addr page => pageEvents_inFlash cfg 0x99#8 page
  simp only [mapWaits, List.forall_mem_cons]
  exact ⟨⟨List.forall_mem_append.2 ⟨globalUnlock_inFlash _ _, globalUnlock_inFlash _ _⟩, rfl⟩,
    ⟨nofun, rfl⟩, ⟨hpage _ _ rfl rfl, rfl⟩, ⟨hpage _ _ rfl rfl, rfl⟩, ⟨hpage _ _ rfl rfl, rfl⟩,
    ⟨hpage _ _ rfl rfl, rfl⟩, nofun⟩

/-- `WRITE_MAP` makes its six waits (R171). -/
theorem writeMap_makesWaits (cfg : Config) (map : List Byte) :
    MakesWaits cfg (phasesOf cfg (.writeMap map)) (mapWaits cfg map) := by
  have herase : Sends cfg [.clearErr, .unlockGlobal cmdHErase1, .unlockGlobal cmdHErase2] _ :=
    sends_err (.inl rfl) (sends_unlockGlobal _ (sends_unlockGlobal _ sends_nil))
  have hpage : ∀ k : Fin 4, Sends cfg [.page cmdHProgram (hiddenPage k) (mapPage map k)] _ := fun k =>
    sends_page _ _ _ sends_nil
  have hnext : ∀ (chip : Chip) (k : Fin 4),
      Sends cfg [.orErr chip, .page cmdHProgram (hiddenPage k) (mapPage map k)] _ := fun chip k =>
    sends_err (.inr ⟨chip, rfl⟩) (hpage k)
  simp only [List.append_nil] at herase hpage hnext
  exact .wait herase (.wait sends_nil (.wait (hpage 0) (.wait (hnext .a 1) (.wait (hnext .a 2)
    (.wait (hnext .b 3) (.rest _))))))

end Sys2Proof.Machine


/-! The command encoder: a wait that is never answered ready, with a limit. -/

namespace Sys2Proof.Machine

open Sys2Proof

section
variable {s : State} {k : Nat}

theorem waitReady_timeout {addr : Addr} (h : s.Ready) (hl : s.cfg.pollLimit = some (k + 1))
    (hb : ∀ b ∈ (s.env.polls s.cfg addr (k + 1)).1, isReady b = false) :
    s.Runs (.waitReady addr) k
      { s with
        env := (s.env.polls s.cfg addr (k + 1)).2
        trace := s.trace ++ polled addr (s.env.polls s.cfg addr (k + 1)).1
        st := s.st.set (chipOf addr) ((s.env.polls s.cfg addr (k + 1)).1.getLastD 0)
        pcnt := k + 1
        rc := 0x05#8
        res := addr } := by
  refine ⟨_, exec_waitReady h, ?_⟩
  have hend := (drive_waitPhases_timeout false [.doneStatus (chipOf addr)] h.1.1 hl hb).trans
    (failOut_false (by exact h.1.1) .pollTimeout addr)
  refine hend.trans ?_
  simp only [State.waitedAt, Env.polls_length]
  rfl

theorem hiddenWrite_timeout {addr : Addr} {page : List Byte} (h : s.Released)
    (halign : addr.toNat % 128 = 0) (hlen : page.length = 128) (hl : s.cfg.pollLimit = some (k + 1))
    {r : List Byte × Env}
    (hr : r = (s.env.after s.cfg (pageEvents s.cfg 0x99#8 addr page)).polls s.cfg (bankBase addr) (k + 1))
    (hb : ∀ b ∈ r.1, isReady b = false) :
    s.Runs (.hiddenWrite addr page) k
      { s with
        env := r.2
        trace := s.trace ++ wrote (pageEvents s.cfg 0x99#8 addr page) ++ polled (bankBase addr) r.1
        pbuf := page
        st := s.st.set (chipOf addr) (r.1.getLastD 0)
        pcnt := k + 1
        rc := 0x05#8
        res := bankBase addr } := by
  subst hr
  refine ⟨_, exec_hiddenWrite_sent h halign hlen, ?_⟩
  have hend := (drive_waitPhases_timeout (addr := bankBase addr)
    (s := State.afterWrites { s with pbuf := page } (pageEvents s.cfg 0x99#8 addr page)) false
    [.doneErr (chipOf addr)] h.1.1.1 hl hb).trans (failOut_false (by exact h.1.1.1) .pollTimeout _)
  refine hend.trans ?_
  simp only [State.waitedAt, Env.polls_length, chipOf_bankBase]
  rfl

/-- `WRITE_MAP`, in any of its six waits. -/
theorem writeMap_timeout {map ready busy rest : List Byte} {ws : List BusWrite} {addr : Addr}
    (h : s.Released) (hlen : map.length = 512) (hl : s.cfg.pollLimit = some busy.length) (hne : busy ≠ [])
    (hget : (mapWaits s.cfg map)[ready.length]? = some (ws, addr))
    (hready : ∀ b ∈ ready, isReady b = true) (hbusy : ∀ b ∈ busy, isReady b = false)
    (ha : s.env.Answers (ready ++ busy) rest) :
    ∃ t, s.Runs (.writeMap map) (busy.length - 1) t ∧ t.seq = .idle ∧ t.rc = 0x05#8 ∧
      t.res = addr ∧ t.pcnt = busy.length ∧ t.env.draws = rest ∧
      t.trace = s.trace ++ waitedEvents (mapWaits s.cfg map) ready ++ wrote ws ++
        polled addr busy ++ wrote (globalUnlock s.cfg 0xF0#8) := by
  obtain ⟨u, hu, hidle, hcfg, hpcnt, hdraws, htrace⟩ := drive_waits_timeout (c := true)
    (writeMap_makesWaits s.cfg map) rfl h.1.1.1 hl hne hget (mapWaits_inFlash s.cfg map) hready hbusy ha
  rw [failOut_true hidle, hcfg] at hu
  refine ⟨_, ⟨_, exec_writeMap h hlen, hu⟩, hidle, rfl, rfl, hpcnt, ?_, ?_⟩
  · exact (hdraws.after (cfg := u.cfg) (globalUnlock_inFlash s.cfg 0xF0#8)).2
  · rw [afterWrites_trace, htrace]

end

/-- Settles O14: a wait reads up to the limit and fails; a composite then sends `READ_RESET`. -/
theorem pollTimeoutAfterLimit : Obligations.PollTimeoutAfterLimit := by
  refine ⟨?_, ?_, ?_, ?_, ?_⟩
  · intro s addr k r h hl hb
    exact waitReady_timeout h hl hb
  · intro s i k hi hok ws ra clean h hw hl hb
    refine ⟨_, exec_waitsFirst hi h hw hok, ?_⟩
    refine (waitsFirst_timeout_a (s := s.afterWrites ws) hi h.1.1 hl hb).trans ?_
    simp only [State.waitedAt, Env.polls_length]
    rfl
  · intro s i j k hi hok ws ra rb clean h hw hl ha hjk hb
    refine ⟨_, exec_waitsFirst hi h hw hok, ?_⟩
    refine (waitsFirst_timeout_b (s := s.afterWrites ws) hi h.1.1 hl hjk ha hb).trans ?_
    simp only [State.waitedAt, Env.polls_length]
    rfl
  · intro s addr page k bank ws r h halign hlen hl hb
    exact hiddenWrite_timeout h halign hlen hl rfl hb
  · intro s map ready busy rest ws addr h hlen hl hne hget hready hbusy ha
    exact writeMap_timeout h hlen hl hne hget hready hbusy ha

end Sys2Proof.Machine


/-! The frame of the operations that only read. -/

namespace Sys2Proof.Machine

open Sys2Proof

/-! ### Reads, one after the other -/

/-- Outside the flash window a read changes no byte. -/
theorem Env.read_outside_same {cfg : Config} {e : Env} {addr : Addr} (hin : inFlash addr.toNat = false)
    (n : Nat) (bus : Nat → Prop) (hidden : Chip → Nat → Prop) :
    e.SameOutside (e.read cfg addr n).2 bus hidden := by
  have hkeep : ∀ e' : Env, e'.mem = e.mem → e'.chip = e.chip → e.SameOutside e' bus hidden :=
    fun e' hm hc => .ofMem (by simp [hc]) (by simp [hc]) (by simp [hc]) (by simp [hm])
  have hstatus : e.statusAt addr = false := by simp [Env.statusAt, hin]
  unfold Env.read
  split
  · simp only
    unfold Env.readOne
    split
    · exact hkeep _ (Env.readDevice_keeps ..).1 (Env.readDevice_keeps ..).2
    split
    · exact hkeep _ (Env.readDevice1_keeps ..).1 (Env.readDevice1_keeps ..).2
    rw [if_neg (by simp [hstatus])]
    exact hkeep _ (Env.byteAt_keeps ..).1 (Env.byteAt_keeps ..).2.1
  · exact hkeep _ (Env.bytesFrom_keeps ..).1 (Env.bytesFrom_keeps ..).2.1

/-- From `s` to `t` reads alone have been made, of which those that may be status reads were of the chips
`looks`. -/
structure State.Reads (looks : Chip → Prop) (s t : State) : Prop where
  trace : ∃ ev, t.trace = s.trace ++ ev ∧ ∀ addr v, Event.write addr v ∉ ev
  same : s.env.SameOutside t.env (fun a => ∃ c, looks c ∧ s.env.inFlightAt c a = true)
    (fun c o => looks c ∧ s.env.hiddenInFlightAt c o = true)
  flight : ∀ c, (t.env.chip.get c).op = (s.env.chip.get c).op ∨ (t.env.chip.get c).op = .none

section
variable {looks : Chip → Prop} {s t : State}

/-- Nothing but registers has changed. -/
theorem State.Reads.regs {u : State} (h : s.Reads looks t) (htrace : u.trace = t.trace)
    (henv : u.env = t.env) : s.Reads looks u := by
  obtain ⟨hev, hsame, hflight⟩ := h
  rw [← htrace] at hev
  rw [← henv] at hsame hflight
  exact ⟨hev, hsame, hflight⟩

theorem State.Reads.refl (looks : Chip → Prop) (s : State) : s.Reads looks s :=
  ⟨⟨[], by simp⟩, .refl .., fun _ => .inl rfl⟩

theorem State.Reads.stopped (looks : Chip → Prop) (s : State) (code : BitVec 8) :
    s.Reads looks (s.stopped code) := (State.Reads.refl looks s).regs rfl rfl

theorem State.Reads.mono {looks' : Chip → Prop} (h : s.Reads looks t)
    (hl : ∀ c, looks c → looks' c) : s.Reads looks' t :=
  ⟨h.trace,
    h.same.mono (fun _ ⟨c, hc, ha⟩ => ⟨c, hl c hc, ha⟩) fun c _ ⟨hc, ho⟩ => ⟨hl c hc, ho⟩, h.flight⟩

/-- What is still in flight was so before. -/
theorem State.Reads.within {c : Chip} {bus : Nat → Prop} {hidden : Chip → Nat → Prop}
    (h : s.Reads looks t) (hop : (s.env.chip.get c).op.Within c bus hidden) :
    (t.env.chip.get c).op.Within c bus hidden := by
  rcases h.flight c with hc | hc
  · exact hc ▸ hop
  · exact hc ▸ .none

/-- One more read: of one byte, it may be a status read of its chip. -/
theorem State.Reads.read (h : s.Reads looks t) (addr : Addr) (n : Nat)
    (hlook : n = 1 → inFlash addr.toNat = true → looks (chipOf addr)) :
    s.Reads looks (t.memRead addr n).2 := by
  refine ⟨?_, h.same.trans ?_, fun c => ?_⟩
  · obtain ⟨ev, htrace, hev⟩ := h.trace
    refine ⟨ev ++ [.read addr (t.env.read t.cfg addr n).1], by rw [memRead_trace, htrace, List.append_assoc],
      fun a v hmem => ?_⟩
    rcases List.mem_append.1 hmem with hmem | hmem
    · exact hev a v hmem
    · simp at hmem
  · rw [memRead_env]
    cases hin : inFlash addr.toNat with
    | false => exact Env.read_outside_same hin n _ _
    | true =>
      by_cases hn : n = 1
      · have hl := hlook hn hin
        exact Env.read_frame n (h.within ⟨fun a ha => ⟨_, hl, ha⟩, fun o ho => ⟨hl, ho⟩⟩)
      · exact (Env.read_same ..).mono (fun a ha => absurd ha.1 hn) fun c o ho => absurd ho.1 hn
  · rw [memRead_env]
    rcases (Env.read_get t.cfg t.env addr n c).1 with hop | hop
    · rw [hop]
      exact h.flight c
    · exact .inr hop

/-- A read of several bytes is no status read. -/
theorem State.Reads.readMany (h : s.Reads looks t) (addr : Addr) {n : Nat} (hn : n ≠ 1) :
    s.Reads looks (t.memRead addr n).2 := h.read addr n fun h1 => absurd h1 hn

theorem State.Reads.readSegments (as : List Addr) (h : s.Reads looks t) :
    s.Reads looks (t.readSegments as).2 := by
  induction as generalizing t with
  | nil => exact h
  | cons a as ih => exact ih (h.readMany a (by decide))

/-- The verifier may look at either chip, where its last chunk is one byte. -/
theorem State.Reads.verifyChunks (hlook : ∀ c, looks c) (n : Nat) (rest : List Byte)
    (h : s.Reads looks t) : s.Reads looks (State.verifyChunks n rest t) := by
  induction n generalizing rest t with
  | zero => exact h
  | succ n ih =>
    have hread := fun addr k => h.read addr k fun _ _ => hlook (chipOf addr)
    unfold State.verifyChunks
    split
    · exact h
    · simp only
      split
      · exact ih _ ((hread _ _).regs rfl rfl)
      · exact hread _ _

end

/-! ### A wait, and nothing else -/

/-- A status read at `addr` is of chip `c`. -/
def statusOf (addr : Addr) (c : Chip) : Prop := inFlash addr.toNat = true ∧ c = chipOf addr

/-- A phase that writes a result and ends the operation. -/
def Phase.ends (p : Phase) : Prop :=
  ∀ u : State, (u.runPhases false [p]).env = u.env ∧ (u.runPhases false [p]).trace = u.trace ∧
    (u.runPhases false [p]).seq = .idle

theorem doneStatus_ends (c : Chip) : (Phase.doneStatus c).ends := fun _ => ⟨rfl, rfl, rfl⟩

theorem doneErr_ends (c : Chip) : (Phase.doneErr c).ends := fun _ => ⟨rfl, rfl, rfl⟩

section
variable {s u : State} {addr : Addr} {last : Phase}

/-- One turn of a wait: it ends, or the next step is one more turn. -/
theorem wait_turn_reads (hlast : last.ends) (h : s.Reads (statusOf addr) u) :
    s.Reads (statusOf addr) (u.runPhases false [.wait addr, last]) ∧
      ((u.runPhases false [.wait addr, last]).seq = .idle ∨
        ∃ u', s.Reads (statusOf addr) u' ∧
          (u.runPhases false [.wait addr, last]).resume = u'.runPhases false [.wait addr, last]) := by
  have hpoll : s.Reads (statusOf addr) (u.poll addr).2 :=
    (h.read addr 1 fun _ hin => ⟨hin, rfl⟩).regs rfl rfl
  obtain ⟨-, hgo⟩ | ⟨-, hfail | hagain⟩ := runPhases_wait_cases u addr false [last]
  · obtain ⟨henv, htrace, hidle⟩ := hlast (u.poll addr).2
    rw [hgo]
    exact ⟨hpoll.regs htrace henv, .inl hidle⟩
  · rw [hfail]
    exact ⟨hpoll.regs rfl rfl, .inl rfl⟩
  · rw [hagain]
    exact ⟨hpoll.regs rfl rfl, .inr ⟨{ (u.poll addr).2 with seq := .idle }, hpoll.regs rfl rfl, rfl⟩⟩

/-- At every point of a wait that is the end of its operation, its polls alone have been made. -/
theorem drive_wait_reads (hlast : last.ends) (n : Nat) (h : s.Reads (statusOf addr) u) :
    s.Reads (statusOf addr) ((u.runPhases false [.wait addr, last]).drive n) := by
  induction n generalizing u with
  | zero => exact (wait_turn_reads hlast h).1
  | succ n ih =>
    obtain ⟨hreads, hidle | ⟨u', h', hnext⟩⟩ := wait_turn_reads hlast h
    · rwa [drive_idle _ hidle]
    · show s.Reads (statusOf addr) (State.drive n (u.runPhases false [.wait addr, last]).resume)
      rw [hnext]
      exact ih h'

theorem drive_waitPhases_reads (hlast : last.ends) (n : Nat) (h : s.Reads (statusOf addr) u) :
    s.Reads (statusOf addr) ((u.runPhases false (waitPhases addr ++ [last])).drive n) :=
  drive_wait_reads (u := { u with pcnt := 0 }) hlast n (h.regs rfl rfl)

end

/-! ### The operations -/

section
variable {s t : State}

theorem statusStep_reads {d : Chip} (he : exec (.statusStep d) s = .next t) : s.Reads (· = d) t := by
  obtain ⟨-, ⟨code, rfl⟩ | ⟨hr, -, -⟩⟩ := exec_cases rfl he
  · exact .stopped ..
  cases (exec_statusStep hr).symm.trans he
  have hbase : chipOf (base d) = d := by cases d <;> rfl
  exact ((State.Reads.refl _ s).read (base d) 1 fun _ _ => hbase).regs rfl rfl

theorem waitReady_reads {addr : Addr} {n : Nat} (hr : s.Runs (.waitReady addr) n t) :
    s.Reads (· = chipOf addr) t := by
  obtain ⟨t0, he, rfl⟩ := hr
  obtain ⟨hidle, ⟨code, rfl⟩ | ⟨hr, -, -⟩⟩ := exec_cases rfl he
  · rw [drive_idle n (by exact hidle.1)]
    exact .stopped ..
  cases (exec_waitReady hr).symm.trans he
  exact (drive_waitPhases_reads (doneStatus_ends _) n (.refl _ s)).mono fun _ hc => hc.2

theorem verifyRom_reads {buf : List Byte} (he : exec (.verifyRom buf) s = .next t) :
    s.Reads (fun _ => True) t := by
  obtain ⟨-, ⟨code, rfl⟩ | ⟨hr, -, hok⟩⟩ := exec_cases rfl he
  · exact .stopped ..
  cases (exec_verifyRom hr (of_decide_eq_true hok)).symm.trans he
  have hstart : s.Reads (fun _ => True) { s with voff := 0 } := (State.Reads.refl _ s).regs rfl rfl
  have hchunks := hstart.verifyChunks (fun _ => trivial) (buf.length / vChunk + 1) buf
  unfold State.verifyResult
  split <;> exact hchunks.regs rfl rfl

theorem dirPresent_reads (he : exec .dirPresent s = .next t) (looks : Chip → Prop) : s.Reads looks t := by
  obtain ⟨-, ⟨code, rfl⟩ | ⟨hr, -, -⟩⟩ := exec_cases rfl he
  · exact .stopped ..
  have hread := (State.Reads.refl looks s).readMany s.cfg.sigAddr (n := 16) (by decide)
  cases (exec_dirPresent hr).symm.trans he
  exact hread.regs (finish_trace ..) (finish_env ..)

theorem dirOpen_reads (he : exec .dirOpen s = .next t) (looks : Chip → Prop) : s.Reads looks t := by
  obtain ⟨-, ⟨code, rfl⟩ | ⟨hr, -, -⟩⟩ := exec_cases rfl he
  · exact .stopped ..
  cases (exec_dirOpen hr).symm.trans he
  exact (State.Reads.refl _ s).regs rfl rfl

theorem dirNext_reads (he : exec .dirNext s = .next t) (looks : Chip → Prop) : s.Reads looks t := by
  obtain ⟨-, ⟨code, rfl⟩ | ⟨hr, -, -⟩⟩ := exec_cases rfl he
  · exact .stopped ..
  cases hd : s.dend with
  | true =>
    cases (exec_dirNext_end hr hd).symm.trans he
    exact (State.Reads.refl _ s).regs rfl rfl
  | false =>
    have hread := (State.Reads.refl looks s).readMany (slotAddr s.cfg s.slot.toNat) (n := dirRecLen)
      (by decide)
    obtain ⟨d, s1, hs1⟩ : ∃ d s1, s.memRead (slotAddr s.cfg s.slot.toNat) dirRecLen = (d, s1) :=
      ⟨_, _, rfl⟩
    rw [hs1] at hread
    cases (exec_dirNext_read hr hd hs1).symm.trans he
    split <;> exact hread.regs rfl rfl

theorem sramVerify_reads {buf : List Byte} (he : exec (.sramVerify buf) s = .next t)
    (looks : Chip → Prop) : s.Reads looks t := by
  obtain ⟨-, ⟨code, rfl⟩ | ⟨hr, -, hok⟩⟩ := exec_cases rfl he
  · exact .stopped ..
  have hread := (State.Reads.refl looks s).readSegments s.cfg.sramAddr
  cases (exec_sramVerify hr (of_decide_eq_true hok)).symm.trans he
  split <;> exact hread.regs rfl rfl

end

/-- Settles O47: each of these operations makes reads alone, and a read of several bytes is no status
read. -/
theorem readersWriteNothing : Obligations.ReadersWriteNothing := by
  intro s i n t hi hr looksAt
  have hreads : s.Reads looksAt t := by
    cases i with
    | statusStep d => exact statusStep_reads (runs_immediate rfl hr)
    | waitReady addr => exact waitReady_reads hr
    | verifyRom buf => exact verifyRom_reads (runs_immediate rfl hr)
    | dirPresent => exact dirPresent_reads (runs_immediate rfl hr) looksAt
    | dirOpen => exact dirOpen_reads (runs_immediate rfl hr) looksAt
    | dirNext => exact dirNext_reads (runs_immediate rfl hr) looksAt
    | sramVerify buf => exact sramVerify_reads (runs_immediate rfl hr) looksAt
    | _ => cases hi
  exact ⟨hreads.trace, hreads.same⟩

end Sys2Proof.Machine


/-! What a page, and the local unlock before it, tell a chip. -/

namespace Sys2Proof.Machine

open Sys2Proof

/-! ### Addresses -/

theorem bankBase_add_toNat (addr : Addr) (off : BitVec 16) :
    (bankBase addr + off.setWidth 24).toNat = addr.toNat / 65536 * 65536 + off.toNat := by
  have := addr.isLt
  have := off.isLt
  rw [BitVec.toNat_add, bankBase_toNat, BitVec.toNat_setWidth]
  omega

/-- A bank outside the flash window lies outside it. -/
theorem bankBase_add_outside {addr : Addr} (h : inFlash addr.toNat = false) (off : BitVec 16) :
    inFlash (bankBase addr + off.setWidth 24).toNat = false := by
  rw [← Bool.not_eq_true, inFlash_iff] at h ⊢
  have := addr.isLt
  have := off.isLt
  rw [bankBase_add_toNat]
  omega

/-- The last byte of a page does not wrap around. -/
theorem lastAddr_toNat {addr : Addr} (h : addr.toNat % 128 = 0) :
    (lastAddr addr).toNat = addr.toNat + 127 := by
  have := addr.isLt
  rw [lastAddr, BitVec.toNat_add]
  simp only [lastOff, BitVec.toNat_ofNat]
  omega

/-- A page lies in one chip's window. -/
theorem chipOf_lastAddr {addr : Addr} (h : addr.toNat % 128 = 0) (hin : inFlash addr.toNat = true) :
    inFlash (lastAddr addr).toNat = true ∧ chipOf (lastAddr addr) = chipOf addr := by
  have hwin := chipOf_window.1 ⟨hin, rfl⟩
  have hb := base_toNat (chipOf addr)
  rw [chipOf_window, lastAddr_toNat h]
  simp only [half] at *
  omega

/-! ### What a chip hears -/

/-- If a block is awaited, it is that of the command byte `cmd`. -/
def Latch.ofCommand (cmd : Byte) : Latch → Prop
  | .program k _ => k = cmd
  | _ => True

/-- The same of the place in a command to which a write takes the chip. -/
def Heard.OfCommand (cmd : Byte) : Heard → Prop
  | .wait l => l.ofCommand cmd
  | .cut l => l.ofCommand cmd
  | .drop l => l.ofCommand cmd
  | _ => True

theorem hearRaw_cases (cfg : Config) (c : Chip) (shown : Bool) (bytes : List Byte) (addr : Addr)
    (v : List Byte) :
    hearRaw cfg c shown bytes addr v = .foreign ∨
      v.length = 1 ∧ (hearRaw cfg c shown bytes addr v = .start .showing ∨
        hearRaw cfg c shown bytes addr v = .start .hiding ∨
        hearRaw cfg c shown bytes addr v = .wait (.raw (bytes ++ v))) := by
  unfold hearRaw
  simp only
  split
  · exact .inl rfl
  · next h =>
    have hv : v.length = 1 := by
      by_contra hv
      exact h (.inr hv)
    split
    · exact .inr ⟨hv, .inl rfl⟩
    split
    · exact .inr ⟨hv, .inr (.inl rfl)⟩
    split
    · exact .inr ⟨hv, .inr (.inr rfl)⟩
    · exact .inl rfl

theorem hearCommand_ofCommand (c : Chip) (bank : Addr) (after : Armed) (cmd : Byte) :
    (hearCommand c bank after cmd).OfCommand cmd := by
  unfold hearCommand
  split
  · trivial
  cases after with
  | fresh =>
    simp only
    split
    · trivial
    split
    · exact rfl
    · trivial
  | erase k =>
    simp only
    split
    · trivial
    split <;> trivial
  | aborted => trivial

/-- After one byte, the only block a chip can await is that of this byte's command. -/
theorem hear_ofCommand (cfg : Config) (c : Chip) (shown : Bool) (l : Latch) (addr : Addr) (cmd : Byte) :
    (hear cfg c shown l addr [cmd]).OfCommand cmd := by
  have hraw : ∀ bytes, (hearRaw cfg c shown bytes addr [cmd]).OfCommand cmd := by
    intro bytes
    obtain h | ⟨-, h | h | h⟩ := hearRaw_cases cfg c shown bytes addr [cmd] <;> rw [h] <;> trivial
  unfold hear
  cases l with
  | idle | raw =>
    simp only
    split
    · trivial
    · exact hraw _
  | key2 bank after =>
    simp only
    split
    · trivial
    split
    · exact hearCommand_ofCommand ..
    · trivial
  | program k bank =>
    have hshort : pageOperandsOk addr [cmd] = false := by simp [pageOperandsOk, pageSize]
    simp only [hshort]
    split
    · trivial
    · rw [if_neg (by simp)]
      trivial
  | armed | key1 | loaded =>
    simp only
    repeat' split
    all_goals trivial

/-- Of a block a chip makes nothing, unless it awaits one. -/
theorem hear_block {cfg : Config} {c : Chip} {shown : Bool} {l : Latch} {addr : Addr} {v : List Byte}
    (hv : v.length = pageSize) : hear cfg c shown l addr v = .foreign ∨
      ∃ k bank, l = .program k bank ∧ hear cfg c shown l addr v = .wait (.loaded k addr v) := by
  have hbyte : ∀ b, v ≠ [b] := fun b h => absurd (h ▸ hv) (by simp [pageSize])
  have hkey : isKey1 cfg addr v = false := by simp [isKey1, hbyte]
  have hraw : ∀ bytes, hearRaw cfg c shown bytes addr v = .foreign := fun bytes =>
    (hearRaw_cases cfg c shown bytes addr v).resolve_right fun h => absurd (h.1.symm.trans hv) (by decide)
  cases l with
  | idle | raw => exact .inl (by simp [hear, hkey, hraw])
  | armed | key1 | key2 | loaded => exact .inl (by simp [hear, hkey, hbyte])
  | program k bank =>
    by_cases h : bankBase addr = bank ∧ pageOperandsOk addr v = true ∧ pageTarget c k addr = true
    · exact .inr ⟨k, bank, rfl, by simp [hear, hkey, h]⟩
    · exact .inl (by simp only [hear, hkey, if_neg h]; simp)

section
variable {cfg : Config} {e : Env} {c : Chip} {addr : Addr}

theorem Env.chipWrite_ofCommand (cmd : Byte) :
    ((e.chipWrite cfg c addr [cmd]).chip.get c).latch.ofCommand cmd := by
  have hh := hear_ofCommand cfg c ((e.chip.get c).mode = .hiddenShown) (e.chip.get c).latch addr cmd
  obtain hw | ⟨l, m, d, hl, hw⟩ | ⟨l, d, hl, hw⟩ | ⟨op, d, -, hw⟩ | ⟨-, hw⟩ :=
    Env.chipWrite_cases cfg e c addr [cmd] <;> rw [hw]
  · simp [Env.lose, Latch.ofCommand]
  · rw [Env.setChip_get_self]
    rcases hl with hl | hl <;> rw [hl] at hh <;> exact hh
  · rw [(Env.dropBlock_op e c l d).2.1]
    rw [hl] at hh
    exact hh
  · simp [Env.begin, Latch.ofCommand]
  · simp [Latch.ofCommand]

/-- After a block the chip has received it, or is at the start of a command. -/
theorem Env.chipWrite_block {cmd : Byte} {page : List Byte} (hlen : page.length = pageSize)
    (hl : (e.chip.get c).latch.ofCommand cmd) :
    (((e.chipWrite cfg c addr page).chip.get c).op = .none ∨
        ((e.chipWrite cfg c addr page).chip.get c).op = (e.chip.get c).op) ∧
      (((e.chipWrite cfg c addr page).chip.get c).latch = .idle ∨
        ((e.chipWrite cfg c addr page).chip.get c).latch = .loaded cmd addr page) := by
  have hh := hear_block (cfg := cfg) (c := c) (shown := (e.chip.get c).mode = .hiddenShown)
    (l := (e.chip.get c).latch) (addr := addr) hlen
  obtain hw | ⟨l, m, d, hw', hw⟩ | ⟨l, d, hw', -⟩ | ⟨op, d, hw', -⟩ | ⟨hop, hw⟩ :=
    Env.chipWrite_cases cfg e c addr page
  · rw [hw]
    exact ⟨.inl (by simp [Env.lose]), .inl (by simp [Env.lose])⟩
  · obtain hh | ⟨k, bank, hprog, hh⟩ := hh <;> rw [hh] at hw' <;> rcases hw' with hw' | hw' <;> cases hw'
    rw [hprog] at hl
    obtain rfl : k = cmd := hl
    rw [hw, Env.setChip_get_self]
    exact ⟨.inr rfl, .inr rfl⟩
  · obtain hh | ⟨k, bank, -, hh⟩ := hh <;> cases hw'.symm.trans hh
  · obtain hh | ⟨k, bank, -, hh⟩ := hh <;> cases hw'.symm.trans hh
  · rw [hw, Env.setChip_get_self]
    exact ⟨.inr rfl, .inl rfl⟩

/-- A write that starts an operation stores at most what was in flight. -/
theorem Env.chipWrite_start {v : List Byte} {op : ChipOp} {bus : Nat → Prop} {hidden : Chip → Nat → Prop}
    (hh : ∀ shown, hear cfg c shown (e.chip.get c).latch addr v = .start op)
    (h : (e.chip.get c).op.Within c bus hidden) : e.SameOutside (e.chipWrite cfg c addr v) bus hidden := by
  obtain hw | ⟨l, m, d, hw' | hw', -⟩ | ⟨l, d, hw', -⟩ | ⟨op', d, -, hw⟩ | ⟨-, hw⟩ :=
    Env.chipWrite_cases cfg e c addr v
  · rw [hw]
    exact Env.same_setChip rfl rfl rfl
  · cases (hh _).symm.trans hw'
  · cases (hh _).symm.trans hw'
  · cases (hh _).symm.trans hw'
  · rw [hw]
    exact (Env.begin_same ..).mono h.bus fun d o ⟨hd, ho⟩ => hd ▸ h.hidden o ho
  · rw [hw]
    exact Env.same_setChip rfl rfl rfl

/-- At the start of a command one byte starts a show or a hide at most. -/
theorem hear_idle_start {shown : Bool} {v : List Byte} {op : ChipOp}
    (h : hear cfg c shown .idle addr v = .start op) : op = .showing ∨ op = .hiding := by
  simp only [hear] at h
  split at h
  · cases h
  · exact hearRaw_start h

/-- The last byte of a block, awaited again, starts its program. -/
theorem hear_loaded_again (shown : Bool) (cmd : Byte) (page : List Byte) :
    hear cfg c shown (.loaded cmd addr page) (lastAddr addr) [page.getD 127 0] =
      .start (Latch.loaded cmd addr page).awaited := if_pos ⟨rfl, rfl⟩

end

/-! ### One chip, write by write -/

/-- No byte has changed outside, and nothing chip `c` has in flight or awaits would store there. -/
structure Env.ConfinedAt (e e' : Env) (c : Chip) (bus : Nat → Prop) (hidden : Chip → Nat → Prop) :
    Prop where
  same : e.SameOutside e' bus hidden
  within : (e'.chip.get c).Within c bus hidden

section
variable {cfg : Config} {e e' : Env} {bus : Nat → Prop} {hidden : Chip → Nat → Prop} {c : Chip}
  {addr : Addr} {cmd : Byte} {page : List Byte}

/-- The frame of a write to the chip. -/
theorem Env.ConfinedAt.write_same (h : e.ConfinedAt e' c bus hidden)
    (hat : inFlash addr.toNat = true ∧ chipOf addr = c) (v : List Byte) :
    e.SameOutside (e'.write cfg addr v) bus hidden := by
  obtain ⟨hin, rfl⟩ := hat
  exact h.same.trans (Env.write_frame (fun _ => h.within) fun hf => absurd (hin.symm.trans hf) (by decide))

/-- A byte that ends no erase. -/
theorem Env.ConfinedAt.writeByte (h : e.ConfinedAt e' c bus hidden)
    (hat : inFlash addr.toNat = true ∧ chipOf addr = c) {b : Byte} (hb : b ≠ cmdErase2)
    (hb' : b ≠ cmdHErase2) : e.ConfinedAt (e'.write cfg addr [b]) c bus hidden :=
  ⟨h.write_same hat [b], Env.write_within (w := (addr, [b])) h.within (.of_byte hb hb')⟩

/-- The two keys of a local unlock. -/
def unlockKeys (cfg : Config) (addr : Addr) : List BusWrite :=
  [(bankBase addr + cfg.unlockOff1.setWidth 24, [key1]), (bankBase addr + cfg.unlockOff2.setWidth 24, [key2])]

theorem localUnlock_eq (cfg : Config) (addr : Addr) (cmd : Byte) : localUnlock cfg addr cmd =
    unlockKeys cfg addr ++ [(bankBase addr + cfg.unlockOff1.setWidth 24, [cmd])] := rfl

theorem unlockKeys_confined (hin : inFlash addr.toNat = true)
    (h : (e.chip.get (chipOf addr)).Within (chipOf addr) bus hidden) :
    e.ConfinedAt (e.after cfg (unlockKeys cfg addr)) (chipOf addr) bus hidden :=
  (Env.ConfinedAt.writeByte (cfg := cfg) ⟨.refl .., h⟩ (chipOf_bankBase_add hin _) (b := key1) (by decide)
    (by decide)).writeByte (chipOf_bankBase_add hin _) (by decide) (by decide)

/-- A local unlock with any command byte: a chip that takes it for the last of an erase is sent nothing
more. -/
theorem localUnlock_frame (hin : inFlash addr.toNat = true)
    (h : (e.chip.get (chipOf addr)).Within (chipOf addr) bus hidden) :
    e.SameOutside (e.after cfg (localUnlock cfg addr cmd)) bus hidden := by
  rw [localUnlock_eq, Env.after_append]
  exact (unlockKeys_confined hin h).write_same (chipOf_bankBase_add hin _) [cmd]

/-- With a command byte that ends no erase, the chip awaits at most the block of that command. -/
theorem localUnlock_confined (hin : inFlash addr.toNat = true) (hcmd : cmd ≠ cmdErase2 ∧ cmd ≠ cmdHErase2)
    (h : (e.chip.get (chipOf addr)).Within (chipOf addr) bus hidden) :
    e.ConfinedAt (e.after cfg (localUnlock cfg addr cmd)) (chipOf addr) bus hidden ∧
      ((e.after cfg (localUnlock cfg addr cmd)).chip.get (chipOf addr)).latch.ofCommand cmd := by
  have hat := chipOf_bankBase_add hin cfg.unlockOff1
  rw [localUnlock_eq, Env.after_append]
  refine ⟨(unlockKeys_confined hin h).writeByte hat hcmd.1 hcmd.2, ?_⟩
  rw [Env.after_cons, Env.after_nil, Env.write_flash hat.1, hat.2]
  exact Env.chipWrite_ofCommand cmd

/-- The block: the chip then has received it, or is at the start of a command. -/
theorem block_confined (h : e.ConfinedAt e' (chipOf addr) bus hidden) (hin : inFlash addr.toNat = true)
    (hlen : page.length = pageSize) (hl : (e'.chip.get (chipOf addr)).latch.ofCommand cmd) :
    e.SameOutside (e'.write cfg addr page) bus hidden ∧
      ((e'.write cfg addr page).chip.get (chipOf addr)).op.Within (chipOf addr) bus hidden ∧
      (((e'.write cfg addr page).chip.get (chipOf addr)).latch = .idle ∨
        ((e'.write cfg addr page).chip.get (chipOf addr)).latch = .loaded cmd addr page) := by
  refine ⟨h.write_same ⟨hin, rfl⟩ page, ?_⟩
  rw [Env.write_flash hin]
  obtain ⟨hop, hlatch⟩ := Env.chipWrite_block (cfg := cfg) (e := e'.modeWrite cfg addr page) (addr := addr)
    hlen (by rw [Env.modeWrite_chip]; exact hl)
  refine ⟨?_, hlatch⟩
  rcases hop with hop | hop <;> rw [hop]
  · exact .none
  · rw [Env.modeWrite_chip]
    exact h.within.op

/-- The last byte again: the block's program is in flight then, if anything new is. -/
theorem blockAgain_same (hat : inFlash (lastAddr addr).toNat = true ∧ chipOf (lastAddr addr) = c)
    (hop : (e.chip.get c).op.Within c bus hidden)
    (hl : (e.chip.get c).latch = .idle ∨ (e.chip.get c).latch = .loaded cmd addr page) :
    e.SameOutside (e.write cfg (lastAddr addr) [page.getD 127 0]) bus hidden := by
  obtain ⟨hin, rfl⟩ := hat
  rcases hl with hl | hl
  · have hw : (e.chip.get (chipOf (lastAddr addr))).Within (chipOf (lastAddr addr)) bus hidden :=
      ⟨hop, by rw [hl]; exact .none⟩
    exact Env.ConfinedAt.write_same ⟨.refl .., hw⟩ ⟨hin, rfl⟩ _
  · rw [Env.write_flash hin]
    refine (Env.same_modeWrite ..).trans (Env.chipWrite_start
      (op := (Latch.loaded cmd addr page).awaited) (fun shown => ?_) ?_) <;> rw [Env.modeWrite_chip]
    · rw [hl]
      exact hear_loaded_again ..
    · exact hop

theorem blockAgain_op (hat : inFlash (lastAddr addr).toNat = true ∧ chipOf (lastAddr addr) = c)
    (hop : (e.chip.get c).op.Within c bus hidden)
    (hl : (e.chip.get c).latch = .idle ∨ (e.chip.get c).latch = .loaded cmd addr page)
    (hown : (Latch.loaded cmd addr page).awaited.Within c bus hidden) :
    ((e.write cfg (lastAddr addr) [page.getD 127 0]).chip.get c).op.Within c bus hidden := by
  obtain ⟨hin, rfl⟩ := hat
  rw [Env.write_flash hin]
  obtain ho | ho | ho := Env.chipWrite_op (cfg := cfg) (e := e.modeWrite cfg (lastAddr addr) [page.getD 127 0])
    (c := chipOf (lastAddr addr)) (addr := lastAddr addr) (v := [page.getD 127 0]) rfl
  · rw [ho]
    exact .none
  · rw [ho, Env.modeWrite_chip]
    exact hop
  · rw [Env.modeWrite_chip] at ho
    rcases hl with hl | hl <;> rw [hl] at ho
    · rcases hear_idle_start ho with hs | hs <;> rw [hs]
      · exact .showing
      · exact .hiding
    · rw [hear_loaded_again, Heard.start.injEq] at ho
      rw [← ho]
      exact hown

/-- The frame of a page with its command, and what may be in flight after it. -/
theorem pageEvents_frame (hin : inFlash addr.toNat = true) (halign : addr.toNat % 128 = 0)
    (hlen : page.length = 128) (hcmd : cmd ≠ cmdErase2 ∧ cmd ≠ cmdHErase2)
    (h : (e.chip.get (chipOf addr)).Within (chipOf addr) bus hidden) :
    e.SameOutside (e.after cfg (pageEvents cfg cmd addr page)) bus hidden ∧
      ((Latch.loaded cmd addr page).awaited.Within (chipOf addr) bus hidden →
        ((e.after cfg (pageEvents cfg cmd addr page)).chip.get (chipOf addr)).op.Within (chipOf addr) bus
          hidden) := by
  obtain ⟨hconf, hl⟩ := localUnlock_confined (cfg := cfg) hin hcmd h
  obtain ⟨hsame, hop, hl⟩ := block_confined (cfg := cfg) hconf hin hlen hl
  have hlast := chipOf_lastAddr halign hin
  rw [pageEvents, Env.after_append]
  exact ⟨hsame.trans (blockAgain_same hlast hop hl), blockAgain_op hlast hop hl⟩

end

end Sys2Proof.Machine


/-! The frame of the local commands. -/

namespace Sys2Proof.Machine

open Sys2Proof

/-! ### What the local commands do to the environment -/

section
variable {s t : State} {addr : Addr}

theorem unlockAndLocal_env {cmd : Byte} (he : exec (.unlockAndLocal addr cmd) s = .next t) :
    t.env = s.env ∨ t.env = s.env.after s.cfg (localUnlock s.cfg addr cmd) := by
  obtain ⟨-, ⟨code, rfl⟩ | ⟨hr, -, -⟩⟩ := exec_cases rfl he
  · exact .inl rfl
  cases (exec_unlockAndLocal hr).symm.trans he
  rw [memWrites_eq]
  exact .inr rfl

theorem pageWrite_env {page : List Byte} (he : exec (.pageWrite addr page) s = .next t) :
    t.env = s.env ∨ addr.toNat % 128 = 0 ∧ page.length = 128 ∧
      t.env = s.env.after s.cfg (pageEvents s.cfg cmdProgram addr page) := by
  obtain ⟨-, ⟨code, rfl⟩ | ⟨hr, hw, hok⟩⟩ := exec_cases rfl he
  · exact .inl rfl
  obtain ⟨halign, hlen⟩ := pageOperandsOk_iff.1 hok
  cases (exec_pageWrite ⟨hr, hw rfl⟩ hok).symm.trans he
  rw [State.sendPage_eq]
  exact .inr ⟨halign, hlen, rfl⟩

/-- `HIDDEN_WRITE` sends its page, and polls at the bank base are all that follows. -/
theorem hiddenWrite_env {page : List Byte} {n : Nat} (hr : s.Runs (.hiddenWrite addr page) n t) :
    t.env = s.env ∨ addr.toNat % 128 = 0 ∧ page.length = 128 ∧
      ∃ u : State, u.env = s.env.after s.cfg (pageEvents s.cfg cmdHProgram addr page) ∧
        u.Reads (statusOf (bankBase addr)) t := by
  obtain ⟨t0, he, rfl⟩ := hr
  obtain ⟨hidle, ⟨code, rfl⟩ | ⟨hr, hw, hok⟩⟩ := exec_cases rfl he
  · rw [drive_idle n (by exact hidle.1)]
    exact .inl rfl
  obtain ⟨halign, hlen⟩ := pageOperandsOk_iff.1 hok
  cases (exec_hiddenWrite_sent ⟨hr, hw rfl⟩ halign hlen).symm.trans he
  exact .inr ⟨halign, hlen,
    State.afterWrites { s with pbuf := page } (pageEvents s.cfg cmdHProgram addr page), rfl,
    drive_waitPhases_reads (doneErr_ends _) n (.refl ..)⟩

end

/-! ### In the flash window -/

section
variable {s t : State} {addr : Addr} {bus : Nat → Prop} {hidden : Chip → Nat → Prop}

theorem unlockAndLocal_frame {cmd : Byte} (hin : inFlash addr.toNat = true)
    (h : (s.env.chip.get (chipOf addr)).Within (chipOf addr) bus hidden)
    (he : exec (.unlockAndLocal addr cmd) s = .next t) : s.env.SameOutside t.env bus hidden := by
  rcases unlockAndLocal_env he with henv | henv <;> rw [henv]
  · exact .refl ..
  · exact localUnlock_frame hin h

theorem pageWrite_frame {page : List Byte} (hin : inFlash addr.toNat = true)
    (h : (s.env.chip.get (chipOf addr)).Within (chipOf addr) bus hidden)
    (he : exec (.pageWrite addr page) s = .next t) : s.env.SameOutside t.env bus hidden := by
  rcases pageWrite_env he with henv | ⟨halign, hlen, henv⟩ <;> rw [henv]
  · exact .refl ..
  · exact (pageEvents_frame hin halign hlen ⟨by decide, by decide⟩ h).1

/-- The wait may see the page's own program complete. -/
theorem hiddenWrite_frame {page : List Byte} {n : Nat} (hin : inFlash addr.toNat = true)
    (h : (s.env.chip.get (chipOf addr)).Within (chipOf addr) bus hidden)
    (hown : ∀ o, chipOff addr.toNat - 0xFF00 ≤ o → o < chipOff addr.toNat - 0xFF00 + 128 →
      hidden (chipOf addr) o)
    (hr : s.Runs (.hiddenWrite addr page) n t) : s.env.SameOutside t.env bus hidden := by
  obtain henv | ⟨halign, hlen, u, henv, hreads⟩ := hiddenWrite_env hr
  · rw [henv]
    exact .refl ..
  have hprogram : (Latch.loaded cmdHProgram addr page).awaited.Within (chipOf addr) bus hidden := by
    refine ⟨nofun, fun o ho => ?_⟩
    obtain ⟨hlo, hhi⟩ := hiddenProgram_storesAt.1 ho
    rw [hlen] at hhi
    exact hown o hlo hhi
  obtain ⟨hsent, hop⟩ := pageEvents_frame (cfg := s.cfg) (cmd := cmdHProgram) hin halign hlen
    ⟨by decide, by decide⟩ h
  have hop := hop hprogram
  rw [← henv] at hsent hop
  have hchip : ∀ c, statusOf (bankBase addr) c → c = chipOf addr := fun c hc =>
    hc.2.trans (chipOf_bankBase addr)
  refine hsent.trans (hreads.same.mono (fun a ⟨c, hc, ha⟩ => ?_) fun c o ⟨hc, ho⟩ => ?_)
  · exact hop.bus a (hchip c hc ▸ ha)
  · exact hchip c hc ▸ hop.hidden o (hchip c hc ▸ ho)

end

/-! ### Outside it -/

/-- The three addresses of a local unlock and the page at `addr`. -/
def localReach (cfg : Config) (addr : Addr) (a : Nat) : Prop :=
  a = (bankBase addr + cfg.unlockOff1.setWidth 24).toNat ∨
    a = (bankBase addr + cfg.unlockOff2.setWidth 24).toNat ∨ (addr.toNat ≤ a ∧ a < addr.toNat + 128)

/-- A write outside the flash window, within reach of the command. -/
def WritesWithin (bus : Nat → Prop) (w : BusWrite) : Prop :=
  inFlash w.1.toNat = false ∧ ∀ a, w.1.toNat ≤ a → a < w.1.toNat + w.2.length → bus a

theorem after_outside_same {cfg : Config} {e : Env} {bus : Nat → Prop} {hidden : Chip → Nat → Prop}
    {ws : List BusWrite} (hw : ∀ w ∈ ws, WritesWithin bus w) :
    e.SameOutside (e.after cfg ws) bus hidden := by
  induction ws generalizing e with
  | nil => exact .refl ..
  | cons w ws ih =>
    obtain ⟨hout, hbus⟩ := hw w (List.mem_cons_self ..)
    have hfirst : e.SameOutside (e.write cfg w.1 w.2) bus hidden :=
      Env.write_frame (fun hin => absurd (hout.symm.trans hin) (by decide)) fun _ => hbus
    exact hfirst.trans (ih fun x hx => hw x (List.mem_cons_of_mem _ hx))

/-- One byte reaches its own address. -/
theorem writesWithin_byte {bus : Nat → Prop} {addr : Addr} (hout : inFlash addr.toNat = false)
    (h : bus addr.toNat) (b : Byte) : WritesWithin bus (addr, [b]) := by
  refine ⟨hout, fun a hlo hhi => ?_⟩
  simp only [List.length_cons, List.length_nil] at hlo hhi
  rwa [show a = addr.toNat by omega]

section
variable {addr : Addr} (hout : inFlash addr.toNat = false) (cfg : Config) (cmd : Byte)
include hout

theorem localUnlock_writesWithin :
    ∀ w ∈ localUnlock cfg addr cmd, WritesWithin (localReach cfg addr) w := by
  have h1 := writesWithin_byte (bus := localReach cfg addr)
    (bankBase_add_outside hout cfg.unlockOff1) (.inl rfl)
  have h2 := writesWithin_byte (bus := localReach cfg addr)
    (bankBase_add_outside hout cfg.unlockOff2) (.inr (.inl rfl))
  exact List.forall_mem_cons.2 ⟨h1 _, List.forall_mem_cons.2 ⟨h2 _,
    List.forall_mem_cons.2 ⟨h1 _, nofun⟩⟩⟩

theorem pageEvents_writesWithin {page : List Byte} (halign : addr.toNat % 128 = 0) (hlen : page.length = 128) :
    ∀ w ∈ pageEvents cfg cmd addr page, WritesWithin (localReach cfg addr) w := by
  have hblock : WritesWithin (localReach cfg addr) (addr, page) :=
    ⟨hout, fun a hlo hhi => .inr (.inr ⟨hlo, by rwa [hlen] at hhi⟩)⟩
  have hlast := lastAddr_toNat halign
  have hoff : inFlash (lastAddr addr).toNat = false := by
    rw [← Bool.not_eq_true, inFlash_iff] at hout ⊢
    have := addr.isLt
    omega
  have hagain := writesWithin_byte (bus := localReach cfg addr) hoff
    (.inr (.inr ⟨by omega, by omega⟩)) (page.getD 127 0)
  exact List.forall_mem_append.2 ⟨localUnlock_writesWithin hout cfg cmd,
    List.forall_mem_cons.2 ⟨hblock, List.forall_mem_cons.2 ⟨hagain, nofun⟩⟩⟩

end

section
variable {s t : State} {addr : Addr} {hidden : Chip → Nat → Prop}

theorem unlockAndLocal_outside {cmd : Byte} (hout : inFlash addr.toNat = false)
    (he : exec (.unlockAndLocal addr cmd) s = .next t) :
    s.env.SameOutside t.env (localReach s.cfg addr) hidden := by
  rcases unlockAndLocal_env he with henv | henv <;> rw [henv]
  · exact .refl ..
  · exact after_outside_same (localUnlock_writesWithin hout s.cfg cmd)

theorem pageWrite_outside {page : List Byte} (hout : inFlash addr.toNat = false)
    (he : exec (.pageWrite addr page) s = .next t) :
    s.env.SameOutside t.env (localReach s.cfg addr) hidden := by
  rcases pageWrite_env he with henv | ⟨halign, hlen, henv⟩ <;> rw [henv]
  · exact .refl ..
  · exact after_outside_same (pageEvents_writesWithin hout s.cfg cmdProgram halign hlen)

/-- Its polls outside the flash window are no status reads. -/
theorem hiddenWrite_outside {page : List Byte} {n : Nat} (hout : inFlash addr.toNat = false)
    (hr : s.Runs (.hiddenWrite addr page) n t) :
    s.env.SameOutside t.env (localReach s.cfg addr) hidden := by
  obtain henv | ⟨halign, hlen, u, henv, hreads⟩ := hiddenWrite_env hr
  · rw [henv]
    exact .refl ..
  have hsent : s.env.SameOutside u.env (localReach s.cfg addr) hidden := by
    rw [henv]
    exact after_outside_same (pageEvents_writesWithin hout s.cfg cmdHProgram halign hlen)
  have hbank : inFlash (bankBase addr).toNat = false := by simpa using bankBase_add_outside hout 0
  have hnone : ∀ c, ¬statusOf (bankBase addr) c := fun c hc => absurd (hbank.symm.trans hc.1) (by decide)
  exact hsent.trans (hreads.same.mono (fun a ⟨c, hc, _⟩ => absurd hc (hnone c)) fun c o hc =>
    absurd hc.1 (hnone c))

end

/-- Settles O51: in the flash window by what the addressed chip has pending, write by write; outside it by
the addresses written. -/
theorem localCommandsFrame : Obligations.LocalCommandsFrame := by
  intro s i addr n t hi hr own
  refine ⟨fun hin => ?_, fun hout => ?_⟩
  · have hpending : (s.env.chip.get (chipOf addr)).Within (chipOf addr)
        (fun a => s.env.pendingAt (chipOf addr) a = true)
        (fun c o => c = chipOf addr ∧ (own o ∨ s.env.hiddenPendingAt c o = true)) :=
      chipWithin_iff.2 ⟨fun _ h => h, fun _ h => ⟨rfl, .inr h⟩⟩
    cases i with
    | unlockAndLocal a cmd =>
      obtain rfl : a = addr := hi
      exact unlockAndLocal_frame hin hpending (runs_immediate rfl hr)
    | pageWrite a page =>
      obtain rfl : a = addr := hi
      exact pageWrite_frame hin hpending (runs_immediate rfl hr)
    | hiddenWrite a page =>
      obtain rfl : a = addr := hi
      exact hiddenWrite_frame hin hpending (fun o hlo hhi => ⟨rfl, .inl ⟨hlo, hhi⟩⟩) hr
    | _ => exact hi.elim
  · cases i with
    | unlockAndLocal a cmd =>
      obtain rfl : a = addr := hi
      exact unlockAndLocal_outside hout (runs_immediate rfl hr)
    | pageWrite a page =>
      obtain rfl : a = addr := hi
      exact pageWrite_outside hout (runs_immediate rfl hr)
    | hiddenWrite a page =>
      obtain rfl : a = addr := hi
      exact hiddenWrite_outside hout hr
    | _ => exact hi.elim

end Sys2Proof.Machine


/-! The bulk writer and verifier: a rule for what holds at every point of an operation, phase by phase. -/

namespace Sys2Proof.Machine

open Sys2Proof

/-- `T` holds at every point of the operation that has come to `s`. -/
def State.Always (T : State → Prop) (s : State) : Prop := ∀ n, T (s.drive n)

theorem State.Always.of_idle {T : State → Prop} {s : State} (hi : s.seq = .idle) (h : T s) :
    s.Always T := fun n => by rwa [drive_idle n hi]

/-- `P` holds of the state a phase leaves at a busy answer or a failure, `Q` of the phase at which it leaves
the operation, and `R` of the state it hands on to the next phase. -/
def Progress.Leaves (P : State → Prop) (Q : Phase → Prop) (R : State → Prop) : Progress → Prop
  | .goOn s => R s
  | .again now s => P s ∧ Q now
  | .fail _ _ s => P s

theorem Progress.Holds.leaves {P : State → Prop} {Q : Phase → Prop} {r : Progress} (h : r.Holds P Q) :
    r.Leaves P Q P := by
  cases r <;> exact h

/-- What phases of the kind `Q` do from states in which `P` holds. -/
structure PhaseRule (P : State → Prop) (Q : Phase → Prop) (R : State → Prop) : Prop where
  seq : ∀ s q, P s → P { s with seq := q }
  perform : ∀ p s, Q p → P s → (p.perform s).Leaves P Q R

/-- The loop ends its operation by no failure. -/
theorem wlRun_ne_fail (n : Nat) (turn : Chip) (rom1 rom2 : List Byte) (s : State) (cause : Cause)
    (info : BitVec 24) (u : State) : State.wlRun n turn rom1 rom2 s ≠ .fail cause info u := by
  induction n generalizing turn s with
  | zero => exact nofun
  | succ n ih =>
    unfold State.wlRun
    simp only
    split
    · exact nofun
    split
    · exact ih _ _
    split
    · split
      · exact nofun
      · exact ih _ _
    · exact ih _ _

/-- What fails on the way is a wait, by its limit. -/
theorem perform_fail {p : Phase} {s u : State} {cause : Cause} {info : BitVec 24}
    (h : p.perform s = .fail cause info u) :
    cause = .pollTimeout ∧ p = .wait info ∧ u.cfg.pollLimit ≠ none := by
  cases p with
  | wait addr =>
    simp only [Phase.perform, State.waitTurn] at h
    split at h
    · cases h
    · split at h
      · next hlimit =>
        cases h
        refine ⟨rfl, rfl, fun hnone => ?_⟩
        rw [State.timedOut, hnone] at hlimit
        cases hlimit
      · cases h
  | wl turn rom1 rom2 => exact absurd h (wlRun_ne_fail _ _ _ _ _ _ _ _)
  | _ => cases h

section
variable {T P R : State → Prop} {Q : Phase → Prop} {c : Bool} {rest : List Phase}

/-- The rule for one phase, followed by others: what holds where it leaves the operation, at a busy answer
or at the limit, and what the phases after it establish. -/
theorem always_phase (rule : PhaseRule P Q R)
    (hagain : ∀ s now, P s → Q now → T { s with seq := .running c now rest })
    (hfail : ∀ s addr, P s → Q (.wait addr) → s.cfg.pollLimit ≠ none →
      T (s.failOut c .pollTimeout addr))
    (hrest : ∀ s, R s → (s.runPhases c rest).Always T) {p : Phase} (hp : Q p) {s : State} (h : P s) :
    (s.runPhases c (p :: rest)).Always T := by
  intro n
  induction n using Nat.strong_induction_on generalizing p s with
  | _ n ih =>
    have hleaves := rule.perform p s hp h
    rw [State.runPhases]
    cases hr : p.perform s with
    | goOn u =>
      rw [hr] at hleaves
      exact hrest u hleaves n
    | again now u =>
      rw [hr] at hleaves
      cases n with
      | zero => exact hagain u now hleaves.1 hleaves.2
      | succ n => exact ih n (Nat.lt_succ_self n) hleaves.2 (rule.seq u .idle hleaves.1)
    | fail cause info u =>
      obtain ⟨rfl, rfl, hlimit⟩ := perform_fail hr
      rw [hr] at hleaves
      exact State.Always.of_idle (failOut_idle ..).1 (hfail u info hleaves hp hlimit) n

/-- The rule for phases that all keep the same. -/
theorem always_phases (rule : PhaseRule P Q P)
    (hagain : ∀ s now pre, P s → Q now → T { s with seq := .running c now (pre ++ rest) })
    (hfail : ∀ s addr, P s → Q (.wait addr) → s.cfg.pollLimit ≠ none →
      T (s.failOut c .pollTimeout addr))
    (hrest : ∀ s, P s → (s.runPhases c rest).Always T) {pre : List Phase} (hpre : ∀ p ∈ pre, Q p)
    {s : State} (h : P s) : (s.runPhases c (pre ++ rest)).Always T := by
  induction pre generalizing s with
  | nil => exact hrest s h
  | cons p pre ih =>
    exact always_phase rule (fun u now hu hq => hagain u now pre hu hq) hfail
      (fun u hu => ih (fun q hq => hpre q (List.mem_cons_of_mem _ hq)) hu)
      (hpre p (List.mem_cons_self ..)) h

end

end Sys2Proof.Machine


/-! The writer loop: what an issue and a look do, what both keep, and the rule for the loop. -/

namespace Sys2Proof.Machine

open Sys2Proof

/-! ### An issue and a look -/

/-- The stream of a chip. -/
def streamOf (rom1 rom2 : List Byte) : Chip → List Byte
  | .a => rom1
  | .b => rom2

section
variable (s : State) (c : Chip) (rom : List Byte)

/-- The writes of the next page. -/
def State.pageWrites : List BusWrite :=
  pageEvents s.cfg cmdProgram (pageAddr c (s.cur.get c).toNat) (pageOf rom (s.cur.get c).toNat)

@[simp] theorem wlIssue_cfg : (s.wlIssue c rom).cfg = s.cfg := by
  simp [State.wlIssue, State.sendPage_eq]

@[simp] theorem wlIssue_cur : (s.wlIssue c rom).cur = s.cur := by
  simp [State.wlIssue, State.sendPage_eq]

@[simp] theorem wlIssue_busy : (s.wlIssue c rom).busy = s.busy.set c true := by
  simp [State.wlIssue, State.sendPage_eq]

@[simp] theorem wlIssue_abort : (s.wlIssue c rom).abort = s.abort := by
  simp [State.wlIssue, State.sendPage_eq]

@[simp] theorem wlIssue_env : (s.wlIssue c rom).env = s.env.after s.cfg (s.pageWrites c rom) := by
  simp [State.wlIssue, State.sendPage_eq, State.pageWrites]

@[simp] theorem wlIssue_trace : (s.wlIssue c rom).trace = s.trace ++ wrote (s.pageWrites c rom) := by
  simp [State.wlIssue, State.sendPage_eq, State.pageWrites]

/-- The status byte a look at chip `c` answers. -/
def State.status : Byte := (s.env.read s.cfg (base c) 1).1.headD 0

/-- A look finds the page in flight, completed or failed. -/
theorem wlLook_cases :
    classify (s.status c) = .busy ∧ s.wlLook c = (.busy, (s.look c).2) ∨
      classify (s.status c) = .ready ∧ s.wlLook c = (.ready, (s.look c).2.wlReady c) ∨
      classify (s.status c) = .error ∧ s.wlLook c = (.error, (s.look c).2.wlError c) := by
  have hlook : (s.look c).1 = classify (s.status c) := rfl
  unfold State.wlLook
  simp only [hlook]
  cases classify (s.status c) with
  | busy => exact .inl ⟨rfl, rfl⟩
  | ready => exact .inr (.inl ⟨rfl, rfl⟩)
  | error => exact .inr (.inr ⟨rfl, rfl⟩)

/-- Whatever it finds, it is one read at the base of its chip. -/
theorem wlLook_bus : (s.wlLook c).2.env = (s.env.read s.cfg (base c) 1).2 ∧
    (s.wlLook c).2.trace = s.trace ++ [.read (base c) [s.status c]] ∧ (s.wlLook c).2.cfg = s.cfg := by
  have hread : (s.env.read s.cfg (base c) 1).1 = [s.status c] := Env.read_one ..
  have htrace : (s.look c).2.trace = s.trace ++ [.read (base c) [s.status c]] := by
    rw [look_trace, hread]
  obtain ⟨-, h⟩ | ⟨-, h⟩ | ⟨-, h⟩ := wlLook_cases s c <;> rw [h] <;> exact ⟨rfl, htrace, rfl⟩

end

/-! ### What the loop keeps -/

/-- The streams of the loop: `LEN` is their lengths, their registers are legal, and the cursor of an
aborted one is short of its end. -/
structure State.LoopInv (rom1 rom2 : List Byte) (s : State) : Prop where
  ready : s.LoopReady rom1 rom2
  stream : ∀ c, streamLegal (s.cur.get c) (s.len.get c) (s.busy.get c) (s.abort.get c)
  short : ∀ c, s.abort.get c = true → (s.cur.get c).toNat < (s.len.get c).toNat

section
variable {rom1 rom2 : List Byte} {s t : State} {c : Chip}

theorem State.LoopInv.len (h : s.LoopInv rom1 rom2) (c : Chip) :
    (s.len.get c).toNat = (streamOf rom1 rom2 c).length := by
  obtain ⟨-, ha, hb⟩ := h.ready
  cases c <;> assumption

/-- A change of one stream's registers. -/
theorem State.LoopInv.setStream (h : s.LoopInv rom1 rom2) (hlen : t.len = s.len)
    (hc : streamLegal (t.cur.get c) (t.len.get c) (t.busy.get c) (t.abort.get c))
    (hshort : t.abort.get c = true → (t.cur.get c).toNat < (t.len.get c).toNat)
    (hother : ∀ d, d ≠ c → t.cur.get d = s.cur.get d ∧ t.busy.get d = s.busy.get d ∧
      t.abort.get d = s.abort.get d) : t.LoopInv rom1 rom2 := by
  refine ⟨h.ready.congr hlen, fun d => ?_, fun d => ?_⟩ <;> rcases eq_or_ne d c with rfl | hd
  · exact hc
  · obtain ⟨hcur, hbusy, habort⟩ := hother d hd
    rw [hcur, hlen, hbusy, habort]
    exact h.stream d
  · exact hshort
  · obtain ⟨hcur, -, habort⟩ := hother d hd
    rw [hcur, hlen, habort]
    exact h.short d

theorem State.LoopInv.congr (h : s.LoopInv rom1 rom2) (hlen : t.len = s.len) (hcur : t.cur = s.cur)
    (hbusy : t.busy = s.busy) (habort : t.abort = s.abort) : t.LoopInv rom1 rom2 :=
  ⟨h.ready.congr hlen, by rw [hlen, hcur, hbusy, habort]; exact h.stream,
    by rw [hlen, hcur, habort]; exact h.short⟩

theorem loopInv_wlInit (s : State) (h : streamsOk rom1 rom2 = true) :
    (s.wlInit rom1 rom2).LoopInv rom1 rom2 := by
  obtain ⟨h1, h2⟩ := Bool.and_eq_true_iff.1 h
  refine ⟨loopReady_wlInit s h, fun c => ?_, fun c habort => ?_⟩ <;> cases c
  · exact (streamLegal_start h1).1
  · exact (streamLegal_start h2).1
  · cases habort
  · cases habort

/-- A live chip with no page outstanding is short of the end of its stream. -/
theorem State.LoopInv.next (h : s.LoopInv rom1 rom2) (hl : s.live c = true) (hb : s.busy.get c = false) :
    s.abort.get c = false ∧ (s.cur.get c).toNat < (streamOf rom1 rom2 c).length := by
  obtain ⟨ha, hlt⟩ := live_iff.1 hl
  exact ⟨ha, h.len c ▸ hlt.resolve_left (by simp [hb])⟩

theorem State.LoopInv.wlIssue (h : s.LoopInv rom1 rom2) (hl : s.live c = true)
    (hb : s.busy.get c = false) (rom : List Byte) : (s.wlIssue c rom).LoopInv rom1 rom2 := by
  obtain ⟨ha, hlt⟩ := h.next hl hb
  refine h.setStream (c := c) (wlIssue_len ..) ?_ (by simp [ha]) fun d hd => ?_
  · simpa [wlIssue_len] using streamLegal_issue (h.stream c) (h.len c ▸ hlt) ha
  · simp [PerChip_get_set_of_ne _ _ hd]

theorem State.LoopInv.wlLook (h : s.LoopInv rom1 rom2) (hb : s.busy.get c = true) :
    (s.wlLook c).2.LoopInv rom1 rom2 := by
  have hlegal := h.stream c
  rw [hb] at hlegal
  obtain ⟨hlt, ha⟩ := hlegal.2.2.2.2 rfl
  obtain ⟨-, hl⟩ | ⟨-, hl⟩ | ⟨-, hl⟩ := wlLook_cases s c <;> rw [hl]
  · exact h.congr rfl rfl rfl rfl
  · refine h.setStream (c := c) rfl ?_ (by simp [State.wlReady, ha]) fun d hd => ?_
    · simpa [State.wlReady] using streamLegal_advance hlegal
    · simp [State.wlReady, PerChip_get_set_of_ne _ _ hd]
  · refine h.setStream (c := c) rfl ?_ (by simpa [State.wlError] using hlt) fun d hd => ?_
    · simpa [State.wlError] using streamLegal_abort hlegal
    · simp [State.wlError, PerChip_get_set_of_ne _ _ hd]

/-- The next page is whole, aligned and in the window of its chip. -/
theorem State.LoopInv.pageIn (h : s.LoopInv rom1 rom2) (hl : s.live c = true)
    (hb : s.busy.get c = false) :
    (pageAddr c (s.cur.get c).toNat).toNat = (base c).toNat + (s.cur.get c).toNat ∧
      pageIn c (pageAddr c (s.cur.get c).toNat) (pageOf (streamOf rom1 rom2 c) (s.cur.get c).toNat) =
        true := by
  obtain ⟨-, hlt⟩ := h.next hl hb
  obtain ⟨hcur, hmod, -, hhalf, -⟩ := h.stream c
  rw [h.len c] at hmod hhalf
  have hlen := length_pageOf hcur hmod hlt
  have hoff : (BitVec.ofNat 24 (s.cur.get c).toNat).toNat = (s.cur.get c).toNat := by
    rw [BitVec.toNat_ofNat]
    have := (s.cur.get c).isLt
    omega
  obtain ⟨hin, hchip⟩ := chipOf_base_add (c := c) (x := BitVec.ofNat 24 (s.cur.get c).toNat)
    (by rw [hoff]; omega)
  have hb := base_toNat c
  have haddr : (pageAddr c (s.cur.get c).toNat).toNat = (base c).toNat + (s.cur.get c).toNat := by
    rw [pageAddr, BitVec.toNat_add, hoff]
    simp only [half] at hhalf
    omega
  refine ⟨haddr, ?_⟩
  have halign : (pageAddr c (s.cur.get c).toNat).toNat % 128 = 0 := by
    simp only [pageSize] at hcur
    rw [haddr]
    omega
  simp only [Machine.pageIn, pageOperandsOk_iff.2 ⟨halign, hlen⟩, Bool.and_true, Bool.and_eq_true,
    beq_iff_eq]
  exact ⟨hin, hchip⟩

/-- A stream that is not live is aborted, or at its end. -/
theorem State.LoopInv.finished (h : s.LoopInv rom1 rom2) (hdead : s.live c = false) :
    s.abort.get c = true ∨ (s.cur.get c).toNat = (streamOf rom1 rom2 c).length := by
  obtain ⟨-, -, hle, -, -⟩ := h.stream c
  cases ha : s.abort.get c with
  | true => exact .inl rfl
  | false =>
    have hnot : ¬(s.cur.get c).toNat < (s.len.get c).toNat := fun hlt => by
      rw [live_iff.2 ⟨ha, .inr hlt⟩] at hdead
      cases hdead
    exact .inr (by rw [← h.len c]; omega)

end

/-! ### The rule for the loop -/

/-- The loop, at either chip's turn. -/
def IsLoop (rom1 rom2 : List Byte) (p : Phase) : Prop := ∃ turn, p = .wl turn rom1 rom2

/-- The loop goes on to the next phase when neither stream is live. -/
theorem wlRun_goOn {n : Nat} {turn : Chip} {rom1 rom2 : List Byte} {s u : State}
    (h : State.wlRun n turn rom1 rom2 s = .goOn u) : ∀ c, u.live c = false := by
  induction n generalizing turn s with
  | zero => cases h
  | succ n ih =>
    unfold State.wlRun at h
    simp only at h
    split at h
    · next hdead =>
      cases h
      intro c
      cases c
      · simpa using hdead.2.1
      · simpa using hdead.2.2
    split at h
    · exact ih h
    split at h
    · split at h
      · cases h
      · exact ih h
    · exact ih h

/-- What an issue and a look keep, the loop keeps, up to its end. -/
theorem loopRule {P : State → Prop} {rom1 rom2 : List Byte} (hseq : ∀ s q, P s → P { s with seq := q })
    (hissue : ∀ s c, s.LoopInv rom1 rom2 → P s → s.live c = true → s.busy.get c = false →
      P (s.wlIssue c (streamOf rom1 rom2 c)))
    (hlook : ∀ s c, s.LoopInv rom1 rom2 → P s → s.busy.get c = true → P (s.wlLook c).2) :
    PhaseRule (fun s => s.LoopInv rom1 rom2 ∧ P s) (IsLoop rom1 rom2)
      (fun s => (s.LoopInv rom1 rom2 ∧ P s) ∧ ∀ c, s.live c = false) where
  seq := fun s q ⟨h, hP⟩ => ⟨h.congr rfl rfl rfl rfl, hseq s q hP⟩
  perform := by
    rintro _ s ⟨turn, rfl⟩ h
    have hkeeps : (State.wlRun (wlTurns rom1 rom2) turn rom1 rom2 s).Holds
        (fun s => s.LoopInv rom1 rom2 ∧ P s) (IsLoop rom1 rom2) := by
      refine wlRun_keeps (fun turn => ⟨turn, rfl⟩) ?_ ?_ _ turn s h
      · rintro s c ⟨h, hP⟩ hl hb
        refine ⟨h.wlIssue hl hb _, ?_⟩
        have hnext := hissue s c h hP hl hb
        cases c <;> exact hnext
      · rintro s c ⟨h, hP⟩ - hb
        exact ⟨h.wlLook hb, hlook s c h hP hb⟩
    show (State.wlRun (wlTurns rom1 rom2) turn rom1 rom2 s).Leaves _ _ _
    cases hr : State.wlRun (wlTurns rom1 rom2) turn rom1 rom2 s with
    | goOn u =>
      rw [hr] at hkeeps
      exact ⟨hkeeps, wlRun_goOn hr⟩
    | again now u =>
      rw [hr] at hkeeps
      exact hkeeps
    | fail cause info u => exact absurd hr (wlRun_ne_fail _ _ _ _ _ _ _ _)

end Sys2Proof.Machine


/-! WRITE_LOOP at every point: one page outstanding per chip, and what it reports. -/

namespace Sys2Proof.Machine

open Sys2Proof

/-- What holds at every point of a loop and of what follows it. -/
theorem always_loop {T P : State → Prop} {rom1 rom2 : List Byte} {c : Bool} {rest : List Phase}
    (hseq : ∀ s q, P s → P { s with seq := q })
    (hissue : ∀ s c, s.LoopInv rom1 rom2 → P s → s.live c = true → s.busy.get c = false →
      P (s.wlIssue c (streamOf rom1 rom2 c)))
    (hlook : ∀ s c, s.LoopInv rom1 rom2 → P s → s.busy.get c = true → P (s.wlLook c).2)
    (hagain : ∀ s turn, P s → T { s with seq := .running c (.wl turn rom1 rom2) rest })
    (hrest : ∀ s, s.LoopInv rom1 rom2 → P s → (∀ c, s.live c = false) → (s.runPhases c rest).Always T)
    {s : State} (hok : streamsOk rom1 rom2 = true) (h : P (s.wlInit rom1 rom2)) :
    (s.runPhases c (writeLoopPhases rom1 rom2 ++ rest)).Always T := by
  refine always_phase (loopRule hseq hissue hlook) ?_ ?_ ?_ ⟨.a, rfl⟩ (s := s.wlInit rom1 rom2)
    ⟨loopInv_wlInit s hok, h⟩
  · rintro u _ ⟨-, hu⟩ ⟨turn, rfl⟩
    exact hagain u turn hu
  · rintro u addr - ⟨turn, hturn⟩
    cases hturn
  · rintro u ⟨⟨hinv, hu⟩, hdead⟩
    exact hrest u hinv hu hdead

/-- WRITE_LOOP, its checks passed. -/
theorem runs_writeLoop {s t : State} {rom1 rom2 : List Byte} {n : Nat} (hrel : s.Released)
    (hok : streamsOk rom1 rom2 = true) (hr : s.Runs (.writeLoop rom1 rom2) n t) :
    (s.runPhases false (writeLoopPhases rom1 rom2 ++ [.doneCount])).drive n = t := by
  obtain ⟨t0, he, ht⟩ := hr
  cases (exec_writeLoop hrel hok).symm.trans he
  exact ht

/-! ### One page outstanding -/

/-- How many writes of a page have been sent to a chip after the events `es` addressed to it. -/
def pagePart : Nat → List Event → Nat
  | n, [] => n
  | n, .write _ _ :: es => pagePart (n + 1) es
  | _, .read _ bs :: es => pagePart (if isReady (bs.headD 0) then 0 else 5) es

theorem onePageOutstanding_append (c : Chip) (n : Nat) (es vs : List Event) :
    onePageOutstanding c n (es ++ vs) =
      (onePageOutstanding c n es && onePageOutstanding c (pagePart n es) vs) := by
  induction es generalizing n with
  | nil => rfl
  | cons e es ih => cases e <;> simp [onePageOutstanding, pagePart, ih, Bool.and_assoc]

theorem pagePart_append (n : Nat) (es vs : List Event) :
    pagePart n (es ++ vs) = pagePart (pagePart n es) vs := by
  induction es generalizing n with
  | nil => rfl
  | cons e es ih => cases e <;> exact ih _

/-- Every write of a page goes to the page's chip. -/
theorem pageEvents_chip {addr : Addr} (cfg : Config) (cmd : Byte) (page : List Byte)
    (halign : addr.toNat % 128 = 0) (hin : inFlash addr.toNat = true) :
    ∀ w ∈ pageEvents cfg cmd addr page, inFlash w.1.toNat = true ∧ chipOf w.1 = chipOf addr := by
  have hbank := chipOf_bankBase_add hin
  have hunlock : ∀ w ∈ localUnlock cfg addr cmd, inFlash w.1.toNat = true ∧ chipOf w.1 = chipOf addr :=
    List.forall_mem_cons.2 ⟨hbank _, List.forall_mem_cons.2 ⟨hbank _,
      List.forall_mem_cons.2 ⟨hbank _, nofun⟩⟩⟩
  exact List.forall_mem_append.2 ⟨hunlock, List.forall_mem_cons.2 ⟨⟨hin, rfl⟩,
    List.forall_mem_cons.2 ⟨chipOf_lastAddr halign hin, nofun⟩⟩⟩

/-- Writes to one chip are all of that chip's events, and none of the other's. -/
theorem filter_reaches_wrote {ws : List BusWrite} {c : Chip} (d : Chip)
    (h : ∀ w ∈ ws, inFlash w.1.toNat = true ∧ chipOf w.1 = c) :
    (wrote ws).filter (Event.reaches d) = if d = c then wrote ws else [] := by
  have hreach : ∀ e ∈ wrote ws, e.reaches d = decide (d = c) := by
    intro e he
    obtain ⟨w, hw, rfl⟩ := List.mem_map.1 he
    obtain ⟨hin, rfl⟩ := h w hw
    simp only [Event.reaches, hin, Bool.true_and]
    rw [Bool.eq_iff_iff, beq_iff_eq, decide_eq_true_eq]
    exact eq_comm
  split
  · next hd => exact List.filter_eq_self.2 fun e he => (hreach e he).trans (decide_eq_true hd)
  · next hd => exact List.filter_eq_nil_iff.2 fun e he => by simp [hreach e he, hd]

/-- A look at a chip is an event of that chip alone. -/
theorem reaches_look (c d : Chip) (bs : List Byte) :
    Event.reaches d (.read (base c) bs) = decide (d = c) := by
  cases c <;> cases d <;> rfl

/-- The events since the trace was `tr` keep one page outstanding on chip `c`, and five writes of a page
have been sent if the loop has it outstanding, none if not. -/
def State.OnePage (tr : List Event) (c : Chip) (s : State) : Prop :=
  ∃ ev, s.trace = tr ++ ev ∧ onePageOutstanding c 0 (ev.filter (Event.reaches c)) = true ∧
    pagePart 0 (ev.filter (Event.reaches c)) = if s.busy.get c then 5 else 0

section
variable {tr : List Event} {rom1 rom2 : List Byte} {s : State} {c d : Chip}

theorem State.OnePage.issue (h : s.OnePage tr c) (hinv : s.LoopInv rom1 rom2) (hl : s.live d = true)
    (hb : s.busy.get d = false) : (s.wlIssue d (streamOf rom1 rom2 d)).OnePage tr c := by
  obtain ⟨ev, htrace, hone, hpart⟩ := h
  obtain ⟨-, hpage⟩ := hinv.pageIn hl hb
  simp only [pageIn, Bool.and_eq_true, beq_iff_eq] at hpage
  obtain ⟨⟨hin, hchip⟩, hok⟩ := hpage
  have hfilter := filter_reaches_wrote c (pageEvents_chip s.cfg cmdProgram
    (pageOf (streamOf rom1 rom2 d) (s.cur.get d).toNat) (pageOperandsOk_iff.1 hok).1 hin)
  rw [hchip] at hfilter
  refine ⟨ev ++ wrote (s.pageWrites d (streamOf rom1 rom2 d)), ?_, ?_, ?_⟩
  · rw [wlIssue_trace, htrace, List.append_assoc]
  all_goals
    rw [List.filter_append, State.pageWrites, hfilter]
    by_cases hcd : c = d
    · subst hcd
      rw [hb] at hpart
      simp [onePageOutstanding_append, pagePart_append, hone, hpart, pageEvents, localUnlock, wrote,
        onePageOutstanding, pagePart]
    · simp [hcd, hone, hpart, PerChip_get_set_of_ne _ _ hcd]

theorem State.OnePage.look (h : s.OnePage tr c) (hb : s.busy.get d = true) :
    (s.wlLook d).2.OnePage tr c := by
  obtain ⟨ev, htrace, hone, hpart⟩ := h
  obtain ⟨-, hlook, -⟩ := wlLook_bus s d
  have hbusy : c = d → (s.wlLook d).2.busy.get c = !isReady (s.status d) := by
    rintro rfl
    obtain ⟨hs, hw⟩ | ⟨hs, hw⟩ | ⟨hs, hw⟩ := wlLook_cases s c <;> rw [hw]
    · simp [classify_busy.1 hs, hb]
    · simp [(classify_ready.1 hs).1, State.wlReady]
    · simp [(classify_error.1 hs).1, State.wlError]
  have hother : c ≠ d → (s.wlLook d).2.busy.get c = s.busy.get c := by
    intro hcd
    obtain ⟨-, hw⟩ | ⟨-, hw⟩ | ⟨-, hw⟩ := wlLook_cases s d <;>
      simp [hw, State.wlReady, State.wlError, PerChip_get_set_of_ne _ _ hcd]
  refine ⟨ev ++ [.read (base d) [s.status d]], ?_, ?_, ?_⟩
  · rw [hlook, htrace, List.append_assoc]
  all_goals
    rw [List.filter_append, List.filter_singleton, reaches_look]
    by_cases hcd : c = d
    · have hbusy := hbusy hcd
      subst hcd
      rw [hb] at hpart
      cases hready : isReady (s.status c) <;>
        simp [onePageOutstanding_append, pagePart_append, hone, hpart, onePageOutstanding, pagePart,
          hbusy, hready]
    · simp [hcd, hone, hpart, hother hcd]

end

/-- Settles O21: an issue finds no page outstanding on its chip and sends the five writes of one, and a
look ends it when the status byte is ready. -/
theorem writeLoopOnePageOutstanding : Obligations.WriteLoopOnePageOutstanding := by
  intro s rom1 rom2 n t c hrel hok hr
  have halways : (s.runPhases false (writeLoopPhases rom1 rom2 ++ [.doneCount])).Always fun t =>
      ∃ ev, t.trace = s.trace ++ ev ∧ onePageOutstanding c 0 (ev.filter (Event.reaches c)) = true := by
    refine always_loop (P := State.OnePage s.trace c) (fun _ _ h => h)
      (fun _ _ hinv h hl hb => h.issue hinv hl hb) (fun _ _ _ h hb => h.look hb) ?_ ?_ hok ?_
    · rintro u turn ⟨ev, htrace, hone, -⟩
      exact ⟨ev, htrace, hone⟩
    · rintro u - ⟨ev, htrace, hone, -⟩ -
      exact .of_idle rfl ⟨ev, htrace, hone⟩
    · exact ⟨[], (List.append_nil _).symm, rfl, by cases c <;> rfl⟩
  rw [← runs_writeLoop hrel hok hr]
  exact halways n

end Sys2Proof.Machine


/-! What the loop and WRITE_ROM report, and the reset at the end of every composite. -/

namespace Sys2Proof.Machine

open Sys2Proof

/-! ### The count -/

section
variable {rom1 rom2 : List Byte} {s : State}

/-- The count does not pass the input, which `RES` can hold. -/
theorem State.LoopInv.count_le (h : s.LoopInv rom1 rom2) :
    s.count ≤ rom1.length + rom2.length ∧ rom1.length + rom2.length ≤ maxRom := by
  obtain ⟨-, -, hlea, hhalfa, -⟩ := h.stream .a
  obtain ⟨-, -, hleb, hhalfb, -⟩ := h.stream .b
  rw [h.len] at hlea hhalfa hleb hhalfb
  simp only [half, maxRom] at *
  exact ⟨Nat.add_le_add hlea hleb, Nat.add_le_add hhalfa hhalfb⟩

theorem State.LoopInv.count_toNat (h : s.LoopInv rom1 rom2) :
    (BitVec.ofNat 24 s.count).toNat = s.count := by
  obtain ⟨hle, hmax⟩ := h.count_le
  rw [BitVec.toNat_ofNat]
  simp only [maxRom] at hmax
  omega

/-- At the end of the loop the count is the whole input if no stream is aborted, and else falls short. -/
theorem State.LoopInv.count_eq_iff (h : s.LoopInv rom1 rom2) (hdead : ∀ c, s.live c = false) :
    s.count = rom1.length + rom2.length ↔ ∀ c, s.abort.get c = false := by
  obtain ⟨-, -, hlea, -, -⟩ := h.stream .a
  obtain ⟨-, -, hleb, -, -⟩ := h.stream .b
  have hlena : s.len.a.toNat = rom1.length := h.len .a
  have hlenb : s.len.b.toNat = rom2.length := h.len .b
  have hcount : s.count = (s.cur.get .a).toNat + (s.cur.get .b).toNat := rfl
  constructor
  · intro heq c
    cases habort : s.abort.get c with
    | false => rfl
    | true =>
      have hshort := h.short c habort
      cases c <;> simp only [PerChip.get] at * <;> omega
  · intro hnone
    have hfinished : ∀ c, (s.cur.get c).toNat = (streamOf rom1 rom2 c).length := fun c =>
      (h.finished (hdead c)).resolve_left (by simp [hnone c])
    rw [hcount, hfinished, hfinished]
    rfl

end

/-! ### WRITE_LOOP -/

/-- Of the status bytes read since the trace was `tr`, one is of class Error if and only if a stream is
aborted. -/
def State.ErrorsAbort (tr : List Event) (s : State) : Prop :=
  ∃ ev, s.trace = tr ++ ev ∧
    ((∃ addr b, Event.read addr [b] ∈ ev ∧ classify b = .error) ↔ ∃ c, s.abort.get c = true)

theorem State.ErrorsAbort.issue {tr : List Event} {s : State} (h : s.ErrorsAbort tr) (c : Chip)
    (rom : List Byte) : (s.wlIssue c rom).ErrorsAbort tr := by
  obtain ⟨ev, htrace, hiff⟩ := h
  refine ⟨ev ++ wrote (s.pageWrites c rom), by rw [wlIssue_trace, htrace, List.append_assoc], ?_⟩
  rw [wlIssue_abort, ← hiff]
  simp [wrote]

theorem State.ErrorsAbort.look {tr : List Event} {s : State} {c : Chip} (h : s.ErrorsAbort tr) :
    (s.wlLook c).2.ErrorsAbort tr := by
  obtain ⟨ev, htrace, hiff⟩ := h
  obtain ⟨-, hlook, -⟩ := wlLook_bus s c
  refine ⟨ev ++ [.read (base c) [s.status c]], by rw [hlook, htrace, List.append_assoc], ?_⟩
  have hread : (∃ addr b, Event.read addr [b] ∈ ev ++ [.read (base c) [s.status c]] ∧
      classify b = .error) ↔ (∃ d, s.abort.get d = true) ∨ classify (s.status c) = .error := by
    rw [← hiff]
    constructor
    · rintro ⟨addr, b, hmem, hb⟩
      rcases List.mem_append.1 hmem with hmem | hmem
      · exact .inl ⟨addr, b, hmem, hb⟩
      · cases List.mem_singleton.1 hmem
        exact .inr hb
    · rintro (⟨addr, b, hmem, hb⟩ | hb)
      · exact ⟨addr, b, List.mem_append_left _ hmem, hb⟩
      · exact ⟨_, _, List.mem_append_right _ (List.mem_singleton_self _), hb⟩
  rw [hread]
  obtain ⟨hs, hw⟩ | ⟨hs, hw⟩ | ⟨hs, hw⟩ := wlLook_cases s c <;> rw [hw]
  · simp [hs]
  · simp [hs, State.wlReady]
  · exact iff_of_true (.inr hs) ⟨c, by simp [State.wlError]⟩

/-- Settles O20: the loop ends when neither stream is live, and a look of class Error alone aborts one. -/
theorem writeLoopCount : Obligations.WriteLoopCount := by
  intro s rom1 rom2 n t hrel hok ⟨hr, hidle⟩
  have halways : (s.runPhases false (writeLoopPhases rom1 rom2 ++ [.doneCount])).Always fun t =>
      t.seq = .idle → t.rc = 0x00#8 ∧ t.res.toNat = t.cur.a.toNat + t.cur.b.toNat ∧
        (t.abort.a = true ∨ t.cur.a.toNat = rom1.length) ∧
        (t.abort.b = true ∨ t.cur.b.toNat = rom2.length) ∧
        ∃ ev, t.trace = s.trace ++ ev ∧ (t.res.toNat = rom1.length + rom2.length ↔
          ∀ addr b, Event.read addr [b] ∈ ev → classify b ≠ .error) := by
    refine always_loop (P := State.ErrorsAbort s.trace) (fun _ _ h => h) (fun _ _ _ h _ _ => h.issue ..)
      (fun _ _ _ h _ => h.look) (fun _ _ _ => nofun) ?_ hok ?_
    · rintro u hinv ⟨ev, htrace, hiff⟩ hdead
      refine .of_idle rfl fun _ => ⟨rfl, hinv.count_toNat, hinv.finished (hdead .a),
        hinv.finished (hdead .b), ev, htrace, ?_⟩
      show (BitVec.ofNat 24 u.count).toNat = _ ↔ _
      rw [hinv.count_toNat, hinv.count_eq_iff hdead]
      simpa using not_congr hiff.symm
    · refine ⟨[], (List.append_nil _).symm, iff_of_false (by simp) ?_⟩
      rintro ⟨c, hc⟩
      cases c <;> cases hc
  have hend := halways n
  rw [runs_writeLoop hrel hok hr] at hend
  exact hend hidle

/-! ### The erase before the loop -/

theorem BusStable.and {P P' : State → Prop} (h : BusStable P) (h' : BusStable P') :
    BusStable fun s => P s ∧ P' s where
  regs := fun s t ⟨hs, hs'⟩ he ht hc => ⟨h.regs s t hs he ht hc, h'.regs s t hs' he ht hc⟩
  write := fun s addr v ⟨hs, hs'⟩ => ⟨h.write s addr v hs, h'.write s addr v hs'⟩
  read := fun s addr n ⟨hs, hs'⟩ => ⟨h.read s addr n hs, h'.read s addr n hs'⟩

/-- What every bus event keeps, every phase keeps. -/
theorem BusStable.rule {P : State → Prop} (hP : BusStable P) : PhaseRule P (fun _ => True) P where
  seq := fun s _ h => hP.regs s _ h rfl rfl rfl
  perform := fun p _ _ h => (hP.perform p h).leaves

/-- A phase other than the loop is left, at a busy answer, where it is. -/
theorem perform_again {p now : Phase} {s u : State} (hp : ∀ turn rom1 rom2, p ≠ .wl turn rom1 rom2)
    (h : p.perform s = .again now u) : now = p := by
  cases p with
  | wait addr =>
    simp only [Phase.perform, State.waitTurn] at h
    split at h
    · cases h
    · split at h <;> cases h
      rfl
  | wl turn rom1 rom2 => exact absurd rfl (hp turn rom1 rom2)
  | _ => cases h

/-- A phase of an erase: no loop, and no wait but at a chip base. -/
def IsErase (p : Phase) : Prop :=
  (∀ turn rom1 rom2, p ≠ .wl turn rom1 rom2) ∧ ∀ addr, p = .wait addr → addr = base .a ∨ addr = base .b

/-- What every bus event keeps, the erase keeps. -/
theorem BusStable.eraseRule {P : State → Prop} (hP : BusStable P) : PhaseRule P IsErase P where
  seq := hP.rule.seq
  perform := by
    intro p s hp h
    have hkeeps := hP.rule.perform p s trivial h
    cases hr : p.perform s with
    | again now u =>
      rw [hr] at hkeeps
      exact ⟨hkeeps.1, perform_again hp.1 hr ▸ hp⟩
    | goOn u =>
      rw [hr] at hkeeps
      exact hkeeps
    | fail cause info u =>
      rw [hr] at hkeeps
      exact hkeeps

theorem chipErasePhases_isErase : ∀ p ∈ chipErasePhases, IsErase p := by
  simp [chipErasePhases, waitBoth, waitPhases, IsErase]

/-! ### WRITE_ROM -/

theorem length_romA_add_romB (buf : List Byte) : (romA buf).length + (romB buf).length = buf.length := by
  rw [← List.length_append, romA, romB, List.take_append_drop]

theorem imageLengthOk_iff {max : Nat} {buf : List Byte} :
    imageLengthOk max buf = true ↔ buf.length % 128 = 0 ∧ buf.length ≤ max := by
  simp [imageLengthOk, pageSize]

/-- WRITE_ROM, its checks passed. -/
theorem runs_writeRom {s t : State} {buf : List Byte} {n : Nat} (hrel : s.Released)
    (hok : imageLengthOk maxRom buf = true) (hr : s.Runs (.writeRom buf) n t) :
    (s.runPhases true (chipErasePhases ++ (writeLoopPhases (romA buf) (romB buf) ++
      [.unlockGlobal cmdReset, .doneRom buf.length]))).drive n = t := by
  obtain ⟨t0, he, ht⟩ := hr
  cases (exec_writeRom hrel hok).symm.trans he
  rwa [List.append_assoc] at ht

/-- The end of WRITE_ROM, after the loop. -/
theorem runPhases_romEnd (s : State) (len : Nat) :
    s.runPhases true [.unlockGlobal cmdReset, .doneRom len] =
      (s.afterWrites (globalUnlock s.cfg 0xF0#8)).finish (if s.count = len then 0x00#8 else 0x02#8)
        (BitVec.ofNat 24 s.count) := by
  rw [runPhases_unlockGlobal]
  show ({ State.romResult _ len with seq := .idle } : State) = _
  have hcount : (s.afterWrites (globalUnlock s.cfg cmdReset)).count = s.count := rfl
  rw [State.romResult, hcount]
  split <;> rfl

/-- Settles O24: the erase fails at its limit alone, and the loop's count decides the rest. -/
theorem writeRomReport : Obligations.WriteRomReport := by
  intro s buf n t hrel hmod hle ⟨hr, hidle⟩
  have hok : imageLengthOk maxRom buf = true := imageLengthOk_iff.2 ⟨hmod, hle⟩
  have halways : (s.runPhases true (chipErasePhases ++ (writeLoopPhases (romA buf) (romB buf) ++
      [.unlockGlobal cmdReset, .doneRom buf.length]))).Always fun t => t.seq = .idle →
        (t.res.toNat = t.cur.a.toNat + t.cur.b.toNat ∧
          (t.rc = 0x00#8 ∧ t.res.toNat = buf.length ∨ t.rc = 0x02#8 ∧ t.res.toNat < buf.length)) ∨
        (t.rc = 0x05#8 ∧ s.cfg.pollLimit ≠ none ∧ (t.res = 0xC00000#24 ∨ t.res = 0xE00000#24)) := by
    refine always_phases (busStable_cfg s.cfg).eraseRule (fun _ _ _ _ _ => nofun) ?_ ?_
      chipErasePhases_isErase rfl
    · intro u addr hcfg hwait hlimit _
      exact .inr ⟨rfl, hcfg ▸ hlimit, hwait.2 addr rfl⟩
    · rintro u -
      refine always_loop (P := fun _ => True) (fun _ _ h => h) (fun _ _ _ h _ _ => h)
        (fun _ _ _ h _ => h) (fun _ _ _ => nofun) ?_ (streamsOk_rom hok) trivial
      rintro v hinv - hdead
      have hres := hinv.count_toNat
      have hcount := hinv.count_le.1
      rw [length_romA_add_romB] at hcount
      rw [runPhases_romEnd]
      refine .of_idle rfl fun _ => .inl ⟨hres, ?_⟩
      by_cases heq : v.count = buf.length
      · exact .inl ⟨if_pos heq, hres.trans heq⟩
      · exact .inr ⟨if_neg heq, hres.trans_lt (lt_of_le_of_ne hcount heq)⟩
  have hend := halways n
  rw [runs_writeRom hrel hok hr] at hend
  exact hend hidle

/-! ### READ_RESET at the end of a composite -/

/-- The phases `tail` end the operation with `READ_RESET`. -/
def EndsWithReset (tail : List Phase) : Prop :=
  ∀ s : State, (s.runPhases true tail).seq = .idle ∧
    ∃ ev, (s.runPhases true tail).trace = s.trace ++ ev ++ wrote (globalUnlock s.cfg 0xF0#8)

theorem romEnd_endsWithReset (len : Nat) :
    EndsWithReset [.unlockGlobal cmdReset, .doneRom len] := fun s => by
  rw [runPhases_romEnd]
  exact ⟨rfl, [], by simp⟩

theorem mapEnd_endsWithReset : EndsWithReset [.unlockGlobal cmdReset, .doneMap] := fun s => by
  rw [runPhases_unlockGlobal]
  refine ⟨rfl, [], ?_⟩
  show (State.mapResult _).trace = _
  unfold State.mapResult
  split <;> simp [cmdReset]

theorem mapReadBack_endsWithReset (map : List Byte) : EndsWithReset [.mapReadBack map] := fun s => by
  rw [runPhases_mapReadBack]
  exact ⟨by rw [State.mapReadBack_eq]; rfl, _, (mapReadBack_result s map).2.2⟩

/-- A composite's phases are some, and then those that end with `READ_RESET`. -/
theorem phasesOf_composite (cfg : Config) {i : Instr} (hi : cleansUp i = true) :
    ∃ pre tail, phasesOf cfg i = pre ++ tail ∧ EndsWithReset tail := by
  cases i with
  | writeRom buf => exact ⟨_, _, rfl, romEnd_endsWithReset _⟩
  | writeMap map => exact ⟨_, _, rfl, mapEnd_endsWithReset⟩
  | verifyMap map => exact ⟨_, _, rfl, mapReadBack_endsWithReset map⟩
  | _ => cases hi

theorem runsInPhases_of_cleansUp {i : Instr} (hi : cleansUp i = true) : runsInPhases i = true := by
  cases i with
  | writeRom | writeMap | verifyMap => rfl
  | _ => cases hi

/-- A composite whose checks pass ends with `READ_RESET` on every path. -/
theorem composite_endsWithReset {s t : State} {i : Instr} {n : Nat} (hi : cleansUp i = true)
    (hready : s.Ready) (hw : needsRelease i = true → s.wpr = true) (hok : i.wellFormed = true)
    (hends : s.Ends i n t) :
    ∃ ev, t.trace = s.trace ++ ev ++ wrote (globalUnlock s.cfg 0xF0#8) := by
  obtain ⟨⟨t0, he, rfl⟩, hidle⟩ := hends
  rw [exec_operate_phases (runsInPhases_of_cleansUp hi), State.operate_run hready hw hok, hi] at he
  obtain ⟨pre, tail, hphases, htail⟩ := phasesOf_composite s.cfg hi
  have hgrows : PhaseRule (fun u => s.trace <+: u.trace ∧ u.cfg = s.cfg) (fun _ => True) _ :=
    ((busStable_trace s.trace).and (busStable_cfg s.cfg)).rule
  have halways : (s.runPhases true (pre ++ tail)).Always fun t => t.seq = .idle →
      ∃ ev, t.trace = s.trace ++ ev ++ wrote (globalUnlock s.cfg 0xF0#8) := by
    refine always_phases hgrows (fun _ _ _ _ _ => nofun) ?_ ?_ (fun _ _ => trivial)
      ⟨List.prefix_rfl, rfl⟩
    · rintro u addr ⟨⟨ev, htrace⟩, hcfg⟩ - - -
      refine ⟨ev, ?_⟩
      show u.readReset.trace = _
      rw [State.readReset_eq, afterWrites_trace, ← htrace, hcfg]
    · rintro u ⟨⟨ev, htrace⟩, hcfg⟩
      obtain ⟨hend, ev', htrace'⟩ := htail u
      refine .of_idle hend fun _ => ⟨ev ++ ev', ?_⟩
      rw [htrace', ← htrace, hcfg, List.append_assoc s.trace]
  have hend := halways n
  rw [← hphases, Host.Outcome.next.inj he] at hend
  exact hend hidle

/-- Settles O23: the three composites send it after their last wait, and when a wait fails. -/
theorem compositesEndWithReset : Obligations.CompositesEndWithReset := by
  intro s i n t hs hok hends
  cases i with
  | writeRom buf => exact composite_endsWithReset rfl hs.1 (fun _ => hs.2) hok hends
  | writeMap map => exact composite_endsWithReset rfl hs.1 (fun _ => hs.2) hok hends
  | verifyMap map => exact composite_endsWithReset rfl hs (by simp [needsRelease]) hok hends
  | _ => exact hs.elim

end Sys2Proof.Machine


/-! The verifier: the chunks it reads, up to the first that differs. -/

namespace Sys2Proof.Machine

open Sys2Proof

/-- Chunk `j` of an image. -/
def imageChunk (buf : List Byte) (j : Nat) : List Byte := (buf.drop (j * 0x10000)).take 0x10000

/-- The state once the verifier has read chunks and come to the offset `v`. -/
def State.readOn (s : State) (e : Env) (evs : List Event) (v : BitVec 23) (notes : List Nat) : State :=
  { s with env := e, trace := s.trace ++ evs, voff := v, progress := s.progress ++ notes }

section
variable (s : State) (e : Env) (evs : List Event) (v : BitVec 23) (notes : List Nat)

@[simp] theorem readOn_cfg : (s.readOn e evs v notes).cfg = s.cfg := rfl
@[simp] theorem readOn_env : (s.readOn e evs v notes).env = e := rfl
@[simp] theorem readOn_voff : (s.readOn e evs v notes).voff = v := rfl

@[simp] theorem readOn_readOn (e' : Env) (evs' : List Event) (v' : BitVec 23) (notes' : List Nat) :
    (s.readOn e evs v notes).readOn e' evs' v' notes' = s.readOn e' (evs ++ evs') v' (notes ++ notes') := by
  simp only [State.readOn, List.append_assoc]

theorem readOn_self : s.readOn s.env [] s.voff [] = s := by
  simp only [State.readOn, List.append_nil]

theorem finish_readOn {s : State} (h : s.seq = .idle) (rc : BitVec 8) (res : BitVec 24) :
    (s.readOn e evs v notes).finish rc res =
      { s with
        env := e
        trace := s.trace ++ evs
        voff := v
        progress := s.progress ++ notes
        rc := rc
        res := res } :=
  finish_idle (s := s.readOn e evs v notes) h rc res

theorem memRead_fst (addr : Addr) (n : Nat) : (s.memRead addr n).1 = (s.env.read s.cfg addr n).1 := by
  rw [State.memRead]

theorem memRead_readOn (addr : Addr) (n : Nat) :
    (s.memRead addr n).2 =
      s.readOn (s.env.read s.cfg addr n).2 [.read addr (s.env.read s.cfg addr n).1] s.voff [] := by
  simp only [State.memRead, State.readOn, List.append_nil]

theorem memRead_readOn_notify (addr : Addr) (n : Nat) (note : Nat) :
    State.notify { (s.memRead addr n).2 with voff := v } note =
      s.readOn (s.env.read s.cfg addr n).2 [.read addr (s.env.read s.cfg addr n).1] v [note] := rfl

end

section
variable (cfg : Config) (e : Env) (len j n : Nat)

@[simp] theorem chunks_zero_fst : (e.chunks cfg len j 0).1 = [] := rfl
@[simp] theorem chunks_zero_snd : (e.chunks cfg len j 0).2 = e := rfl

@[simp] theorem chunks_succ_fst : (e.chunks cfg len j (n + 1)).1 =
    (e.read cfg (chunkAddr j) (chunkLen len j)).1 ::
      ((e.read cfg (chunkAddr j) (chunkLen len j)).2.chunks cfg len (j + 1) n).1 := by
  rw [Env.chunks]

@[simp] theorem chunks_succ_snd : (e.chunks cfg len j (n + 1)).2 =
    ((e.read cfg (chunkAddr j) (chunkLen len j)).2.chunks cfg len (j + 1) n).2 := by
  rw [Env.chunks]

end

/-- What the verifier leaves that has come to chunk `j`, has read `m` chunks from there and found `k` of them
equal. -/
def State.verified (s : State) (len j k m : Nat) : State :=
  s.readOn (s.env.chunks s.cfg len j m).2
    ((List.range m).map fun i => Event.read (chunkAddr (j + i)) ((s.env.chunks s.cfg len j m).1.getD i []))
    (BitVec.ofNat 23 (min ((j + k) * 0x10000) len))
    ((List.range k).map fun i => min ((j + i + 1) * 0x10000) len)

/-- One chunk, found equal. -/
theorem verified_one_one (s : State) (len j : Nat) :
    s.verified len j 1 1 = s.readOn (s.env.read s.cfg (chunkAddr j) (chunkLen len j)).2
      [.read (chunkAddr j) (s.env.read s.cfg (chunkAddr j) (chunkLen len j)).1]
      (BitVec.ofNat 23 (min ((j + 1) * 0x10000) len)) [min ((j + 1) * 0x10000) len] := by
  rw [State.verified, chunks_succ_fst, chunks_succ_snd, chunks_zero_fst, chunks_zero_snd]
  generalize s.env.read s.cfg (chunkAddr j) (chunkLen len j) = r
  simp only [List.range_one, List.map_cons, List.map_nil, List.getD_cons_zero, Nat.add_zero]

/-- One chunk, found different. -/
theorem verified_zero_one (s : State) (len j : Nat) :
    s.verified len j 0 1 = s.readOn (s.env.read s.cfg (chunkAddr j) (chunkLen len j)).2
      [.read (chunkAddr j) (s.env.read s.cfg (chunkAddr j) (chunkLen len j)).1]
      (BitVec.ofNat 23 (min (j * 0x10000) len)) [] := by
  rw [State.verified, chunks_succ_fst, chunks_succ_snd, chunks_zero_fst, chunks_zero_snd]
  generalize s.env.read s.cfg (chunkAddr j) (chunkLen len j) = r
  simp only [List.range_one, List.range_zero, List.map_cons, List.map_nil, List.getD_cons_zero, Nat.add_zero]

/-- Chunk `j`, found equal, and then those from `j + 1` on. -/
theorem verified_verified (s : State) (len j k m : Nat) :
    (s.verified len j 1 1).verified len (j + 1) k m = s.verified len j (k + 1) (m + 1) := by
  have hsucc : ∀ i, j + 1 + i = j + (i + 1) := fun i => by omega
  rw [verified_one_one, State.verified, State.verified, readOn_readOn, readOn_cfg, readOn_env, chunks_succ_fst,
    chunks_succ_snd]
  generalize s.env.read s.cfg (chunkAddr j) (chunkLen len j) = r
  simp only [List.range_succ_eq_map, List.map_cons, List.map_map, List.cons_append, List.nil_append,
    List.getD_cons_zero, List.getD_cons_succ, Function.comp_def, Nat.succ_eq_add_one, Nat.add_zero, hsucc]

/-- Of the answers to the reads from chunk `j` on, the first `k` equal the image and the next does not. -/
structure FirstDiffers (buf : List Byte) (j k : Nat) (answers : List (List Byte)) : Prop where
  equal : ∀ i < k, answers[i]? = some (imageChunk buf (j + i))
  differs : j + k < chunkCount buf.length → answers[k]? ≠ some (imageChunk buf (j + k))

/-- The verifier is at chunk `j` of the image. -/
def State.AtChunk (s : State) (len j : Nat) : Prop :=
  j ≤ chunkCount len ∧ s.voff = BitVec.ofNat 23 (min (j * 0x10000) len)

section
variable {s : State} {buf : List Byte} {j : Nat}

theorem lt_chunkCount {len : Nat} : j < chunkCount len ↔ j * 0x10000 < len := by
  unfold chunkCount
  omega

/-- No chunk is left. -/
theorem State.AtChunk.verified_none (h : s.AtChunk buf.length j) : s.verified buf.length j 0 0 = s := by
  simp only [State.verified, chunks_zero_fst, chunks_zero_snd, List.range_zero, List.map_nil, Nat.add_zero,
    ← h.2, readOn_self]

/-- The read of a chunk, and what the chunk is. -/
theorem State.AtChunk.read (h : s.AtChunk buf.length j) (hlen : buf.length ≤ maxRom)
    (hj : j < chunkCount buf.length) :
    verifyAddr s.voff.toNat = chunkAddr j ∧
      min vChunk (buf.drop (j * 0x10000)).length = chunkLen buf.length j ∧
      (buf.drop (j * 0x10000)).take (chunkLen buf.length j) = imageChunk buf j ∧
      (buf.drop (j * 0x10000)).drop (chunkLen buf.length j) = buf.drop ((j + 1) * 0x10000) ∧
      s.voff + BitVec.ofNat 23 (chunkLen buf.length j) =
        BitVec.ofNat 23 (min ((j + 1) * 0x10000) buf.length) ∧
      (BitVec.ofNat 23 (min ((j + 1) * 0x10000) buf.length)).toNat =
        min ((j + 1) * 0x10000) buf.length := by
  obtain ⟨-, hvoff⟩ := h
  rw [lt_chunkCount] at hj
  simp only [maxRom] at hlen
  have hstep : j * 0x10000 + chunkLen buf.length j = min ((j + 1) * 0x10000) buf.length := by
    unfold chunkLen
    omega
  have hmin : min (j * 0x10000) buf.length = j * 0x10000 := by omega
  have hnat : ∀ x ≤ 0x400000, (BitVec.ofNat 23 x).toNat = x := fun x hx => by
    rw [BitVec.toNat_ofNat]
    omega
  refine ⟨?_, ?_, ?_, ?_, ?_, hnat _ (by omega)⟩
  · simp only [hvoff, hmin, hnat _ (show j * 0x10000 ≤ 0x400000 by omega), verifyAddr, chunkAddr, aBase]
  · simp only [List.length_drop, vChunk, chunkLen]
  · rw [chunkLen, ← List.length_drop, imageChunk]
    exact List.take_eq_take_iff.2 (by omega)
  · rw [List.drop_drop]
    exact List.drop_eq_drop_iff.2 (by rw [hstep, Nat.min_assoc, Nat.min_self])
  · rw [hvoff, hmin, ← BitVec.ofNat_add, hstep]

/-- One turn of the chunk loop. -/
theorem verifyChunks_succ {n : Nat} (h : s.AtChunk buf.length j) (hlen : buf.length ≤ maxRom)
    (hj : j < chunkCount buf.length) :
    State.verifyChunks (n + 1) (buf.drop (j * 0x10000)) s =
      if (s.env.read s.cfg (chunkAddr j) (chunkLen buf.length j)).1 = imageChunk buf j then
        State.verifyChunks n (buf.drop ((j + 1) * 0x10000)) (s.verified buf.length j 1 1)
      else s.verified buf.length j 0 1 := by
  obtain ⟨haddr, hk, hchunk, hrest, hvoff, hnat⟩ := h.read hlen hj
  have hne : (buf.drop (j * 0x10000)).isEmpty = false := by
    rw [lt_chunkCount] at hj
    simp only [List.isEmpty_eq_false_iff, ne_eq, List.drop_eq_nil_iff]
    omega
  have hequal := (memRead_readOn_notify s (BitVec.ofNat 23 (min ((j + 1) * 0x10000) buf.length)) (chunkAddr j)
    (chunkLen buf.length j) (min ((j + 1) * 0x10000) buf.length)).trans (verified_one_one s buf.length j).symm
  have hdiffers := (memRead_readOn s (chunkAddr j) (chunkLen buf.length j)).trans
    (h.2 ▸ (verified_zero_one s buf.length j).symm)
  rw [← hequal, ← hdiffers]
  simp only [State.verifyChunks, hne, Bool.false_eq_true, if_false, haddr, hk, hchunk, hrest, memRead_voff,
    hvoff, hnat, memRead_fst]

theorem firstDiffers_one {answer : List Byte} (h : answer ≠ imageChunk buf j) : FirstDiffers buf j 0 [answer] :=
  ⟨nofun, fun _ heq => h (Option.some.inj heq)⟩

theorem firstDiffers_cons {k : Nat} {answer : List Byte} {answers : List (List Byte)}
    (hfirst : answer = imageChunk buf j) (h : FirstDiffers buf (j + 1) k answers) :
    FirstDiffers buf j (k + 1) (answer :: answers) := by
  have hsucc : ∀ i, j + 1 + i = j + (i + 1) := fun i => by omega
  refine ⟨fun i hi => ?_, fun hlt => ?_⟩
  · cases i with
    | zero => exact congrArg some hfirst
    | succ i => exact hsucc i ▸ h.equal i (by omega)
  · exact hsucc k ▸ h.differs (by omega)

/-- The chunk loop at the end of the image. -/
theorem verifyChunks_end {n : Nat} (h : s.AtChunk buf.length j) (hj : ¬ j < chunkCount buf.length) :
    ∃ k m, j + k ≤ chunkCount buf.length ∧ m = min (k + 1) (chunkCount buf.length - j) ∧
      FirstDiffers buf j k (s.env.chunks s.cfg buf.length j m).1 ∧
        State.verifyChunks n (buf.drop (j * 0x10000)) s = s.verified buf.length j k m := by
  have hempty : (buf.drop (j * 0x10000)).isEmpty = true := by
    rw [lt_chunkCount] at hj
    simp only [List.isEmpty_iff, List.drop_eq_nil_iff]
    omega
  have hstay : State.verifyChunks n (buf.drop (j * 0x10000)) s = s := by
    cases n with
    | zero => rfl
    | succ n => rw [State.verifyChunks, if_pos hempty]
  exact ⟨0, 0, h.1, by omega, ⟨nofun, fun hlt => absurd hlt hj⟩, hstay.trans h.verified_none.symm⟩

/-- The chunk loop: it stops at the end of the image or at the first chunk that differs. -/
theorem verifyChunks_eq {n : Nat} (h : s.AtChunk buf.length j) (hlen : buf.length ≤ maxRom)
    (hn : chunkCount buf.length ≤ j + n) :
    ∃ k m, j + k ≤ chunkCount buf.length ∧ m = min (k + 1) (chunkCount buf.length - j) ∧
      FirstDiffers buf j k (s.env.chunks s.cfg buf.length j m).1 ∧
        State.verifyChunks n (buf.drop (j * 0x10000)) s = s.verified buf.length j k m := by
  induction n generalizing s j with
  | zero => exact verifyChunks_end h (by omega)
  | succ n ih =>
    by_cases hj : j < chunkCount buf.length
    · rw [verifyChunks_succ h hlen hj]
      split
      · next heq =>
        obtain ⟨k, m, hle, hm, hdiffers, hgo⟩ := ih (s := s.verified buf.length j 1 1) (j := j + 1)
          ⟨hj, readOn_voff ..⟩ (by omega)
        rw [verified_one_one, readOn_cfg, readOn_env] at hdiffers
        rw [verified_verified] at hgo
        refine ⟨k + 1, m + 1, by omega, by omega, ?_, hgo⟩
        rw [chunks_succ_fst]
        exact firstDiffers_cons heq hdiffers
      · next hne =>
        refine ⟨0, 1, h.1, by omega, ?_, rfl⟩
        rw [chunks_succ_fst, chunks_zero_fst]
        exact firstDiffers_one hne
    · exact verifyChunks_end h hj

/-- The result, from the offset reached. -/
theorem verifyResult_verified {k m : Nat} (hlen : buf.length ≤ maxRom) :
    (s.verified buf.length 0 k m).verifyResult buf.length =
      (s.verified buf.length 0 k m).finish
        (if min (k * 0x10000) buf.length = buf.length then 0x00#8 else 0x03#8)
        (BitVec.ofNat 24 (min (k * 0x10000) buf.length)) := by
  have hreached : min ((0 + k) * 0x10000) buf.length ≤ 0x400000 := (Nat.min_le_right _ _).trans hlen
  have hnat : (BitVec.ofNat 23 (min ((0 + k) * 0x10000) buf.length)).toNat = min (k * 0x10000) buf.length := by
    rw [BitVec.toNat_ofNat]
    omega
  have hwide : (BitVec.ofNat 23 (min ((0 + k) * 0x10000) buf.length)).setWidth 24 =
      BitVec.ofNat 24 (min (k * 0x10000) buf.length) := BitVec.eq_of_toNat_eq (by
    rw [BitVec.toNat_setWidth, hnat, BitVec.toNat_ofNat])
  simp only [State.verifyResult, State.verified, readOn_voff, hnat, hwide]
  split
  · rfl
  · rfl

/-- VERIFY_ROM on an image it takes. -/
theorem exec_verifyRom_eq (h : s.Ready) (hlen : buf.length ≤ maxRom) :
    ∃ k, k ≤ chunkCount buf.length ∧
      let m := min (k + 1) (chunkCount buf.length)
      let reached := min (k * 0x10000) buf.length
      FirstDiffers buf 0 k (s.env.chunks s.cfg buf.length 0 m).1 ∧
        exec (.verifyRom buf) s = .next ((s.verified buf.length 0 k m).finish
          (if reached = buf.length then 0x00#8 else 0x03#8) (BitVec.ofNat 24 reached)) := by
  have hcount : chunkCount buf.length ≤ 0 + (buf.length / vChunk + 1) := by
    simp only [chunkCount, vChunk]
    omega
  obtain ⟨k, m, hle, hm, hdiffers, hgo⟩ :=
    verifyChunks_eq (s := { s with voff := 0 }) ⟨Nat.zero_le _, by simp⟩ hlen hcount
  simp only [Nat.zero_add, Nat.sub_zero, Nat.zero_mul, List.drop_zero] at hle hm hdiffers hgo
  subst hm
  refine ⟨k, hle, hdiffers, (exec_verifyRom h hlen).trans ?_⟩
  rw [hgo]
  exact congrArg _ (verifyResult_verified (s := s) hlen)

/-- Settles O25: one turn of the chunk loop reads one chunk, and an induction over the chunks left says where
it stops. -/
theorem verifyRomReport : Obligations.VerifyRomReport := by
  refine ⟨fun s buf h => exec_closed rfl h, fun s buf h hlen => ?_, fun s buf h hlen => ?_⟩
  · exact exec_illFormed rfl h nofun (decide_eq_false (Nat.not_le.2 hlen))
  · obtain ⟨k, hle, hdiffers, hgo⟩ := exec_verifyRom_eq h hlen
    obtain ⟨hequal, hdiffers⟩ := hdiffers
    simp only [Nat.zero_add] at hequal hdiffers
    refine ⟨k, hle, hequal, hdiffers, hgo.trans ?_⟩
    simp only [State.verified, finish_readOn _ _ _ _ h.1.1, Nat.zero_add]

end

end Sys2Proof.Machine


/-! The loop when every look finds its chip ready: page by page, to the end of both streams. -/

namespace Sys2Proof.Machine

open Sys2Proof

/-- The loop begun in `s0`, all looks ready, once `done` pages of each stream have completed and those of
`out` are outstanding: the events since, and the answers still to come. -/
structure State.LoopAt (s0 s : State) (rom1 rom2 : List Byte) (done : PerChip Nat) (out : PerChip Bool)
    (ev : List Event) (as rest : List Byte) : Prop where
  len : ∀ c, s.len.get c = BitVec.ofNat 22 (streamOf rom1 rom2 c).length
  cur : ∀ c, s.cur.get c = BitVec.ofNat 22 (min (done.get c * 128) (streamOf rom1 rom2 c).length)
  busy : ∀ c, s.busy.get c = (out.get c && decide (done.get c * 128 < (streamOf rom1 rom2 c).length))
  abort : ∀ c, s.abort.get c = false
  frame : s.unwritten (.writeLoop rom1 rom2) = s0.unwritten (.writeLoop rom1 rom2)
  trace : s.trace = s0.trace ++ ev
  notes : s0.progress <+: s.progress
  env : s.env.Answers as rest

section
variable {rom1 rom2 : List Byte} {s : State} {c : Chip} {n : Nat}

/-- The turn of a finished stream, while the other is live. -/
theorem wlRun_dead (hdead : s.live c = false) (hgo : c = .a → ∃ d, s.live d = true) :
    State.wlRun (n + 1) c rom1 rom2 s = State.wlRun n c.other rom1 rom2 s := by
  have hnot : ¬(c = .a ∧ (!s.live .a) = true ∧ (!s.live .b) = true) := by
    rintro ⟨hc, ha, hb⟩
    obtain ⟨d, hd⟩ := hgo hc
    cases d <;> simp [hd] at ha hb
  rw [State.wlRun.eq_def]
  exact (if_neg hnot).trans (if_pos (by rw [hdead]; rfl))

/-- The turn of a live stream with no page outstanding. -/
theorem wlRun_issue (hlive : s.live c = true) (hbusy : s.busy.get c = false) :
    State.wlRun (n + 1) c rom1 rom2 s =
      State.wlRun n c.other rom1 rom2 (s.wlIssue c (streamOf rom1 rom2 c)) := by
  cases c <;> simp [State.wlRun, hlive, hbusy, streamOf]

/-- The turn of a stream whose look ends its page. -/
theorem wlRun_look (hlive : s.live c = true) (hbusy : s.busy.get c = true) (hlook : (s.wlLook c).1 ≠ .busy) :
    State.wlRun (n + 1) c rom1 rom2 s = State.wlRun n c.other rom1 rom2 (s.wlLook c).2 := by
  cases c <;> simp [State.wlRun, hlive, hbusy, hlook]

/-- The loop ends when neither stream is live. -/
theorem wlRun_end (hdead : ∀ c, s.live c = false) : State.wlRun (n + 1) .a rom1 rom2 s = .goOn s := by
  simp [State.wlRun, hdead]

end

section
variable {s0 s : State} {rom1 rom2 : List Byte} {done : PerChip Nat} {out : PerChip Bool} {ev : List Event}
  {as rest : List Byte} {c : Chip}

theorem streamOf_length (h : streamsOk rom1 rom2 = true) (c : Chip) :
    (streamOf rom1 rom2 c).length % 128 = 0 ∧ (streamOf rom1 rom2 c).length ≤ 0x200000 := by
  obtain ⟨h1, h2⟩ := Bool.and_eq_true_iff.1 h
  cases c
  · exact imageLengthOk_iff.1 h1
  · exact imageLengthOk_iff.1 h2

theorem State.LoopAt.cfg (h : s0.LoopAt s rom1 rom2 done out ev as rest) : s.cfg = s0.cfg :=
  (congrArg State.cfg h.frame : (s.unwritten (.writeLoop rom1 rom2)).cfg = _)

/-- The cursor as a number. -/
theorem State.LoopAt.cur_toNat (h : s0.LoopAt s rom1 rom2 done out ev as rest)
    (hok : streamsOk rom1 rom2 = true) (c : Chip) :
    (s.cur.get c).toNat = min (done.get c * 128) (streamOf rom1 rom2 c).length := by
  obtain ⟨-, hle⟩ := streamOf_length hok c
  rw [h.cur, BitVec.toNat_ofNat]
  omega

/-- A stream is live until its last page has completed. -/
theorem State.LoopAt.live (h : s0.LoopAt s rom1 rom2 done out ev as rest)
    (hok : streamsOk rom1 rom2 = true) (c : Chip) :
    s.live c = decide (done.get c * 128 < (streamOf rom1 rom2 c).length) := by
  obtain ⟨-, hle⟩ := streamOf_length hok c
  have hlen : (s.len.get c).toNat = (streamOf rom1 rom2 c).length := by
    rw [h.len, BitVec.toNat_ofNat]
    omega
  rw [State.live, h.abort, h.busy, h.cur_toNat hok, hlen]
  by_cases hlt : done.get c * 128 < (streamOf rom1 rom2 c).length
  · simp [hlt]
  · simp [hlt]

/-- One chip's stream changes, the other's does not. -/
theorem State.LoopAt.turn {s' : State} {n : Nat} {b : Bool} {ev' : List Event} {as' : List Byte}
    (h : s0.LoopAt s rom1 rom2 done out ev as rest) (hlen : s'.len = s.len)
    (hcur : s'.cur = s.cur.set c (BitVec.ofNat 22 (min (n * 128) (streamOf rom1 rom2 c).length)))
    (hbusy : s'.busy = s.busy.set c (b && decide (n * 128 < (streamOf rom1 rom2 c).length)))
    (habort : s'.abort = s.abort)
    (hframe : s'.unwritten (.writeLoop rom1 rom2) = s.unwritten (.writeLoop rom1 rom2))
    (htrace : s'.trace = s.trace ++ ev') (hnotes : s.progress <+: s'.progress)
    (henv : s'.env.Answers as' rest) :
    s0.LoopAt s' rom1 rom2 (done.set c n) (out.set c b) (ev ++ ev') as' rest where
  len := hlen ▸ h.len
  cur := fun d => by
    rw [hcur]
    rcases eq_or_ne d c with rfl | hd
    · simp
    · rw [PerChip_get_set_of_ne _ _ hd, PerChip_get_set_of_ne _ _ hd, h.cur]
  busy := fun d => by
    rw [hbusy]
    rcases eq_or_ne d c with rfl | hd
    · simp
    · rw [PerChip_get_set_of_ne _ _ hd, PerChip_get_set_of_ne _ _ hd, PerChip_get_set_of_ne _ _ hd, h.busy]
  abort := habort ▸ h.abort
  frame := hframe.trans h.frame
  trace := by rw [htrace, h.trace, List.append_assoc]
  notes := h.notes.trans hnotes
  env := henv

theorem PerChip_set_get {α : Type} (p : PerChip α) (c : Chip) : p.set c (p.get c) = p := by
  cases c <;> rfl

/-- A turn of a finished stream changes nothing. -/
theorem State.LoopAt.skip (h : s0.LoopAt s rom1 rom2 done out ev as rest)
    (hend : (streamOf rom1 rom2 c).length ≤ done.get c * 128) {n : Nat} (hn : done.get c ≤ n) (b : Bool) :
    s0.LoopAt s rom1 rom2 (done.set c n) (out.set c b) (ev ++ []) as rest := by
  have hcur : s.cur = s.cur.set c (BitVec.ofNat 22 (min (n * 128) (streamOf rom1 rom2 c).length)) := by
    have hmin : min (n * 128) (streamOf rom1 rom2 c).length =
        min (done.get c * 128) (streamOf rom1 rom2 c).length := by omega
    rw [hmin, ← h.cur, PerChip_set_get]
  have hbusy : s.busy = s.busy.set c (b && decide (n * 128 < (streamOf rom1 rom2 c).length)) := by
    have hoff : s.busy.get c = false := by
      rw [h.busy, decide_eq_false (Nat.not_lt.2 hend), Bool.and_false]
    rw [decide_eq_false (by omega), Bool.and_false, ← hoff, PerChip_set_get]
  exact h.turn rfl hcur hbusy rfl rfl (List.append_nil _).symm List.prefix_rfl h.env

/-- The page a turn sends, if its stream has one left. -/
def pageEvent (cfg : Config) (rom1 rom2 : List Byte) (c : Chip) (j : Nat) : List Event :=
  if j * 128 < (streamOf rom1 rom2 c).length then streamPage cfg c (streamOf rom1 rom2 c) j else []

/-- The look a turn makes, if its stream has a page out. -/
def lookEvent (rom1 rom2 : List Byte) (c : Chip) (j : Nat) (answer : Byte) : List Event :=
  if j * 128 < (streamOf rom1 rom2 c).length then [.read (base c) [answer]] else []

/-- … and its answer. -/
def lookAnswer (rom1 rom2 : List Byte) (c : Chip) (j : Nat) (answer : Byte) : List Byte :=
  if j * 128 < (streamOf rom1 rom2 c).length then [answer] else []

/-- A turn with no page outstanding. -/
theorem State.LoopAt.issue (h : s0.LoopAt s rom1 rom2 done out ev as rest)
    (hok : streamsOk rom1 rom2 = true) (hlt : done.get c * 128 < (streamOf rom1 rom2 c).length) :
    s0.LoopAt (s.wlIssue c (streamOf rom1 rom2 c)) rom1 rom2 done (out.set c true)
      (ev ++ streamPage s0.cfg c (streamOf rom1 rom2 c) (done.get c)) as rest := by
  have hcur := h.cur_toNat hok c
  rw [Nat.min_eq_left hlt.le] at hcur
  have hwrites : s.pageWrites c (streamOf rom1 rom2 c) = pageEvents s0.cfg 0xA0#8
      (base c + BitVec.ofNat 24 (done.get c * 128))
      (((streamOf rom1 rom2 c).drop (done.get c * 128)).take 128) := by
    rw [State.pageWrites, hcur, h.cfg]
    rfl
  obtain ⟨-, hle⟩ := streamOf_length hok c
  have hoff : (BitVec.ofNat 24 (done.get c * 128)).toNat = done.get c * 128 := by
    rw [BitVec.toNat_ofNat]
    omega
  obtain ⟨hin, -⟩ := chipOf_base_add (c := c) (x := BitVec.ofNat 24 (done.get c * 128)) (by
    rw [hoff, half]
    omega)
  have halign : (base c + BitVec.ofNat 24 (done.get c * 128)).toNat % 128 = 0 := by
    have hbase := base_toNat c
    rw [BitVec.toNat_add, hoff]
    omega
  have hturn := h.turn (s' := s.wlIssue c (streamOf rom1 rom2 c)) (c := c) (n := done.get c) (b := true) (as' := as)
    (ev' := streamPage s0.cfg c (streamOf rom1 rom2 c) (done.get c)) (wlIssue_len ..)
    (by rw [wlIssue_cur, ← h.cur, PerChip_set_get]) (by rw [wlIssue_busy, decide_eq_true hlt]; rfl)
    (wlIssue_abort ..) (wlIssue_unwritten rfl ..)
    (by rw [wlIssue_trace, hwrites]; rfl)
    (by simp [State.wlIssue, State.sendPage_eq])
    (by
      rw [wlIssue_env, hwrites]
      exact h.env.after fun w hw => (pageEvents_chip _ _ _ halign hin w hw).1)
  rwa [PerChip_set_get] at hturn

/-- A look that finds its page completed. -/
theorem State.LoopAt.look {b : Byte} (h : s0.LoopAt s rom1 rom2 done out ev (b :: as) rest)
    (hok : streamsOk rom1 rom2 = true) (hb : classify b = .ready)
    (hlt : done.get c * 128 < (streamOf rom1 rom2 c).length) :
    (s.wlLook c).1 = .ready ∧ s0.LoopAt (s.wlLook c).2 rom1 rom2 (done.set c (done.get c + 1)) (out.set c false)
      (ev ++ [.read (base c) [b]]) as rest := by
  obtain ⟨hmod, hle⟩ := streamOf_length hok c
  obtain ⟨hread, henv⟩ := h.env.read (cfg := s.cfg) (addr := base c) (by cases c <;> rfl)
  have hstatus : s.status c = b := by rw [State.status, hread]; rfl
  obtain ⟨hlenv, hltrace, -⟩ := wlLook_bus s c
  have hlook : s.wlLook c = (.ready, (s.look c).2.wlReady c) := by
    have hcases := wlLook_cases s c
    rw [hstatus, hb] at hcases
    simpa using hcases
  have hcur : s.cur.get c + 128#22 =
      BitVec.ofNat 22 (min ((done.get c + 1) * 128) (streamOf rom1 rom2 c).length) := by
    rw [h.cur, show (128#22) = BitVec.ofNat 22 128 from rfl, ← BitVec.ofNat_add]
    congr 1
    omega
  refine ⟨by rw [hlook], h.turn ?_ ?_ ?_ ?_ (wlLook_unwritten rfl c) ?_ (wlLook_progress s c) ?_⟩
  · rw [hlook]
    rfl
  · rw [hlook, ← hcur]
    rfl
  · rw [hlook]
    rfl
  · rw [hlook]
    rfl
  · rw [hltrace, hstatus]
  · rw [hlenv]
    exact henv

/-! ### A round -/

/-- Turn by turn, the loop goes on at the other chip. -/
theorem State.LoopAt.skipTurn (h : s0.LoopAt s rom1 rom2 done out ev as rest)
    (hok : streamsOk rom1 rom2 = true) (hend : (streamOf rom1 rom2 c).length ≤ done.get c * 128)
    (hgo : c = .a → ∃ d, done.get d * 128 < (streamOf rom1 rom2 d).length) (n : Nat) :
    State.wlRun (n + 1) c rom1 rom2 s = State.wlRun n c.other rom1 rom2 s := by
  refine wlRun_dead ((h.live hok c).trans (decide_eq_false (Nat.not_lt.2 hend))) fun hc => ?_
  obtain ⟨d, hd⟩ := hgo hc
  exact ⟨d, (h.live hok d).trans (decide_eq_true hd)⟩

/-- A turn that sends a page, or has none to send. -/
theorem State.LoopAt.issueTurn (h : s0.LoopAt s rom1 rom2 done out ev as rest)
    (hok : streamsOk rom1 rom2 = true) (hout : out.get c = false)
    (hgo : c = .a → ∃ d, done.get d * 128 < (streamOf rom1 rom2 d).length) (n : Nat) :
    ∃ s', State.wlRun (n + 1) c rom1 rom2 s = State.wlRun n c.other rom1 rom2 s' ∧
      s0.LoopAt s' rom1 rom2 done (out.set c true) (ev ++ pageEvent s0.cfg rom1 rom2 c (done.get c)) as rest := by
  unfold pageEvent
  split
  · next hlt =>
    refine ⟨_, wlRun_issue ((h.live hok c).trans (decide_eq_true hlt)) ?_, h.issue hok hlt⟩
    rw [h.busy, hout, Bool.false_and]
  · next hge =>
    have hskip := h.skip (Nat.not_lt.1 hge) le_rfl true
    rw [PerChip_set_get] at hskip
    exact ⟨s, h.skipTurn hok (Nat.not_lt.1 hge) hgo n, hskip⟩

/-- A turn that looks at the page sent, or has none to look at. -/
theorem State.LoopAt.lookTurn {b : Byte}
    (h : s0.LoopAt s rom1 rom2 done out ev (lookAnswer rom1 rom2 c (done.get c) b ++ as) rest)
    (hok : streamsOk rom1 rom2 = true) (hb : classify b = .ready) (hout : out.get c = true)
    (hgo : c = .a → ∃ d, done.get d * 128 < (streamOf rom1 rom2 d).length) (n : Nat) :
    ∃ s', State.wlRun (n + 1) c rom1 rom2 s = State.wlRun n c.other rom1 rom2 s' ∧
      s0.LoopAt s' rom1 rom2 (done.set c (done.get c + 1)) (out.set c false)
        (ev ++ lookEvent rom1 rom2 c (done.get c) b) as rest := by
  unfold lookAnswer at h
  unfold lookEvent
  split
  · next hlt =>
    rw [if_pos hlt] at h
    obtain ⟨hready, hlook⟩ := h.look hok hb hlt
    refine ⟨_, wlRun_look ((h.live hok c).trans (decide_eq_true hlt)) ?_ ?_, hlook⟩
    · rw [h.busy, hout, decide_eq_true hlt, Bool.true_and]
    · rw [hready]
      exact nofun
  · next hge =>
    rw [if_neg hge] at h
    exact ⟨s, h.skipTurn hok (Nat.not_lt.1 hge) hgo n, h.skip (Nat.not_lt.1 hge) (Nat.le_succ _) false⟩

variable {ansA ansB : Nat → Byte} {j : Nat}

/-- A round: both pages sent, both looked at. -/
theorem State.LoopAt.round
    (h : s0.LoopAt s rom1 rom2 ⟨j, j⟩ ⟨false, false⟩ ev (roundAnswers rom1 rom2 ansA ansB j ++ as) rest)
    (hok : streamsOk rom1 rom2 = true) (hans : ∀ j, classify (ansA j) = .ready ∧ classify (ansB j) = .ready)
    (hgo : ∃ d, j * 128 < (streamOf rom1 rom2 d).length) (n : Nat) :
    ∃ s', State.wlRun (n + 4) .a rom1 rom2 s = State.wlRun n .a rom1 rom2 s' ∧
      s0.LoopAt s' rom1 rom2 ⟨j + 1, j + 1⟩ ⟨false, false⟩
        (ev ++ loopRound s0.cfg rom1 rom2 ansA ansB j) as rest := by
  have hsome : ∃ d, (PerChip.mk j j).get d * 128 < (streamOf rom1 rom2 d).length := by
    obtain ⟨d, hd⟩ := hgo
    exact ⟨d, by cases d <;> exact hd⟩
  have hanswers : roundAnswers rom1 rom2 ansA ansB j ++ as =
      lookAnswer rom1 rom2 .a j (ansA j) ++ (lookAnswer rom1 rom2 .b j (ansB j) ++ as) :=
    List.append_assoc ..
  rw [hanswers] at h
  obtain ⟨s1, hgo1, h1⟩ := h.issueTurn (c := .a) hok rfl (fun _ => hsome) (n + 3)
  obtain ⟨s2, hgo2, h2⟩ := h1.issueTurn (c := .b) hok rfl nofun (n + 2)
  obtain ⟨s3, hgo3, h3⟩ := h2.lookTurn (c := .a) hok (hans j).1 rfl (fun _ => hsome) (n + 1)
  obtain ⟨s4, hgo4, h4⟩ := h3.lookTurn (c := .b) hok (hans j).2 rfl nofun n
  refine ⟨s4, hgo1.trans (hgo2.trans (hgo3.trans hgo4)), ?_⟩
  have hround : ev ++ loopRound s0.cfg rom1 rom2 ansA ansB j =
      ev ++ pageEvent s0.cfg rom1 rom2 .a j ++ pageEvent s0.cfg rom1 rom2 .b j ++
        lookEvent rom1 rom2 .a j (ansA j) ++ lookEvent rom1 rom2 .b j (ansB j) := by
    show ev ++ (pageEvent s0.cfg rom1 rom2 .a j ++ pageEvent s0.cfg rom1 rom2 .b j ++
      lookEvent rom1 rom2 .a j (ansA j) ++ lookEvent rom1 rom2 .b j (ansB j)) = _
    simp only [List.append_assoc]
  rw [hround]
  exact h4

/-- The rounds from `j` on. -/
theorem State.LoopAt.rounds {r : Nat} (hok : streamsOk rom1 rom2 = true)
    (hans : ∀ j, classify (ansA j) = .ready ∧ classify (ansB j) = .ready)
    (h : s0.LoopAt s rom1 rom2 ⟨j, j⟩ ⟨false, false⟩ ev
      ((List.range' j r).flatMap (roundAnswers rom1 rom2 ansA ansB) ++ as) rest)
    (hr : ∃ d, (j + r) * 128 ≤ (streamOf rom1 rom2 d).length) (n : Nat) :
    ∃ s', State.wlRun (4 * r + n) .a rom1 rom2 s = State.wlRun n .a rom1 rom2 s' ∧
      s0.LoopAt s' rom1 rom2 ⟨j + r, j + r⟩ ⟨false, false⟩
        (ev ++ (List.range' j r).flatMap (loopRound s0.cfg rom1 rom2 ansA ansB)) as rest := by
  induction r generalizing s j ev with
  | zero => exact ⟨s, by simp, by simpa using h⟩
  | succ r ih =>
    obtain ⟨d, hd⟩ := hr
    rw [List.range'_succ, List.flatMap_cons, List.append_assoc] at h
    obtain ⟨s1, hgo1, h1⟩ := h.round hok hans ⟨d, by omega⟩ (4 * r + n)
    obtain ⟨s2, hgo2, h2⟩ := ih h1 ⟨d, by omega⟩
    refine ⟨s2, ?_, ?_⟩
    · rw [← hgo2, ← hgo1]
      congr 1
      omega
    · rw [List.range'_succ, List.flatMap_cons, ← List.append_assoc, ← Nat.succ_add_eq_add_succ]
      exact h2

/-- The loop's registers at its end. -/
structure State.LoopDone (s0 u : State) (rom1 rom2 : List Byte) (ev : List Event) (rest : List Byte) : Prop where
  len : u.len = ⟨BitVec.ofNat 22 rom1.length, BitVec.ofNat 22 rom2.length⟩
  cur : u.cur = ⟨BitVec.ofNat 22 rom1.length, BitVec.ofNat 22 rom2.length⟩
  busy : u.busy = ⟨false, false⟩
  abort : u.abort = ⟨false, false⟩
  frame : u.unwritten (.writeLoop rom1 rom2) = s0.unwritten (.writeLoop rom1 rom2)
  trace : u.trace = s0.trace ++ ev
  notes : s0.progress <+: u.progress
  env : u.env.Answers [] rest

theorem PerChip_ext {α : Type} {p q : PerChip α} (h : ∀ c, p.get c = q.get c) : p = q := by
  cases p
  cases q
  exact congrArg₂ _ (h .a) (h .b)

/-- Both streams at their ends. -/
theorem State.LoopAt.loopDone {r : Nat} (h : s0.LoopAt s rom1 rom2 ⟨r, r⟩ ⟨false, false⟩ ev [] rest)
    (hr : ∀ c, (streamOf rom1 rom2 c).length ≤ r * 128) : s0.LoopDone s rom1 rom2 ev rest where
  len := PerChip_ext fun c => (h.len c).trans (by cases c <;> rfl)
  cur := PerChip_ext fun c => (h.cur c).trans (by
    have hmin := Nat.min_eq_right (hr c)
    cases c <;> exact congrArg _ hmin)
  busy := PerChip_ext fun c => (h.busy c).trans (by cases c <;> rfl)
  abort := PerChip_ext fun c => (h.abort c).trans (by cases c <;> rfl)
  frame := h.frame
  trace := h.trace
  notes := h.notes
  env := h.env

/-- The start of the loop. -/
theorem State.loopAt_wlInit (h : s.env.Answers as rest) :
    s.LoopAt (s.wlInit rom1 rom2) rom1 rom2 ⟨0, 0⟩ ⟨false, false⟩ [] as rest where
  len := fun c => by cases c <;> rfl
  cur := fun c => by cases c <;> simp [State.wlInit]
  busy := fun c => by cases c <;> rfl
  abort := fun c => by cases c <;> rfl
  frame := rfl
  trace := (List.append_nil _).symm
  notes := List.prefix_rfl
  env := h

/-- The whole loop, as part of an operation. -/
theorem runPhases_loopReady {s : State} {phases : List Phase} {c : Bool} (hok : streamsOk rom1 rom2 = true)
    (hans : ∀ j, classify (ansA j) = .ready ∧ classify (ansB j) = .ready)
    (henv : s.env.Answers ((rounds rom1 rom2).flatMap (roundAnswers rom1 rom2 ansA ansB)) rest) :
    ∃ u, s.runPhases c (writeLoopPhases rom1 rom2 ++ phases) = u.runPhases c phases ∧
      s.LoopDone u rom1 rom2 ((rounds rom1 rom2).flatMap (loopRound s.cfg rom1 rom2 ansA ansB)) rest := by
  obtain ⟨hmod1, -⟩ := streamOf_length hok .a
  obtain ⟨hmod2, -⟩ := streamOf_length hok .b
  simp only [streamOf] at hmod1 hmod2
  have hstart := State.loopAt_wlInit (rom1 := rom1) (rom2 := rom2)
    (as := (rounds rom1 rom2).flatMap (roundAnswers rom1 rom2 ansA ansB) ++ []) (by rwa [List.append_nil])
  rw [rounds, List.range_eq_range'] at hstart
  obtain ⟨u, hgo, hu⟩ := hstart.rounds hok hans (by
    rcases Nat.le_total (rom1.length / 128) (rom2.length / 128) with hle | hle
    · exact ⟨.b, by simp only [streamOf]; omega⟩
    · exact ⟨.a, by simp only [streamOf]; omega⟩)
    (wlTurns rom1 rom2 - 4 * max (rom1.length / 128) (rom2.length / 128) - 1 + 1)
  have hr : ∀ c, (streamOf rom1 rom2 c).length ≤ (0 + max (rom1.length / 128) (rom2.length / 128)) * 128 :=
    fun c => by cases c <;> simp only [streamOf] <;> omega
  have hfuel : 4 * max (rom1.length / 128) (rom2.length / 128) +
      (wlTurns rom1 rom2 - 4 * max (rom1.length / 128) (rom2.length / 128) - 1 + 1) = wlTurns rom1 rom2 := by
    unfold wlTurns
    omega
  have hdead : ∀ c, u.live c = false := fun c =>
    (hu.live hok c).trans (decide_eq_false (Nat.not_lt.2 (by cases c <;> exact hr _)))
  rw [hfuel, wlRun_end hdead] at hgo
  refine ⟨u, ?_, ?_⟩
  · simp only [writeLoopPhases, List.cons_append, List.nil_append, State.runPhases, Phase.perform, hgo]
  · rw [rounds, List.range_eq_range']
    exact hu.loopDone hr

theorem State.LoopDone.count {u : State} (h : s0.LoopDone u rom1 rom2 ev rest)
    (hok : streamsOk rom1 rom2 = true) : u.count = rom1.length + rom2.length := by
  obtain ⟨-, hle1⟩ := streamOf_length hok .a
  obtain ⟨-, hle2⟩ := streamOf_length hok .b
  simp only [streamOf] at hle1 hle2
  rw [State.count, h.cur, BitVec.toNat_ofNat, BitVec.toNat_ofNat]
  omega

/-- A finished operation, from what it leaves alone and what the loop wrote. -/
theorem State.LoopDone.finish {u : State} (h : s0.LoopDone u rom1 rom2 ev rest) (hidle : s0.seq = .idle)
    (rc : BitVec 8) (res : BitVec 24) :
    ∃ notes, u.finish rc res = { s0 with
      env := u.env
      trace := s0.trace ++ ev
      len := ⟨BitVec.ofNat 22 rom1.length, BitVec.ofNat 22 rom2.length⟩
      cur := ⟨BitVec.ofNat 22 rom1.length, BitVec.ofNat 22 rom2.length⟩
      busy := ⟨false, false⟩
      abort := ⟨false, false⟩
      st := u.st
      pbuf := u.pbuf
      progress := s0.progress ++ notes
      rc := rc
      res := res } := by
  obtain ⟨hlen, hcur, hbusy, habort, hframe, htrace, ⟨notes, hnotes⟩, -⟩ := h
  refine ⟨notes, ?_⟩
  cases u
  cases s0
  simp only at hlen hcur hbusy habort htrace hnotes hidle
  subst hlen hcur hbusy habort htrace hnotes hidle
  simp [State.unwritten, writesSession, writesShadow, writesIterator, writesEntry, writesVerifyOffset, waits,
    writesErr] at hframe
  simp [State.finish, hframe]

end

/-- Settles O19: four turns to a round, an induction over the rounds, and then neither stream is live. -/
theorem writeLoopWhenAlwaysReady : Obligations.WriteLoopWhenAlwaysReady := by
  intro s rom1 rom2 ansA ansB rest hrel hok hans henv
  obtain ⟨u, hgo, hu⟩ := runPhases_loopReady (c := false) (phases := [.doneCount]) hok hans henv
  obtain ⟨notes, hend⟩ := hu.finish hrel.1.1.1 0x00#8 (BitVec.ofNat 24 (rom1.length + rom2.length))
  refine ⟨u.env, u.st, u.pbuf, notes, ?_, hu.env.2⟩
  rw [exec_writeLoop hrel hok, hgo, ← hend]
  show Host.Outcome.next (u.finish 0x00#8 (BitVec.ofNat 24 u.count)) = _
  rw [hu.count hok]

end Sys2Proof.Machine


/-! WRITE_ROM when every wait is answered at once. -/

namespace Sys2Proof.Machine

open Sys2Proof

section
variable {s u : State} {rom1 rom2 : List Byte} {ev : List Event} {rest : List Byte}

/-- Writes in the flash window after the loop. -/
theorem State.LoopDone.afterWrites (h : s.LoopDone u rom1 rom2 ev rest) {ws : List BusWrite}
    (hin : ∀ w ∈ ws, inFlash w.1.toNat = true) :
    s.LoopDone (u.afterWrites ws) rom1 rom2 (ev ++ wrote ws) rest where
  len := h.len
  cur := h.cur
  busy := h.busy
  abort := h.abort
  frame := h.frame
  trace := by rw [afterWrites_trace, h.trace, List.append_assoc]
  notes := h.notes
  env := h.env.after hin

theorem State.LoopDone.cfg (h : s.LoopDone u rom1 rom2 ev rest) : u.cfg = s.cfg :=
  (congrArg State.cfg h.frame : (u.unwritten (.writeLoop rom1 rom2)).cfg = _)

/-- The state after the erase: its writes, and both waits answered ready at once. -/
def State.erasedAt (s : State) (a b : Byte) (ea eb : Env) : State :=
  ((s.afterWrites (globalUnlock s.cfg 0x80#8 ++ globalUnlock s.cfg 0x10#8)).waitedAt (base .a) [a] ea).waitedAt
    (base .b) [b] eb

/-- WRITE_ROM up to the loop. -/
theorem exec_writeRom_ready {buf : List Byte} {a b : Byte} {as : List Byte} (h : s.Released)
    (hok : imageLengthOk maxRom buf = true) (ha : isReady a = true) (hb : isReady b = true)
    (henv : s.env.Answers (a :: b :: as) rest) :
    ∃ ea eb, exec (.writeRom buf) s = .next ((s.erasedAt a b ea eb).runPhases true
        (writeLoopPhases (romA buf) (romB buf) ++ [.unlockGlobal cmdReset, .doneRom buf.length])) ∧
      (s.erasedAt a b ea eb).env.Answers as rest := by
  have hwrites : ∀ w ∈ globalUnlock s.cfg 0x80#8 ++ globalUnlock s.cfg 0x10#8, inFlash w.1.toNat = true :=
    List.forall_mem_append.2 ⟨globalUnlock_inFlash _ _, globalUnlock_inFlash _ _⟩
  obtain ⟨hreada, henva⟩ := (henv.after (cfg := s.cfg) hwrites).read (cfg := s.cfg) (addr := base .a) rfl
  obtain ⟨hreadb, henvb⟩ := henva.read (cfg := s.cfg) (addr := base .b) rfl
  have hwaits := runPhases_waitBoth_ready (c := true) (rest := afterWaits (.writeRom buf))
    (s := s.afterWrites (globalUnlock s.cfg 0x80#8 ++ globalUnlock s.cfg 0x10#8))
    ((congrArg (fun bs : List Byte => isReady (bs.headD 0)) hreada).trans ha)
    ((congrArg (fun bs : List Byte => isReady (bs.headD 0)) hreadb).trans hb)
  simp only [afterWrites_env, afterWrites_cfg, hreada, hreadb] at hwaits
  exact ⟨_, _, (exec_waitsFirst (i := .writeRom buf) rfl h.1 (fun _ => h.2) hok).trans (congrArg _ hwaits), henvb⟩

end

/-- Settles O22: the erase answered at once, the loop of O19, and the reset. -/
theorem writeRomWhenAlwaysReady : Obligations.WriteRomWhenAlwaysReady := by
  intro s buf a b ansA ansB rest rom1 rom2 hrel hmod hle ha hb hans henv
  have hok : imageLengthOk maxRom buf = true := imageLengthOk_iff.2 ⟨hmod, hle⟩
  obtain ⟨ea, eb, hexec, henv'⟩ := exec_writeRom_ready hrel hok ha hb henv
  obtain ⟨u, hgo, hu⟩ := runPhases_loopReady (c := true) (phases := [.unlockGlobal cmdReset, .doneRom buf.length])
    (streamsOk_rom hok) hans henv'
  have hcfg : u.cfg = s.cfg := hu.cfg
  have hcount := (hu.count (streamsOk_rom hok)).trans (length_romA_add_romB buf)
  have hreset := hu.afterWrites (globalUnlock_inFlash s.cfg 0xF0#8)
  obtain ⟨notes, hend⟩ := hreset.finish hrel.1.1.1 0x00#8 (BitVec.ofNat 24 buf.length)
  refine ⟨_, u.st, u.pbuf, notes, hexec.trans (congrArg _ ?_), hreset.env.2⟩
  rw [hgo, runPhases_romEnd, if_pos hcount, hcount, hcfg, hend]
  simp only [State.erasedAt, State.waitedAt, State.afterWrites, polled, List.append_assoc]
  rfl

end Sys2Proof.Machine


/-! The frame of the bulk writers. -/

namespace Sys2Proof.Machine

open Sys2Proof

/-! ### A page, and the phases of a writer -/

section
variable {cfg : Config} {e e' : Env} {bus : Nat → Prop} {hidden : Chip → Nat → Prop} {addr : Addr} {cmd : Byte}
  {page : List Byte}

/-- Writes to one chip leave the other as it was. -/
theorem Env.after_get_of_ne {ws : List BusWrite} {c d : Chip}
    (h : ∀ w ∈ ws, inFlash w.1.toNat = true ∧ chipOf w.1 = c) (hd : d ≠ c) :
    (e.after cfg ws).chip.get d = e.chip.get d := by
  induction ws generalizing e with
  | nil => rfl
  | cons w ws ih =>
    obtain ⟨hin, rfl⟩ := h w (List.mem_cons_self ..)
    exact (ih fun x hx => h x (List.mem_cons_of_mem _ hx)).trans (Env.write_get_of_ne hin _ hd)

/-- After a page the chip awaits no block. -/
theorem pageEvents_awaited (halign : addr.toNat % 128 = 0) (hin : inFlash addr.toNat = true) :
    ((e.after cfg (pageEvents cfg cmd addr page)).chip.get (chipOf addr)).latch.awaited = .none := by
  obtain ⟨hlast, hchip⟩ := chipOf_lastAddr halign hin
  rw [pageEvents, Env.after_append, Env.after_cons, Env.after_cons, Env.after_nil]
  show (((Env.write cfg _ (lastAddr addr) _).chip.get (chipOf addr)).latch.awaited) = _
  rw [Env.write_flash hlast, hchip]
  exact Env.chipWrite_awaited (by simp [pageSize])

/-- A page whose program would store within bounds. -/
theorem Env.Confined.sendPage (h : e.Confined e' bus hidden) (hin : inFlash addr.toNat = true)
    (hok : pageOperandsOk addr page = true) (hcmd : cmd ≠ cmdErase2 ∧ cmd ≠ cmdHErase2)
    (hown : (Latch.loaded cmd addr page).awaited.Within (chipOf addr) bus hidden) :
    e.Confined (e'.after cfg (pageEvents cfg cmd addr page)) bus hidden := by
  obtain ⟨halign, hlen⟩ := pageOperandsOk_iff.1 hok
  obtain ⟨hsame, hop⟩ := pageEvents_frame (cfg := cfg) hin halign hlen hcmd (h.within (chipOf addr))
  refine ⟨h.same.trans hsame, fun c => ?_⟩
  rcases eq_or_ne c (chipOf addr) with rfl | hc
  · exact ⟨hop hown, by rw [pageEvents_awaited halign hin]; exact .none⟩
  · rw [Env.after_get_of_ne (pageEvents_chip cfg cmd page halign hin) hc]
    exact h.within c

/-- A phase of a bulk writer, the loop apart, that may start nothing beyond the bounds. -/
inductive StaysWithin (bus : Nat → Prop) (hidden : Chip → Nat → Prop) : Phase → Prop
  | looks {p : Phase} (h : p.looks = true) : StaysWithin bus hidden p
  | unlock {cmd : Byte} (h : ∀ cfg addr, StartsWithin cfg bus hidden (addr, [cmd])) :
      StaysWithin bus hidden (.unlockGlobal cmd)
  | page {cmd : Byte} {addr : Addr} {page : List Byte} (hin : inFlash addr.toNat = true)
      (hok : pageOperandsOk addr page = true) (hcmd : cmd ≠ cmdErase2 ∧ cmd ≠ cmdHErase2)
      (hown : (Latch.loaded cmd addr page).awaited.Within (chipOf addr) bus hidden) :
      StaysWithin bus hidden (.page cmd addr page)
  | clearErr : StaysWithin bus hidden .clearErr
  | orErr (c : Chip) : StaysWithin bus hidden (.orErr c)
  | doneRom (len : Nat) : StaysWithin bus hidden (.doneRom len)
  | doneMap : StaysWithin bus hidden .doneMap

theorem Progress.Leaves.mono {P R : State → Prop} {Q Q' : Phase → Prop} {r : Progress} (h : r.Leaves P Q R)
    (hQ : ∀ p, Q p → Q' p) : r.Leaves P Q' R := by
  cases r with
  | goOn s => exact h
  | again now s => exact ⟨h.1, hQ now h.2⟩
  | fail cause info s => exact h

theorem confinedRule (e : Env) (bus : Nat → Prop) (hidden : Chip → Nat → Prop) :
    PhaseRule (fun s => e.Confined s.env bus hidden) (StaysWithin bus hidden)
      (fun s => e.Confined s.env bus hidden) where
  seq := fun _ _ h => h
  perform := by
    intro p s hp h
    cases hp with
    | looks hl => exact (looks_confined p s hl h).leaves.mono fun _ => .looks
    | unlock hcmd =>
      show e.Confined (s.memWrites _).env bus hidden
      rw [memWrites_eq, unlockGlobalWrites_eq]
      exact h.writes (globalUnlock_inFlash _ _) (globalUnlock_startsWithin (hcmd s.cfg))
    | page hin hok hcmd hown =>
      show e.Confined (s.sendPage _ _ _).env bus hidden
      rw [State.sendPage_eq]
      exact h.sendPage hin hok hcmd hown
    | clearErr => exact h
    | orErr c => exact h
    | doneRom len =>
      show e.Confined (s.romResult len).env bus hidden
      unfold State.romResult
      split <;> exact h
    | doneMap =>
      show e.Confined s.mapResult.env bus hidden
      unfold State.mapResult
      split <;> exact h

variable {s : State} {c : Bool} {rest : List Phase}

/-- Such phases, and then what the rest keeps. -/
theorem always_confined {pre : List Phase} (hpre : ∀ p ∈ pre, StaysWithin bus hidden p)
    (h : e.Confined s.env bus hidden)
    (hrest : ∀ u : State, e.Confined u.env bus hidden →
      (u.runPhases c rest).Always fun t => e.SameOutside t.env bus hidden) :
    (s.runPhases c (pre ++ rest)).Always fun t => e.SameOutside t.env bus hidden :=
  always_phases (confinedRule e bus hidden) (fun _ _ _ h _ => h.same)
    (fun u addr h _ _ => (stable_confined.failOut u c .pollTimeout addr h).same) hrest hpre h

theorem always_confined_all {phases : List Phase} (hall : ∀ p ∈ phases, StaysWithin bus hidden p)
    (h : e.Confined s.env bus hidden) :
    (s.runPhases c phases).Always fun t => e.SameOutside t.env bus hidden := by
  rw [← List.append_nil phases]
  exact always_confined hall h fun u hu => .of_idle rfl hu.same

/-- READ_RESET and the result of a composite. -/
theorem resetEnd_staysWithin {p : Phase} (hp : StaysWithin bus hidden p) :
    ∀ q ∈ [.unlockGlobal cmdReset, p], StaysWithin bus hidden q :=
  List.forall_mem_cons.2 ⟨.unlock fun _ _ => .of_byte (by decide) (by decide),
    List.forall_mem_cons.2 ⟨hp, nofun⟩⟩

/-- The loop, its pages within bounds, and then what the rest keeps. -/
theorem always_loop_confined {rom1 rom2 : List Byte} (hok : streamsOk rom1 rom2 = true)
    (hbus : ∀ c a, (base c).toNat ≤ a → a < (base c).toNat + (streamOf rom1 rom2 c).length → bus a)
    (h : e.Confined s.env bus hidden)
    (hrest : ∀ u : State, e.Confined u.env bus hidden →
      (u.runPhases c rest).Always fun t => e.SameOutside t.env bus hidden) :
    (s.runPhases c (writeLoopPhases rom1 rom2 ++ rest)).Always fun t => e.SameOutside t.env bus hidden := by
  refine always_loop (P := fun u => e.Confined u.env bus hidden) (fun _ _ h => h) ?_ ?_ (fun _ _ h => h.same)
    (fun u _ hu _ => hrest u hu) hok h
  · intro u c hinv hu hl hb
    obtain ⟨haddr, hpage⟩ := hinv.pageIn hl hb
    simp only [pageIn, Bool.and_eq_true, beq_iff_eq] at hpage
    obtain ⟨⟨hin, hchip⟩, hpok⟩ := hpage
    rw [wlIssue_env]
    refine hu.sendPage hin hpok ⟨by decide, by decide⟩ ⟨fun a ha => ?_, nofun⟩
    obtain ⟨hlo, hhi⟩ := program_storesAt.1 ha
    obtain ⟨-, hlt⟩ := hinv.next hl hb
    obtain ⟨hcur, hmod, -⟩ := hinv.stream c
    rw [hinv.len c] at hmod
    rw [hchip, length_pageOf hcur hmod hlt, haddr] at *
    simp only [pageSize] at *
    exact hbus c a (by omega) (by omega)
  · intro u c _ hu _
    rw [(wlLook_bus u c).1]
    exact hu.read _ 1

end

/-! ### The three writers -/

/-- A bulk writer stays within bounds if nothing pending before it stores beyond them, and its phases start
nothing that would. -/
theorem writer_frame {s t : State} {i : Instr} {n : Nat} {bus : Nat → Prop} {hidden : Chip → Nat → Prop}
    (hi : runsInPhases i = true) (hr : s.Runs i n t)
    (h : i.wellFormed = true → (s.runPhases (cleansUp i) (phasesOf s.cfg i)).Always fun t =>
      s.env.SameOutside t.env bus hidden) : s.env.SameOutside t.env bus hidden := by
  obtain ⟨t0, he, rfl⟩ := hr
  obtain ⟨code, rfl⟩ | ⟨hok, rfl⟩ := exec_phases hi he
  · rw [drive_idle n (by exact (exec_next_idle he).1)]
    exact .refl ..
  · exact h hok n

theorem Env.Confined.of_pending {e : Env} {bus : Nat → Prop} {hidden : Chip → Nat → Prop}
    (hbus : ∀ a, (∃ c, e.pendingAt c a = true) → bus a)
    (hhid : ∀ c o, e.hiddenPendingAt c o = true → hidden c o) : e.Confined e bus hidden :=
  .refl fun c => chipWithin_iff.2 ⟨fun a h => hbus a ⟨c, h⟩, hhid c⟩

theorem writeLoop_frame {s t : State} {rom1 rom2 : List Byte} {n : Nat} (hr : s.Runs (.writeLoop rom1 rom2) n t) :
    s.env.SameOutside t.env
      (fun a => (0xC00000 ≤ a ∧ a < 0xC00000 + rom1.length) ∨
        (0xE00000 ≤ a ∧ a < 0xE00000 + rom2.length) ∨ ∃ c, s.env.pendingAt c a = true)
      (fun c o => s.env.hiddenPendingAt c o = true) := by
  refine writer_frame rfl hr fun hok => always_loop_confined hok (fun c a hlo hhi => ?_)
    (.of_pending (fun _ h => .inr (.inr h)) fun _ _ h => h) fun u h => .of_idle rfl h.same
  cases c
  · exact .inl ⟨hlo, hhi⟩
  · exact .inr (.inl ⟨hlo, hhi⟩)

theorem chipErasePhases_stayWithin {bus : Nat → Prop} {hidden : Chip → Nat → Prop}
    (h : ∀ c, ChipOp.erase.Within c bus hidden) : ∀ p ∈ chipErasePhases, StaysWithin bus hidden p := by
  simp only [chipErasePhases, waitBoth, waitPhases, List.cons_append, List.nil_append, List.forall_mem_cons]
  exact ⟨.unlock fun _ _ => .of_byte (by decide) (by decide),
    .unlock fun _ _ => ⟨by simp [pageSize], fun c _ _ => h c,
      fun _ _ h => absurd h (by simp [cmdErase2, cmdHErase2])⟩,
    .looks rfl, .looks rfl, .looks rfl, .looks rfl, nofun⟩

/-- The addresses WRITE_ROM may change. -/
def romReach (e : Env) (a : Nat) : Prop := (0xC00000 ≤ a ∧ a < 0x1000000) ∨ ∃ c, e.pendingAt c a = true

theorem writeRom_frame {s t : State} {buf : List Byte} {n : Nat} (hr : s.Runs (.writeRom buf) n t) :
    s.env.SameOutside t.env (romReach s.env) (fun c o => s.env.hiddenPendingAt c o = true) := by
  refine writer_frame rfl hr fun hok => ?_
  show (s.runPhases true (chipErasePhases ++ writeLoopPhases (romA buf) (romB buf) ++
    [.unlockGlobal cmdReset, .doneRom buf.length])).Always _
  rw [List.append_assoc]
  have herase : ∀ c, ChipOp.erase.Within c (romReach s.env) (fun c o => s.env.hiddenPendingAt c o = true) :=
    fun c => ⟨fun a ha => .inl (inFlash_iff.1 ((erase_within c fun _ _ => True).bus a ha)), nofun⟩
  refine always_confined (chipErasePhases_stayWithin herase)
    (.of_pending (fun _ h => .inr h) fun _ _ h => h) fun u hu =>
    always_loop_confined (streamsOk_rom hok) (fun c a hlo hhi => .inl ?_) hu fun v hv =>
      always_confined_all (resetEnd_staysWithin (.doneRom _)) hv
  obtain ⟨-, hle⟩ := streamOf_length (streamsOk_rom hok) c
  have hbase := base_toNat c
  omega

/-- The phases of WRITE_MAP store in the hidden sectors alone. -/
theorem writeMap_staysWithin {map : List Byte} (hlen : map.length = mapLen) (cfg : Config) (bus : Nat → Prop) :
    ∀ p ∈ phasesOf cfg (.writeMap map), StaysWithin bus (fun _ _ => True) p := by
  have hin : ∀ k, inFlash (hiddenPage k).toNat = true := by decide
  have hpage : ∀ k, ∀ p ∈ mapPagePhases map k, StaysWithin bus (fun _ _ => True) p := fun k =>
    List.forall_mem_append.2 ⟨List.forall_mem_cons.2
      ⟨.page (hin k) (pageOperandsOk_map hlen k) ⟨by decide, by decide⟩ ⟨nofun, fun _ _ => trivial⟩,
        List.forall_mem_cons.2 ⟨.looks rfl, List.forall_mem_cons.2 ⟨.looks rfl, nofun⟩⟩⟩,
      List.forall_mem_cons.2 ⟨.orErr _, nofun⟩⟩
  have herase : ∀ p ∈ hiddenErasePhases, StaysWithin bus (fun _ _ => True) p := by
    simp only [hiddenErasePhases, waitBoth, waitPhases, List.cons_append, List.nil_append, List.forall_mem_cons]
    exact ⟨.unlock fun _ _ => .of_byte (by decide) (by decide),
      .unlock fun _ _ => ⟨by simp [pageSize], fun _ _ h => absurd h (by simp [cmdErase2, cmdHErase2]),
        fun _ _ _ => ⟨nofun, fun _ _ => trivial⟩⟩, .looks rfl, .looks rfl, .looks rfl, .looks rfl, nofun⟩
  refine List.forall_mem_append.2 ⟨List.forall_mem_append.2 ⟨List.forall_mem_cons.2 ⟨.clearErr, herase⟩, ?_⟩,
    resetEnd_staysWithin .doneMap⟩
  exact List.forall_mem_append.2 ⟨List.forall_mem_append.2 ⟨List.forall_mem_append.2 ⟨hpage 0, hpage 1⟩, hpage 2⟩,
    hpage 3⟩

theorem writeMap_frame {s t : State} {map : List Byte} {n : Nat} (hwf : s.env.wf = true)
    (hr : s.Runs (.writeMap map) n t) :
    s.env.SameOutside t.env (fun a => ∃ c, s.env.pendingAt c a = true)
      (fun c o => o < 256 ∨ s.env.hiddenPendingAt c o = true) := by
  have h : s.env.SameOutside t.env (fun a => ∃ c, s.env.pendingAt c a = true) fun _ _ => True :=
    writer_frame rfl hr fun hok => always_confined_all (writeMap_staysWithin (beq_iff_eq.1 hok) s.cfg _)
      (.of_pending (fun _ h => h) fun _ _ _ => trivial)
  refine ⟨h.mem, h.array, fun c o ho => ?_⟩
  have ho : hidRead ≤ o := Nat.le_of_not_lt fun hlt => ho (.inl hlt)
  rw [Env.hid_read_beyond (busStable_wf.runs hr hwf) c ho, Env.hid_read_beyond hwf c ho]

/-- Settles O50: every phase keeps within bounds what the chips have pending and what has changed; a page of
the loop stores in its own stream (`LoopInv.pageIn`). -/
theorem bulkWritersFrame : Obligations.BulkWritersFrame :=
  ⟨fun _ _ _ _ _ => writeLoop_frame, fun _ _ _ _ => writeRom_frame, fun _ _ _ _ => writeMap_frame⟩

end Sys2Proof.Machine


/-! A stream written under the contract: what the chip and its part of the memory hold after each page. -/

namespace Sys2Proof.Machine

open Sys2Proof

/-! ### A chip on its way -/

/-- The program of the page at `cur` is in flight on a chip. -/
structure ChipState.Programming (st : ChipState) (c : Chip) (rom : List Byte) (cur : Nat) : Prop where
  op : st.op = .program (pageAddr c cur) (pageOf rom cur)
  mode : st.mode = .status
  latch : st.latch = .idle
  sound : st.sound = true
  undisturbed : st.disturbed = false

/-- The first `cur` bytes of the stream are in chip `c`'s array, the rest of which is erased; the page after
them is in flight, or the chip takes commands. -/
structure Env.Streamed (e : Env) (c : Chip) (rom : List Byte) (cur : Nat) (busy : Bool) : Prop where
  wild : (e.chip.get c).wild = none
  fresh : ∀ p ∈ (e.chip.get c).programmed, p < (base c).toNat + cur
  stored : ∀ o < cur, e.mem.read ((base c).toNat + o) = rom.getD o 0
  erased : ∀ o, cur ≤ o → o < half → e.mem.read ((base c).toNat + o) = erasedByte
  listening : busy = false → (e.chip.get c).Listening .idle
  programming : busy = true → (e.chip.get c).Programming c rom cur

section
variable {cfg : Config} {e e' : Env} {c d : Chip} {rom : List Byte} {cur : Nat} {busy : Bool}

/-- Nothing of it has changed. -/
theorem Env.Streamed.congr (h : e.Streamed c rom cur busy) (hchip : e'.chip.get c = e.chip.get c)
    (hmem : ∀ o < half, e'.mem.read ((base c).toNat + o) = e.mem.read ((base c).toNat + o)) (hcur : cur ≤ half) :
    e'.Streamed c rom cur busy where
  wild := hchip ▸ h.wild
  fresh := hchip ▸ h.fresh
  stored := fun o ho => (hmem o (ho.trans_le hcur)).trans (h.stored o ho)
  erased := fun o ho hlt => (hmem o hlt).trans (h.erased o ho hlt)
  listening := hchip ▸ h.listening
  programming := hchip ▸ h.programming

theorem Env.Streamed.of_same (h : e.Streamed c rom cur busy) (hchip : e'.chip.get c = e.chip.get c)
    (hmem : e'.mem = e.mem) : e'.Streamed c rom cur busy where
  wild := hchip ▸ h.wild
  fresh := hchip ▸ h.fresh
  stored := hmem ▸ h.stored
  erased := hmem ▸ h.erased
  listening := hchip ▸ h.listening
  programming := hchip ▸ h.programming

/-- A page sent to a chip that takes it. -/
theorem Env.Streamed.send (h : e.Streamed c rom cur false) (hm : e.dev.mapped = true)
    (hp : e.dev.protect = .released) (hin : pageIn c (pageAddr c cur) (pageOf rom cur) = true) :
    (e.after cfg (pageEvents cfg cmdProgram (pageAddr c cur) (pageOf rom cur))).Streamed c rom cur true := by
  have hsent := pageEvents_hears (cfg := cfg) (cmd := cmdProgram) hm (h.listening rfl) hin (.inl rfl) rfl
  have hchip := hsent.self c rfl
  refine ⟨?_, ?_, ?_, ?_, nofun, fun _ => ?_⟩
  · rw [hchip]
    exact h.wild
  · rw [hchip]
    exact h.fresh
  · rw [hsent.mem]
    exact h.stored
  · rw [hsent.mem]
    exact h.erased
  · rw [hchip]
    exact ⟨rfl, rfl, rfl, decide_eq_true hp, rfl⟩

/-- The program of a page, seen complete, leaves of the chip what the page did not touch. -/
theorem Env.Completes.program_chip {err : Bool} {addr : Addr} {page : List Byte} (h : e.Completes e' c err)
    (hop : (e.chip.get c).op = .program addr page) :
    e'.chip.get c = { e.chip.get c with
      failed := err
      op := .none
      programmed := (e.chip.get c).programmed.insert addr.toNat } := by
  obtain ⟨e1, -, rfl⟩ := h
  simp only [Env.complete, Env.setChip_get_self, hop, Env.programPage]

/-- An erase that counts clears the chip's part of the memory. -/
theorem Env.Completes.erase_clears (h : e.Completes e' c false) (hop : (e.chip.get c).op = .erase)
    (hsound : (e.chip.get c).sound = true) (hp : e.dev.protect = .released) :
    e'.mem = e.mem.clear (base c).toNat half ∧ e'.chip.get c = { e.chip.get c with
      failed := false
      op := .none
      programmed := []
      wild := none } := by
  obtain ⟨e1, h1, rfl⟩ := h
  simp only [Env.complete, Env.setChip_get_self, hop, hsound, Env.setChip_dev, h1.dev, hp]
  simp [Env.eraseArray, h1.mem]

/-- A program seen complete without error. -/
theorem Env.Streamed.complete (h : e.Streamed c rom cur true) (hwf : e.wf = true)
    (hp : e.dev.protect = .released) (haddr : (pageAddr c cur).toNat = (base c).toNat + cur)
    (hpage : cur + pageSize ≤ rom.length) (hrom : rom.length ≤ half) (hdone : e.Completes e' c false) :
    e'.Streamed c rom (cur + pageSize) false ∧
      e'.mem = e.mem.writeBytes ((base c).toNat + cur) (pageOf rom cur) := by
  obtain ⟨hop, hmode, hlatch, hsound, hdist⟩ := h.programming rfl
  have hlen : (pageOf rom cur).length = pageSize := by
    rw [pageOf, List.length_take, List.length_drop]
    omega
  have herased : e.pageErased c (pageAddr c cur).toNat = true := by
    simp only [Env.pageErased, List.all_eq_true, List.mem_range, beq_iff_eq, Env.arrayByte, h.wild, haddr]
    intro i hi
    rw [Nat.add_assoc]
    exact h.erased _ (by omega) (by omega)
  obtain ⟨hmem, -⟩ := hdone.programmed hop hsound hdist hp
    (fun hmem => absurd (h.fresh _ hmem) (by omega)) herased
  rw [haddr] at hmem
  have hchip := hdone.program_chip hop
  refine ⟨⟨?_, ?_, ?_, ?_, fun _ => ?_, nofun⟩, hmem⟩
  · rw [hchip]
    exact h.wild
  · rw [hchip]
    intro p hmem
    rcases List.mem_insert_iff.1 hmem with rfl | hmem
    · rw [haddr]
      simp only [pageSize]
      omega
    · exact (h.fresh p hmem).trans_le (by omega)
  · intro o ho
    rw [hmem]
    rcases Nat.lt_or_ge o cur with hlt | hge
    · rw [Memory.read_writeBytes_outside (.inl (by omega))]
      exact h.stored o hlt
    · obtain ⟨i, rfl⟩ := Nat.exists_eq_add_of_le hge
      rw [← Nat.add_assoc, Memory.read_writeBytes_inside (Env.wf_iff.1 hwf).1 (by omega)]
      simp only [pageOf, List.getElem_take, List.getElem_drop]
      rw [List.getD_eq_getElem]
  · intro o ho hlt
    rw [hmem, Memory.read_writeBytes_outside (.inr (by omega))]
    exact h.erased o (by omega) hlt
  · rw [hchip]
    exact ⟨by rw [hmode]; nofun, rfl, hlatch, .inl rfl⟩

/-- The two chips' windows are apart. -/
theorem window_apart (hd : d ≠ c) {o x : Nat} (ho : o < half) (hx : x < half) :
    (base d).toNat + o ≠ (base c).toNat + x := by
  simp only [half] at ho hx
  cases c with
  | a =>
    cases d with
    | a => exact absurd rfl hd
    | b => rw [base_a_toNat, base_b_toNat]; omega
  | b =>
    cases d with
    | a => rw [base_a_toNat, base_b_toNat]; omega
    | b => exact absurd rfl hd

/-- The other chip's page. -/
theorem Env.Streamed.other (h : e.Streamed d rom cur busy) (hd : d ≠ c) (hcur : cur ≤ half)
    (hchip : e'.chip.get d = e.chip.get d) {o : Nat} {page : List Byte}
    (hmem : e'.mem = e.mem.writeBytes ((base c).toNat + o) page) (ho : o + page.length ≤ half) :
    e'.Streamed d rom cur busy := by
  refine h.congr hchip (fun x hx => ?_) hcur
  rw [hmem]
  refine Memory.read_writeBytes_outside ?_
  by_contra hin
  have hx' : (base d).toNat + x - (base c).toNat < half := by omega
  exact window_apart hd hx hx' (by omega)

/-- A chip whose erase has been seen complete without error. -/
theorem Env.Completes.streamed (h : e.Completes e' c false) (hop : (e.chip.get c).op = .erase)
    (hmode : (e.chip.get c).mode = .status) (hlatch : (e.chip.get c).latch = .idle)
    (hsound : (e.chip.get c).sound = true) (hp : e.dev.protect = .released) (rom : List Byte) :
    e'.Streamed c rom 0 false := by
  obtain ⟨hmem, hchip⟩ := h.erase_clears hop hsound hp
  refine ⟨by rw [hchip], by rw [hchip]; nofun, nofun, fun o _ ho => ?_, fun _ => ?_, nofun⟩
  · rw [hmem, Memory.read_clear, if_pos ⟨by omega, by omega⟩]
  · rw [hchip]
    exact ⟨by rw [hmode]; nofun, rfl, hlatch, .inl rfl⟩

/-- … and of the other chip it changes nothing. -/
theorem Env.Completes.streamed_other (h : e.Completes e' c false) (hop : (e.chip.get c).op = .erase)
    (hsound : (e.chip.get c).sound = true) (hp : e.dev.protect = .released) (hd : d ≠ c)
    (hs : e.Streamed d rom 0 busy) : e'.Streamed d rom 0 busy := by
  obtain ⟨hmem, -⟩ := h.erase_clears hop hsound hp
  refine hs.congr (h.other hd) (fun x hx => ?_) (Nat.zero_le _)
  rw [hmem, Memory.read_clear, if_neg]
  rintro ⟨hlo, hhi⟩
  have hx' : (base d).toNat + x - (base c).toNat < half := by omega
  exact window_apart hd hx hx' (by omega)

end

/-! ### READ_RESET at the end -/

section
variable {cfg : Config} {e : Env} {c : Chip} {addr : Addr} {v : List Byte} {l : Latch}

/-- The last byte of a reset sequence, at a chip that takes it. -/
theorem Env.write_resets (hm : e.dev.mapped = true) (hat : inFlash addr.toNat = true ∧ chipOf addr = c)
    (hl : (e.chip.get c).Listening l) (hh : ∀ shown, hear cfg c shown l addr v = .reset) :
    e.write cfg addr v = e.setChip c { e.chip.get c with latch := .idle, mode := .array } := by
  obtain ⟨hin, rfl⟩ := hat
  obtain ⟨hmode, hop, hlatch, -⟩ := hl
  rw [Env.write_flash hin, Env.modeWrite_mapped hm]
  unfold Env.chipWrite
  simp only [hlatch, hh]
  rw [if_neg (by simp [hm, hmode, hop]), if_neg (by simp [hop])]

/-- READ_RESET puts chips that take it in array mode. -/
theorem readReset_array (hm : e.dev.mapped = true) (hl : ∀ c, (e.chip.get c).Listening .idle) :
    (e.after cfg (globalUnlock cfg 0xF0#8)).mem = e.mem ∧ (e.after cfg (globalUnlock cfg 0xF0#8)).dev = e.dev ∧
      ∀ c, ((e.after cfg (globalUnlock cfg 0xF0#8)).chip.get c).mode = .array ∧
        ((e.after cfg (globalUnlock cfg 0xF0#8)).chip.get c).wild = (e.chip.get c).wild := by
  have hoff : ∀ off : BitVec 16, (off.setWidth 24).toNat < half := setWidth_lt_half (by decide)
  have h1 := Env.after_both_hear (cfg := cfg) hm (hoff cfg.unlockOff1) (fun c _ => hl c)
    (fun c _ => hear_idle_key1 (bankBase_base c)) fun _ => trivial
  have h2 := Env.after_both_hear (cfg := cfg) (h1.mapped hm) (hoff cfg.unlockOff2)
    (h1.listening fun c _ => hl c) (fun _ _ => hear_key2 .fresh) fun _ => trivial
  have hkeys := h1.trans h2 fun _ => trivial
  have hlisten := hkeys.listening fun c _ => hl c
  rw [globalUnlock_eq, Env.after_append, Env.after_append]
  generalize (e.after cfg _).after cfg _ = e2 at hkeys hlisten ⊢
  have hreset : ∀ c shown, hear cfg c shown (.key2 (base c) .fresh) (base c + cfg.unlockOff1.setWidth 24) [0xF0#8] =
      .reset := fun c _ => (hear_command .fresh (by decide)).trans (by cases c <;> rfl)
  have ha := Env.write_resets (hkeys.mapped hm) (chipOf_base_add (hoff cfg.unlockOff1)) (hlisten .a trivial)
    (hreset .a)
  have hb := Env.write_resets (cfg := cfg)
    (e := e2.setChip .a { e2.chip.get .a with latch := .idle, mode := .array }) (hkeys.mapped hm)
    (chipOf_base_add (hoff cfg.unlockOff1))
    (by rw [Env.setChip_get_of_ne _ _ (by decide)]; exact hlisten .b trivial) (hreset .b)
  rw [toBoth, Env.after_cons, Env.after_cons, Env.after_nil, ha, hb]
  have hwild : ∀ c, (e2.chip.get c).wild = (e.chip.get c).wild := fun c => by
    rw [hkeys.self c trivial]
    rfl
  refine ⟨hkeys.mem, hkeys.dev, fun c => ?_⟩
  cases c with
  | a => exact ⟨rfl, hwild .a⟩
  | b => exact ⟨rfl, hwild .b⟩

end

end Sys2Proof.Machine


/-! An image that stands in the arrays is verified. -/

namespace Sys2Proof.Machine

open Sys2Proof

/-- The image stands in the arrays, which both chips answer. -/
structure Env.HoldsImage (e : Env) (buf : List Byte) : Prop where
  mapped : e.dev.mapped = true
  mode : ∀ c, (e.chip.get c).mode = .array
  wild : ∀ c, (e.chip.get c).wild = none
  stored : ∀ i < buf.length, e.mem.read (0xC00000 + i) = buf.getD i 0

section
variable {cfg : Config} {e : Env} {buf : List Byte} {j : Nat}

theorem Env.read_many {addr : Addr} {n : Nat} (hn : n ≠ 1) :
    e.read cfg addr n = Env.bytesFrom cfg addr.toNat e n := if_neg hn

/-- The memory's bytes at a chunk are the image's. -/
theorem Env.HoldsImage.readBytes_chunk (h : e.HoldsImage buf) :
    e.mem.readBytes (0xC00000 + j * 0x10000) (chunkLen buf.length j) = imageChunk buf j := by
  refine Memory.readBytes_eq_iff.2 ⟨?_, fun i hi => ?_⟩
  · simp only [imageChunk, List.length_take, List.length_drop, chunkLen]
  · simp only [imageChunk, List.length_take, List.length_drop] at hi
    have hlt : j * 0x10000 + i < buf.length := Nat.add_lt_of_lt_sub' (Nat.lt_min.1 hi).2
    rw [Nat.add_assoc, h.stored _ hlt, List.getD_eq_getElem _ _ hlt]
    simp only [imageChunk, List.getElem_take, List.getElem_drop]

/-- … which the chips answer. -/
theorem Env.HoldsImage.byteAt (h : e.HoldsImage buf) {i : Nat} (hi : i < maxRom) :
    e.byteAt cfg (0xC00000 + i) = (e.mem.read (0xC00000 + i), e) := by
  have hin : inFlash (0xC00000 + i) = true := by
    rw [inFlash_iff]
    simp only [maxRom] at hi
    omega
  simp [Env.byteAt, h.mapped, hin, Env.chipByte, h.mode, Env.arrayByte, h.wild]

theorem chunkAddr_toNat (hlen : buf.length ≤ maxRom) (hj : j < chunkCount buf.length) :
    (chunkAddr j).toNat = 0xC00000 + j * 0x10000 := by
  rw [lt_chunkCount] at hj
  simp only [maxRom] at hlen
  rw [chunkAddr, BitVec.toNat_add, BitVec.toNat_ofNat, BitVec.toNat_ofNat]
  omega

/-- A chunk of whole pages is not a single byte. -/
theorem chunkLen_ne_one (hmod : buf.length % 128 = 0) : chunkLen buf.length j ≠ 1 := by
  unfold chunkLen
  omega

/-- A read of a chunk answers it. -/
theorem Env.HoldsImage.read_chunk (h : e.HoldsImage buf) (hmod : buf.length % 128 = 0)
    (hlen : buf.length ≤ maxRom)
    (hj : j < chunkCount buf.length) :
    e.read cfg (chunkAddr j) (chunkLen buf.length j) = (imageChunk buf j, e) := by
  have hbyte : ∀ i < chunkLen buf.length j,
      e.byteAt cfg (0xC00000 + j * 0x10000 + i) = (e.mem.read (0xC00000 + j * 0x10000 + i), e) := by
    intro i hi
    rw [Nat.add_assoc]
    exact h.byteAt ((Nat.add_lt_of_lt_sub' (Nat.lt_min.1 hi).2).trans_le hlen)
  rw [Env.read_many (chunkLen_ne_one hmod), chunkAddr_toNat hlen hj, Env.bytesFrom_eq_readBytes hbyte,
    h.readBytes_chunk]

/-- So do those of all chunks. -/
theorem Env.HoldsImage.chunks (h : e.HoldsImage buf) (hmod : buf.length % 128 = 0)
    (hlen : buf.length ≤ maxRom)
    {m : Nat} (hm : j + m ≤ chunkCount buf.length) :
    (e.chunks cfg buf.length j m).1 = (List.range' j m).map (imageChunk buf) := by
  induction m generalizing j with
  | zero => rfl
  | succ m ih =>
    rw [chunks_succ_fst, h.read_chunk hmod hlen (by omega), ih (by omega), List.range'_succ, List.map_cons]

/-- The verifier finds it. -/
theorem exec_verifyRom_holds {s : State} (h : s.Ready) (hmod : buf.length % 128 = 0) (hlen : buf.length ≤ maxRom)
    (himage : s.env.HoldsImage buf) :
    ∃ u, exec (.verifyRom buf) s = .next u ∧ u.rc = 0x00#8 ∧ u.res.toNat = buf.length := by
  obtain ⟨k, hle, hdiffers, hexec⟩ := exec_verifyRom_eq h hlen
  have hk : k = chunkCount buf.length := by
    by_contra hne
    have hlt : k < chunkCount buf.length := by omega
    refine hdiffers.differs (by omega) ?_
    rw [himage.chunks hmod hlen (by omega), Nat.min_eq_left (by omega)]
    simp
  have hreached : min (k * 0x10000) buf.length = buf.length := by
    rw [hk, chunkCount]
    omega
  rw [hreached, if_pos rfl] at hexec
  refine ⟨_, hexec, rfl, ?_⟩
  show (BitVec.ofNat 24 buf.length).toNat = _
  rw [BitVec.toNat_ofNat]
  simp only [maxRom] at hlen
  omega

end

end Sys2Proof.Machine


/-! WRITE_ROM under the contract, and the image it leaves. -/

namespace Sys2Proof.Machine

open Sys2Proof

/-! ### The loop -/

/-- Both streams are written as far as the cursors say. -/
structure State.Written (rom1 rom2 : List Byte) (s : State) : Prop where
  wf : s.env.wf = true
  mapped : s.env.dev.mapped = true
  released : s.env.dev.protect = .released
  streamed : ∀ c, s.env.Streamed c (streamOf rom1 rom2 c) (s.cur.get c).toNat (s.busy.get c)

section
variable {rom1 rom2 : List Byte} {s : State} {c : Chip}

theorem pageAddr_toNat {cur : Nat} (h : cur < half) : (pageAddr c cur).toNat = (base c).toNat + cur := by
  have hbase := base_toNat c
  simp only [half] at h
  rw [pageAddr, BitVec.toNat_add, BitVec.toNat_ofNat]
  omega

/-- A stream's cursor and length, as numbers. -/
theorem State.LoopInv.bounds (h : s.LoopInv rom1 rom2) (c : Chip) :
    (s.cur.get c).toNat % pageSize = 0 ∧ (streamOf rom1 rom2 c).length % pageSize = 0 ∧
      (s.cur.get c).toNat ≤ (streamOf rom1 rom2 c).length ∧ (streamOf rom1 rom2 c).length ≤ half := by
  obtain ⟨hcur, hmod, hle, hhalf, -⟩ := h.stream c
  rw [h.len c] at hmod hle hhalf
  exact ⟨hcur, hmod, hle, hhalf⟩

theorem State.Written.issue (h : s.Written rom1 rom2) (hinv : s.LoopInv rom1 rom2) (hl : s.live c = true)
    (hb : s.busy.get c = false) : (s.wlIssue c (streamOf rom1 rom2 c)).Written rom1 rom2 := by
  obtain ⟨-, hpage⟩ := hinv.pageIn hl hb
  have hc := h.streamed c
  rw [hb] at hc
  have hsent := pageEvents_hears (cfg := s.cfg) (cmd := cmdProgram) h.mapped (hc.listening rfl) hpage
    (.inl rfl) rfl
  have henv := wlIssue_env s c (streamOf rom1 rom2 c)
  refine ⟨busStable_wf.wlIssue c _ h.wf, ?_, ?_, fun d => ?_⟩
  · rw [henv]
    exact hsent.mapped h.mapped
  · rw [henv]
    exact (congrArg Device.protect hsent.dev).trans h.released
  · rw [henv, wlIssue_cur, wlIssue_busy]
    rcases eq_or_ne d c with rfl | hd
    · rw [PerChip_get_set_self]
      exact hc.send h.mapped h.released hpage
    · rw [PerChip_get_set_of_ne _ _ hd]
      exact (h.streamed d).of_same (hsent.other d hd) hsent.mem

theorem State.Written.look (h : s.Written rom1 rom2) (hinv : s.LoopInv rom1 rom2) (hb : s.busy.get c = true)
    (habort : (s.wlLook c).2.abort.get c = false) : (s.wlLook c).2.Written rom1 rom2 := by
  have hc := h.streamed c
  rw [hb] at hc
  obtain ⟨hop, hmode, -⟩ := hc.programming rfl
  have hat : chipOf (base c) = c := by cases c <;> rfl
  obtain ⟨hbusy, hready⟩ := Env.read_status (cfg := s.cfg) (statusAt_base h.mapped hmode) (by
    rw [hat, hop]
    nofun)
  rw [hat] at hready
  have hwf := busStable_wf.wlLook c h.wf
  obtain ⟨henv, -⟩ := wlLook_bus s c
  obtain ⟨hs, hw⟩ | ⟨hs, hw⟩ | ⟨hs, hw⟩ := wlLook_cases s c
  · have hdrawn := hbusy (classify_busy.1 hs)
    refine ⟨hwf, ?_, ?_, fun d => ?_⟩
    · rw [henv]
      exact hdrawn.mapped h.mapped
    · rw [henv]
      exact (congrArg Device.protect hdrawn.dev).trans h.released
    · rw [henv, hw]
      exact (h.streamed d).of_same (congrArg (·.get d) hdrawn.chip) hdrawn.mem
  · have hdone := hready (classify_ready.1 hs).1
    rw [show (s.env.read s.cfg (base c) 1).1.headD 0 = s.status c from rfl, (classify_ready.1 hs).2] at hdone
    obtain ⟨hcur, hmod, -, hhalf⟩ := hinv.bounds c
    obtain ⟨-, -, -, -, hflight⟩ := hinv.stream c
    obtain ⟨hlt, -⟩ := hflight hb
    rw [hinv.len c] at hlt
    have hnext : (s.cur.get c).toNat + pageSize ≤ (streamOf rom1 rom2 c).length := by
      simp only [pageSize] at *
      omega
    obtain ⟨hnow, hmem⟩ := hc.complete h.wf h.released (pageAddr_toNat (hlt.trans_le hhalf)) hnext hhalf hdone
    have hcur' : (s.cur.get c + 128#22).toNat = (s.cur.get c).toNat + pageSize := by
      simp only [half, pageSize] at *
      rw [BitVec.toNat_add, BitVec.toNat_ofNat]
      omega
    refine ⟨hwf, ?_, ?_, fun d => ?_⟩
    · rw [henv, hdone.dev]
      exact h.mapped
    · rw [henv, hdone.dev]
      exact h.released
    · rw [henv, hw]
      rcases eq_or_ne d c with rfl | hd
      · simpa [State.wlReady, hcur'] using hnow
      · obtain ⟨-, -, hle, hhalf'⟩ := hinv.bounds d
        have hother := (h.streamed d).other hd (hle.trans hhalf') (hdone.other hd) hmem
          ((Nat.add_le_add_left (length_pageOf hcur hmod hlt).le _).trans (hnext.trans hhalf))
        simpa [State.wlReady, PerChip_get_set_of_ne _ _ hd] using hother
  · rw [hw] at habort
    simp [State.wlError] at habort

end

end Sys2Proof.Machine


/-! An image written OK is verified OK. -/

namespace Sys2Proof.Machine

open Sys2Proof

/-! ### The erase -/

theorem Env.wf_polls {cfg : Config} {e : Env} (addr : Addr) (n : Nat) (h : e.wf = true) :
    (e.polls cfg addr n).2.wf = true := by
  induction n generalizing e with
  | zero => exact h
  | succ n ih => exact ih (Env.wf_read addr 1 h)

theorem Env.wf_after {cfg : Config} {e : Env} {ws : List BusWrite} (h : e.wf = true) :
    (e.after cfg ws).wf = true := by
  induction ws generalizing e with
  | nil => exact h
  | cons w ws ih => exact ih (Env.wf_write w.1 w.2 h)

/-- Both erases seen complete without error: nothing of a stream is written yet. -/
theorem erased_streamed {e ea eb : Env} (hop : ∀ c, (e.chip.get c).op = .erase)
    (hmode : ∀ c, (e.chip.get c).mode = .status) (hlatch : ∀ c, (e.chip.get c).latch = .idle)
    (hsound : ∀ c, (e.chip.get c).sound = true) (hp : e.dev.protect = .released) (ha : e.Completes ea .a false)
    (hb : ea.Completes eb .b false) (rom : List Byte) (c : Chip) : eb.Streamed c rom 0 false := by
  have hother : ea.chip.get .b = e.chip.get .b := ha.other (by decide)
  have hp' : ea.dev.protect = .released := ha.dev ▸ hp
  cases c with
  | a =>
    exact hb.streamed_other (by rw [hother, hop]) (by rw [hother, hsound]) hp' (by decide)
      (ha.streamed (hop .a) (hmode .a) (hlatch .a) (hsound .a) hp rom)
  | b =>
    exact hb.streamed (by rw [hother, hop]) (by rw [hother, hmode]) (by rw [hother, hlatch])
      (by rw [hother, hsound]) hp' rom

/-- The waits for both chips complete what each has in flight, chip A's first. -/
theorem polls_both_complete {cfg : Config} {e ea eb : Env} {bsa bsb : List Byte} (hm : e.dev.mapped = true)
    (hmode : ∀ c, (e.chip.get c).mode = .status) (hop : ∀ c, (e.chip.get c).op ≠ .none)
    (hpa : e.polls cfg (base .a) bsa.length = (bsa, ea)) (hra : EndsReady bsa)
    (hpb : ea.polls cfg (base .b) bsb.length = (bsb, eb)) (hrb : EndsReady bsb) :
    e.Completes ea .a (isError (bsa.getLastD 0)) ∧ ea.Completes eb .b (isError (bsb.getLastD 0)) := by
  have ha : e.Completes ea .a _ := Env.polls_completes (statusAt_base hm (hmode .a)) (hop .a) hpa hra
  have hother : ea.chip.get .b = e.chip.get .b := ha.other (by decide)
  exact ⟨ha, Env.polls_completes (addr := base .b)
    (statusAt_base (by rw [ha.dev]; exact hm) (by rw [hother]; exact hmode .b))
    (by rw [show chipOf (base .b) = .b from rfl, hother]; exact hop .b) hpb hrb⟩

/-- The erase started on both chips, and both waits ended without error. -/
theorem erase_written {cfg : Config} {e e0 ea eb : Env} {bsa bsb : List Byte} (hc : e.Contract)
    (hsent : e.HeardBy e0 (fun _ => True) fun _ => .start .erase) (hwf : e0.wf = true)
    (hpa : e0.polls cfg (base .a) bsa.length = (bsa, ea)) (hra : EndsReady bsa)
    (hpb : ea.polls cfg (base .b) bsb.length = (bsb, eb)) (hrb : EndsReady bsb)
    (hgooda : isError (bsa.getLastD 0) = false) (hgoodb : isError (bsb.getLastD 0) = false)
    {u : State} (hu : u.env = eb) (rom1 rom2 : List Byte) : (u.wlInit rom1 rom2).Written rom1 rom2 := by
  have hchip := fun c => hsent.self c trivial
  have hop : ∀ c, (e0.chip.get c).op = .erase := fun c => by rw [hchip]; rfl
  have hmode : ∀ c, (e0.chip.get c).mode = .status := fun c => by rw [hchip]; rfl
  have hm := hsent.mapped hc.1
  have hp := (congrArg Device.protect hsent.dev).trans hc.2.1
  obtain ⟨ha, hb⟩ := polls_both_complete hm hmode (fun c => by rw [hop]; nofun) hpa hra hpb hrb
  rw [hgooda] at ha
  rw [hgoodb] at hb
  have hstreamed := erased_streamed hop hmode (fun c => by rw [hchip]; rfl)
    (fun c => by rw [hchip]; exact decide_eq_true hc.2.1) hp ha hb
  have hdev : eb.dev = e0.dev := hb.dev.trans ha.dev
  have hwfa := Env.wf_polls (cfg := cfg) (base .a) bsa.length hwf
  rw [hpa] at hwfa
  have hwfb := Env.wf_polls (cfg := cfg) (base .b) bsb.length hwfa
  rw [hpb] at hwfb
  subst hu
  exact ⟨hwfb, hdev ▸ hm, hdev ▸ hp, fun c => by cases c <;> exact hstreamed _ _⟩

/-- The answers of the erase's two waits, and what they leave. -/
theorem writeRom_erased {s t : State} {buf : List Byte} {n : Nat} (hrel : s.Released) (hc : s.env.Contract)
    (hwf : s.env.wf = true) (hok : imageLengthOk maxRom buf = true) (hends : s.Ends (.writeRom buf) n t)
    (hrc : t.rc = 0x00#8) :
    ∃ (bs : Chip → List Byte) (u : State) (m : Nat), (∀ c, EndsReady (bs c)) ∧
      u.trace = s.trace ++ (wrote (globalWrites s.cfg (.writeRom buf)) ++ polled (base .a) (bs .a) ++
        polled (base .b) (bs .b)) ∧
      (u.runPhases true (afterWaits (.writeRom buf))).drive m = t ∧
      ((∀ c, isError ((bs c).getLastD 0) = false) →
        ∀ rom1 rom2, (u.wlInit rom1 rom2).Written rom1 rom2) := by
  obtain ⟨⟨t0, he, ht⟩, hidle⟩ := hends
  cases (exec_waitsFirst (i := .writeRom buf) rfl hrel.1 (fun _ => hrel.2) hok).symm.trans he
  have hsent : s.env.HeardBy (s.env.after s.cfg (globalWrites s.cfg (.writeRom buf))) (fun _ => True) fun _ =>
    .start .erase := erase_starts (i := .chipErase) (.inl ⟨rfl, rfl⟩) hc
  have hrc' : t.rc ≠ 0x05#8 := by rw [hrc]; decide
  obtain ⟨bsa, ea, m1, hpa, hra, ha⟩ := ends_waitPhases (s := s.afterWrites (globalWrites s.cfg (.writeRom buf)))
    (rest := waitPhases (base .b) ++ afterWaits (.writeRom buf)) hrel.1.1.1 ht hidle hrc'
  obtain ⟨bsb, eb, m2, hpb, hrb, hb⟩ := ends_waitPhases (s := (s.afterWrites _).waitedAt (base .a) bsa ea)
    hrel.1.1.1 ha hidle hrc'
  refine ⟨fun | .a => bsa | .b => bsb, _, m2, fun | .a => hra | .b => hrb, ?_, hb, fun hgood =>
    erase_written hc hsent (Env.wf_after hwf) hpa hra hpb hrb (hgood .a) (hgood .b) rfl⟩
  simp only [State.waitedAt, afterWrites_trace, List.append_assoc]

/-! ### The first ready status byte of each chip -/

theorem readyBytes_append (es vs : List Event) : readyBytes (es ++ vs) = readyBytes es ++ readyBytes vs :=
  List.filterMap_append ..

theorem readyBytes_wrote (ws : List BusWrite) (c : Chip) :
    readyBytes ((wrote ws).filter (Event.reaches c)) = [] := by
  refine List.filterMap_eq_nil_iff.2 fun e he => ?_
  obtain ⟨w, -, rfl⟩ := List.mem_map.1 (List.mem_filter.1 he).1
  rfl

/-- The reads of a wait are events of its chip alone. -/
theorem filter_reaches_polled (c d : Chip) (bs : List Byte) :
    (polled (base c) bs).filter (Event.reaches d) = if d = c then polled (base c) bs else [] := by
  have hreach : ∀ e ∈ polled (base c) bs, e.reaches d = decide (d = c) := by
    intro e he
    obtain ⟨b, -, rfl⟩ := List.mem_map.1 he
    exact reaches_look c d [b]
  split
  · next hd => exact List.filter_eq_self.2 fun e he => (hreach e he).trans (decide_eq_true hd)
  · next hd => exact List.filter_eq_nil_iff.2 fun e he => by simp [hreach e he, hd]

theorem readyBytes_polled_eq (addr : Addr) (bs : List Byte) : readyBytes (polled addr bs) = bs.filter isReady := by
  induction bs with
  | nil => rfl
  | cons b bs ih =>
    cases hb : isReady b <;> simp [readyBytes, polled, hb] at ih ⊢ <;> exact ih

/-- Of a wait's reads only the last finds its chip ready. -/
theorem readyBytes_polled {c d : Chip} {bs : List Byte} (h : EndsReady bs) :
    readyBytes ((polled (base c) bs).filter (Event.reaches d)) = if d = c then [bs.getLastD 0] else [] := by
  obtain ⟨busy, last, rfl, hbusy, hlast⟩ := h
  have hnone : busy.filter isReady = [] := List.filter_eq_nil_iff.2 fun b hb => by simp [hbusy b hb]
  rw [filter_reaches_polled]
  split
  · rw [readyBytes_polled_eq, List.filter_append, hnone, List.getLastD_concat]
    simp [hlast]
  · rfl

/-- If the first ready byte of each chip is good, so are those that ended the waits. -/
theorem good_of_firstReady {ws : List BusWrite} {bs : Chip → List Byte} {ev : List Event}
    (hready : ∀ c, EndsReady (bs c))
    (hgood : ∀ c, FirstReadyIsGood c (wrote ws ++ polled (base .a) (bs .a) ++ polled (base .b) (bs .b) ++ ev))
    (c : Chip) : isError ((bs c).getLastD 0) = false := by
  refine hgood c _ ?_
  simp only [List.filter_append, readyBytes_append, readyBytes_wrote, readyBytes_polled (hready _)]
  cases c <;> rfl

/-! ### The image -/

section
variable {rom1 rom2 : List Byte} {s : State} {c : Chip}

theorem wlLook_abort {d : Chip} (h : (s.wlLook c).2.abort.get d = false) : s.abort.get d = false := by
  obtain ⟨-, hw⟩ | ⟨-, hw⟩ | ⟨-, hw⟩ := wlLook_cases s c <;> rw [hw] at h
  · exact h
  · exact h
  · rcases eq_or_ne d c with rfl | hd
    · simp [State.wlError] at h
    · simpa [State.wlError, PerChip_get_set_of_ne _ _ hd] using h

/-- Both streams at their ends, and READ_RESET. -/
theorem State.Written.holdsImage {buf : List Byte} (h : s.Written (romA buf) (romB buf))
    (hfinished : ∀ c, (s.cur.get c).toNat = (streamOf (romA buf) (romB buf) c).length ∧ s.busy.get c = false) :
    (s.env.after s.cfg (globalUnlock s.cfg 0xF0#8)).HoldsImage buf := by
  have hstreamed : ∀ c, s.env.Streamed c (streamOf (romA buf) (romB buf) c)
      (streamOf (romA buf) (romB buf) c).length false := fun c => by
    obtain ⟨hcur, hbusy⟩ := hfinished c
    rw [← hcur, ← hbusy]
    exact h.streamed c
  obtain ⟨hmem, hdev, hchip⟩ := readReset_array (cfg := s.cfg) h.mapped fun c => (hstreamed c).listening rfl
  refine ⟨hdev ▸ h.mapped, fun c => (hchip c).1, fun c => (hchip c).2.trans (hstreamed c).wild, fun i hi => ?_⟩
  rw [hmem]
  have hsplit := length_romA_add_romB buf
  have hlena : (romA buf).length = min half buf.length := List.length_take
  rcases Nat.lt_or_ge i (romA buf).length with hlt | hge
  · have hi' : i < half := by omega
    rw [show buf.getD i 0 = (romA buf).getD i 0 by simp [romA, List.getD, hi']]
    exact (hstreamed .a).stored i hlt
  · obtain ⟨j, rfl⟩ : ∃ j, i = half + j := Nat.exists_eq_add_of_le (by omega)
    rw [show buf.getD (half + j) 0 = (romB buf).getD j 0 by simp [romB, List.getD, List.getElem?_drop],
      ← Nat.add_assoc]
    exact (hstreamed .b).stored j (by simp only [streamOf]; omega)

end

/-- What the phases after the erase leave, when they end OK. -/
theorem afterErase_holdsImage {u : State} {buf : List Byte} (hok : imageLengthOk maxRom buf = true)
    (h : (u.wlInit (romA buf) (romB buf)).Written (romA buf) (romB buf)) :
    (u.runPhases true (afterWaits (.writeRom buf))).Always fun t =>
      t.seq = .idle → t.rc = 0x00#8 → t.env.HoldsImage buf := by
  refine always_loop (P := fun v => (∀ c, v.abort.get c = false) → v.Written (romA buf) (romB buf))
    (fun _ _ h habort => ?_) (fun v c hinv hv hl hb habort => ?_) (fun v c hinv hv hb habort => ?_)
    (fun _ _ _ => nofun) (fun v hinv hv hdead => ?_) (streamsOk_rom hok) fun _ => h
  · obtain ⟨hwf, hm, hp, hs⟩ := h habort
    exact ⟨hwf, hm, hp, hs⟩
  · rw [wlIssue_abort] at habort
    exact (hv habort).issue hinv hl hb
  · exact (hv fun d => wlLook_abort (habort d)).look hinv hb (habort c)
  · rw [runPhases_romEnd]
    refine .of_idle rfl fun _ hrc => ?_
    have hcount : v.count = buf.length := by
      by_contra hne
      rw [if_neg hne] at hrc
      exact absurd (show (0x02#8) = 0x00#8 from hrc) (by decide)
    have habort := (hinv.count_eq_iff hdead).1 (hcount.trans (length_romA_add_romB buf).symm)
    refine (hv habort).holdsImage fun c => ⟨(hinv.finished (hdead c)).resolve_left (by simp [habort c]), ?_⟩
    cases hb : v.busy.get c with
    | false => rfl
    | true => exact absurd (live_iff.2 ⟨habort c, .inl hb⟩) (by simp [hdead c])

/-- An operation that leaves the session alone ends ready for the next. -/
theorem ready_of_ends {s t : State} {i : Instr} {n : Nat} (hi : writesSession i = false) (h : s.Ready)
    (hends : s.Ends i n t) : t.Ready := by
  have hsame := runs_unwritten hends.1
  have hcfg : t.cfg = s.cfg := (congrArg State.cfg hsame : (t.unwritten i).cfg = _)
  have hsess : t.sess = s.sess := by
    have := (congrArg State.sess hsame : (t.unwritten i).sess = (s.unwritten i).sess)
    simpa [State.unwritten, hi] using this
  exact ⟨⟨hends.2, hcfg ▸ h.1.2⟩, hsess.trans h.2⟩

/-- Settles O58: the waits of the erase end on each chip's first ready byte, every page goes to erased bytes and
completes well unless its stream is aborted, and then the count falls short. -/
theorem romRoundTrip : Obligations.RomRoundTrip := by
  intro s buf n t ev hrel hc hwf hends hrc htrace hgood
  have hready := ready_of_ends (i := .writeRom buf) rfl hrel.1 hends
  cases hok : imageLengthOk maxRom buf with
  | false =>
    obtain ⟨⟨t0, he, rfl⟩, -⟩ := hends
    cases (exec_illFormed (i := .writeRom buf) rfl hrel.1 (fun _ => hrel.2) hok).symm.trans he
    rw [drive_idle n (by exact hrel.1.1.1)] at hrc
    exact absurd (show (0x04#8) = 0x00#8 from hrc) (by decide)
  | true =>
    obtain ⟨bs, u, m, hbs, hutrace, hgo, hwritten⟩ := writeRom_erased hrel hc hwf hok hends hrc
    obtain ⟨ev', hev⟩ : u.trace <+: t.trace := by
      rw [← hgo]
      exact (busStable_trace u.trace).drive m ((busStable_trace u.trace).runPhases _ _ List.prefix_rfl)
    rw [hutrace, htrace, List.append_assoc] at hev
    obtain rfl := List.append_cancel_left hev
    have himage := afterErase_holdsImage hok (hwritten (good_of_firstReady hbs hgood) _ _) m
    rw [hgo] at himage
    obtain ⟨hmod, hle⟩ := imageLengthOk_iff.1 hok
    exact exec_verifyRom_holds hready hmod hle (himage hends.2 hrc)

end Sys2Proof.Machine


/-! The hidden sector: the phases of WRITE_MAP and VERIFY_MAP, one after another. -/

namespace Sys2Proof.Machine

open Sys2Proof

/-! ### VERIFY_MAP -/

/-- Settles O28: the show sequence, the waits of `WaitBoth`, and the two reads whatever they answer. -/
theorem verifyMapResult : Obligations.VerifyMapResult := by
  intro s map j k ws ra rb da db h hlen ha hb hj hk
  refine ⟨_, exec_waitsFirst (i := .verifyMap map) rfl h (by simp [needsRelease]) (beq_iff_eq.2 hlen), ?_⟩
  refine (drive_waitBoth (s := s.afterWrites ws) true [.mapReadBack map] h.1.1 ha hb hj hk).trans ?_
  rw [runPhases_mapReadBack, State.mapReadBack_eq]
  refine (finish_idle (by exact h.1.1) _ _).trans ?_
  simp only [State.memRead, State.afterWrites, List.append_assoc]
  rfl

/-! ### A series of waits that end -/

@[simp] theorem wrote_nil : wrote [] = [] := rfl

/-- From `e` to `e'` each of the waits `waits` has been made after its writes, and has ended on its first ready
answer; `bss` are the answers of each. -/
inductive Env.Waited (cfg : Config) : Env → List (List BusWrite × Addr) → List (List Byte) → Env → Prop
  | nil (e : Env) : Env.Waited cfg e [] [] e
  | cons {e e1 e' : Env} {ws : List BusWrite} {addr : Addr} {waits : List (List BusWrite × Addr)}
      {bs : List Byte} {bss : List (List Byte)} (hp : (e.after cfg ws).polls cfg addr bs.length = (bs, e1))
      (hr : EndsReady bs) (h : Env.Waited cfg e1 waits bss e') :
      Env.Waited cfg e ((ws, addr) :: waits) (bs :: bss) e'

/-- The events of waits with the answers `bss`. -/
def polledEvents (waits : List (List BusWrite × Addr)) (bss : List (List Byte)) : List Event :=
  (waits.zip bss).flatMap fun x => wrote x.1.1 ++ polled x.1.2 x.2

@[simp] theorem polledEvents_nil (bss : List (List Byte)) : polledEvents [] bss = [] := rfl

@[simp] theorem polledEvents_cons (ws : List BusWrite) (addr : Addr) (waits : List (List BusWrite × Addr))
    (bs : List Byte) (bss : List (List Byte)) :
    polledEvents ((ws, addr) :: waits) (bs :: bss) = wrote ws ++ (polled addr bs ++ polledEvents waits bss) := by
  simp [polledEvents]

/-- Waits that are answered at once. -/
theorem polledEvents_singletons (waits : List (List BusWrite × Addr)) (answers : List Byte) :
    polledEvents waits (answers.map fun b => [b]) = waitedEvents waits answers := by
  induction waits generalizing answers with
  | nil => rfl
  | cons w waits ih =>
    cases answers with
    | nil => rfl
    | cons b answers =>
      obtain ⟨ws, addr⟩ := w
      rw [List.map_cons, polledEvents_cons, ih, waitedEvents_cons]
      rfl

theorem readyBytes_wrote_nil (ws : List BusWrite) : readyBytes (wrote ws) = [] :=
  List.filterMap_eq_nil_iff.2 fun e he => by
    obtain ⟨w, -, rfl⟩ := List.mem_map.1 he
    rfl

theorem EndsReady.filter_isReady {bs : List Byte} (h : EndsReady bs) : bs.filter isReady = [bs.getLastD 0] := by
  obtain ⟨busy, last, rfl, hbusy, hlast⟩ := h
  have hnone : busy.filter isReady = [] := List.filter_eq_nil_iff.2 fun b hb => by simp [hbusy b hb]
  rw [List.filter_append, hnone, List.getLastD_concat]
  simp [hlast]

/-- Each wait read one ready byte, its last. -/
theorem Env.Waited.readyBytes {cfg : Config} {e e' : Env} {waits : List (List BusWrite × Addr)}
    {bss : List (List Byte)} (h : Env.Waited cfg e waits bss e') :
    readyBytes (polledEvents waits bss) = bss.map (·.getLastD 0) := by
  induction h with
  | nil => rfl
  | cons hp hr h ih =>
    rw [polledEvents_cons, readyBytes_append, readyBytes_append, readyBytes_wrote_nil, readyBytes_polled_eq,
      hr.filter_isReady, ih]
    rfl

/-! ### WRITE_MAP: the erase, a page, the end -/

/-- What the erase of WRITE_MAP writes (R131). -/
def hiddenEraseWrites (cfg : Config) : List BusWrite := globalUnlock cfg 0x77#8 ++ globalUnlock cfg 0xE0#8

/-- The phases of WRITE_MAP after its erase (R171). -/
def mapPhases (map : List Byte) : List Phase :=
  mapPagePhases map 0 ++ (mapPagePhases map 1 ++ (mapPagePhases map 2 ++ (mapPagePhases map 3 ++
    [.unlockGlobal cmdReset, .doneMap])))

/-- The state after the writes of the erase. -/
def State.mapErasing (s : State) : State :=
  State.afterWrites { s with err := false } (hiddenEraseWrites s.cfg)

/-- … and after its two waits, which were answered `bsa` and `bsb`. -/
def State.mapErased (s : State) (bsa bsb : List Byte) (ea eb : Env) : State :=
  (s.mapErasing.waitedAt (base .a) bsa ea).waitedAt (base .b) bsb eb

/-- What hidden page `k` of the map writes (R133). -/
def mapPageWrites (cfg : Config) (map : List Byte) (k : Fin 4) : List BusWrite :=
  pageEvents cfg 0x99#8 (hiddenPage k) (mapPage map k)

/-- The state after hidden page `k` has been sent. -/
def State.mapSent (s : State) (map : List Byte) (k : Fin 4) : State :=
  State.afterWrites { s with pbuf := mapPage map k } (mapPageWrites s.cfg map k)

/-- … and after its wait, which was answered `bs`, and its error flag. -/
def State.mapPaged (s : State) (map : List Byte) (k : Fin 4) (bs : List Byte) (e : Env) : State :=
  { (s.mapSent map k).waitedAt (bankBase (hiddenPage k)) bs e with err := s.err || isError (bs.getLastD 0) }

/-- The phases of WRITE_MAP, up to its pages. -/
theorem phasesOf_writeMap (cfg : Config) (map : List Byte) :
    phasesOf cfg (.writeMap map) = .clearErr :: .unlockGlobal cmdHErase1 :: .unlockGlobal cmdHErase2 ::
      (waitPhases (base .a) ++ (waitPhases (base .b) ++ mapPhases map)) := by
  simp only [phasesOf, hiddenErasePhases, waitBoth, mapPhases, List.append_assoc, List.cons_append,
    List.nil_append]

@[simp] theorem mapErased_seq (s : State) (bsa bsb : List Byte) (ea eb : Env) :
    (s.mapErased bsa bsb ea eb).seq = s.seq := rfl

@[simp] theorem mapPaged_seq (s : State) (map : List Byte) (k : Fin 4) (bs : List Byte) (e : Env) :
    (s.mapPaged map k bs e).seq = s.seq := rfl

@[simp] theorem mapErased_cfg (s : State) (bsa bsb : List Byte) (ea eb : Env) :
    (s.mapErased bsa bsb ea eb).cfg = s.cfg := rfl

@[simp] theorem mapErased_env (s : State) (bsa bsb : List Byte) (ea eb : Env) :
    (s.mapErased bsa bsb ea eb).env = eb := rfl

@[simp] theorem mapPaged_cfg (s : State) (map : List Byte) (k : Fin 4) (bs : List Byte) (e : Env) :
    (s.mapPaged map k bs e).cfg = s.cfg := rfl

@[simp] theorem mapPaged_env (s : State) (map : List Byte) (k : Fin 4) (bs : List Byte) (e : Env) :
    (s.mapPaged map k bs e).env = e := rfl

theorem runPhases_clearErr (s : State) (c : Bool) (rest : List Phase) :
    s.runPhases c (.clearErr :: rest) = State.runPhases c rest { s with err := false } := rfl

theorem exec_writeMap_erasing {s : State} {map : List Byte} (h : s.Released) (hlen : map.length = 512) :
    exec (.writeMap map) s = .next (s.mapErasing.runPhases true
      (waitPhases (base .a) ++ (waitPhases (base .b) ++ mapPhases map))) := by
  refine (exec_operate_phases (i := .writeMap map) rfl s).trans
    ((State.operate_run h.1 (fun _ => h.2) (beq_iff_eq.2 hlen)).trans (congrArg _ ?_))
  rw [phasesOf_writeMap, runPhases_clearErr, runPhases_unlockGlobal, runPhases_unlockGlobal, afterWrites_cfg,
    State.afterWrites_append]
  rfl

/-- A hidden page is sent, and its wait begins. -/
theorem runPhases_mapPage (s : State) (c : Bool) (map : List Byte) (k : Fin 4) (rest : List Phase) :
    s.runPhases c (mapPagePhases map k ++ rest) =
      (s.mapSent map k).runPhases c (waitPhases (bankBase (hiddenPage k)) ++
        (.orErr (chipOf (bankBase (hiddenPage k))) :: rest)) :=
  runPhases_page s c cmdHProgram (hiddenPage k) (mapPage map k) _

/-- … and its error flag is taken from the status the wait latched. -/
theorem runPhases_orErr_waited (s : State) (c : Bool) (map : List Byte) (k : Fin 4) (bs : List Byte) (e : Env)
    (rest : List Phase) :
    ((s.mapSent map k).waitedAt (bankBase (hiddenPage k)) bs e).runPhases c
        (.orErr (chipOf (bankBase (hiddenPage k))) :: rest) =
      (s.mapPaged map k bs e).runPhases c rest := by
  show State.runPhases c rest { (s.mapSent map k).waitedAt (bankBase (hiddenPage k)) bs e with
    err := _ || isError (PerChip.get (PerChip.set _ _ _) _) } = _
  rw [PerChip_get_set_self]
  rfl

/-- The end of WRITE_MAP, after its pages: 512 bytes, or none (R171). -/
theorem runPhases_mapEnd {s : State} (hi : s.seq = .idle) :
    s.runPhases true [.unlockGlobal cmdReset, .doneMap] =
      { s.afterWrites (globalUnlock s.cfg 0xF0#8) with
        rc := if s.err then 0x02#8 else 0x00#8, res := if s.err then 0 else 512 } := by
  rw [runPhases_unlockGlobal]
  show ({ State.mapResult _ with seq := .idle } : State) = _
  have herr : (s.afterWrites (globalUnlock s.cfg cmdReset)).err = s.err := rfl
  rw [State.mapResult, herr]
  split <;> exact finish_idle (s := s.afterWrites (globalUnlock s.cfg 0xF0#8)) hi _ _

/-- Of the six waits of WRITE_MAP, one of the four for the pages ended with the error flag. -/
def mapFailed (bss : List (List Byte)) : Bool := (bss.drop 2).any fun bs => isError (bs.getLastD 0)

/-- The state in which WRITE_MAP ends when its six waits were answered `bss`, the last leaving `e`. -/
def State.mapEnded (s : State) (map : List Byte) (bss : List (List Byte)) (e : Env) : State :=
  { s with
    env := e.after s.cfg (globalUnlock s.cfg 0xF0#8)
    trace := s.trace ++ (polledEvents (mapWaits s.cfg map) bss ++ wrote (globalUnlock s.cfg 0xF0#8))
    st := ⟨(bss.getD 3 []).getLastD 0, (bss.getD 5 []).getLastD 0⟩
    pcnt := (bss.getD 5 []).length
    err := mapFailed bss
    pbuf := mapPage map 3
    rc := if mapFailed bss then 0x02#8 else 0x00#8
    res := if mapFailed bss then 0 else 512 }

/-- The waits of WRITE_MAP, by the names of their writes and addresses. -/
theorem mapWaits_eq (cfg : Config) (map : List Byte) : mapWaits cfg map =
    [(hiddenEraseWrites cfg, base .a), ([], base .b),
      (mapPageWrites cfg map 0, bankBase (hiddenPage 0)), (mapPageWrites cfg map 1, bankBase (hiddenPage 1)),
      (mapPageWrites cfg map 2, bankBase (hiddenPage 2)), (mapPageWrites cfg map 3, bankBase (hiddenPage 3))] := rfl

theorem runPhases_mapPaged_end {s : State} (hi : s.seq = .idle) (map bsa bsb b0 b1 b2 b3 : List Byte)
    (ea eb e0 e1 e2 e3 : Env) :
    (((((s.mapErased bsa bsb ea eb).mapPaged map 0 b0 e0).mapPaged map 1 b1 e1).mapPaged map 2 b2 e2).mapPaged
        map 3 b3 e3).runPhases true [.unlockGlobal cmdReset, .doneMap] =
      s.mapEnded map [bsa, bsb, b0, b1, b2, b3] e3 := by
  have hbank : ∀ k, chipOf (bankBase (hiddenPage k)) = if k < 2 then .a else .b := by decide
  have hst : ∀ (st : PerChip Byte) a b s0 s1 s2 s3, ((((((st.set (chipOf (base .a)) a).set (chipOf (base .b)) b).set
      .a s0).set .a s1).set .b s2).set .b s3) = ⟨s1, s3⟩ := fun _ _ _ _ _ _ _ => rfl
  rw [runPhases_mapEnd (by simp only [mapPaged_seq, mapErased_seq, hi])]
  simp [State.mapPaged, State.mapSent, State.mapErased, State.mapErasing, State.waitedAt, State.afterWrites,
    State.mapEnded, mapFailed, mapWaits_eq, hbank, hst, Bool.or_assoc]

/-! ### WRITE_MAP, answered at once -/

section
variable {s : State} {map as rest : List Byte}

theorem mapPageWrites_inFlash (cfg : Config) (map : List Byte) (k : Fin 4) :
    ∀ w ∈ mapPageWrites cfg map k, inFlash w.1.toNat = true :=
  pageEvents_inFlash cfg 0x99#8 _ (by revert k; decide) (by revert k; decide)

/-- The erase of WRITE_MAP, both of whose waits are answered ready at once. -/
theorem exec_writeMap_erased {a b : Byte} (h : s.Released) (hlen : map.length = 512)
    (ha : isReady a = true) (hb : isReady b = true) (henv : s.env.Answers (a :: b :: as) rest) :
    ∃ ea eb, exec (.writeMap map) s = .next ((s.mapErased [a] [b] ea eb).runPhases true (mapPhases map)) ∧
      eb.Answers as rest := by
  have hwrites : ∀ w ∈ hiddenEraseWrites s.cfg, inFlash w.1.toNat = true :=
    List.forall_mem_append.2 ⟨globalUnlock_inFlash _ _, globalUnlock_inFlash _ _⟩
  obtain ⟨hreada, henva⟩ := (henv.after (cfg := s.cfg) hwrites).read (cfg := s.cfg) (addr := base .a) rfl
  obtain ⟨hreadb, henvb⟩ := henva.read (cfg := s.cfg) (addr := base .b) rfl
  have hwaits := runPhases_waitBoth_ready (s := s.mapErasing) (c := true) (rest := mapPhases map)
    ((congrArg (fun bs : List Byte => isReady (bs.headD 0)) hreada).trans ha)
    ((congrArg (fun bs : List Byte => isReady (bs.headD 0)) hreadb).trans hb)
  have hcfg : s.mapErasing.cfg = s.cfg := rfl
  have herasing : s.mapErasing.env = s.env.after s.cfg (hiddenEraseWrites s.cfg) := rfl
  simp only [hcfg, herasing, hreada, hreadb] at hwaits
  exact ⟨_, _, (exec_writeMap_erasing h hlen).trans (congrArg _ hwaits), henvb⟩

/-- A hidden page whose wait is answered ready at once. -/
theorem runPhases_mapPage_ready {b : Byte} (hb : isReady b = true) (henv : s.env.Answers (b :: as) rest)
    (c : Bool) (map : List Byte) (k : Fin 4) (phases : List Phase) :
    ∃ e, s.runPhases c (mapPagePhases map k ++ phases) = (s.mapPaged map k [b] e).runPhases c phases ∧
      (s.mapPaged map k [b] e).env.Answers as rest := by
  have hbank : inFlash (bankBase (hiddenPage k)).toNat = true := by revert k; decide
  obtain ⟨hread, henv'⟩ := (henv.after (mapPageWrites_inFlash s.cfg map k)).read (cfg := s.cfg) hbank
  have hwait := runPhases_waitPhases_ready (s := s.mapSent map k) c
    (.orErr (chipOf (bankBase (hiddenPage k))) :: phases)
    ((congrArg (fun bs : List Byte => isReady (bs.headD 0)) hread).trans hb)
  have hcfg : (s.mapSent map k).cfg = s.cfg := rfl
  have hsent : (s.mapSent map k).env = s.env.after s.cfg (mapPageWrites s.cfg map k) := rfl
  rw [hcfg, hsent, hread, runPhases_orErr_waited] at hwait
  exact ⟨_, (runPhases_mapPage s c map k phases).trans hwait, henv'⟩

end

theorem mapPage_last {map : List Byte} (hlen : map.length = 512) : mapPage map 3 = map.drop 384 :=
  List.take_of_length_le (by simp [hlen, pageSize])

/-- Settles O26: the erase and the four pages, each wait answered at once, and the result from `ERR`. -/
theorem writeMapWhenAlwaysReady : Obligations.WriteMapWhenAlwaysReady := by
  intro s map a b s0 s1 s2 s3 rest hrel hlen hready henv err
  simp only [List.forall_mem_cons] at hready
  obtain ⟨ha, hb, h0, h1, h2, h3, -⟩ := hready
  obtain ⟨ea, eb, hexec, henv⟩ := exec_writeMap_erased hrel hlen ha hb henv
  obtain ⟨e0, hgo0, henv⟩ := runPhases_mapPage_ready (s := s.mapErased [a] [b] ea eb) h0 henv true map 0 _
  obtain ⟨e1, hgo1, henv⟩ := runPhases_mapPage_ready h1 henv true map 1 _
  obtain ⟨e2, hgo2, henv⟩ := runPhases_mapPage_ready h2 henv true map 2 _
  obtain ⟨e3, hgo3, henv⟩ := runPhases_mapPage_ready h3 henv true map 3 _
  rw [mapPhases, hgo0, hgo1, hgo2, hgo3, runPhases_mapPaged_end hrel.1.1.1] at hexec
  refine ⟨rfl, _, hexec.trans (congrArg _ ?_), (henv.after (cfg := s.cfg) (globalUnlock_inFlash s.cfg 0xF0#8)).2⟩
  have hfailed : mapFailed [[a], [b], [s0], [s1], [s2], [s3]] = err := by simp [mapFailed, err, Bool.or_assoc]
  have hevents : polledEvents (mapWaits s.cfg map) [[a], [b], [s0], [s1], [s2], [s3]] ++
      wrote (globalUnlock s.cfg 0xF0#8) = mapEvents s.cfg map [a, b, s0, s1, s2, s3] :=
    congrArg (· ++ _) (polledEvents_singletons _ [a, b, s0, s1, s2, s3])
  rw [State.mapEnded, mapPage_last hlen, hfailed, hevents]
  rfl

/-! ### WRITE_MAP, ended -/

section
variable {s t : State} {map : List Byte} {c : Bool} {n : Nat}

/-- A hidden page, in an operation that has ended without a time-out. -/
theorem ends_mapPage {k : Fin 4} {rest : List Phase} (hi : s.seq = .idle)
    (ht : (s.runPhases c (mapPagePhases map k ++ rest)).drive n = t) (hend : t.seq = .idle)
    (hrc : t.rc ≠ 0x05#8) :
    ∃ bs e m, (s.env.after s.cfg (mapPageWrites s.cfg map k)).polls s.cfg (bankBase (hiddenPage k)) bs.length =
        (bs, e) ∧ EndsReady bs ∧ ((s.mapPaged map k bs e).runPhases c rest).drive m = t := by
  rw [runPhases_mapPage] at ht
  have hidle : (s.mapSent map k).seq = .idle := hi
  obtain ⟨bs, e, m, hp, hr, hgo⟩ := ends_waitPhases hidle ht hend hrc
  rw [runPhases_orErr_waited] at hgo
  exact ⟨bs, e, m, hp, hr, hgo⟩

/-- WRITE_MAP that has ended without a time-out has made its six waits. -/
theorem writeMap_ends (hrel : s.Released) (hlen : map.length = 512) (hends : s.Ends (.writeMap map) n t)
    (hrc : t.rc ≠ 0x05#8) :
    ∃ bsa bsb b0 b1 b2 b3 e, Env.Waited s.cfg s.env (mapWaits s.cfg map) [bsa, bsb, b0, b1, b2, b3] e ∧
      t = s.mapEnded map [bsa, bsb, b0, b1, b2, b3] e := by
  obtain ⟨⟨t0, he, ht⟩, hend⟩ := hends
  cases (exec_writeMap_erasing hrel hlen).symm.trans he
  have hidle : s.seq = .idle := hrel.1.1.1
  obtain ⟨bsa, ea, m, hpa, hra, ht⟩ := ends_waitPhases (s := s.mapErasing) hidle ht hend hrc
  obtain ⟨bsb, eb, m, hpb, hrb, ht⟩ := ends_waitPhases (s := s.mapErasing.waitedAt (base .a) bsa ea) hidle ht hend hrc
  have herased : (s.mapErasing.waitedAt (base .a) bsa ea).waitedAt (base .b) bsb eb = s.mapErased bsa bsb ea eb := rfl
  rw [herased, mapPhases] at ht
  obtain ⟨b0, e0, m, hp0, hr0, ht⟩ := ends_mapPage (s := s.mapErased bsa bsb ea eb) (k := 0) hidle ht hend hrc
  obtain ⟨b1, e1, m, hp1, hr1, ht⟩ := ends_mapPage (by simpa using hidle) ht hend hrc
  obtain ⟨b2, e2, m, hp2, hr2, ht⟩ := ends_mapPage (by simpa using hidle) ht hend hrc
  obtain ⟨b3, e3, m, hp3, hr3, ht⟩ := ends_mapPage (by simpa using hidle) ht hend hrc
  rw [runPhases_mapPaged_end hidle, drive_idle m (by exact hidle)] at ht
  simp only [mapPaged_cfg, mapPaged_env, mapErased_cfg, mapErased_env] at hp0 hp1 hp2 hp3
  refine ⟨bsa, bsb, b0, b1, b2, b3, e3, ?_, ht.symm⟩
  rw [mapWaits_eq]
  exact .cons hpa hra (.cons hpb hrb (.cons hp0 hr0 (.cons hp1 hr1 (.cons hp2 hr2 (.cons hp3 hr3 (.nil e3))))))

end

/-- Settles O27: each wait read one ready byte, and the last four make `ERR`. -/
theorem writeMapAllOrNothing : Obligations.WriteMapAllOrNothing := by
  intro s map n t hrel hlen hends hrc
  obtain ⟨bsa, bsb, b0, b1, b2, b3, e, hwaited, rfl⟩ := writeMap_ends hrel hlen hends hrc
  refine ⟨_, bsa.getLastD 0, bsb.getLastD 0, b0.getLastD 0, b1.getLastD 0, b2.getLastD 0, b3.getLastD 0, rfl, ?_, ?_⟩
  · rw [readyBytes_append, readyBytes_wrote_nil, hwaited.readyBytes]
    rfl
  · have hfailed : mapFailed [bsa, bsb, b0, b1, b2, b3] = (isError (b0.getLastD 0) || isError (b1.getLastD 0) ||
        isError (b2.getLastD 0) || isError (b3.getLastD 0)) := by simp [mapFailed, Bool.or_assoc]
    rw [← hfailed]
    cases h : mapFailed [bsa, bsb, b0, b1, b2, b3] <;> simp [State.mapEnded, h]

end Sys2Proof.Machine


/-! A map written OK is verified OK. -/

namespace Sys2Proof.Machine

open Sys2Proof

/-! ### The hidden sector, page by page -/

/-- Chip `c`'s hidden sector holds `data` and is erased after it, and the chip takes commands. -/
structure Env.HiddenStored (e : Env) (c : Chip) (data : List Byte) : Prop where
  hid : (e.chip.get c).hid = Memory.writeBytes [] 0 data
  fresh : ∀ p ∈ (e.chip.get c).hidProgrammed, p < data.length
  listening : (e.chip.get c).Listening .idle

theorem Memory.writeBytes_append (m : Memory) (a : Nat) (xs ys : List Byte) :
    m.writeBytes a (xs ++ ys) = (m.writeBytes a xs).writeBytes (a + xs.length) ys := by
  induction xs generalizing m a with
  | nil => rfl
  | cons x xs ih =>
    rw [List.cons_append, Memory.writeBytes, ih, List.length_cons, Memory.writeBytes]
    congr 1
    omega

/-- The chip that hidden page `k` is on (R170). -/
def hiddenChip (k : Fin 4) : Chip := if k < 2 then .a else .b

/-- … and where it stands there. -/
theorem hiddenPage_at (k : Fin 4) {page : List Byte} (hlen : page.length = 128) :
    pageIn (hiddenChip k) (hiddenPage k) page = true ∧
      pageTarget (hiddenChip k) cmdHProgram (hiddenPage k) = true ∧
      chipOff (hiddenPage k).toNat - hidOff = k.val % 2 * 128 := by
  simp only [pageIn, pageOperandsOk, hlen]
  revert k
  decide

theorem length_mapPage {map : List Byte} (hlen : map.length = 512) (k : Fin 4) : (mapPage map k).length = 128 := by
  simp only [mapPage, pageOf, List.length_take, List.length_drop, pageSize]
  omega

/-- The four hidden pages are the map. -/
theorem mapPages_append {map : List Byte} (hlen : map.length = 512) :
    mapPage map 0 ++ mapPage map 1 ++ (mapPage map 2 ++ mapPage map 3) = map := by
  have hsplit : ∀ off, (map.drop off).take 128 ++ map.drop (off + 128) = map.drop off := fun off => by
    rw [← List.drop_drop, List.take_append_drop]
  rw [mapPage_last hlen, List.append_assoc]
  exact (congrArg (_ ++ ·) ((congrArg (_ ++ ·) (hsplit 256)).trans (hsplit 128))).trans (hsplit 0)

section
variable {cfg : Config} {e e' : Env} {c : Chip} {data : List Byte}

theorem Env.HiddenStored.congr (h : e.HiddenStored c data) (hchip : e'.chip.get c = e.chip.get c) :
    e'.HiddenStored c data := by
  obtain ⟨hhid, hfresh, hlisten⟩ := h
  exact ⟨hchip ▸ hhid, hchip ▸ hfresh, hchip ▸ hlisten⟩

/-- A hidden erase, started with write-protect released and seen complete without error (R74). -/
theorem Env.Completes.hiddenStored_nil {st : ChipState} (h : e.Completes e' c false)
    (hstart : e.chip.get c = st.hearing .released (.start .hiddenErase)) (hp : e.dev.protect = .released) :
    e'.HiddenStored c [] := by
  have hchip : e'.chip.get c =
      { e.chip.get c with failed := false, op := .none, hid := [], hidProgrammed := [] } := by
    obtain ⟨e1, h1, rfl⟩ := h
    simp only [Env.complete, Env.setChip_get_self, hstart, ChipState.hearing, Env.setChip_dev, h1.dev, hp]
    simp [Env.eraseHidden, Memory.writeBytes]
  rw [hstart] at hchip
  exact ⟨by rw [hchip]; rfl, by rw [hchip]; nofun, by rw [hchip]; exact ⟨nofun, rfl, rfl, .inl rfl⟩⟩

/-- The program of a hidden page, seen complete, leaves of the chip what the page did not touch. -/
theorem Env.Completes.hiddenProgram_chip {err : Bool} {addr : Addr} {page : List Byte}
    (h : e.Completes e' c err) (hop : (e.chip.get c).op = .hiddenProgram addr page) :
    e'.chip.get c = { e.chip.get c with
      failed := err
      op := .none
      hid := (e'.chip.get c).hid
      hidProgrammed := (e.chip.get c).hidProgrammed.insert (chipOff addr.toNat - hidOff) } := by
  obtain ⟨e1, -, rfl⟩ := h
  simp only [Env.complete, Env.setChip_get_self, hop, Env.programHidden]

/-- A page after the bytes stored, its program seen complete without error (R75). -/
theorem Env.HiddenStored.programmed {e0 : Env} {addr : Addr} {page : List Byte} (h : e.HiddenStored c data)
    (hstart : e0.chip.get c = (e.chip.get c).hearing .released (.start (.hiddenProgram addr page)))
    (hp : e0.dev.protect = .released) (hoff : chipOff addr.toNat - hidOff = data.length)
    (hlen : page.length = 128) (hdone : e0.Completes e' c false) : e'.HiddenStored c (data ++ page) := by
  obtain ⟨hstored, hfresh, -⟩ := h
  have herased : (e.chip.get c).hid.erased data.length = true := by
    rw [Memory.erased_iff, hstored]
    exact fun i _ => Memory.read_writeBytes_outside (.inr (by omega))
  have hhid := hdone.hiddenProgrammed (addr := addr) (page := page) (by rw [hstart]; rfl) (by rw [hstart]; rfl)
    (by rw [hstart]; rfl) hp (by rw [hstart, hoff]; exact fun hmem => Nat.lt_irrefl _ (hfresh _ hmem))
    (by rw [hstart, hoff]; exact herased)
  have hchip := hdone.hiddenProgram_chip (addr := addr) (page := page) (by rw [hstart]; rfl)
  rw [hoff, hstart] at hhid hchip
  refine ⟨?_, ?_, ?_⟩
  · rw [hhid, Memory.writeBytes_append, Nat.zero_add, ← hstored]
    rfl
  · rw [hchip]
    intro p hmem
    rw [List.length_append, hlen]
    rcases List.mem_insert_iff.1 hmem with rfl | hmem
    · omega
    · exact (hfresh p hmem).trans_le (Nat.le_add_right ..)
  · rw [hchip]
    exact ⟨nofun, rfl, rfl, .inl rfl⟩

theorem hiddenPage_bank (k : Fin 4) : inFlash (bankBase (hiddenPage k)).toNat = true ∧
    bankBase (bankBase (hiddenPage k)) = bankBase (hiddenPage k) ∧
      chipOf (bankBase (hiddenPage k)) = hiddenChip k := by
  revert k
  decide

/-- A hidden page sent to a chip that takes it, whose wait has ended without error. -/
theorem Env.HiddenStored.page {map bs : List Byte} {k : Fin 4} (h : e.HiddenStored (hiddenChip k) data)
    (hdata : data.length = k.val % 2 * 128) (hlen : map.length = 512) (hm : e.dev.mapped = true)
    (hp : e.dev.protect = .released)
    (hpolls : (e.after cfg (mapPageWrites cfg map k)).polls cfg (bankBase (hiddenPage k)) bs.length = (bs, e'))
    (hr : EndsReady bs) (hgood : isError (bs.getLastD 0) = false) :
    e'.HiddenStored (hiddenChip k) (data ++ mapPage map k) ∧ e'.dev = e.dev ∧
      ∀ d, d ≠ hiddenChip k → e'.chip.get d = e.chip.get d := by
  obtain ⟨hin, htarget, hoff⟩ := hiddenPage_at k (length_mapPage hlen k)
  obtain ⟨hflash, hbb, hof⟩ := hiddenPage_bank k
  have hsent : e.HeardBy (e.after cfg (mapPageWrites cfg map k)) (· = hiddenChip k)
      fun _ => .start (.hiddenProgram (hiddenPage k) (mapPage map k)) :=
    pageEvents_hears hm h.listening hin (.inr rfl) htarget
  have hstart := hsent.self _ rfl
  rw [hp] at hstart
  have hdone := Env.polls_completes (addr := bankBase (hiddenPage k))
    (by simp [Env.statusAt, hsent.mapped hm, hflash, hof, hbb, hstart, ChipState.hearing])
    (by rw [hof, hstart]; nofun) hpolls hr
  rw [hgood, hof] at hdone
  refine ⟨h.programmed hstart (hsent.dev ▸ hp) (hoff.trans hdata.symm) (length_mapPage hlen k) hdone,
    hdone.dev.trans hsent.dev, fun d hd => (hdone.other hd).trans (hsent.other d hd)⟩

/-- The hidden erase of WRITE_MAP, both of whose waits have ended without error. -/
theorem hiddenErase_stored {ea eb : Env} {bsa bsb : List Byte} (hc : e.Contract)
    (hpa : (e.after cfg (hiddenEraseWrites cfg)).polls cfg (base .a) bsa.length = (bsa, ea)) (hra : EndsReady bsa)
    (hpb : ea.polls cfg (base .b) bsb.length = (bsb, eb)) (hrb : EndsReady bsb)
    (hgooda : isError (bsa.getLastD 0) = false) (hgoodb : isError (bsb.getLastD 0) = false) :
    eb.dev = e.dev ∧ ∀ c, eb.HiddenStored c [] := by
  have hsent : e.HeardBy (e.after cfg (hiddenEraseWrites cfg)) (fun _ => True) fun _ => .start .hiddenErase :=
    erase_starts (i := .hiddenErase) (.inr ⟨rfl, rfl⟩) hc
  have hstart := fun c => hsent.self c trivial
  rw [hc.2.1] at hstart
  have hp := (congrArg Device.protect hsent.dev).trans hc.2.1
  obtain ⟨ha, hb⟩ := polls_both_complete (hsent.mapped hc.1) (fun c => by rw [hstart]; rfl)
    (fun c => by rw [hstart]; nofun) hpa hra hpb hrb
  rw [hgooda] at ha
  rw [hgoodb] at hb
  refine ⟨hb.dev.trans (ha.dev.trans hsent.dev), fun c => ?_⟩
  cases c with
  | a => exact (ha.hiddenStored_nil (hstart .a) hp).congr (hb.other (by decide))
  | b => exact hb.hiddenStored_nil ((ha.other (by decide)).trans (hstart .b)) (ha.dev ▸ hp)

/-! ### READ_RESET, and the show sequence -/

/-- What READ_RESET leaves of a chip that takes it. -/
theorem readReset_chip (hm : e.dev.mapped = true) (hl : ∀ c, (e.chip.get c).Listening .idle) (c : Chip) :
    (e.after cfg (globalUnlock cfg 0xF0#8)).chip.get c =
      { e.chip.get c with latch := .idle, disturbed := false, mode := .array } := by
  have hoff : ∀ off : BitVec 16, (off.setWidth 24).toNat < half := setWidth_lt_half (by decide)
  have h1 := Env.after_both_hear (cfg := cfg) hm (hoff cfg.unlockOff1) (fun c _ => hl c)
    (fun c _ => hear_idle_key1 (bankBase_base c)) fun _ => trivial
  have h2 := Env.after_both_hear (cfg := cfg) (h1.mapped hm) (hoff cfg.unlockOff2)
    (h1.listening fun c _ => hl c) (fun _ _ => hear_key2 .fresh) fun _ => trivial
  have hkeys := h1.trans h2 fun _ => trivial
  have hlisten := hkeys.listening fun c _ => hl c
  have hreset : ∀ c shown, hear cfg c shown (.key2 (base c) .fresh) (base c + cfg.unlockOff1.setWidth 24) [0xF0#8] =
      .reset := fun c _ => (hear_command .fresh (by decide)).trans (by cases c <;> rfl)
  rw [globalUnlock_eq, Env.after_append, Env.after_append]
  generalize (e.after cfg _).after cfg _ = e2 at hkeys hlisten ⊢
  have hat := fun c => chipOf_base_add (c := c) (hoff cfg.unlockOff1)
  have ha := Env.write_resets (hkeys.mapped hm) (hat .a) (hlisten .a trivial) (hreset .a)
  have hb := Env.write_resets (e := e2.setChip .a { e2.chip.get .a with latch := .idle, mode := .array })
    (hkeys.mapped hm) (hat .b) (hlisten .b trivial) (hreset .b)
  rw [toBoth, Env.after_cons, Env.after_cons, Env.after_nil, ha, hb]
  have hchip : { e2.chip.get c with latch := .idle, mode := .array } =
      { e.chip.get c with latch := .idle, disturbed := false, mode := .array } := by
    rw [hkeys.self c trivial]
    rfl
  rw [← hchip]
  cases c <;> rfl

theorem Env.HiddenStored.readReset (h : e.HiddenStored c data) (hm : e.dev.mapped = true)
    (hl : ∀ c, (e.chip.get c).Listening .idle) :
    (e.after cfg (globalUnlock cfg 0xF0#8)).HiddenStored c data := by
  have hchip := readReset_chip (cfg := cfg) hm hl c
  exact ⟨by rw [hchip]; exact h.hid, by rw [hchip]; exact h.fresh,
    by rw [hchip]; exact ⟨nofun, (hl c).op, rfl, .inl rfl⟩⟩

end

/-- How much of a show or hide sequence a chip has received. -/
def rawLatch : List Byte → Latch
  | [] => .idle
  | bytes => .raw bytes

section
variable {cfg : Config} {e : Env} {c : Chip}

/-- A byte of such a sequence is no unlock key. -/
theorem hear_rawLatch (h : cfg.hiddenCmdOff.setWidth 16 ≠ cfg.unlockOff1) (shown : Bool) (done : List Byte) (b : Byte) :
    hear cfg c shown (rawLatch done) (base c + cfg.hiddenCmdOff.setWidth 24) [b] =
      hearRaw cfg c shown done (base c + cfg.hiddenCmdOff.setWidth 24) [b] := by
  have hkey : isKey1 cfg (base c + cfg.hiddenCmdOff.setWidth 24) [b] = false := by
    have hne : base c + cfg.hiddenCmdOff.setWidth 24 ≠
        bankBase (base c + cfg.hiddenCmdOff.setWidth 24) + cfg.unlockOff1.setWidth 24 := by
      intro he
      have hlow := congrArg (BitVec.setWidth 16) he
      have hbase : (base c).setWidth 16 = 0#16 := by cases c <;> rfl
      have hbank : ∀ addr, (bankBase addr).setWidth 16 = 0#16 := fun addr => by
        apply BitVec.eq_of_toNat_eq
        rw [BitVec.toNat_setWidth, bankBase_toNat]
        exact Nat.mul_mod_left ..
      simp only [BitVec.setWidth_add _ _ (show 16 ≤ 24 by decide), hbase, hbank, BitVec.zero_add] at hlow
      exact h (by simpa using hlow)
    simp [isKey1, hne]
  cases done <;> simp [rawLatch, hear, hkey]

/-- A byte of the show sequence that is not its last. -/
theorem hearRaw_show_next (hs : showHeard cfg) {done bs : List Byte} {b : Byte} (hseq : cfg.showSeq = done ++ b :: bs)
    (hbs : bs ≠ []) (shown : Bool) :
    hearRaw cfg c shown done (base c + cfg.hiddenCmdOff.setWidth 24) [b] = .wait (.raw (done ++ [b])) := by
  have hseq' : cfg.showSeq = (done ++ [b]) ++ bs := by simp [hseq]
  have hshow : done ++ [b] ≠ cfg.showSeq := fun h => hbs (by simpa [← h] using hseq')
  have hhide : done ++ [b] ≠ cfg.hideSeq := fun h =>
    hshow (h.trans (hs.2.2 (by simp [← h]) (h ▸ hseq' ▸ List.prefix_append ..)))
  have hprefix : (done ++ [b]).isPrefixOf cfg.showSeq = true := by
    rw [hseq']
    exact List.isPrefixOf_iff_prefix.2 (List.prefix_append ..)
  simp [hearRaw, hshow, hhide, hprefix]

/-- Its last byte, at a chip whose hidden sector is not shown (R77, R128). -/
theorem hearRaw_show_last {done : List Byte} {b : Byte} (hseq : cfg.showSeq = done ++ [b]) :
    hearRaw cfg c false done (base c + cfg.hiddenCmdOff.setWidth 24) [b] = .start .showing := by
  simp [hearRaw, hseq]

/-- The write that ends a command, at a chip that takes it: what it starts may depend on whether the chip's hidden
sector is shown. -/
theorem Env.write_starts {addr : Addr} {v : List Byte} {l : Latch} {op : ChipOp} (hm : e.dev.mapped = true)
    (hat : inFlash addr.toNat = true ∧ chipOf addr = c) (hl : (e.chip.get c).Listening l)
    (hh : hear cfg c ((e.chip.get c).mode = .hiddenShown) l addr v = .start op) :
    e.HeardBy (e.write cfg addr v) (· = c) fun _ => .start op := by
  obtain ⟨hin, rfl⟩ := hat
  obtain ⟨hmode, hop, rfl, hdist⟩ := hl
  have hbusy : (decide ((e.chip.get (chipOf addr)).op ≠ .none) || ((e.chip.get (chipOf addr)).disturbed &&
      decide ((e.chip.get (chipOf addr)).latch ≠ .idle))) = false := by
    rcases hdist with hl | hd
    · simp [hop, hl]
    · simp [hop, hd]
  have hwrite : e.write cfg addr v =
      e.setChip (chipOf addr) ((e.chip.get (chipOf addr)).hearing e.dev.protect (.start op)) := by
    rw [Env.write_flash hin, Env.modeWrite_mapped hm, Env.chipWrite]
    simp only [hbusy, hh]
    rw [if_neg (by simp [hm, hmode, hop]), Env.begin, Env.complete_none hop]
    rfl
  rw [hwrite]
  exact ⟨⟨rfl, rfl⟩, fun d hd => by subst hd; simp, fun d hd => Env.setChip_get_of_ne e _ hd⟩

/-- The last byte of the show sequence, to both chips. -/
theorem showLast_starts (hs : showHeard cfg) {done : List Byte} {b : Byte} (hseq : cfg.showSeq = done ++ [b])
    (hm : e.dev.mapped = true) (hl : ∀ c, (e.chip.get c).Listening (rawLatch done))
    (hmode : ∀ c, (e.chip.get c).mode = .array) :
    e.HeardBy (e.after cfg (toBoth (cfg.hiddenCmdOff.setWidth 24) b)) (fun _ => True) fun _ => .start .showing := by
  have hat := fun c => chipOf_base_add (c := c) (setWidth_lt_half (by decide) cfg.hiddenCmdOff)
  have hlast : ∀ c, hear cfg c (Mode.array = .hiddenShown) (rawLatch done)
      (base c + cfg.hiddenCmdOff.setWidth 24) [b] = .start .showing := fun c =>
    (hear_rawLatch hs.2.1 false done b).trans (hearRaw_show_last hseq)
  have ha := Env.write_starts hm (hat .a) (hl .a) ((hmode .a).symm ▸ hlast .a)
  have hother := ha.other .b (by decide)
  have hb := Env.write_starts (cfg := cfg) (ha.mapped hm) (hat .b) (hother ▸ hl .b)
    (by rw [hother, hmode]; exact hlast .b)
  refine ⟨⟨hb.mem.trans ha.mem, hb.dev.trans ha.dev⟩, fun c _ => ?_, fun _ hc => absurd trivial hc⟩
  cases c with
  | a => exact (hb.other .a (by decide)).trans (ha.self .a rfl)
  | b => rw [← ha.dev, ← hother]; exact hb.self .b rfl

/-- The rest `bs` of the show sequence, at chips in array mode that have received `done`. -/
theorem showEvents_hear (hs : showHeard cfg) {done bs : List Byte} (hseq : cfg.showSeq = done ++ bs) (hbs : bs ≠ [])
    (hm : e.dev.mapped = true) (hl : ∀ c, (e.chip.get c).Listening (rawLatch done))
    (hmode : ∀ c, (e.chip.get c).mode = .array) :
    e.HeardBy (e.after cfg (rawEvents cfg bs)) (fun _ => True) fun _ => .start .showing := by
  induction bs generalizing e done with
  | nil => exact absurd rfl hbs
  | cons b bs ih =>
    rw [rawEvents_eq, List.flatMap_cons, Env.after_append, ← rawEvents_eq]
    rcases eq_or_ne bs [] with rfl | hne
    · exact showLast_starts hs hseq hm hl hmode
    · have hnext := Env.after_both_hear (cfg := cfg) (b := b) hm (setWidth_lt_half (by decide) cfg.hiddenCmdOff)
        (fun c _ => hl c) (fun c shown => (hear_rawLatch hs.2.1 shown done b).trans
          (hearRaw_show_next hs hseq hne shown)) fun _ => trivial
      have hraw : rawLatch (done ++ [b]) = .raw (done ++ [b]) := by cases done <;> rfl
      refine hnext.trans (ih (done := done ++ [b]) (by simp [hseq]) hne (hnext.mapped hm) (fun c => ?_) fun c => ?_)
        fun _ => trivial
      · rw [hraw]
        exact hnext.listening (fun c _ => hl c) c trivial
      · rw [hnext.self c trivial]
        exact hmode c

end

/-! ### VERIFY_MAP -/

/-- VERIFY_MAP that has ended without a time-out has made its two waits and its two reads. -/
theorem verifyMap_ends {t u : State} {map : List Byte} {m : Nat} (h : t.Ready) (hlen : map.length = 512)
    (hends : t.Ends (.verifyMap map) m u) (hrc : u.rc ≠ 0x05#8) :
    ∃ bsa bsb e, Env.Waited t.cfg t.env [(rawEvents t.cfg t.cfg.showSeq, base .a), ([], base .b)] [bsa, bsb] e ∧
      let da := e.read t.cfg 0xC0FF00#24 256
      let db := da.2.read t.cfg 0xE0FF00#24 256
      u.rc = (if da.1 ++ db.1 = map then 0x00#8 else 0x03#8) ∧ u.res = (if da.1 ++ db.1 = map then 1 else 0) := by
  obtain ⟨⟨t0, he, ht⟩, hend⟩ := hends
  cases (exec_waitsFirst (i := .verifyMap map) rfl h (by simp [needsRelease]) (beq_iff_eq.2 hlen)).symm.trans he
  have hidle : t.seq = .idle := h.1.1
  obtain ⟨bsa, ea, k, hpa, hra, ht⟩ := ends_waitPhases (s := t.afterWrites (globalWrites t.cfg (.verifyMap map)))
    (rest := waitPhases (base .b) ++ [.mapReadBack map]) hidle ht hend hrc
  obtain ⟨bsb, eb, k, hpb, hrb, ht⟩ := ends_waitPhases (s := (t.afterWrites _).waitedAt (base .a) bsa ea)
    hidle ht hend hrc
  rw [runPhases_mapReadBack, drive_idle k (by rw [State.mapReadBack_eq]; rfl)] at ht
  obtain ⟨hurc, hures, -⟩ := mapReadBack_result
    (((t.afterWrites (globalWrites t.cfg (.verifyMap map))).waitedAt (base .a) bsa ea).waitedAt (base .b) bsb eb) map
  rw [ht] at hurc hures
  exact ⟨bsa, bsb, eb, .cons hpa hra (.cons hpb hrb (.nil eb)), hurc, hures⟩

section
variable {cfg : Config} {e e' : Env} {c : Chip}

/-- A show sequence seen complete (R77). -/
theorem Env.Completes.shown {st : ChipState} {protect : Protect} {err : Bool} (h : e.Completes e' c err)
    (hstart : e.chip.get c = st.hearing protect (.start .showing)) :
    (e'.chip.get c).mode = .hiddenShown ∧ (e'.chip.get c).hid = st.hid := by
  obtain ⟨e1, -, rfl⟩ := h
  simp [Env.complete, hstart, ChipState.hearing]

/-- After the waits of VERIFY_MAP each chip answers its hidden sector. -/
theorem shown_reads {bsa bsb : List Byte} (hs : showHeard cfg) (hm : e.dev.mapped = true)
    (hl : ∀ c, (e.chip.get c).Listening .idle) (hmode : ∀ c, (e.chip.get c).mode = .array)
    (hwaited : Env.Waited cfg e [(rawEvents cfg cfg.showSeq, base .a), ([], base .b)] [bsa, bsb] e') (c : Chip) :
    e'.read cfg (base c + 0xFF00#24) 256 = ((e.chip.get c).hid.readBytes 0 256, e') := by
  obtain _ | ⟨hpa, hra, _ | ⟨hpb, hrb, _ | _⟩⟩ := hwaited
  have hsent := showEvents_hear (done := []) hs rfl hs.1 hm hl hmode
  have hstart := fun c => hsent.self c trivial
  obtain ⟨ha, hb⟩ := polls_both_complete (hsent.mapped hm) (fun c => by rw [hstart]; rfl)
    (fun c => by rw [hstart]; nofun) hpa hra hpb hrb
  have hshown : (e'.chip.get c).mode = .hiddenShown ∧ (e'.chip.get c).hid = (e.chip.get c).hid := by
    cases c with
    | a => rw [hb.other (by decide)]; exact ha.shown (hstart .a)
    | b => exact hb.shown ((ha.other (by decide)).trans (hstart .b))
  rw [← hshown.2]
  exact read_shown (by rw [hb.dev, ha.dev]; exact hsent.mapped hm) hshown.1

end

/-! ### The round trip -/

/-- What WRITE_MAP stores when none of its waits ended with the error flag (R171). -/
theorem writeMap_stored {cfg : Config} {e e' : Env} {map bsa bsb b0 b1 b2 b3 : List Byte} (hc : e.Contract)
    (hlen : map.length = 512)
    (hwaited : Env.Waited cfg e (mapWaits cfg map) [bsa, bsb, b0, b1, b2, b3] e')
    (hgood : ∀ bs ∈ [bsa, bsb, b0, b1, b2, b3], isError (bs.getLastD 0) = false) :
    e'.dev = e.dev ∧ e'.HiddenStored .a (mapPage map 0 ++ mapPage map 1) ∧
      e'.HiddenStored .b (mapPage map 2 ++ mapPage map 3) := by
  rw [mapWaits_eq] at hwaited
  obtain _ | ⟨hpa, hra, _ | ⟨hpb, hrb, _ | ⟨hp0, hr0, _ | ⟨hp1, hr1, _ | ⟨hp2, hr2, _ | ⟨hp3, hr3, _ | _⟩⟩⟩⟩⟩⟩ :=
    hwaited
  simp only [List.forall_mem_cons] at hgood
  obtain ⟨hga, hgb, hg0, hg1, hg2, hg3, -⟩ := hgood
  have hpage := fun k => length_mapPage hlen k
  obtain ⟨hdev, hstored⟩ := hiddenErase_stored hc hpa hra hpb hrb hga hgb
  obtain ⟨h0, hdev0, hother0⟩ := (hstored .a).page (k := 0) rfl hlen (hdev ▸ hc.1) (hdev ▸ hc.2.1) hp0 hr0 hg0
  rw [hdev] at hdev0
  obtain ⟨h1, hdev1, hother1⟩ := h0.page (k := 1) (hpage 0) hlen (hdev0 ▸ hc.1) (hdev0 ▸ hc.2.1) hp1 hr1 hg1
  rw [hdev0] at hdev1
  have hb := ((hstored .b).congr (hother0 .b (by decide))).congr (hother1 .b (by decide))
  obtain ⟨h2, hdev2, hother2⟩ := hb.page (k := 2) rfl hlen (hdev1 ▸ hc.1) (hdev1 ▸ hc.2.1) hp2 hr2 hg2
  rw [hdev1] at hdev2
  obtain ⟨h3, hdev3, hother3⟩ := h2.page (k := 3) (hpage 2) hlen (hdev2 ▸ hc.1) (hdev2 ▸ hc.2.1) hp3 hr3 hg3
  exact ⟨hdev3.trans hdev2, (h1.congr (hother2 .a (by decide))).congr (hother3 .a (by decide)), h3⟩

theorem Env.Waited.endsReady {cfg : Config} {e e' : Env} {waits : List (List BusWrite × Addr)}
    {bss : List (List Byte)} (h : Env.Waited cfg e waits bss e') : ∀ bs ∈ bss, EndsReady bs := by
  induction h with
  | nil => exact nofun
  | cons _ hr _ ih => exact List.forall_mem_cons.2 ⟨hr, ih⟩

/-- If the first ready byte of each chip is good, so are those that ended the waits of the erase. -/
theorem mapErase_good {cfg : Config} {e e' : Env} {map bsa bsb b0 b1 b2 b3 : List Byte} {vs : List Event}
    (hwaited : Env.Waited cfg e (mapWaits cfg map) [bsa, bsb, b0, b1, b2, b3] e')
    (hgood : ∀ c, FirstReadyIsGood c (polledEvents (mapWaits cfg map) [bsa, bsb, b0, b1, b2, b3] ++ vs)) :
    isError (bsa.getLastD 0) = false ∧ isError (bsb.getLastD 0) = false := by
  have hready := hwaited.endsReady
  have hgood' := good_of_firstReady (ws := hiddenEraseWrites cfg) (bs := fun | .a => bsa | .b => bsb)
    (ev := polledEvents (mapWaits cfg map |>.drop 2) [b0, b1, b2, b3] ++ vs)
    (fun | .a => hready bsa (by simp) | .b => hready bsb (by simp)) (fun c => by
      simpa [mapWaits_eq] using hgood c)
  exact ⟨hgood' .a, hgood' .b⟩

/-- The state that WRITE_MAP leaves answers the map to the reads of VERIFY_MAP. -/
theorem holdsMap_reads {cfg : Config} {e e' : Env} {map bsa bsb : List Byte} (hlen : map.length = 512)
    (hs : showHeard cfg) (hm : e.dev.mapped = true) (ha : e.HiddenStored .a (mapPage map 0 ++ mapPage map 1))
    (hb : e.HiddenStored .b (mapPage map 2 ++ mapPage map 3))
    (hwaited : Env.Waited cfg (e.after cfg (globalUnlock cfg 0xF0#8))
      [(rawEvents cfg cfg.showSeq, base .a), ([], base .b)] [bsa, bsb] e') :
    let da := e'.read cfg 0xC0FF00#24 256
    da.1 ++ (da.2.read cfg 0xE0FF00#24 256).1 = map := by
  have hl : ∀ c, (e.chip.get c).Listening .idle := fun | .a => ha.listening | .b => hb.listening
  have ha' := ha.readReset (cfg := cfg) hm hl
  have hb' := hb.readReset (cfg := cfg) hm hl
  have hreads := shown_reads hs ((readReset_array hm hl).2.1 ▸ hm) (fun | .a => ha'.listening | .b => hb'.listening)
    (fun c => by rw [readReset_chip hm hl]) hwaited
  have hpart : ∀ {c data}, (e.after cfg (globalUnlock cfg 0xF0#8)).HiddenStored c data → data.length = 256 →
      e'.read cfg (base c + 0xFF00#24) 256 = (data, e') := fun {c data} h hd => by
    rw [hreads c, h.hid, ← hd, Memory.readBytes_writeBytes 0 data Memory.wf_nil]
  have hpages : ∀ k j, (mapPage map k ++ mapPage map j).length = 256 := fun k j => by
    rw [List.length_append, length_mapPage hlen, length_mapPage hlen]
  show (e'.read cfg (base .a + 0xFF00#24) 256).1 ++
    ((e'.read cfg (base .a + 0xFF00#24) 256).2.read cfg (base .b + 0xFF00#24) 256).1 = map
  rw [hpart ha' (hpages 0 1), hpart hb' (hpages 2 3)]
  exact mapPages_append hlen

/-- Settles O59: the erase and the four programs end without error, so each hidden sector holds its half of the map,
the reset leaves it there, and the show sequence makes the chips answer it. -/
theorem mapRoundTrip : Obligations.MapRoundTrip := by
  intro s map n m t u ev hrel hc _ hs hends hrc htrace hgood hverify hurc
  have hready := ready_of_ends (i := .writeMap map) rfl hrel.1 hends
  by_cases hlen : map.length = 512
  · obtain ⟨bsa, bsb, b0, b1, b2, b3, e, hwaited, rfl⟩ := writeMap_ends hrel hlen hends (by rw [hrc]; decide)
    have hpages : mapFailed [bsa, bsb, b0, b1, b2, b3] = false := by
      cases h : mapFailed [bsa, bsb, b0, b1, b2, b3] with
      | false => rfl
      | true => simp [State.mapEnded, h] at hrc
    obtain rfl := List.append_cancel_left htrace
    obtain ⟨hga, hgb⟩ := mapErase_good hwaited hgood
    have hgoods : ∀ bs ∈ [bsa, bsb, b0, b1, b2, b3], isError (bs.getLastD 0) = false :=
      List.forall_mem_cons.2 ⟨hga, List.forall_mem_cons.2 ⟨hgb, by simpa [mapFailed] using hpages⟩⟩
    obtain ⟨hdev, ha, hb⟩ := writeMap_stored hc hlen hwaited hgoods
    obtain ⟨bsa', bsb', e', hwaited', hurc', hures⟩ := verifyMap_ends hready hlen hverify hurc
    have hread := holdsMap_reads hlen hs (hdev ▸ hc.1) ha hb hwaited'
    exact ⟨hurc'.trans (if_pos hread), hures.trans (if_pos hread)⟩
  · obtain ⟨⟨t0, he, rfl⟩, -⟩ := hends
    cases (exec_illFormed (i := .writeMap map) rfl hrel.1 (fun _ => hrel.2) (beq_false_of_ne hlen)).symm.trans he
    rw [drive_idle n (by exact hrel.1.1.1)] at hrc
    exact absurd (show (0x04#8) = 0x00#8 from hrc) (by decide)

end Sys2Proof.Machine


/-! The directory: the fields of an entry, the three operations, and a whole enumeration. -/

namespace Sys2Proof.Machine

open Sys2Proof

/-! ### The fields of an entry -/

/-- A little-endian pair shifted right by `k`, as a field of the pair or byte by byte (R187). -/
theorem pair_toNat_shiftRight (lo hi : Byte) {k n : Nat} (hk : k ≤ 8) (hn : k + n = 16) :
    ((hi ++ lo).extractLsb' k n).toNat = (hi.toNat <<< 8 ||| lo.toNat) >>> k ∧
      (hi.toNat <<< 8 ||| lo.toNat) >>> k = hi.toNat <<< (8 - k) ||| lo.toNat >>> k := by
  constructor
  · have hlt : (hi ++ lo).toNat >>> k < 2 ^ n := by
      rw [Nat.shiftRight_eq_div_pow]
      exact Nat.div_lt_of_lt_mul (by rw [← Nat.pow_add, hn]; exact (hi ++ lo).isLt)
    rw [BitVec.extractLsb'_toNat, Nat.mod_eq_of_lt hlt, BitVec.toNat_append]
  · have hhi : hi.toNat <<< 8 = hi.toNat <<< (8 - k) <<< k := by rw [← Nat.shiftLeft_add, Nat.sub_add_cancel hk]
    rw [Nat.shiftRight_or_distrib, hhi, Nat.shiftLeft_shiftRight]

/-- Settles O32: a block count is a field of its pair of bytes, and an entry is its fields. -/
theorem entryFields : Obligations.EntryFields := by
  refine ⟨fun lo hi => ?_, fun lo hi => ?_, fun _ _ => rfl⟩
  · obtain ⟨hpair, hbytes⟩ := pair_toNat_shiftRight lo hi (k := 2) (n := 14) (by decide) rfl
    exact ⟨hpair.trans hbytes, hpair⟩
  · obtain ⟨hpair, hbytes⟩ := pair_toNat_shiftRight lo hi (k := 4) (n := 12) (by decide) rfl
    exact ⟨hpair.trans hbytes, hpair⟩

/-- What `stripNul` keeps: all up to the least position from which every byte is NUL (R188). -/
theorem stripNul_least (bs : List Byte) :
    ∃ k, k ≤ bs.length ∧ stripNul bs = bs.take k ∧ (∀ b ∈ bs.drop k, b = 0) ∧
      ∀ j < k, ∃ b ∈ bs.drop j, b ≠ 0 := by
  induction bs with
  | nil => exact ⟨0, Nat.le_refl 0, rfl, by simp, by simp⟩
  | cons b bs ih =>
    obtain ⟨k, hk, htake, hzero, hleast⟩ := ih
    by_cases hnil : b = 0 ∧ stripNul bs = []
    · obtain ⟨hb, hbs⟩ := hnil
      have hk0 : k = 0 := by simpa [hbs, Nat.min_eq_left hk] using (congrArg List.length htake).symm
      exact ⟨0, Nat.zero_le _, by simp [stripNul, hb, hbs], by simpa [hb, hk0] using hzero, by simp⟩
    · refine ⟨k + 1, Nat.succ_le_succ hk, by rw [stripNul, if_neg hnil, htake]; rfl, hzero, fun j hj => ?_⟩
      cases j with
      | succ j => exact hleast j (Nat.lt_of_succ_lt_succ hj)
      | zero =>
        by_cases hb : b = 0
        · have hpos : 0 < k := Nat.pos_of_ne_zero fun hk0 => hnil ⟨hb, by simp [htake, hk0]⟩
          obtain ⟨x, hx, hne⟩ := hleast 0 hpos
          exact ⟨x, List.mem_cons_of_mem _ hx, hne⟩
        · exact ⟨b, List.mem_cons_self .., hb⟩

/-- Settles O33: a text field is its slice, stripped. -/
theorem textFieldStripped : Obligations.TextFieldStripped := fun _ _ => stripNul_least _

/-! ### The three operations -/

theorem State.memRead_eq {s : State} {addr : Addr} {n : Nat} {d : List Byte} {e : Env}
    (h : s.env.read s.cfg addr n = (d, e)) :
    s.memRead addr n = (d, { s with env := e, trace := s.trace ++ [.read addr d] }) := by
  rw [State.memRead, h]

/-- Settles O29: one read, whose bytes are compared with the signature; and no read. -/
theorem directoryPresenceAndOpen : Obligations.DirectoryPresenceAndOpen := by
  refine fun s => ⟨fun h => ?_, fun h => ?_, exec_closed rfl, exec_closed rfl⟩
  · generalize hread : s.env.read s.cfg s.cfg.sigAddr 16 = r
    obtain ⟨d, e⟩ := r
    rw [exec_dirPresent h, State.memRead_eq hread,
      succeed_idle (s := { s with env := e, trace := s.trace ++ [.read s.cfg.sigAddr d] }) h.1.1]
    simp only [flagRes, beq_iff_eq, sig]
  · rw [exec_dirOpen h, succeed_idle (s := { s with slot := 0, dend := false }) h.1.1]

/-- The state once `DIR_NEXT` has read the next slot, answered `d`, whatever the slot holds. -/
def State.slotRead (s : State) (d : List Byte) (e : Env) : State :=
  { s with env := e, trace := s.trace ++ [.read (slotAddr s.cfg s.slot.toNat) d], rbuf := d, rc := 0x00#8 }

section
variable {s : State} {d : List Byte} {e : Env}

theorem dirNext_ended (h : s.Ready) (hd : s.dend = true) :
    exec .dirNext s = .next { s with rc := 0x00#8, res := 0 } := by
  rw [exec_dirNext_end h hd, succeed_idle h.1.1]

theorem dirNext_sentinel (hr : s.env.read s.cfg (slotAddr s.cfg s.slot.toNat) dirRecLen = (d, e))
    (h : s.Ready) (hd : s.dend = false) (hend : recByte d 0 = dirSentinel) :
    exec .dirNext s = .next { s.slotRead d e with dend := true, res := 0 } := by
  rw [exec_dirNext_read h hd (State.memRead_eq hr), if_pos hend]
  exact congrArg _ (succeed_idle (s := { s.slotRead d e with rc := s.rc, dend := true }) h.1.1 0)

theorem dirNext_entry (hr : s.env.read s.cfg (slotAddr s.cfg s.slot.toNat) dirRecLen = (d, e))
    (h : s.Ready) (hd : s.dend = false) (hent : recByte d 0 ≠ dirSentinel) :
    exec .dirNext s = .next { s.slotRead d e with
      ent := decodeEntry s.cfg d, slot := s.slot + 1, dend := s.slot + 1 == 8#4, res := 1 } := by
  have hdend : (s.dend || s.slot + 1 == 8#4) = (s.slot + 1 == 8#4) := by rw [hd, Bool.false_or]
  rw [exec_dirNext_read h hd (State.memRead_eq hr), if_neg hent, ← hdend]
  exact congrArg _ (succeed_idle (s := { s.slotRead d e with
    rc := s.rc, ent := decodeEntry s.cfg d, slot := s.slot + 1, dend := s.dend || s.slot + 1 == 8#4 }) h.1.1 1)

end

/-- Settles O30: one equation of `DIR_NEXT` per case. -/
theorem dirNextResult : Obligations.DirNextResult := fun _ =>
  ⟨dirNext_ended, dirNext_sentinel Prod.mk.eta.symm, dirNext_entry Prod.mk.eta.symm, exec_closed rfl⟩

/-! ### An enumeration -/

/-- Unconstrained, the bytes of a longer read are the next answers. -/
theorem Env.Answers.bytesFrom {cfg : Config} {e : Env} {bs as rest : List Byte} (h : e.Answers (bs ++ as) rest)
    (a : Nat) : ∃ e', Env.bytesFrom cfg a e bs.length = (bs, e') ∧ e'.Answers as rest := by
  induction bs generalizing a e with
  | nil => exact ⟨e, rfl, h⟩
  | cons b bs ih =>
    have hbyte : e.byteAt cfg a = (b, { e with draws := (bs ++ as) ++ rest }) := by
      simp only [Env.byteAt, h.unmapped, Env.draw_cons h.2]
      rfl
    obtain ⟨e', hbs, has⟩ := ih (e := { e with draws := (bs ++ as) ++ rest }) ⟨h.1, rfl⟩ (a + 1)
    exact ⟨e', by simp only [List.length_cons, Env.bytesFrom, hbyte, hbs], has⟩

theorem State.run_next {s t : State} {i : Instr} (h : exec i s = .next t) : s.run i = t := by
  rw [State.run, h]

/-- The reads of the first `n` slots, as the records answer them. -/
def slotReads (cfg : Config) (records : List (List Byte)) (n : Nat) : List Event :=
  (List.range n).map fun i => .read (slotAddr cfg i) (records.getD i [])

theorem slotReads_succ (cfg : Config) (records : List (List Byte)) (n : Nat) :
    slotReads cfg records (n + 1) =
      slotReads cfg records n ++ [.read (slotAddr cfg n) (records.getD n [])] := by
  simp [slotReads, List.range_succ]

/-- `u` is an enumeration begun in `s` that has yielded the first `n` records. -/
structure State.Enumerates (s u : State) (records : List (List Byte)) (rest : List Byte) (n : Nat) : Prop where
  cfg : u.cfg = s.cfg
  ready : u.Ready
  slot : u.slot = BitVec.ofNat 4 n
  dend : u.dend = decide (n = 8)
  trace : u.trace = s.trace ++ slotReads s.cfg records n
  env : u.env.Answers (records.drop n).flatten rest

/-- An enumeration in `u` has ended, and its last `DIR_NEXT` said so. -/
structure State.TableEnded (u : State) : Prop where
  ready : u.Ready
  dend : u.dend = true
  rc : u.rc = 0x00#8
  res : u.res = 0

/-- Every further `DIR_NEXT` leaves the state as it is. -/
theorem State.TableEnded.dirNexts {u : State} (h : u.TableEnded) (k : Nat) : u.dirNexts k = u := by
  induction k with
  | zero => rfl
  | succ k ih =>
    have hnext := dirNext_ended h.ready h.dend
    rw [← h.rc, ← h.res] at hnext
    rw [State.dirNexts, ih]
    exact State.run_next hnext

theorem State.dirNexts_add (s : State) (n k : Nat) : s.dirNexts (n + k) = (s.dirNexts n).dirNexts k := by
  induction k with
  | zero => rfl
  | succ k ih => exact congrArg (State.run · .dirNext) ih

section
variable {s u : State} {records : List (List Byte)} {rest : List Byte} {n : Nat}

/-- `DIR_OPEN` begins an enumeration. -/
theorem enumerates_dirOpen (hr : s.Ready) (ha : s.env.Answers records.flatten rest) :
    s.Enumerates (s.run .dirOpen) records rest 0 := by
  rw [State.run_next (exec_dirOpen hr)]
  exact ⟨rfl, ⟨⟨rfl, hr.1.2⟩, hr.2⟩, rfl, rfl, (List.append_nil _).symm, ha⟩

/-- The read of the next slot finds the next record. -/
theorem State.Enumerates.slotRead (h : s.Enumerates u records rest n) (hlen : ∀ r ∈ records, r.length = 0x1D9)
    (hn : n < records.length) (hn8 : n < 8) :
    ∃ e, u.env.read u.cfg (slotAddr u.cfg u.slot.toNat) dirRecLen = (records.getD n [], e) ∧
      e.Answers (records.drop (n + 1)).flatten rest ∧
      (u.slotRead (records.getD n []) e).trace = s.trace ++ slotReads s.cfg records (n + 1) := by
  have hrec : (records.getD n []).length = dirRecLen := by
    rw [List.getD_eq_getElem _ _ hn]
    exact hlen _ (List.getElem_mem hn)
  have hans : u.env.Answers (records.getD n [] ++ (records.drop (n + 1)).flatten) rest := by
    have henv := h.env
    rwa [List.drop_eq_getElem_cons hn, List.flatten_cons, ← List.getD_eq_getElem _ [] hn] at henv
  obtain ⟨e, hread, henv⟩ := hans.bytesFrom (cfg := u.cfg) (slotAddr u.cfg u.slot.toNat).toNat
  refine ⟨e, by rw [Env.read, if_neg (by decide), ← hrec, hread], henv, ?_⟩
  have hslot : u.slot.toNat = n := by
    rw [h.slot, BitVec.toNat_ofNat]
    omega
  show u.trace ++ [Event.read (slotAddr u.cfg u.slot.toNat) _] = _
  rw [hslot, h.cfg, h.trace, slotReads_succ, List.append_assoc]

/-- A record that is no sentinel is yielded, and the enumeration goes on. -/
theorem State.Enumerates.next (h : s.Enumerates u records rest n) (hlen : ∀ r ∈ records, r.length = 0x1D9)
    (hn : n < records.length) (hn8 : n < 8) (hent : (records.getD n []).getD 0 0 ≠ 0xFF#8) :
    s.Enumerates (u.run .dirNext) records rest (n + 1) ∧ (u.run .dirNext).rc = 0x00#8 ∧
      (u.run .dirNext).res = 1 ∧ (u.run .dirNext).ent = decodeEntry s.cfg (records.getD n []) := by
  obtain ⟨e, hread, henv, htrace⟩ := h.slotRead hlen hn hn8
  have hslot : u.slot + 1 = BitVec.ofNat 4 (n + 1) := by rw [h.slot, BitVec.ofNat_add]; rfl
  have hdend : (u.slot + 1 == 8#4) = decide (n + 1 = 8) := by
    rw [hslot, beq_eq_decide, decide_eq_decide, ← BitVec.toNat_inj, BitVec.toNat_ofNat, BitVec.toNat_ofNat]
    omega
  have hgoing : u.dend = false := h.dend.trans (decide_eq_false (by omega))
  rw [State.run_next (dirNext_entry hread h.ready hgoing hent)]
  exact ⟨⟨h.cfg, h.ready, hslot, hdend, htrace, henv⟩, rfl, rfl, congrArg (decodeEntry · _) h.cfg⟩

/-- After the last entry, at the sentinel or after slot 7, the table ends. -/
theorem State.Enumerates.ended (h : s.Enumerates u records rest n) (hlen : ∀ r ∈ records, r.length = 0x1D9)
    (hn : records.length = min (n + 1) 8) (hn8 : n ≤ 8)
    (hend : n < 8 → (records.getD n []).getD 0 0 = 0xFF#8) :
    (u.run .dirNext).TableEnded ∧ (u.run .dirNext).ent = u.ent ∧
      (u.run .dirNext).trace = s.trace ++ slotReads s.cfg records records.length := by
  rcases Nat.lt_or_eq_of_le hn8 with hlt | rfl
  · have hcount : records.length = n + 1 := by omega
    obtain ⟨e, hread, -, htrace⟩ := h.slotRead hlen (by omega) hlt
    have hgoing : u.dend = false := h.dend.trans (decide_eq_false (by omega))
    rw [State.run_next (dirNext_sentinel hread h.ready hgoing (hend hlt)), hcount]
    exact ⟨⟨h.ready, rfl, rfl, rfl⟩, rfl, htrace⟩
  · rw [State.run_next (dirNext_ended h.ready h.dend), hn]
    exact ⟨⟨h.ready, h.dend, rfl, rfl⟩, rfl, h.trace⟩

/-- As long as the records are no sentinel, each is yielded in turn. -/
theorem State.Enumerates.dirNexts (h : s.Enumerates u records rest 0) (hlen : ∀ r ∈ records, r.length = 0x1D9)
    (hn : n ≤ records.length) (hn8 : n ≤ 8) (hent : ∀ i < n, (records.getD i []).getD 0 0 ≠ 0xFF#8) :
    s.Enumerates (u.dirNexts n) records rest n := by
  induction n with
  | zero => exact h
  | succ n ih =>
    have hprev := ih (by omega) (by omega) fun i hi => hent i (by omega)
    exact (hprev.next hlen (by omega) (by omega) (hent n (by omega))).1

end

/-- Settles O31, by the invariant that `n` of the records have been yielded; where the table has ended, `DIR_NEXT`
changes nothing. -/
theorem directoryEnumeration : Obligations.DirectoryEnumeration := by
  intro s records m rest hr hlen hm hcount hent hend ha
  have hopen := enumerates_dirOpen hr ha
  have hyields : ∀ n ≤ m, s.Enumerates ((s.run .dirOpen).dirNexts n) records rest n := fun n hn =>
    hopen.dirNexts hlen (by omega) (by omega) fun i hi => hent i (by omega)
  refine ⟨fun k hk => ?_, fun k => ?_⟩
  · obtain ⟨hnext, hrc, hres, hentry⟩ :=
      (hyields k (by omega)).next hlen (by omega) (by omega) (hent k hk)
    exact ⟨hrc, hres, hentry, hnext.trace⟩
  · obtain ⟨hended, hkept, htrace⟩ := (hyields m (Nat.le_refl m)).ended hlen hcount hm hend
    have hstay : (s.run .dirOpen).dirNexts (m + 1 + k) = ((s.run .dirOpen).dirNexts m).run .dirNext :=
      (State.dirNexts_add ..).trans (hended.dirNexts k)
    simp only [hstay]
    exact ⟨hended.rc, hended.res, hended.dend, hkept, htrace⟩

end Sys2Proof.Machine


/-! The session and the SRAM: the results of their operations, with the bus events spelled out. -/

namespace Sys2Proof.Machine

open Sys2Proof

/-! ### The session -/

theorem State.memWrite_eq (s : State) (addr : Addr) (v : List Byte) :
    s.memWrite addr v = s.afterWrites [(addr, v)] := rfl

/-- Waking the device accesses the bus once per step, in order (R202). -/
theorem State.wake_eq (s : State) (xs : List WakeStep) : s.wake xs = xs.foldl State.access s := by
  induction xs generalizing s with
  | nil => rfl
  | cons x xs ih =>
    have hstep : s.wakeStep x = s.access x := by cases x <;> rfl
    rw [State.wake, ih, hstep, List.foldl_cons]

theorem wake_seq (s : State) (xs : List WakeStep) : (s.wake xs).seq = s.seq := by
  induction xs generalizing s with
  | nil => rfl
  | cons x xs ih => exact (ih (s.wakeStep x)).trans (by cases x <;> rfl)

/-- An awake device is set to its addressing mode, and both chips to read mode (R203). -/
theorem State.establish_eq {s : State} (h : s.seq = .idle) :
    s.establish =
      { s.afterWrites ((s.cfg.modeAddr, [s.cfg.modeValue]) :: globalUnlock s.cfg 0xF0#8) with
        sess := .awake, rc := 0x00#8, res := 0 } := by
  rw [State.establish, State.memWrite_eq, State.readReset_eq, State.afterWrites_append]
  exact afterWrites_succeed (s := { s with sess := .awake }) h _ 0

/-- The state once `SESSION_OPEN` has read the device status, answered `b`. -/
def State.statusRead (s : State) (b : Byte) (e : Env) : State :=
  { s with sess := .closed, wpr := false, env := e, trace := s.trace ++ [.read devReg0 [b]] }

section
variable {s : State} {b : Byte} {e : Env} (hread : s.env.read s.cfg devReg0 1 = ([b], e)) (h : s.Idle)
include hread h

theorem exec_sessionOpen_read :
    exec .sessionOpen s = .next (if b = devAwake then (s.statusRead b e).establish
      else if b = devAsleep then ((s.statusRead b e).wake s.cfg.wakeSeq).establish
      else (s.statusRead b e).raise .deviceNotDetected (b.setWidth 24)) := by
  rw [exec_sessionOpen h, State.readByte, State.memRead_eq (s := { s with sess := .closed, wpr := false }) hread]
  rfl

theorem sessionOpen_awake (hb : b = devAwake) :
    exec .sessionOpen s = .next { (s.statusRead b e).afterWrites
      ((s.cfg.modeAddr, [s.cfg.modeValue]) :: globalUnlock s.cfg 0xF0#8) with
        sess := .awake, rc := 0x00#8, res := 0 } := by
  rw [exec_sessionOpen_read hread h, if_pos hb, State.establish_eq (s := s.statusRead b e) h.1]
  rfl

theorem sessionOpen_asleep (hb : b = devAsleep) :
    exec .sessionOpen s = .next { (s.cfg.wakeSeq.foldl State.access (s.statusRead b e)).afterWrites
      ((s.cfg.modeAddr, [s.cfg.modeValue]) :: globalUnlock s.cfg 0xF0#8) with
        sess := .awake, rc := 0x00#8, res := 0 } := by
  have hawake : b ≠ devAwake := by rw [hb]; decide
  have hcfg : ((s.statusRead b e).wake s.cfg.wakeSeq).cfg = s.cfg := (busStable_cfg s.cfg).wake _ rfl
  have hseq : ((s.statusRead b e).wake s.cfg.wakeSeq).seq = .idle := (wake_seq ..).trans h.1
  rw [exec_sessionOpen_read hread h, if_neg hawake, if_pos hb, State.establish_eq hseq, hcfg, State.wake_eq]

theorem sessionOpen_undetected (hawake : b ≠ devAwake) (hasleep : b ≠ devAsleep) :
    exec .sessionOpen s = .next { s.statusRead b e with rc := 0x01#8, res := b.setWidth 24 } := by
  rw [exec_sessionOpen_read hread h, if_neg hawake, if_neg hasleep]
  exact congrArg _ (finish_idle (s := s.statusRead b e) h.1 _ _)

end

/-- Settles O34: one equation of `SESSION_OPEN` per answer of the device. -/
theorem sessionOpenResult : Obligations.SessionOpenResult := by
  intro s h r b
  have hread : r = ([b], r.2) := Prod.ext (Env.read_one ..) rfl
  exact ⟨sessionOpen_awake hread h, sessionOpen_asleep hread h, sessionOpen_undetected hread h⟩

/-- Success of a command that sets the session or the write-protect shadow. -/
theorem setSession_succeed {s : State} (h : s.seq = .idle) (q : Session) (w : Bool) :
    State.succeed { s with sess := q, wpr := w } 0 = { s with sess := q, wpr := w, rc := 0x00#8, res := 0 } :=
  succeed_idle (s := { s with sess := q, wpr := w }) h 0

/-- Settles O35: one write of the command's value, and the shadow follows it. -/
theorem writeProtectCommands : Obligations.WriteProtectCommands := by
  refine fun s => ⟨fun h => ?_, fun h => ?_, exec_closed rfl, exec_closed rfl⟩
  · rw [exec_wpRelease h, State.memWrite_eq]
    exact congrArg _ (setSession_succeed (s := s.afterWrites [(0x002400#24, [0x02#8])]) h.1.1 s.sess true)
  · rw [exec_wpAssert h, State.memWrite_eq]
    exact congrArg _ (setSession_succeed (s := s.afterWrites [(0x002400#24, [0x03#8])]) h.1.1 s.sess false)

/-- Settles O36: the reset and the write-protect write where a session is open, and nothing where none is. -/
theorem sessionCloseResult : Obligations.SessionCloseResult := by
  refine fun s => ⟨fun h => ?_, fun h => ?_⟩
  · rw [exec_sessionClose h.1, if_pos h.2, State.readReset_eq, State.memWrite_eq, State.afterWrites_append]
    exact congrArg _ (setSession_succeed
      (s := s.afterWrites (globalUnlock s.cfg 0xF0#8 ++ [(0x002400#24, [0x03#8])])) h.1.1 .closed false)
  · have hnone : s.sess ≠ .awake := by rw [h.2]; decide
    rw [exec_sessionClose h.1, if_neg hnone]
    exact congrArg _ (setSession_succeed h.1.1 .closed false)

/-! ### The SRAM -/

/-- What segment number `k`, at `addr`, is written of a buffer (R209). -/
def segmentWrites (buf : List Byte) (k : Nat) (addr : Addr) : List BusWrite :=
  if k * 0x2000 < buf.length then [(addr, (buf.drop (k * 0x2000)).take 0x2000)] else []

theorem sramWrites_nil (as : List Addr) : sramWrites as [] = [] := by cases as <;> rfl

/-- From segment `k` on: its own write, then those of the segments after it. -/
theorem sramWrites_drop (addr : Addr) (as : List Addr) (buf : List Byte) (k : Nat) :
    sramWrites (addr :: as) (buf.drop (k * 0x2000)) =
      segmentWrites buf k addr ++ sramWrites as (buf.drop ((k + 1) * 0x2000)) := by
  by_cases hk : k * 0x2000 < buf.length
  · rw [sramWrites, if_neg (by simpa using hk), segmentWrites, if_pos hk, sramSeg, List.drop_drop, Nat.succ_mul]
    rfl
  · rw [segmentWrites, if_neg hk, List.drop_eq_nil_of_le (by omega), List.drop_eq_nil_of_le (by omega),
      sramWrites_nil, sramWrites_nil]
    rfl

theorem sramWrites_four (a0 a1 a2 a3 : Addr) (buf : List Byte) :
    sramWrites [a0, a1, a2, a3] buf =
      segmentWrites buf 0 a0 ++ segmentWrites buf 1 a1 ++ segmentWrites buf 2 a2 ++ segmentWrites buf 3 a3 := by
  have h0 := sramWrites_drop a0 [a1, a2, a3] buf 0
  rw [sramWrites_drop a1 [a2, a3], sramWrites_drop a2 [a3], sramWrites_drop a3 [], sramWrites, List.append_nil] at h0
  rw [List.append_assoc, List.append_assoc]
  exact h0

/-- Settles O37: each segment's write is what the buffer has for it, and the checks decide the other cases. -/
theorem sramWriteEvents : Obligations.SramWriteEvents := by
  intro s buf a0 a1 a2 a3 hsegs
  refine ⟨fun h hlen => ?_, fun h hlong => ?_, exec_guarded rfl, exec_closed rfl⟩
  · rw [exec_sramWrite h hlen, memWrites_eq, hsegs, sramWrites_four, afterWrites_succeed h.1.1.1]
    rfl
  · exact exec_illFormed rfl h.1 (fun _ => h.2) (decide_eq_false (Nat.not_le.2 hlong))

theorem readSegments_seq (s : State) (as : List Addr) : (s.readSegments as).2.seq = s.seq := by
  induction as generalizing s with
  | nil => rfl
  | cons a as ih => exact ih (s.memRead a sramSeg).2

/-- The result of `SRAM_VERIFY`, where the segments answer `d` (R210). -/
theorem exec_sramVerify_read {s t : State} {buf d : List Byte} (h : s.Ready) (hlen : buf.length ≤ sramMax)
    (hread : s.readSegments s.cfg.sramAddr = (d, t)) :
    exec (.sramVerify buf) s = .next { t with
      rc := if d.take buf.length = buf then 0x00#8 else 0x03#8
      res := if d.take buf.length = buf then 1 else 0 } := by
  have hidle : t.seq = .idle := by
    have hseq := readSegments_seq s s.cfg.sramAddr
    rw [hread] at hseq
    exact hseq.trans h.1.1
  rw [exec_sramVerify h hlen, hread]
  by_cases hsame : d.take buf.length = buf
  · simp only [if_pos hsame]
    exact congrArg _ (succeed_idle hidle 1)
  · simp only [if_neg hsame]
    exact congrArg _ (finish_idle hidle Cause.verifyMismatch.code 0)

section
variable {s : State} {a0 a1 a2 a3 : Addr} {r0 r1 r2 r3 : List Byte × Env}
  (h0 : s.env.read s.cfg a0 0x2000 = r0) (h1 : r0.2.read s.cfg a1 0x2000 = r1)
  (h2 : r1.2.read s.cfg a2 0x2000 = r2) (h3 : r2.2.read s.cfg a3 0x2000 = r3)
include h0 h1 h2 h3

/-- The four segments, read one after the other. -/
theorem readSegments_four :
    s.readSegments [a0, a1, a2, a3] = (r0.1 ++ r1.1 ++ r2.1 ++ r3.1, { s with
      env := r3.2, trace := s.trace ++ [.read a0 r0.1, .read a1 r1.1, .read a2 r2.1, .read a3 r3.1] }) := by
  simp [State.readSegments, State.memRead, sramSeg, h0, h1, h2, h3]

theorem exec_sramVerify_four {buf : List Byte} (hsegs : s.cfg.sramAddr = [a0, a1, a2, a3]) (h : s.Ready)
    (hlen : buf.length ≤ sramMax) :
    exec (.sramVerify buf) s = .next { s with
      env := r3.2
      trace := s.trace ++ [.read a0 r0.1, .read a1 r1.1, .read a2 r2.1, .read a3 r3.1]
      rc := if (r0.1 ++ r1.1 ++ r2.1 ++ r3.1).take buf.length = buf then 0x00#8 else 0x03#8
      res := if (r0.1 ++ r1.1 ++ r2.1 ++ r3.1).take buf.length = buf then 1 else 0 } := by
  have hread := readSegments_four h0 h1 h2 h3
  rw [← hsegs] at hread
  exact exec_sramVerify_read h hlen hread

end

/-- Settles O38: the prefix of what the four reads answer decides the result. -/
theorem sramVerifyResult : Obligations.SramVerifyResult := by
  intro s buf a0 a1 a2 a3 hsegs r0 r1 r2 r3 same
  refine ⟨exec_sramVerify_four rfl rfl rfl rfl hsegs, fun h hlong => ?_, exec_closed rfl⟩
  exact exec_illFormed rfl h nofun (decide_eq_false (Nat.not_le.2 hlong))

end Sys2Proof.Machine

/-! Proofs of the exceptions family: the checks in their order, and the result codes. -/

namespace Sys2Proof.Machine

open Sys2Proof

/-! ### The checks -/

theorem makesNoCheck_of_illFormed {i : Instr} (h : i.wellFormed = false) : makesNoCheck i = false := by
  cases i with
  | sessionOpen | sessionClose => cases h
  | _ => rfl

/-- An operation with operand rules reports them as R221 lists. -/
theorem badCause_code {i : Instr} (h : i.wellFormed = false) : (badCause i).code = operandCode i := by
  cases i with
  | pageWrite | hiddenWrite | writeRom | writeLoop | verifyRom | writeMap | verifyMap | sramWrite
  | sramVerify => rfl
  | _ => cases h

/-- Ill-formed operands decide where the session and write-protect do not (R225). -/
theorem exec_operandCode {i : Instr} {s : State} (hok : i.wellFormed = false) (h : s.Ready)
    (hw : needsRelease i = true → s.wpr = true) : exec i s = .next (s.stopped (operandCode i)) := by
  rw [exec_illFormed (makesNoCheck_of_illFormed hok) h hw hok, badCause_code hok]

/-- Settles O7: `State.check` asks for the session, then write-protect, then the operands. -/
theorem checksInOrder : Obligations.ChecksInOrder := by
  refine ⟨fun _ _ => exec_closed, fun _ _ => exec_guarded, fun i s hok h => ?_, fun i s hok hrel h => ?_⟩
  · exact exec_operandCode hok h.1 fun _ => h.2
  · exact exec_operandCode hok h.1 fun hneeds => absurd (hrel.symm.trans hneeds) Bool.false_ne_true

/-! ### The result codes -/

theorem Cause.code_mem_legalCodes (cause : Cause) : cause.code ∈ legalCodes := by
  cases cause <;> decide

theorem rcOk_mem_legalCodes : rcOk ∈ legalCodes := by decide

/-- The phases that write the result of their operation. -/
def Phase.writesResult : Phase → Bool
  | .mapReadBack _ => true
  | .done => true
  | .doneStatus _ => true
  | .doneErr _ => true
  | .doneCount => true
  | .doneRom _ => true
  | .doneMap => true
  | _ => false

/-- Such a phase ends with `finish`, and a listed code. -/
theorem perform_writesResult {p : Phase} (hp : p.writesResult = true) (s : State) :
    ∃ (u : State) (rc : BitVec 8) (res : BitVec 24), p.perform s = .goOn (u.finish rc res) ∧
      rc ∈ legalCodes := by
  cases p with
  | mapReadBack map =>
    simp only [Phase.perform, State.mapReadBack]
    split
    · exact ⟨_, _, _, rfl, rcOk_mem_legalCodes⟩
    · exact ⟨_, _, _, rfl, Cause.code_mem_legalCodes _⟩
  | done | doneStatus | doneErr | doneCount => exact ⟨_, _, _, rfl, rcOk_mem_legalCodes⟩
  | doneRom len =>
    simp only [Phase.perform, State.romResult]
    split
    · exact ⟨_, _, _, rfl, rcOk_mem_legalCodes⟩
    · exact ⟨_, _, _, rfl, Cause.code_mem_legalCodes _⟩
  | doneMap =>
    simp only [Phase.perform, State.mapResult]
    split
    · exact ⟨_, _, _, rfl, Cause.code_mem_legalCodes _⟩
    · exact ⟨_, _, _, rfl, rcOk_mem_legalCodes⟩
  | _ => cases hp

/-- `t` has the result registers of `s`. -/
def State.SameResult (s t : State) : Prop := t.rc = s.rc ∧ t.res = s.res

theorem State.SameResult.trans {s t u : State} (h : s.SameResult t) (h' : t.SameResult u) :
    s.SameResult u := ⟨h'.1.trans h.1, h'.2.trans h.2⟩

theorem sameResult_memWrites (s : State) (ws : List BusWrite) : s.SameResult (s.memWrites ws) := by
  rw [memWrites_eq]
  exact ⟨rfl, rfl⟩

theorem sameResult_sendPage (s : State) (cmd : Byte) (addr : Addr) (page : List Byte) :
    s.SameResult (s.sendPage cmd addr page) := by
  rw [State.sendPage_eq]
  exact ⟨rfl, rfl⟩

theorem sameResult_wlIssue (s : State) (c : Chip) (rom : List Byte) : s.SameResult (s.wlIssue c rom) := by
  simp [State.SameResult, State.wlIssue, State.sendPage_eq]

theorem sameResult_wlLook (s : State) (c : Chip) : s.SameResult (s.wlLook c).2 := by
  obtain ⟨-, h⟩ | ⟨-, h⟩ | ⟨-, h⟩ := wlLook_cases s c <;> rw [h] <;> exact ⟨rfl, rfl⟩

/-- Any other phase leaves the result registers alone. -/
theorem perform_sameResult {p : Phase} (hp : p.writesResult = false) (s : State) :
    (p.perform s).Holds s.SameResult fun _ => True := by
  cases p with
  | unlockGlobal | rawSeq => exact sameResult_memWrites ..
  | page cmd addr data => exact sameResult_sendPage ..
  | waitStart | clearErr | orErr | wlInit => exact ⟨rfl, rfl⟩
  | wait addr =>
    simp only [Phase.perform, State.waitTurn]
    split
    · exact ⟨rfl, rfl⟩
    · split
      · exact ⟨rfl, rfl⟩
      · exact ⟨⟨rfl, rfl⟩, trivial⟩
  | wl turn rom1 rom2 =>
    refine wlRun_keeps (fun _ => trivial) ?_ ?_ _ turn s ⟨rfl, rfl⟩
    · intro u c h _ _
      exact h.trans (sameResult_wlIssue u c _)
    · intro u c h _ _
      exact h.trans (sameResult_wlLook u c)
  | _ => cases hp

end Sys2Proof.Machine

/-! What every step keeps of the modes, the directory iterator and the result code. -/

namespace Sys2Proof.Machine

open Sys2Proof

/-- `t` has the session, the write-protect shadow and the directory iterator of `s`. -/
structure State.SameModes (s t : State) : Prop where
  sess : t.sess = s.sess
  wpr : t.wpr = s.wpr
  slot : t.slot = s.slot
  dend : t.dend = s.dend

theorem State.SameModes.trans {s t u : State} (h : s.SameModes t) (h' : t.SameModes u) : s.SameModes u :=
  ⟨h'.sess.trans h.sess, h'.wpr.trans h.wpr, h'.slot.trans h.slot, h'.dend.trans h.dend⟩

theorem State.DirectoryLegal.congr {s t : State} (h : s.DirectoryLegal) (hslot : t.slot = s.slot)
    (hdend : t.dend = s.dend) : t.DirectoryLegal := by
  unfold State.DirectoryLegal
  rw [hslot, hdend]
  exact h

/-! ### In phases -/

/-- No operation that runs in phases writes them. -/
theorem sameModes_of_unwritten {i : Instr} {s t : State} (hi : runsInPhases i = true)
    (h : t.unwritten i = s.unwritten i) : s.SameModes t := by
  have hsess : writesSession i = false := by cases i <;> cases hi <;> rfl
  have hwpr : writesShadow i = false := by cases i <;> cases hi <;> rfl
  have hiter : writesIterator i = false := by cases i <;> cases hi <;> rfl
  exact ⟨eq_of_ite_eq (congrArg State.sess h) hsess, eq_of_ite_eq (congrArg State.wpr h) hwpr,
    eq_of_ite_eq (congrArg State.slot h) hiter, eq_of_ite_eq (congrArg State.dend h) hiter⟩

/-- Every phase could be one of a bulk writer's. -/
theorem exists_fits (p : Phase) : ∃ i, runsInPhases i = true ∧ p.fits i = true := by
  cases p with
  | wlInit | wl => exact ⟨.writeRom [], rfl, rfl⟩
  | _ => exact ⟨.writeMap [], rfl, rfl⟩

theorem Progress.Holds.imp {P P' : State → Prop} {Q Q' : Phase → Prop} {r : Progress} (h : r.Holds P Q)
    (hP : ∀ s, P s → P' s) (hQ : ∀ p, Q p → Q' p) : r.Holds P' Q' := by
  cases r with
  | goOn s => exact hP s h
  | again now s => exact ⟨hP s h.1, hQ now h.2⟩
  | fail cause info s => exact hP s h

theorem perform_sameModes (p : Phase) (s : State) : (p.perform s).Holds s.SameModes fun _ => True := by
  obtain ⟨i, hi, hp⟩ := exists_fits p
  exact (perform_unwritten p hp rfl).imp (fun _ => sameModes_of_unwritten hi) fun _ _ => trivial

/-- Whatever a phase does, the result code is a listed one. -/
theorem perform_rc (p : Phase) {s : State} (h : s.rc ∈ legalCodes) :
    (p.perform s).Holds (fun t => t.rc ∈ legalCodes) fun _ => True := by
  cases hp : p.writesResult with
  | true =>
    obtain ⟨u, rc, res, hr, hrc⟩ := perform_writesResult hp s
    rw [hr]
    exact hrc
  | false => exact (perform_sameResult hp s).imp (fun _ hsame => hsame.1 ▸ h) fun _ _ => trivial

theorem sameModes_stable (s : State) : State.Stable s.SameModes where
  seq := fun _ _ h => ⟨h.sess, h.wpr, h.slot, h.dend⟩
  failOut := fun u c cause info h => by
    cases c
    · exact ⟨h.sess, h.wpr, h.slot, h.dend⟩
    · simp only [State.failOut, if_true, State.readReset_eq]
      exact ⟨h.sess, h.wpr, h.slot, h.dend⟩

theorem rc_stable : State.Stable fun t => t.rc ∈ legalCodes where
  seq := fun _ _ h => h
  failOut := fun _ _ cause _ _ => cause.code_mem_legalCodes

theorem runPhases_sameModes (c : Bool) (phases : List Phase) (s : State) :
    s.SameModes (s.runPhases c phases) :=
  (runPhases_keeps (sameModes_stable s)
    (fun p u _ h => (perform_sameModes p u).imp (fun _ => h.trans) fun _ _ => trivial) c phases
    (fun _ _ => trivial) s ⟨rfl, rfl, rfl, rfl⟩).1

theorem runPhases_rc (c : Bool) (phases : List Phase) {s : State} (h : s.rc ∈ legalCodes) :
    (s.runPhases c phases).rc ∈ legalCodes :=
  (runPhases_keeps rc_stable (fun p _ _ h => perform_rc p h) c phases (fun _ _ => trivial) s h).1

/-- An operation has come to `t`, and is still in progress: it runs in phases, and its checks have passed. -/
theorem runs_inProgress {i : Instr} {s t : State} {n : Nat} (hr : s.Runs i n t) (ht : t.seq ≠ .idle) :
    runsInPhases i = true ∧ s.Ready ∧ i.wellFormed = true ∧
      t = (s.runPhases (cleansUp i) (phasesOf s.cfg i)).drive n := by
  obtain ⟨t0, he, rfl⟩ := hr
  have ht0 : t0.seq ≠ .idle := fun h => ht ((drive_idle n h).symm ▸ h)
  cases hi : runsInPhases i with
  | false =>
    obtain ⟨u, rc, res, rfl, -⟩ := exec_immediate hi he
    exact absurd rfl ht0
  | true =>
    rw [exec_operate_phases hi] at he
    obtain ⟨hidle, ⟨cause, -, rfl⟩ | ⟨hc, rfl⟩⟩ := State.operate_next he
    · exact absurd hidle.1 ht0
    · obtain ⟨hawake, -, hok⟩ := State.check_none.1 hc
      exact ⟨rfl, ⟨hidle, hawake⟩, hok, rfl⟩

/-! ### In an operation -/

/-- A refusal has a listed code, so it is enough that the operation leaves one when its checks pass. -/
theorem exec_rc_of_checked {i : Instr} {s t : State} (hi : makesNoCheck i = false)
    (he : exec i s = .next t)
    (h : s.Ready → (needsRelease i = true → s.wpr = true) → i.wellFormed = true →
      t.rc ∈ legalCodes) : t.rc ∈ legalCodes := by
  obtain ⟨body, hbody⟩ := exec_operate i hi
  obtain ⟨hidle, ⟨cause, -, rfl⟩ | ⟨hc, -⟩⟩ := State.operate_next ((hbody s).symm.trans he)
  · exact cause.code_mem_legalCodes
  · obtain ⟨hawake, hw, hok⟩ := State.check_none.1 hc
    exact h ⟨hidle, hawake⟩ hw hok

/-- An operation without phases reports success or a listed cause. -/
theorem exec_immediate_rc {i : Instr} {s t : State} (hi : runsInPhases i = false)
    (hc : makesNoCheck i = false) (he : exec i s = .next t) : t.rc ∈ legalCodes := by
  refine exec_rc_of_checked hc he fun hr hw hok => ?_
  have hnext : ∀ {u : State}, exec i s = .next u → u.rc ∈ legalCodes → t.rc ∈ legalCodes := by
    intro u hu hrc
    cases hu.symm.trans he
    exact hrc
  cases i with
  | unlockAndGlobal => exact hnext (exec_unlockAndGlobal hr) rcOk_mem_legalCodes
  | unlockAndLocal => exact hnext (exec_unlockAndLocal hr) rcOk_mem_legalCodes
  | readReset => exact hnext (exec_readReset hr) rcOk_mem_legalCodes
  | pageWrite => exact hnext (exec_pageWrite ⟨hr, hw rfl⟩ hok) rcOk_mem_legalCodes
  | statusStep => exact hnext (exec_statusStep hr) rcOk_mem_legalCodes
  | dirPresent => exact hnext (exec_dirPresent hr) rcOk_mem_legalCodes
  | dirOpen => exact hnext (exec_dirOpen hr) rcOk_mem_legalCodes
  | wpRelease => exact hnext (exec_wpRelease hr) rcOk_mem_legalCodes
  | wpAssert => exact hnext (exec_wpAssert hr) rcOk_mem_legalCodes
  | sramWrite => exact hnext (exec_sramWrite ⟨hr, hw rfl⟩ (of_decide_eq_true hok)) rcOk_mem_legalCodes
  | verifyRom =>
    refine hnext (exec_verifyRom hr (of_decide_eq_true hok)) ?_
    unfold State.verifyResult
    split
    · exact rcOk_mem_legalCodes
    · exact Cause.verifyMismatch.code_mem_legalCodes
  | dirNext =>
    cases hd : s.dend with
    | true => exact hnext (exec_dirNext_end hr hd) rcOk_mem_legalCodes
    | false =>
      refine hnext (exec_dirNext_read hr hd rfl) ?_
      split <;> exact rcOk_mem_legalCodes
  | sramVerify =>
    refine hnext (exec_sramVerify hr (of_decide_eq_true hok)) ?_
    split
    · exact rcOk_mem_legalCodes
    · exact Cause.verifyMismatch.code_mem_legalCodes
  | sessionOpen | sessionClose => cases hc
  | _ => cases hi

theorem exec_rc {i : Instr} {s t : State} (he : exec i s = .next t) (h : s.rc ∈ legalCodes) :
    t.rc ∈ legalCodes := by
  cases hc : makesNoCheck i with
  | false =>
    cases hi : runsInPhases i with
    | false => exact exec_immediate_rc hi hc he
    | true =>
      refine exec_rc_of_checked hc he fun hr hw hok => ?_
      rw [exec_operate_phases hi, State.operate_run hr hw hok] at he
      cases he
      exact runPhases_rc _ _ h
  | true =>
    cases i with
    | sessionOpen =>
      cases (exec_sessionOpen (exec_next_idle he)).symm.trans he
      split
      · exact rcOk_mem_legalCodes
      · split
        · exact rcOk_mem_legalCodes
        · exact Cause.deviceNotDetected.code_mem_legalCodes
    | sessionClose =>
      cases (exec_sessionClose (exec_next_idle he)).symm.trans he
      exact rcOk_mem_legalCodes
    | _ => cases hc

theorem establish_sess (s : State) : s.establish.sess = .awake := by
  simp [State.establish, State.readReset_eq]

/-- SESSION_OPEN opens a session, or leaves none open and nothing released (R201). -/
theorem sessionOpen_modes {s t : State} (he : exec .sessionOpen s = .next t) :
    t.sess = .closed → t.wpr = false := by
  cases (exec_sessionOpen (exec_next_idle he)).symm.trans he
  intro hclosed
  split at hclosed
  · cases (establish_sess _).symm.trans hclosed
  next hawake =>
    split at hclosed
    · cases (establish_sess _).symm.trans hclosed
    · next hasleep =>
      rw [if_neg hawake, if_neg hasleep]
      rfl

/-- With no session open nothing is released: only the operations of the session and of write-protect
write either. -/
theorem exec_closed_wpr {i : Instr} {s t : State} (he : exec i s = .next t)
    (h : s.sess = .closed → s.wpr = false) : t.sess = .closed → t.wpr = false := by
  obtain ⟨hsess, hwpr, -⟩ := registersWrittenOnlyAsListed s i 0 t ⟨t, he, rfl⟩
  cases i with
  | sessionOpen => exact sessionOpen_modes he
  | sessionClose =>
    cases (exec_sessionClose (exec_next_idle he)).symm.trans he
    exact fun _ => rfl
  | wpRelease | wpAssert =>
    obtain ⟨-, ⟨code, rfl⟩ | ⟨hr, -, -⟩⟩ := exec_cases rfl he
    · exact h
    · exact fun hclosed => by cases (hsess rfl ▸ hr.2 : t.sess = .awake).symm.trans hclosed
  | _ =>
    rw [hsess rfl, hwpr rfl]
    exact h

theorem exec_modesLegal {i : Instr} {s t : State} (he : exec i s = .next t) (h : s.ModesLegal) :
    t.ModesLegal := by
  refine ⟨exec_closed_wpr he h.1, fun ht => ?_⟩
  obtain ⟨hi, hready, -, rfl⟩ := runs_inProgress (n := 0) ⟨t, he, rfl⟩ ht
  exact (runPhases_sameModes ..).sess.trans hready.2

/-- The slot advances to the end of the table, and no further (R184). -/
theorem takeEntry_directoryLegal {s : State} (h : s.DirectoryLegal) (hd : s.dend = false) :
    s.takeEntry.DirectoryLegal := by
  obtain ⟨hle, hend⟩ := h
  have hlt : s.slot.toNat ≠ dirSlots := fun heq => by cases (hend heq).symm.trans hd
  simp only [dirSlots] at hle hlt
  have hnext : (s.slot + 1).toNat = s.slot.toNat + 1 := by bv_omega
  refine ⟨?_, fun heq => ?_⟩
  · show (s.slot + 1).toNat ≤ 8
    omega
  · have hslot : s.slot + 1#4 = 8#4 := BitVec.eq_of_toNat_eq heq
    simp [State.takeEntry, hslot]

theorem exec_directoryLegal {i : Instr} {s t : State} (he : exec i s = .next t)
    (h : s.DirectoryLegal) : t.DirectoryLegal := by
  obtain ⟨-, -, hiter, -⟩ := registersWrittenOnlyAsListed s i 0 t ⟨t, he, rfl⟩
  cases i with
  | dirOpen =>
    obtain ⟨-, ⟨code, rfl⟩ | ⟨hr, -, -⟩⟩ := exec_cases rfl he
    · exact h
    cases (exec_dirOpen hr).symm.trans he
    exact ⟨Nat.zero_le _, nofun⟩
  | dirNext =>
    obtain ⟨-, ⟨code, rfl⟩ | ⟨hr, -, -⟩⟩ := exec_cases rfl he
    · exact h
    cases hd : s.dend with
    | true =>
      cases (exec_dirNext_end hr hd).symm.trans he
      exact h
    | false =>
      cases (exec_dirNext_read hr hd rfl).symm.trans he
      split
      · exact ⟨h.1, fun _ => rfl⟩
      · exact takeEntry_directoryLegal (by exact h) hd
  | _ => exact h.congr (hiter rfl).1 (hiter rfl).2

/-- Settles O41: an operation in progress writes none of the modes; one taken from the host keeps them
legal, whether it is refused or run. -/
theorem stepKeepsModesLegal : Obligations.StepKeepsModesLegal := by
  intro s t hmodes hdir hrc he
  cases hq : s.seq with
  | running c now rest =>
    cases (step_running hq).symm.trans he
    have hsame := runPhases_sameModes c (now :: rest) { s with seq := .idle }
    have hawake : s.sess = .awake := hmodes.2 (by rw [hq]; exact nofun)
    exact ⟨⟨fun hc => hsame.wpr.trans (hmodes.1 (hsame.sess.symm.trans hc)),
      fun _ => hsame.sess.trans hawake⟩, hdir.congr hsame.slot hsame.dend, runPhases_rc c _ hrc⟩
  | idle =>
    cases hb : s.inbox with
    | nil =>
      cases (step_idle_none hq hb).symm.trans he
      exact ⟨hmodes, hdir, hrc⟩
    | cons r rs =>
      cases hd : decode r with
      | ok i =>
        have hexec := (step_idle_ok hq hb hd).symm.trans he
        exact ⟨exec_modesLegal hexec hmodes, exec_directoryLegal hexec hdir, exec_rc hexec hrc⟩
      | error e =>
        cases (step_idle_error hq hb hd).symm.trans he
        exact ⟨⟨hmodes.1, fun h => absurd rfl h⟩, hdir, Cause.illegalCommand.code_mem_legalCodes⟩

end Sys2Proof.Machine

/-! An operation that waits: it stops where a status read is not ready, and nowhere else. -/

namespace Sys2Proof.Machine

open Sys2Proof

/-! ### The loop stops at a busy answer -/

/-- Issues and looks left to a stream of the loop: two for each page, less the issue of a page in flight. -/
def State.actionsLeft (s : State) (c : Chip) : Nat :=
  if s.abort.get c then 0
  else 2 * (((s.len.get c).toNat - (s.cur.get c).toNat) / pageSize) - if s.busy.get c then 1 else 0

/-- Turns by which the loop has ended, or has found a chip busy. -/
def State.turnsLeft (s : State) : Chip → Nat
  | .a => 2 * max (s.actionsLeft .a) (s.actionsLeft .b) + 1
  | .b => 2 * max (s.actionsLeft .a) (s.actionsLeft .b - 1) + 2

/-- A turn of chip `c` leaves it one action less, if it had one, and the other chip as many as before. -/
def TurnTaken (c : Chip) (s t : State) : Prop :=
  t.actionsLeft c ≤ s.actionsLeft c - 1 ∧ t.actionsLeft c.other = s.actionsLeft c.other

/-- Only chip A's turn can be the last, and only when nothing is left to do. -/
theorem TurnTaken.turnsLeft {c : Chip} {s t : State} {n : Nat} (h : TurnTaken c s t)
    (hsome : c = .a → ∃ d, 0 < s.actionsLeft d) (hn : s.turnsLeft c ≤ n + 1) :
    t.turnsLeft c.other ≤ n := by
  obtain ⟨hc, hother⟩ := h
  cases c with
  | a =>
    obtain ⟨d, hd⟩ := hsome rfl
    cases d <;> simp only [State.turnsLeft, Chip.other] at * <;> omega
  | b => simp only [State.turnsLeft, Chip.other] at *; omega

theorem other_ne (c : Chip) : c.other ≠ c := by cases c <;> decide

section
variable {rom1 rom2 : List Byte} {s : State} {c : Chip}

/-- A change of one stream's registers leaves the other as many actions. -/
theorem actionsLeft_other {t : State} (hlen : t.len = s.len)
    (h : ∀ d, d ≠ c → t.cur.get d = s.cur.get d ∧ t.busy.get d = s.busy.get d ∧
      t.abort.get d = s.abort.get d) : t.actionsLeft c.other = s.actionsLeft c.other := by
  obtain ⟨hcur, hbusy, habort⟩ := h _ (other_ne c)
  simp only [State.actionsLeft, hlen, hcur, hbusy, habort]

theorem State.LoopInv.actionsLeft_pos (h : s.LoopInv rom1 rom2) (hl : s.live c = true) :
    0 < s.actionsLeft c := by
  obtain ⟨hcur, hlen, -, -, hbusy⟩ := h.stream c
  obtain ⟨habort, hor⟩ := live_iff.1 hl
  have hlt : (s.cur.get c).toNat < (s.len.get c).toNat := hor.elim (fun hb => (hbusy hb).1) id
  simp only [pageSize] at hcur hlen
  simp only [State.actionsLeft, habort, pageSize, Bool.false_eq_true, if_false]
  split <;> omega

theorem State.LoopInv.actionsLeft_eq_zero (h : s.LoopInv rom1 rom2) (hdead : s.live c = false) :
    s.actionsLeft c = 0 := by
  unfold State.actionsLeft
  obtain habort | hend := h.finished hdead
  · rw [if_pos habort]
  · rw [hend, h.len c, Nat.sub_self]
    simp

theorem State.LoopInv.turnTaken_dead (h : s.LoopInv rom1 rom2) (hdead : s.live c = false) :
    TurnTaken c s s := ⟨by simp [h.actionsLeft_eq_zero hdead], rfl⟩

theorem State.LoopInv.turnTaken_issue (h : s.LoopInv rom1 rom2) (hl : s.live c = true)
    (hb : s.busy.get c = false) (rom : List Byte) : TurnTaken c s (s.wlIssue c rom) := by
  obtain ⟨habort, -⟩ := h.next hl hb
  refine ⟨?_, actionsLeft_other (wlIssue_len ..) fun d hd => ?_⟩
  · simp [State.actionsLeft, wlIssue_len, habort, hb]
  · simp [PerChip_get_set_of_ne _ _ hd]

/-- A look that is ready takes an action of its chip: the page in flight is done, or the stream aborted. -/
theorem State.LoopInv.turnTaken_look (h : s.LoopInv rom1 rom2) (hb : s.busy.get c = true)
    (hready : (s.wlLook c).1 ≠ .busy) : TurnTaken c s (s.wlLook c).2 := by
  obtain ⟨hcur, hlen, -, hhalf, hbusy⟩ := h.stream c
  obtain ⟨hlt, habort⟩ := hbusy hb
  obtain ⟨-, hl⟩ | ⟨-, hl⟩ | ⟨-, hl⟩ := wlLook_cases s c <;> rw [hl]
  · exact absurd (congrArg Prod.fst hl) hready
  · refine ⟨?_, actionsLeft_other rfl fun d hd => ?_⟩
    · simp only [pageSize, half] at hcur hlen hhalf
      have hadd : (s.cur.get c + 128#22).toNat = (s.cur.get c).toNat + 128 := by bv_omega
      simp [State.actionsLeft, State.wlReady, habort, hb, hadd, pageSize]
      omega
    · simp [State.wlReady, PerChip_get_set_of_ne _ _ hd]
  · refine ⟨by simp [State.actionsLeft, State.wlError], actionsLeft_other rfl fun d hd => ?_⟩
    simp [State.wlError, PerChip_get_set_of_ne _ _ hd]

/-- Where the loop leaves its step it has found a chip busy: the turns of a step are enough (log 3). -/
theorem wlRun_again {n : Nat} {turn : Chip} {now : Phase} {u : State} (h : s.LoopInv rom1 rom2)
    (hn : s.turnsLeft turn ≤ n) (hr : State.wlRun n turn rom1 rom2 s = .again now u) :
    ∃ (v : State) (d : Chip), v.LoopInv rom1 rom2 ∧ s.trace <+: v.trace ∧ v.live d = true ∧
      v.busy.get d = true ∧ isReady (v.status d) = false ∧
      now = .wl d.other rom1 rom2 ∧ u = (v.look d).2 := by
  induction n generalizing turn s with
  | zero => cases turn <;> simp [State.turnsLeft] at hn
  | succ n ih =>
    have hbus := busStable_trace s.trace
    unfold State.wlRun at hr
    simp only at hr
    split at hr
    · cases hr
    next hgo =>
    have hsome : turn = .a → ∃ d, 0 < s.actionsLeft d := by
      intro hturn
      by_contra hnone
      refine hgo ⟨hturn, ?_, ?_⟩ <;>
        · rw [Bool.not_eq_true', Bool.eq_false_iff]
          exact fun hl => hnone ⟨_, h.actionsLeft_pos hl⟩
    split at hr
    · next hdead =>
      exact ih h ((h.turnTaken_dead (by simpa using hdead)).turnsLeft hsome hn) hr
    next hl =>
    have hl : s.live turn = true := by simpa using hl
    split at hr
    · next hb =>
      split at hr
      · next hbusy =>
        obtain ⟨hs, hlook⟩ | ⟨-, hlook⟩ | ⟨-, hlook⟩ := wlLook_cases s turn
        · rw [hlook] at hr
          cases hr
          exact ⟨s, turn, h, List.prefix_refl _, hl, hb, classify_busy.1 hs, rfl, rfl⟩
        · rw [hlook] at hbusy
          cases hbusy
        · rw [hlook] at hbusy
          cases hbusy
      · next hready =>
        obtain ⟨v, d, hv, hpre, hrest⟩ :=
          ih (h.wlLook hb) ((h.turnTaken_look hb hready).turnsLeft hsome hn) hr
        exact ⟨v, d, hv, (hbus.wlLook turn (List.prefix_refl _)).trans hpre, hrest⟩
    · next hb =>
      have hb : s.busy.get turn = false := by simpa using hb
      obtain ⟨v, d, hv, hpre, hrest⟩ :=
        ih (h.wlIssue hl hb _) ((h.turnTaken_issue hl hb _).turnsLeft hsome hn) hr
      exact ⟨v, d, hv, (hbus.wlIssue turn _ (List.prefix_refl _)).trans hpre, hrest⟩

/-- The turns of one step are enough for what is left of both streams. -/
theorem State.LoopInv.turnsLeft_le (h : s.LoopInv rom1 rom2) (turn : Chip) :
    s.turnsLeft turn ≤ wlTurns rom1 rom2 := by
  have hle : ∀ c, s.actionsLeft c ≤ 2 * ((streamOf rom1 rom2 c).length / 128) := by
    intro c
    have hlen := h.len c
    unfold State.actionsLeft
    split
    · exact Nat.zero_le _
    · rw [hlen]
      simp only [pageSize]
      omega
  have ha := hle .a
  have hb := hle .b
  simp only [streamOf] at ha hb
  cases turn <;> simp only [State.turnsLeft, wlTurns] <;> omega

end

/-! ### Where an operation stops -/

/-- The phases that write a result come last. -/
def resultLast : List Phase → Bool
  | [] => true
  | p :: rest => (!p.writesResult || rest.isEmpty) && resultLast rest

theorem resultLast_cons {p : Phase} {rest : List Phase} :
    resultLast (p :: rest) = true ↔ (p.writesResult = true → rest = []) ∧ resultLast rest = true := by
  cases hp : p.writesResult <;> simp [resultLast, hp]

theorem resultLast_phasesOf (cfg : Config) (i : Instr) : resultLast (phasesOf cfg i) = true := by
  cases i <;> rfl

/-- Of the phases still to run, a loop that comes first has its streams as a loop keeps them, and any other
follows its own initialisation. -/
def State.Fit (s : State) : List Phase → Prop
  | .wl _ rom1 rom2 :: rest => s.LoopInv rom1 rom2 ∧ phasesLegal rest = true
  | phases => phasesLegal phases = true

/-- The phases at which an operation stops: a wait, and a loop of which a stream is live. -/
def State.Polling (s : State) : Phase → Prop
  | .wait _ => True
  | .wl _ _ _ => ∃ c, s.live c = true
  | _ => False

/-- Since the trace was `tr` there have been events, the last a status read that was not ready. -/
def State.FoundBusy (tr : List Event) (t : State) : Prop :=
  ∃ ev addr b, t.trace = tr ++ ev ++ [.read addr [b]] ∧ isReady b = false

/-- `t` is in an operation, at a phase it can go on from. -/
def State.Suspended (t : State) : Prop :=
  ∃ c now rest, t.seq = .running c now rest ∧ t.Fit (now :: rest) ∧ resultLast rest = true ∧
    t.Polling now

/-- Since `s` no result has been written, and the operation has stopped in `t` at a busy answer. -/
structure State.StoppedBusy (s t : State) : Prop where
  result : s.SameResult t
  foundBusy : t.FoundBusy s.trace
  suspended : t.Suspended

section
variable {s t u : State} {p now : Phase} {rest phases : List Phase}

theorem fit_of_legal (s : State) (h : phasesLegal phases = true) : s.Fit phases := by
  cases phases with
  | nil => exact h
  | cons p rest =>
    cases p with
    | wl turn rom1 rom2 => cases h
    | _ => exact h

theorem State.Fit.setSeq (h : s.Fit phases) (q : Seq) : State.Fit { s with seq := q } phases := by
  cases phases with
  | nil => exact h
  | cons p rest =>
    cases p with
    | wl turn rom1 rom2 => exact ⟨h.1.congr rfl rfl rfl rfl, h.2⟩
    | _ => exact h

theorem State.Polling.writesResult (h : s.Polling p) : p.writesResult = false := by
  cases p with
  | wait | wl => rfl
  | _ => exact h.elim

theorem State.FoundBusy.mono (h : t.FoundBusy u.trace) (hpre : s.trace <+: u.trace) :
    t.FoundBusy s.trace := by
  obtain ⟨ev, addr, b, htrace, hb⟩ := h
  obtain ⟨vs, hvs⟩ := hpre
  exact ⟨vs ++ ev, addr, b, by rw [htrace, ← hvs, List.append_assoc s.trace], hb⟩

theorem State.FoundBusy.isPrefix (h : t.FoundBusy s.trace) : s.trace <+: t.trace := by
  obtain ⟨ev, addr, b, htrace, -⟩ := h
  rw [htrace, List.append_assoc]
  exact List.prefix_append ..

theorem State.FoundBusy.length_lt (h : t.FoundBusy s.trace) : s.trace.length < t.trace.length := by
  obtain ⟨ev, addr, b, htrace, -⟩ := h
  rw [htrace]
  simp only [List.length_append, List.length_singleton]
  omega

theorem State.StoppedBusy.of_prefix (h : u.StoppedBusy t) (hres : s.SameResult u)
    (hpre : s.trace <+: u.trace) : s.StoppedBusy t :=
  ⟨hres.trans h.result, h.foundBusy.mono hpre, h.suspended⟩

/-- A phase that goes on leaves the state fit for those after it. -/
theorem perform_goOn_fit (h : s.Fit (p :: rest)) (hr : p.perform s = .goOn u) : u.Fit rest := by
  cases p with
  | wlInit rom1 rom2 =>
    obtain ⟨rest', rfl, hok, hrest⟩ := phasesLegal_wlInit h
    cases hr
    exact ⟨loopInv_wlInit s hok, hrest⟩
  | wl turn rom1 rom2 => exact fit_of_legal u h.2
  | page cmd addr data => exact fit_of_legal u (Bool.and_eq_true_iff.1 h).2
  | _ => exact fit_of_legal u h

/-- A phase that leaves the operation has read a status byte that was not ready. -/
theorem perform_again_foundBusy (h : s.Fit (p :: rest)) (hr : p.perform s = .again now u) :
    p.writesResult = false ∧ u.FoundBusy s.trace ∧ u.Fit (now :: rest) ∧ u.Polling now := by
  cases p with
  | wait addr =>
    simp only [Phase.perform, State.waitTurn] at hr
    split at hr
    · cases hr
    next hbusy =>
    split at hr
    · cases hr
    cases hr
    refine ⟨rfl, ⟨[], addr, (s.poll addr).1, ?_, by simpa using hbusy⟩, h, trivial⟩
    rw [poll_trace, Env.read_one, List.append_nil]
    rfl
  | wl turn rom1 rom2 =>
    obtain ⟨v, d, hv, hpre, hl, hb, hbusy, rfl, rfl⟩ := wlRun_again h.1 (h.1.turnsLeft_le turn) hr
    refine ⟨rfl, State.FoundBusy.mono (u := v) ⟨[], base d, v.status d, ?_, hbusy⟩ hpre,
      ⟨hv.congr rfl rfl rfl rfl, h.2⟩, d, hl⟩
    rw [look_trace, Env.read_one, List.append_nil]
    rfl
  | _ => cases hr

/-- Where the phases of an operation have not ended it, they have stopped at a busy answer. -/
theorem runPhases_stoppedBusy (c : Bool) (hfit : u.Fit phases) (hlast : resultLast phases = true)
    (hne : (u.runPhases c phases).seq ≠ .idle) : u.StoppedBusy (u.runPhases c phases) := by
  induction phases generalizing u with
  | nil => exact absurd rfl hne
  | cons p rest ih =>
    obtain ⟨hend, hlast⟩ := resultLast_cons.1 hlast
    have hpre := (busStable_trace u.trace).perform p (List.prefix_refl u.trace)
    rw [State.runPhases] at hne ⊢
    cases hr : p.perform u with
    | goOn v =>
      rw [hr] at hne hpre
      cases hp : p.writesResult with
      | true =>
        rw [hend hp] at hne
        exact absurd rfl hne
      | false =>
        have hsame := perform_sameResult hp u
        rw [hr] at hsame
        exact (ih (perform_goOn_fit hfit hr) hlast hne).of_prefix hsame hpre
    | again now v =>
      obtain ⟨hp, hbusy, hfit', hpoll⟩ := perform_again_foundBusy hfit hr
      have hsame := perform_sameResult hp u
      rw [hr] at hsame
      exact ⟨hsame.1, hbusy, c, now, rest, rfl, hfit'.setSeq _, hlast, hpoll⟩
    | fail cause info v =>
      rw [hr] at hne
      exact absurd (failOut_idle ..).1 hne

theorem State.Suspended.resume_eq (h : t.Suspended) : ∃ c now rest,
    t.resume = State.runPhases c (now :: rest) { t with seq := .idle } ∧
      State.Fit { t with seq := .idle } (now :: rest) ∧ resultLast (now :: rest) = true ∧
      State.Polling { t with seq := .idle } now := by
  obtain ⟨c, now, rest, hseq, hfit, hlast, hpoll⟩ := h
  refine ⟨c, now, rest, by simp [State.resume, hseq], hfit.setSeq _,
    resultLast_cons.2 ⟨fun hp => ?_, hlast⟩, hpoll⟩
  rw [hpoll.writesResult] at hp
  cases hp

/-- A further step ends the operation, or stops at a busy answer again. -/
theorem State.Suspended.resume (h : t.Suspended) (hne : t.resume.seq ≠ .idle) :
    t.StoppedBusy t.resume := by
  obtain ⟨c, now, rest, hresume, hfit, hlast, -⟩ := h.resume_eq
  rw [hresume] at hne ⊢
  exact (runPhases_stoppedBusy c hfit hlast hne).of_prefix ⟨rfl, rfl⟩ (List.prefix_refl _)

/-- An operation that has not ended after more steps had not ended before. -/
theorem seq_ne_idle_of_drive {n : Nat} (hne : (t.drive n).seq ≠ .idle) : t.seq ≠ .idle :=
  fun hi => hne ((drive_idle n hi).symm ▸ hi)

theorem State.StoppedBusy.drive (h : s.StoppedBusy t) (n : Nat) (hne : (t.drive n).seq ≠ .idle) :
    s.StoppedBusy (t.drive n) := by
  induction n generalizing t with
  | zero => exact h
  | succ n ih =>
    have hresume : t.resume.seq ≠ .idle := seq_ne_idle_of_drive (n := n) hne
    exact ih ((h.suspended.resume hresume).of_prefix h.result h.foundBusy.isPrefix) hne

/-- At every point of every operation: it has ended, or stopped at a busy answer. -/
theorem runs_stoppedBusy {i : Instr} {n : Nat} (hr : s.Runs i n t) (hne : t.seq ≠ .idle) :
    s.StoppedBusy t := by
  obtain ⟨-, -, hok, rfl⟩ := runs_inProgress hr hne
  exact (runPhases_stoppedBusy _ (fit_of_legal s (phasesLegal_phasesOf s.cfg hok))
    (resultLast_phasesOf s.cfg i) (seq_ne_idle_of_drive hne)).drive n hne

theorem runs_held {i : Instr} {n : Nat} (hr : s.Runs i n t) (hne : t.seq ≠ .idle) : s.Held t := by
  obtain ⟨hrc, hres⟩ := (runs_stoppedBusy hr hne).result
  exact ⟨hne, hrc, hres, (sameModes_of_unwritten (runs_inProgress hr hne).1 (runs_unwritten hr)).wpr⟩

end

/-! ### Why it does not end -/

/-- How many ready status bytes have been read. -/
def State.readyCount (s : State) : Nat := (readyBytes s.trace).length

section
variable {s t u : State} {p : Phase} {c : Bool} {rest : List Phase}

theorem readyCount_eq {ev : List Event} (h : t.trace = s.trace ++ ev) :
    t.readyCount = s.readyCount + (readyBytes ev).length := by
  simp [State.readyCount, h, readyBytes_append]

theorem busStable_readyCount (k : Nat) : BusStable fun s => k ≤ s.readyCount where
  regs := fun s t h _ ht _ => by
    unfold State.readyCount
    rwa [ht]
  write := fun s addr v h => by
    rw [readyCount_eq (memWrite_trace s addr v)]
    exact Nat.le_add_right_of_le h
  read := fun s addr n h => by
    rw [readyCount_eq (memRead_trace s addr n)]
    exact Nat.le_add_right_of_le h

theorem readyCount_of_read {addr : Addr} {b : Byte} (h : t.trace = s.trace ++ [.read addr [b]])
    (hb : isReady b = true) : s.readyCount < t.readyCount := by
  rw [readyCount_eq h]
  simp [readyBytes, hb]

/-- A chip whose page has just been sent is live. -/
theorem wlIssue_live {d : Chip} (hl : s.live d = true) (rom : List Byte) : (s.wlIssue d rom).live d = true :=
  live_iff.2 ⟨by simpa using (live_iff.1 hl).1, .inl (by simp)⟩

/-- The loop does not end on its own while a stream is live: a look has found its chip ready. -/
theorem wlRun_readyCount {n : Nat} {turn : Chip} {rom1 rom2 : List Byte} (hlive : ∃ c, s.live c = true)
    (hr : State.wlRun n turn rom1 rom2 s = .goOn u) : s.readyCount < u.readyCount := by
  induction n generalizing turn s with
  | zero => cases hr
  | succ n ih =>
    unfold State.wlRun at hr
    simp only at hr
    split at hr
    · next hdead =>
      obtain ⟨c, hc⟩ := hlive
      cases c <;> simp [hc] at hdead
    split at hr
    · exact ih hlive hr
    next hl =>
    have hl : s.live turn = true := by simpa using hl
    split at hr
    · split at hr
      · cases hr
      next hlook =>
      have hready : isReady (s.status turn) = true := by
        obtain ⟨-, hw⟩ | ⟨hs, -⟩ | ⟨hs, -⟩ := wlLook_cases s turn
        · exact absurd (congrArg Prod.fst hw) hlook
        · exact (classify_ready.1 hs).1
        · exact (classify_error.1 hs).1
      have hafter := (busStable_readyCount _).wlRun n turn.other rom1 rom2
        (Nat.le_refl (s.wlLook turn).2.readyCount)
      rw [hr] at hafter
      exact (readyCount_of_read (wlLook_bus s turn).2.1 hready).trans_le hafter
    · exact ((busStable_readyCount _).wlIssue turn _ (Nat.le_refl s.readyCount)).trans_lt
        (ih ⟨turn, wlIssue_live hl _⟩ hr)

/-- A phase at which operations stop goes on only when a status byte is ready. -/
theorem State.Polling.readyCount (h : s.Polling p) (hr : p.perform s = .goOn u) :
    s.readyCount < u.readyCount := by
  cases p with
  | wait addr =>
    simp only [Phase.perform, State.waitTurn] at hr
    split at hr
    · next hready =>
      cases hr
      refine readyCount_of_read (addr := addr) (b := (s.poll addr).1) ?_ hready
      rw [poll_trace, Env.read_one]
      rfl
    · split at hr <;> cases hr
  | wl turn rom1 rom2 => exact wlRun_readyCount h hr
  | _ => exact h.elim

/-- Without a limit no phase fails. -/
theorem perform_ne_fail (hl : s.cfg.pollLimit = none) (p : Phase) (cause : Cause) (info : BitVec 24) :
    p.perform s ≠ .fail cause info u := by
  intro hr
  have hcfg := (busStable_cfg s.cfg).perform p (s := s) rfl
  rw [hr] at hcfg
  obtain ⟨-, -, hlimit⟩ := perform_fail hr
  exact hlimit ((congrArg Config.pollLimit hcfg).trans hl)

/-- An operation that is at such a phase, and is answered no ready byte, does not end. -/
theorem State.Polling.runPhases (h : s.Polling p) (hl : s.cfg.pollLimit = none)
    (hr : (s.runPhases c (p :: rest)).readyCount ≤ s.readyCount) :
    (s.runPhases c (p :: rest)).seq ≠ .idle := by
  rw [State.runPhases] at hr ⊢
  cases hp : p.perform s with
  | goOn u =>
    rw [hp] at hr
    have hafter := (busStable_readyCount _).runPhases c rest (Nat.le_refl u.readyCount)
    exact absurd (hafter.trans hr) (Nat.not_le.2 (h.readyCount hp))
  | again now u => exact nofun
  | fail cause info u => exact absurd hp (perform_ne_fail hl p cause info)

/-- Nor does one that has yet to come to a wait. -/
theorem runPhases_wait_held {pre : List Phase} {addr : Addr} (hl : s.cfg.pollLimit = none)
    (hr : (s.runPhases c (pre ++ .wait addr :: rest)).readyCount ≤ s.readyCount) :
    (s.runPhases c (pre ++ .wait addr :: rest)).seq ≠ .idle := by
  induction pre generalizing s with
  | nil => exact State.Polling.runPhases trivial hl hr
  | cons p pre ih =>
    rw [List.cons_append, State.runPhases] at hr ⊢
    cases hp : p.perform s with
    | goOn u =>
      rw [hp] at hr
      have hcount := (busStable_readyCount _).perform p (Nat.le_refl s.readyCount)
      have hcfg := (busStable_cfg s.cfg).perform p (s := s) rfl
      rw [hp] at hcount hcfg
      exact ih ((congrArg Config.pollLimit hcfg).trans hl) (hr.trans hcount)
    | again now u => exact nofun
    | fail cause info u => exact absurd hp (perform_ne_fail hl p cause info)

/-- An operation in progress that is answered no ready byte goes on, and reads at every step. -/
theorem State.Suspended.drive (h : t.Suspended) (hl : t.cfg.pollLimit = none) (k : Nat)
    (hr : (t.drive k).readyCount ≤ t.readyCount) :
    (t.drive k).seq ≠ .idle ∧ t.trace.length + k ≤ (t.drive k).trace.length := by
  induction k generalizing t with
  | zero =>
    obtain ⟨c, now, rest, hseq, -⟩ := h
    exact ⟨by rw [State.drive, hseq]; exact nofun, Nat.le_refl _⟩
  | succ k ih =>
    have hstep : t.readyCount ≤ t.resume.readyCount :=
      (busStable_readyCount _).resume (Nat.le_refl t.readyCount)
    have hmore : t.resume.readyCount ≤ (t.drive (k + 1)).readyCount :=
      (busStable_readyCount _).drive k (Nat.le_refl t.resume.readyCount)
    have hne : t.resume.seq ≠ .idle := by
      obtain ⟨c, now, rest, hresume, -, -, hpoll⟩ := h.resume_eq
      rw [hresume] at hmore ⊢
      exact hpoll.runPhases hl (hmore.trans hr)
    have hstop := h.resume hne
    have hcfg : t.resume.cfg = t.cfg := (busStable_cfg t.cfg).resume rfl
    obtain ⟨hdrive, hlen⟩ := ih hstop.suspended (hcfg ▸ hl) (hr.trans hstep)
    refine ⟨hdrive, ?_⟩
    have hread := hstop.foundBusy.length_lt
    have hlen : t.resume.trace.length + k ≤ (t.drive (k + 1)).trace.length := hlen
    omega

end

/-- An operation that waits comes to a wait. -/
theorem phasesOf_wait (cfg : Config) {i : Instr} (h : waits i = true) :
    ∃ pre addr post, phasesOf cfg i = pre ++ .wait addr :: post := by
  cases i with
  | showHidden | hide => exact ⟨[_, _], _, _, rfl⟩
  | chipErase | hiddenErase => exact ⟨[_, _, _], _, _, rfl⟩
  | hiddenWrite => exact ⟨[_, _], _, _, rfl⟩
  | waitReady => exact ⟨[_], _, _, rfl⟩
  | writeRom => exact ⟨[_, _, _], _, _, rfl⟩
  | writeMap => exact ⟨[_, _, _, _], _, _, rfl⟩
  | verifyMap => exact ⟨[_, _], _, _, rfl⟩
  | _ => cases h

/-- A loop over streams that are not both empty has one that is live at its start. -/
theorem wlInit_live (s : State) {rom1 rom2 : List Byte} (hok : streamsOk rom1 rom2 = true)
    (hne : rom1 ++ rom2 ≠ []) : ∃ c, (s.wlInit rom1 rom2).live c = true := by
  have hinv := loopInv_wlInit s hok
  have hlive : ∀ c, streamOf rom1 rom2 c ≠ [] → (s.wlInit rom1 rom2).live c = true := fun c hc =>
    live_iff.2 ⟨by cases c <;> rfl, .inr (by
      rw [hinv.len c]
      cases c <;> exact List.length_pos_of_ne_nil hc)⟩
  rcases eq_or_ne rom1 [] with rfl | h1
  · exact ⟨.b, hlive .b hne⟩
  · exact ⟨.a, hlive .a h1⟩

/-- An operation that has something to wait for. -/
def mustWait (i : Instr) : Prop :=
  waits i = true ∨ ∃ rom1 rom2, i = .writeLoop rom1 rom2 ∧ rom1 ++ rom2 ≠ []

/-- Its first step does not end it, unless a ready status byte is read. -/
theorem exec_held {s t : State} {i : Instr} (hi : mustWait i) (h : s.Ready)
    (hw : needsRelease i = true → s.wpr = true) (hok : i.wellFormed = true) (hl : s.cfg.pollLimit = none)
    (he : exec i s = .next t) (hr : t.readyCount ≤ s.readyCount) : t.seq ≠ .idle := by
  obtain hwait | ⟨rom1, rom2, rfl, hne⟩ := hi
  · rw [exec_operate_phases (by simp [runsInPhases, hwait]), State.operate_run h hw hok] at he
    cases he
    obtain ⟨pre, addr, post, hphases⟩ := phasesOf_wait s.cfg hwait
    rw [hphases] at hr ⊢
    exact runPhases_wait_held hl hr
  · have hok : streamsOk rom1 rom2 = true := hok
    cases (exec_writeLoop ⟨h, hw rfl⟩ hok).symm.trans he
    exact State.Polling.runPhases (s := s.wlInit rom1 rom2) (p := .wl .a rom1 rom2)
      (wlInit_live s hok hne) hl hr

/-- `WAIT_READY` without a limit, none of whose answers is ready. -/
theorem waitReady_held {s : State} {addr : Addr} {k : Nat} (h : s.Ready) (hl : s.cfg.pollLimit = none)
    (hb : ∀ b ∈ (s.env.polls s.cfg addr (k + 1)).1, isReady b = false) :
    ∃ t, s.Runs (.waitReady addr) k t ∧ s.Held t ∧
      t.trace = s.trace ++ polled addr (s.env.polls s.cfg addr (k + 1)).1 := by
  have hdrive := drive_wait_busy (s := { s with pcnt := 0 }) (addr := addr) false
    [.doneStatus (chipOf addr)] h.1.1 hb (fun n hn => by cases hl.symm.trans hn)
  exact ⟨_, ⟨_, exec_waitReady h, hdrive⟩, ⟨nofun, rfl, rfl, rfl⟩, rfl⟩

/-- Settles O15: an operation goes on past a status read only when that is ready, and without a limit it
does not fail; so with none ready it stays in progress, and each of its steps makes a read. -/
theorem waitHangsWithoutReady : Obligations.WaitHangsWithoutReady := by
  refine ⟨?_, ?_, ?_, ?_⟩
  · intro s addr k r h hl hb
    exact waitReady_held h hl hb
  · intro s i n t ev hi h hw hok hl hr htrace hnone
    have hwait : mustWait i := by
      cases i with
      | writeLoop rom1 rom2 => exact .inr ⟨rom1, rom2, rfl, hi⟩
      | _ => exact .inl hi
    obtain ⟨t0, he, rfl⟩ := id hr
    have hcount : (t0.drive n).readyCount = s.readyCount := by simp [readyCount_eq htrace, hnone]
    have hfirst : s.readyCount ≤ t0.readyCount := (busStable_readyCount _).exec he (Nat.le_refl _)
    have hrest : t0.readyCount ≤ (t0.drive n).readyCount :=
      (busStable_readyCount _).drive n (Nat.le_refl t0.readyCount)
    have hcfg : t0.cfg = s.cfg := (busStable_cfg s.cfg).exec he rfl
    have hstop : s.StoppedBusy t0 := runs_stoppedBusy (n := 0) ⟨t0, he, rfl⟩
      (exec_held hwait h hw hok hl he (hrest.trans_eq hcount))
    obtain ⟨hne, hlen⟩ := hstop.suspended.drive (hcfg ▸ hl) n (hcount.trans_le hfirst)
    have hread := hstop.foundBusy.length_lt
    rw [htrace, List.length_append] at hlen
    exact ⟨runs_held hr hne, by omega⟩
  · intro s i n k t ev hl hr hne htrace hnone
    have hcfg : t.cfg = s.cfg := (busStable_cfg s.cfg).runs hr rfl
    obtain ⟨hdrive, hlen⟩ := (runs_stoppedBusy hr hne).suspended.drive (hcfg ▸ hl) k
      (by simp [readyCount_eq htrace, hnone])
    have hruns : s.Runs i (n + k) (t.drive k) := by
      obtain ⟨t0, he, rfl⟩ := hr
      exact ⟨t0, he, drive_add n k t0⟩
    rw [htrace, List.length_append] at hlen
    exact ⟨runs_held hruns hdrive, by omega⟩
  · intro s i n t hr hne
    exact ⟨runs_held hr hne, (runs_stoppedBusy hr hne).foundBusy⟩

end Sys2Proof.Machine


/-! Reset: the values the spec gives, and the invariants it meets. -/

namespace Sys2Proof.Machine

open Sys2Proof

/-- Settles O39: each value is the field of `State.reset`. -/
theorem resetState : Obligations.ResetState := ⟨rfl, rfl, rfl, rfl, rfl, rfl, rfl, rfl⟩

/-- At reset both streams are empty, with no page outstanding. -/
theorem streamLegal_reset : streamLegal 0 0 false false := (streamLegal_start (rom := []) rfl).1

theorem inRange_reset : State.reset.InRange where
  stream := fun c => by cases c <;> exact streamLegal_reset
  voff := Nat.zero_le _
  pbuf := List.length_replicate
  rbuf := List.length_replicate

/-- Settles O40: no operation is in progress, the session is closed and the directory ended; the registers are
zero and the memories empty. -/
theorem resetMeetsInvariants : Obligations.ResetMeetsInvariants := by
  refine ⟨⟨fun _ => rfl, fun h => absurd rfl h⟩, ⟨Nat.zero_le _, fun _ => rfl⟩, rcOk_mem_legalCodes,
    workLegal_iff.2 ⟨inRange_reset, .of_idle rfl⟩, ?_, ?_⟩
  · decide
  · decide

end Sys2Proof.Machine


/-! The environment contract through the composite operations: each chip takes commands, or answers the status of
an operation in flight. -/

namespace Sys2Proof.Machine

open Sys2Proof

/-! ### Chips that take commands, or have an operation in flight -/

/-- The chip's behaviour is specified and it has received nothing of a command. If `busy` it has an operation in
flight and answers its status, else none. -/
structure ChipState.Serving (st : ChipState) (busy : Bool) : Prop where
  latch : st.latch = .idle
  mode : st.mode ≠ .lost
  op : st.op = .none ↔ busy = false
  status : busy = true → st.mode = .status

/-- The contract, but for the operations in flight on the chips in `busy`. -/
structure Env.Serving (e : Env) (busy : PerChip Bool) : Prop where
  mapped : e.dev.mapped = true
  released : e.dev.protect = .released
  chip : ∀ c, (e.chip.get c).Serving (busy.get c)

theorem ChipState.quiet_iff_serving {st : ChipState} : st.quiet ↔ st.Serving false := by
  constructor
  · rintro ⟨hmode, hop, hlatch⟩
    exact ⟨hlatch, hmode, iff_of_true hop rfl, nofun⟩
  · rintro ⟨hlatch, hmode, hop, -⟩
    exact ⟨hmode, hop.2 rfl, hlatch⟩

theorem Env.contract_iff_serving {e : Env} : e.Contract ↔ e.Serving ⟨false, false⟩ := by
  constructor
  · intro h
    exact ⟨h.1, h.2.1, fun c => by cases c <;> exact ChipState.quiet_iff_serving.1 (h.quiet _)⟩
  · rintro ⟨hm, hp, hc⟩
    exact ⟨hm, hp, ChipState.quiet_iff_serving.2 (hc .a), ChipState.quiet_iff_serving.2 (hc .b)⟩

section
variable {cfg : Config} {e e' : Env} {busy busy' : PerChip Bool} {c : Chip}

theorem Env.Serving.listening (h : e.Serving busy) (hb : busy.get c = false) :
    (e.chip.get c).Listening .idle := by
  obtain ⟨hlatch, hmode, hop, -⟩ := h.chip c
  exact ⟨hmode, hop.2 hb, hlatch, .inl rfl⟩

/-- Chips that hear the last byte of a command have its operation in flight. -/
theorem Env.Serving.start {chips : Chip → Prop} {op : ChipOp} (h : e.Serving busy)
    (hsent : e.HeardBy e' chips fun _ => .start op) (hop : op ≠ .none)
    (hself : ∀ d, chips d → busy'.get d = true) (hother : ∀ d, ¬chips d → busy'.get d = busy.get d) :
    e'.Serving busy' := by
  refine ⟨hsent.mapped h.mapped, hsent.dev ▸ h.released, fun d => ?_⟩
  by_cases hd : chips d
  · rw [hsent.self d hd, hself d hd]
    exact ⟨rfl, nofun, iff_of_false hop nofun, fun _ => rfl⟩
  · rw [hsent.other d hd, hother d hd]
    exact h.chip d

/-- A page sent to a chip that takes it. -/
theorem Env.Serving.page {cmd : Byte} {addr : Addr} {page : List Byte} (h : e.Serving busy)
    (hb : busy.get c = false) (hin : pageIn c addr page = true) (hcmd : cmd = cmdProgram ∨ cmd = cmdHProgram)
    (htarget : pageTarget c cmd addr = true) :
    (e.after cfg (pageEvents cfg cmd addr page)).Serving (busy.set c true) := by
  refine h.start (pageEvents_hears h.mapped (h.listening hb) hin hcmd htarget) ?_ ?_ ?_
  · rcases hcmd with rfl | rfl <;> simp [Latch.awaited, cmdProgram, cmdHProgram]
  · rintro d rfl
    exact PerChip_get_set_self ..
  · exact fun d hd => PerChip_get_set_of_ne _ _ hd

/-- An operation seen complete leaves the chip's behaviour specified. -/
theorem Env.complete_mode {err : Bool} (h : (e.chip.get c).mode ≠ .lost) :
    ((e.complete c err).chip.get c).mode ≠ .lost := by
  unfold Env.complete
  simp only
  split
  · exact h
  · unfold Env.eraseArray; simp only; split <;> simpa using h
  · simpa [Env.eraseHidden] using h
  · simpa [Env.programPage] using h
  · simpa [Env.programHidden] using h
  · simp
  · simp

/-- The operation in flight on a chip, seen complete. -/
theorem Env.Serving.complete {err : Bool} (h : e.Serving busy) (hdone : e.Completes e' c err) :
    e'.Serving (busy.set c false) := by
  refine ⟨hdone.dev ▸ h.mapped, hdone.dev ▸ h.released, fun d => ?_⟩
  rcases eq_or_ne d c with rfl | hd
  · obtain ⟨e1, -, rfl⟩ := hdone
    obtain ⟨hop, hlatch⟩ := (e1.setChip d { e.chip.get d with failed := err }).complete_get_self d err
    rw [PerChip_get_set_self]
    exact ⟨hlatch.trans (by simpa using (h.chip d).latch), Env.complete_mode (by simpa using (h.chip d).mode),
      iff_of_true hop rfl, nofun⟩
  · rw [hdone.other hd, PerChip_get_set_of_ne _ _ hd]
    exact h.chip d

/-- A status read of a chip with an operation in flight: busy, or seen complete. -/
theorem Env.Serving.read (h : e.Serving busy) (hb : busy.get c = true) :
    (e.read cfg (base c) 1).2.Serving
      (if isReady ((e.read cfg (base c) 1).1.headD 0) then busy.set c false else busy) := by
  have hat : chipOf (base c) = c := by cases c <;> rfl
  have hop : (e.chip.get c).op ≠ .none := fun hop => by simp [(h.chip c).op.1 hop] at hb
  obtain ⟨hbusy, hready⟩ := Env.read_status (cfg := cfg) (statusAt_base h.mapped ((h.chip c).status hb))
    (by rwa [hat])
  rw [hat] at hready
  split
  · next hr => exact h.complete (hready hr)
  · next hr =>
    have hdrawn := hbusy (by simpa using hr)
    exact ⟨hdrawn.mapped h.mapped, hdrawn.dev ▸ h.released, fun d => hdrawn.chip ▸ h.chip d⟩

/-- The writes of an erase start it on both chips. -/
theorem Env.Contract.erase {i : Instr} {op : ChipOp} (hi : Erases i op) (h : e.Contract) :
    (e.after cfg (globalWrites cfg i)).Serving ⟨true, true⟩ := by
  refine (Env.contract_iff_serving.1 h).start (erase_starts hi h) ?_ (fun d _ => by cases d <;> rfl)
    fun _ hd => absurd trivial hd
  rcases hi with ⟨-, rfl⟩ | ⟨-, rfl⟩ <;> nofun

/-- READ_RESET keeps the contract. -/
theorem Env.Contract.readReset (h : e.Contract) : (e.after cfg (globalUnlock cfg 0xF0#8)).Contract := by
  have hl : ∀ c, (e.chip.get c).Listening .idle := fun c => (h.quiet c).listening
  obtain ⟨-, hdev, -⟩ := readReset_array (cfg := cfg) h.1 hl
  have hquiet : ∀ c, ((e.after cfg (globalUnlock cfg 0xF0#8)).chip.get c).quiet := fun c => by
    rw [readReset_chip h.1 hl c]
    exact ⟨nofun, (hl c).op, rfl⟩
  exact ⟨hdev ▸ h.1, hdev ▸ h.2.1, hquiet .a, hquiet .b⟩

end

/-! ### At every point of an operation -/

/-- No limit on the polls, and the chips serve, those in `busy` with an operation in flight. -/
structure State.InService (busy : PerChip Bool) (s : State) : Prop where
  unlimited : s.cfg.pollLimit = none
  env : s.env.Serving busy

/-- No chip is lost, and if the operation has ended the contract holds. -/
def State.KeepsContract (s : State) : Prop :=
  (∀ c, (s.env.chip.get c).mode ≠ .lost) ∧ (s.seq = .idle → s.env.Contract)

section
variable {busy : PerChip Bool} {s : State} {c : Bool} {rest : List Phase}

theorem State.InService.contract (h : s.InService ⟨false, false⟩) : s.env.Contract :=
  Env.contract_iff_serving.2 h.env

/-- At a busy answer. -/
theorem State.InService.suspended (h : s.InService busy) (now : Phase) :
    State.KeepsContract { s with seq := .running c now rest } :=
  ⟨fun d => (h.env.chip d).mode, nofun⟩

/-- At the end. -/
theorem Env.Contract.ended (h : s.env.Contract) (rc : BitVec 8) (res : BitVec 24) :
    (s.finish rc res).Always State.KeepsContract :=
  .of_idle rfl ⟨fun d => (h.quiet d).1, fun _ => h⟩

theorem waitRule {d : Chip} (hb : busy.get d = true) :
    PhaseRule (State.InService busy) (· = .wait (base d)) (State.InService (busy.set d false)) where
  seq := fun _ _ h => ⟨h.unlimited, h.env⟩
  perform := by
    rintro _ s rfl ⟨hl, henv⟩
    have hread : (s.poll (base d)).2.env.Serving
        (if isReady (s.poll (base d)).1 then busy.set d false else busy) := henv.read hb
    show (s.waitTurn (base d)).Leaves _ _ _
    unfold State.waitTurn
    simp only
    split
    · next hr => exact ⟨hl, by rwa [if_pos hr] at hread⟩
    · next hr =>
      rw [if_neg hr] at hread
      split
      · exact ⟨hl, hread⟩
      · exact ⟨⟨hl, hread⟩, rfl⟩

/-- A wait for a chip with an operation in flight. -/
theorem always_wait {d : Chip} (h : s.InService busy) (hb : busy.get d = true)
    (hrest : ∀ u : State, u.InService (busy.set d false) → (u.runPhases c rest).Always State.KeepsContract) :
    (s.runPhases c (waitPhases (base d) ++ rest)).Always State.KeepsContract :=
  always_phase (waitRule hb) (fun _ now hu _ => hu.suspended now)
    (fun _ _ hu _ hlimit => absurd hu.unlimited hlimit) hrest rfl (s := { s with pcnt := 0 })
    ⟨h.unlimited, h.env⟩

/-- A wait for both. -/
theorem always_waitBoth (h : s.InService ⟨true, true⟩)
    (hrest : ∀ u : State, u.InService ⟨false, false⟩ → (u.runPhases c rest).Always State.KeepsContract) :
    (s.runPhases c (waitBoth ++ rest)).Always State.KeepsContract :=
  always_wait (d := .a) h rfl fun _ hu => always_wait (d := .b) hu rfl hrest

/-- An erase: its writes, and the wait for both chips. -/
theorem always_erase {i : Instr} {op : ChipOp} (hi : Erases i op) (hl : s.cfg.pollLimit = none)
    (h : s.env.Contract)
    (hrest : ∀ u : State, u.InService ⟨false, false⟩ → (u.runPhases c rest).Always State.KeepsContract) :
    ((s.afterWrites (globalWrites s.cfg i)).runPhases c (waitBoth ++ rest)).Always State.KeepsContract :=
  always_waitBoth ⟨hl, h.erase hi⟩ hrest

/-- A page is issued to a chip that has none outstanding. -/
theorem State.InService.wlIssue {rom1 rom2 : List Byte} {d : Chip} (h : s.InService s.busy)
    (hinv : s.LoopInv rom1 rom2) (hlive : s.live d = true) (hb : s.busy.get d = false) :
    (s.wlIssue d (streamOf rom1 rom2 d)).InService (s.wlIssue d (streamOf rom1 rom2 d)).busy := by
  obtain ⟨-, hpage⟩ := hinv.pageIn hlive hb
  refine ⟨(congrArg Config.pollLimit (wlIssue_cfg ..)).trans h.unlimited, ?_⟩
  rw [wlIssue_env, wlIssue_busy]
  exact h.env.page hb hpage (.inl rfl) rfl

/-- A look ends the page outstanding when the status byte is ready. -/
theorem State.InService.wlLook {d : Chip} (h : s.InService s.busy) (hb : s.busy.get d = true) :
    (s.wlLook d).2.InService (s.wlLook d).2.busy := by
  obtain ⟨henv, -, hcfg⟩ := wlLook_bus s d
  have hbusy : (s.wlLook d).2.busy = if isReady (s.status d) then s.busy.set d false else s.busy := by
    obtain ⟨hs, hw⟩ | ⟨hs, hw⟩ | ⟨hs, hw⟩ := wlLook_cases s d <;> rw [hw]
    · simp [classify_busy.1 hs]
    · simp [(classify_ready.1 hs).1, State.wlReady]
    · simp [(classify_error.1 hs).1, State.wlError]
  refine ⟨(congrArg Config.pollLimit hcfg).trans h.unlimited, ?_⟩
  rw [henv, hbusy]
  exact h.env.read hb

/-- Where neither stream is live no page is outstanding. -/
theorem State.LoopInv.busy_eq {rom1 rom2 : List Byte} (h : s.LoopInv rom1 rom2)
    (hdead : ∀ d, s.live d = false) : s.busy = ⟨false, false⟩ := by
  have hnone : ∀ d, s.busy.get d = false := fun d => by
    by_contra hb
    have hb : s.busy.get d = true := by simpa using hb
    obtain ⟨-, -, -, -, hout⟩ := h.stream d
    have hlive := live_iff.2 ⟨(hout hb).2, .inl hb⟩
    rw [hdead d] at hlive
    cases hlive
  exact congrArg₂ PerChip.mk (hnone .a) (hnone .b)

/-- The writer loop. -/
theorem always_serving_loop {rom1 rom2 : List Byte} (hok : streamsOk rom1 rom2 = true)
    (h : s.InService ⟨false, false⟩)
    (hrest : ∀ u : State, u.InService ⟨false, false⟩ → (u.runPhases c rest).Always State.KeepsContract) :
    (s.runPhases c (writeLoopPhases rom1 rom2 ++ rest)).Always State.KeepsContract := by
  refine always_loop (P := fun u => u.InService u.busy) (fun _ _ hu => ⟨hu.unlimited, hu.env⟩)
    (fun _ _ hinv hu hlive hb => hu.wlIssue hinv hlive hb) (fun _ _ _ hu hb => hu.wlLook hb)
    (fun _ _ hu => hu.suspended _) (fun u hinv hu hdead => hrest u ?_) hok ⟨h.unlimited, h.env⟩
  rwa [hinv.busy_eq hdead] at hu

/-- A hidden page of a map. -/
theorem always_mapPage {map : List Byte} (hlen : map.length = 512) (k : Fin 4) (h : s.InService ⟨false, false⟩)
    (hrest : ∀ u : State, u.InService ⟨false, false⟩ → (u.runPhases c rest).Always State.KeepsContract) :
    (s.runPhases c (mapPagePhases map k ++ rest)).Always State.KeepsContract := by
  have hbank : bankBase (hiddenPage k) = base (hiddenChip k) := by revert k; decide
  obtain ⟨hin, htarget, -⟩ := hiddenPage_at k (length_mapPage hlen k)
  have hidle : PerChip.get ⟨false, false⟩ (hiddenChip k) = false := by cases hiddenChip k <;> rfl
  rw [runPhases_mapPage, hbank]
  refine always_wait ⟨h.unlimited, h.env.page hidle hin (.inr rfl) htarget⟩ (PerChip_get_set_self ..)
    fun u hu => ?_
  have hback : (PerChip.set (PerChip.set ⟨false, false⟩ (hiddenChip k) true) (hiddenChip k) false) =
      ⟨false, false⟩ := by cases hiddenChip k <;> rfl
  rw [hback] at hu
  exact hrest { u with err := _ } ⟨hu.unlimited, hu.env⟩

end

/-! ### The operations -/

section
variable {s t : State} {n : Nat}

/-- The two erases. -/
theorem erase_keepsContract {i : Instr} {op : ChipOp} (hi : Erases i op) (hrel : s.Released)
    (hc : s.env.Contract) (hl : s.cfg.pollLimit = none) (hr : s.Runs i n t) : t.KeepsContract := by
  obtain ⟨t0, he, rfl⟩ := hr
  cases (exec_erase hi hrel).symm.trans he
  refine always_erase hi hl hc (fun u hu => ?_) n
  exact hu.contract.ended rcOk 0

theorem readReset_keepsContract (hrel : s.Released) (hc : s.env.Contract) (hr : s.Runs .readReset n t) :
    t.KeepsContract := by
  obtain ⟨t0, he, rfl⟩ := hr
  cases (exec_readReset hrel.1).symm.trans he
  refine Env.Contract.ended ?_ _ _ n
  rw [State.readReset_eq]
  exact hc.readReset

theorem writeLoop_keepsContract {rom1 rom2 : List Byte} (hrel : s.Released) (hc : s.env.Contract)
    (hok : streamsOk rom1 rom2 = true) (hl : s.cfg.pollLimit = none) (hr : s.Runs (.writeLoop rom1 rom2) n t) :
    t.KeepsContract := by
  rw [← runs_writeLoop hrel hok hr]
  refine always_serving_loop hok ⟨hl, Env.contract_iff_serving.1 hc⟩ (fun u hu => ?_) n
  exact hu.contract.ended rcOk _

theorem writeRom_keepsContract {buf : List Byte} (hrel : s.Released) (hc : s.env.Contract)
    (hok : imageLengthOk maxRom buf = true) (hl : s.cfg.pollLimit = none) (hr : s.Runs (.writeRom buf) n t) :
    t.KeepsContract := by
  obtain ⟨t0, he, rfl⟩ := hr
  cases (exec_waitsFirst (i := .writeRom buf) rfl hrel.1 (fun _ => hrel.2) hok).symm.trans he
  refine always_erase (i := .chipErase) (.inl ⟨rfl, rfl⟩) hl hc (fun u hu => ?_) n
  refine always_serving_loop (streamsOk_rom hok) hu fun v hv => ?_
  show (v.runPhases true [.unlockGlobal cmdReset, .doneRom buf.length]).Always _
  rw [runPhases_romEnd]
  exact Env.Contract.ended hv.contract.readReset _ _

theorem writeMap_keepsContract {map : List Byte} (hrel : s.Released) (hc : s.env.Contract)
    (hlen : map.length = 512) (hl : s.cfg.pollLimit = none) (hr : s.Runs (.writeMap map) n t) :
    t.KeepsContract := by
  obtain ⟨t0, he, rfl⟩ := hr
  cases (exec_writeMap_erasing hrel hlen).symm.trans he
  refine always_erase (s := { s with err := false }) (i := .hiddenErase) (.inr ⟨rfl, rfl⟩) hl hc (fun u hu => ?_) n
  refine always_mapPage hlen 0 hu fun u hu => always_mapPage hlen 1 hu fun u hu =>
    always_mapPage hlen 2 hu fun u hu => always_mapPage hlen 3 hu fun u hu => ?_
  have hend := hu.contract.readReset (cfg := u.cfg)
  rw [runPhases_unlockGlobal]
  show State.Always _ { State.mapResult _ with seq := .idle }
  unfold State.mapResult
  split <;> exact Env.Contract.ended (s := u.afterWrites _) hend _ _

end

/-- Settles O57: every command goes to chips with nothing in flight, and every wait and every look finds the
operation it waits for. -/
theorem compositesKeepContract : Obligations.CompositesKeepContract := by
  intro s i n t hi hrel hc hok hl hr
  cases i with
  | chipErase => exact erase_keepsContract (.inl ⟨rfl, rfl⟩) hrel hc hl hr
  | hiddenErase => exact erase_keepsContract (.inr ⟨rfl, rfl⟩) hrel hc hl hr
  | readReset => exact readReset_keepsContract hrel hc hr
  | writeLoop rom1 rom2 => exact writeLoop_keepsContract hrel hc hok hl hr
  | writeRom buf => exact writeRom_keepsContract hrel hc hok hl hr
  | writeMap map => exact writeMap_keepsContract hrel hc (eq_of_beq hok) hl hr
  | _ => exact hi.elim

end Sys2Proof.Machine


/-! What no operation reads before it has written it: two engines that differ in working registers and `ENT` alone,
given the same operation. -/

namespace Sys2Proof.Machine

open Sys2Proof

/-! ### Operations that do not see the working registers -/

/-- But for the working registers and `ENT`, what `f` leaves does not depend on them. -/
def Blind (f : State → State) : Prop := ∀ s, (f s).forget = (f s.forget).forget

/-- What a state holds beside them is the same in two states that differ in nothing else. -/
theorem eq_of_forget {α : Type} (f : State → α) (hf : ∀ s, f s = f s.forget) {s t : State}
    (h : s.forget = t.forget) : f s = f t := by rw [hf s, hf t, h]

theorem Blind.eq {f : State → State} (hf : Blind f) {s t : State} (h : s.forget = t.forget) :
    (f s).forget = (f t).forget := by rw [hf s, hf t, h]

theorem Blind.comp {f g : State → State} (hg : Blind g) (hf : Blind f) : Blind fun s => g (f s) := fun s => by
  rw [hg (f s), hf s, ← hg (f s.forget)]

/-- A choice by what is no working register. -/
theorem Blind.ite {c : State → Prop} [DecidablePred c] {f g : State → State} (hf : Blind f) (hg : Blind g)
    (hc : ∀ s, c s ↔ c s.forget) : Blind fun s => if c s then f s else g s := fun s => by
  by_cases h : c s
  · simp only [if_pos h, if_pos ((hc s).1 h)]
    exact hf s
  · simp only [if_neg h, if_neg fun h' => h ((hc s).2 h')]
    exact hg s

/-- The checks before an operation see none. -/
theorem Blind.checked {body : State → State} {nr ok : Bool} {bad : Cause} (hb : Blind body) :
    Blind fun s => match s.check nr ok bad with
      | some cause => s.refuse cause
      | none => body s := fun s => by
  have hcheck : s.forget.check nr ok bad = s.check nr ok bad := rfl
  simp only [hcheck]
  cases s.check nr ok bad with
  | some cause => rfl
  | none => exact hb s

theorem blind_memWrites (ws : Config → List BusWrite) : Blind fun s => s.memWrites (ws s.cfg) := fun s => by
  simp only [memWrites_eq]
  rfl

theorem blind_readReset : Blind State.readReset := blind_memWrites fun cfg => unlockGlobalWrites cfg cmdReset

theorem blind_sendPage (cmd : Byte) (addr : Addr) (page : List Byte) :
    Blind fun s => s.sendPage cmd addr page := fun s => by
  simp only [State.sendPage_eq]
  rfl

theorem blind_finish (rc : BitVec 8) (res : BitVec 24) : Blind fun s => s.finish rc res := fun _ => rfl

theorem blind_mapReadBack (map : List Byte) : Blind fun s => s.mapReadBack map := fun s => by
  simp only [State.mapReadBack_eq]
  rfl

theorem wake_forget (s : State) (xs : List WakeStep) : (s.wake xs).forget = s.forget.wake xs := by
  induction xs generalizing s with
  | nil => rfl
  | cons x xs ih => exact (ih (s.wakeStep x)).trans (by cases x <;> rfl)

theorem blind_wake : Blind fun s => s.wake s.cfg.wakeSeq := fun s =>
  (wake_forget s s.cfg.wakeSeq).trans (wake_forget s.forget s.cfg.wakeSeq).symm

theorem blind_establish : Blind State.establish :=
  (blind_finish rcOk 0).comp (blind_readReset.comp (f := fun s =>
    State.memWrite { s with sess := .awake } s.cfg.modeAddr [s.cfg.modeValue]) fun _ => rfl)

theorem memRead_forget (s : State) (addr : Addr) (n : Nat) :
    s.forget.memRead addr n = ((s.memRead addr n).1, (s.memRead addr n).2.forget) := rfl

theorem readSegments_forget (s : State) (as : List Addr) :
    s.forget.readSegments as = ((s.readSegments as).1, (s.readSegments as).2.forget) := by
  induction as generalizing s with
  | nil => rfl
  | cons a as ih =>
    rw [State.readSegments, State.readSegments, memRead_forget, ih]

/-- The chunk loop reads the working register `VOFF` alone. -/
theorem verifyChunks_forget (n : Nat) (rest : List Byte) {s t : State} (h : s.forget = t.forget)
    (hv : s.voff = t.voff) :
    (State.verifyChunks n rest s).forget = (State.verifyChunks n rest t).forget ∧
      (State.verifyChunks n rest s).voff = (State.verifyChunks n rest t).voff := by
  induction n generalizing rest s t with
  | zero => exact ⟨h, hv⟩
  | succ n ih =>
    have hread : ∀ addr k, (s.memRead addr k).1 = (t.memRead addr k).1 ∧
        (s.memRead addr k).2.forget = (t.memRead addr k).2.forget := fun addr k => by
      have hboth := congrArg (State.memRead · addr k) h
      simpa only [memRead_forget, Prod.mk.injEq] using hboth
    unfold State.verifyChunks
    simp only [memRead_voff, hv, hread]
    split
    · exact ⟨h, hv⟩
    · split
      · exact ih _ (congrArg (State.notify · _) (hread _ _).2) rfl
      · exact ⟨(hread _ _).2, hv⟩

theorem blind_verifyRom (n len : Nat) (buf : List Byte) :
    Blind fun s => (State.verifyChunks n buf { s with voff := 0 }).verifyResult len := fun s => by
  obtain ⟨hforget, hvoff⟩ := verifyChunks_forget n buf (s := { s with voff := 0 })
    (t := { s.forget with voff := 0 }) rfl rfl
  simp only [State.verifyResult, hvoff]
  split <;> exact (blind_finish _ _).eq hforget

theorem blind_dirNext_read : Blind fun s =>
    let r := s.memRead (slotAddr s.cfg s.slot.toNat) dirRecLen
    let s1 := { r.2 with rbuf := r.1 }
    if recByte s1.rbuf 0 = dirSentinel then { s1 with dend := true }.succeed 0 else s1.takeEntry :=
  Blind.ite (c := fun s => recByte (s.memRead (slotAddr s.cfg s.slot.toNat) dirRecLen).1 0 = dirSentinel)
    (fun _ => rfl) (fun _ => rfl) fun _ => Iff.rfl

/-- No operation without phases sees the working registers. -/
theorem exec_immediate_blind {i : Instr} (hi : runsInPhases i = false) :
    ∃ body : State → State, (∀ s, exec i s = s.accept body) ∧ Blind body := by
  cases i with
  | unlockAndGlobal cmd =>
    exact ⟨_, fun _ => rfl, .checked ((blind_finish _ _).comp (blind_memWrites (unlockGlobalWrites · cmd)))⟩
  | unlockAndLocal addr cmd =>
    exact ⟨_, fun _ => rfl, .checked ((blind_finish _ _).comp (blind_memWrites (unlockLocalWrites · addr cmd)))⟩
  | readReset => exact ⟨_, fun _ => rfl, .checked ((blind_finish _ _).comp blind_readReset)⟩
  | pageWrite addr page =>
    exact ⟨_, fun _ => rfl, .checked ((blind_finish _ _).comp (blind_sendPage cmdProgram addr page))⟩
  | statusStep c => exact ⟨_, fun _ => rfl, .checked (fun _ => rfl)⟩
  | verifyRom buf => exact ⟨_, fun _ => rfl, .checked (blind_verifyRom _ _ buf)⟩
  | dirPresent => exact ⟨_, fun _ => rfl, .checked (fun _ => rfl)⟩
  | dirOpen => exact ⟨_, fun _ => rfl, .checked (fun _ => rfl)⟩
  | dirNext =>
    exact ⟨_, fun _ => rfl, .checked (.ite (blind_finish _ _) blind_dirNext_read fun _ => Iff.rfl)⟩
  | sessionOpen =>
    exact ⟨_, fun _ => rfl, Blind.ite (c := fun s => (s.readByte devReg0).1 = devAwake)
      (blind_establish.comp (f := fun s => (State.readByte _ devReg0).2) fun _ => rfl)
      (.ite (c := fun s => (s.readByte devReg0).1 = devAsleep)
        (blind_establish.comp (blind_wake.comp (f := fun s => (State.readByte _ devReg0).2) fun _ => rfl))
        (fun _ => rfl) fun _ => Iff.rfl) fun _ => Iff.rfl⟩
  | wpRelease => exact ⟨_, fun _ => rfl, .checked (fun _ => rfl)⟩
  | wpAssert => exact ⟨_, fun _ => rfl, .checked (fun _ => rfl)⟩
  | sessionClose =>
    exact ⟨_, fun _ => rfl, Blind.comp (g := fun s => State.succeed { s with wpr := false, sess := .closed } 0)
      (fun _ => rfl) (.ite (c := fun s => s.sess = .awake)
        (Blind.comp (g := fun s => s.memWrite devReg0 [wpSet]) (fun _ => rfl) blind_readReset) (fun _ => rfl)
        fun _ => Iff.rfl)⟩
  | sramWrite buf =>
    exact ⟨_, fun _ => rfl, .checked ((blind_finish _ _).comp
      (blind_memWrites fun cfg => sramWrites cfg.sramAddr buf))⟩
  | sramVerify buf =>
    refine ⟨_, fun _ => rfl, .checked (fun s => ?_)⟩
    have hcfg : s.forget.cfg = s.cfg := rfl
    simp only [hcfg, readSegments_forget]
    split <;> rfl
  | _ => cases hi

/-! ### What phases read before they write it -/

/-- The working registers that one phase leaves for another: the four of the writer loop, `PCNT`, `ERR` and `ST`. -/
inductive WorkReg where
  | streams
  | pcnt
  | err
  | st (c : Chip)

/-- What phase `p` reads of them before it writes it. -/
def Phase.reads : Phase → Set WorkReg
  | .wait _ => {.pcnt}
  | .orErr c => {.err, .st c}
  | .wl _ _ _ => {.streams}
  | .doneStatus c => {.st c}
  | .doneErr c => {.st c}
  | .doneCount => {.streams}
  | .doneRom _ => {.streams}
  | .doneMap => {.err}
  | .unlockGlobal _ | .rawSeq _ | .page _ _ _ | .waitStart | .clearErr | .wlInit _ _ | .mapReadBack _ | .done => ∅

/-- What phase `p` sets of them, whatever they held before. -/
def Phase.sets : Phase → Set WorkReg
  | .waitStart => {.pcnt}
  | .wait addr => {.st (chipOf addr)}
  | .clearErr => {.err}
  | .wlInit _ _ => {.streams}
  | .unlockGlobal _ | .rawSeq _ | .page _ _ _ | .orErr _ | .wl _ _ _ | .mapReadBack _ | .done | .doneStatus _
  | .doneErr _ | .doneCount | .doneRom _ | .doneMap => ∅

/-- What phases read before one of them has set it. -/
def readFirst : List Phase → Set WorkReg
  | [] => ∅
  | p :: rest => p.reads ∪ (readFirst rest \ p.sets)

/-- No operation reads a working register first. -/
theorem readFirst_phasesOf (cfg : Config) (i : Instr) : readFirst (phasesOf cfg i) = ∅ := by
  ext r
  cases i <;> simp [phasesOf, rawPhases, chipErasePhases, hiddenErasePhases, hiddenWritePhases, mapPagePhases,
    writeLoopPhases, waitBoth, waitPhases, readFirst, Phase.reads, Phase.sets]

/-! ### Two engines that agree on what is read first -/

/-- The register is the same in both. -/
def State.SameReg (s t : State) : WorkReg → Prop
  | .streams => s.cur = t.cur ∧ s.len = t.len ∧ s.busy = t.busy ∧ s.abort = t.abort
  | .pcnt => s.pcnt = t.pcnt
  | .err => s.err = t.err
  | .st c => s.st.get c = t.st.get c

/-- The two differ in working registers and `ENT` alone, and in none of the registers `K`. -/
structure State.Agree (K : Set WorkReg) (s t : State) : Prop where
  forget : s.forget = t.forget
  reg : ∀ r ∈ K, s.SameReg t r

/-- The working registers of `WorkReg`. -/
def State.work (s : State) :=
  (s.cur, s.len, s.busy, s.abort, s.pcnt, s.err, s.st)

section
variable {K : Set WorkReg} {s t s' t' : State} {p : Phase} {rest : List Phase} {rom1 rom2 : List Byte}

theorem State.SameReg.congr {r : WorkReg} (h : s.SameReg t r) (hs : s'.work = s.work) (ht : t'.work = t.work) :
    s'.SameReg t' r := by
  simp only [State.work, Prod.mk.injEq] at hs ht
  cases r <;> simpa only [State.SameReg, hs, ht] using h

/-- After a phase, what the phases after it read first agrees: the phase has set it, or it agreed before. -/
theorem State.Agree.next (h : s.Agree (readFirst (p :: rest)) t) (hforget : s'.forget = t'.forget)
    (hreg : ∀ r, r ∈ p.sets ∨ s.SameReg t r → s'.SameReg t' r) : s'.Agree (readFirst rest) t' := by
  refine ⟨hforget, fun r hr => hreg r ?_⟩
  by_cases hset : r ∈ p.sets
  · exact .inl hset
  · exact .inr (h.reg r (.inr ⟨hr, hset⟩))

/-- A phase that leaves these registers alone. -/
theorem State.Agree.same {f : State → State} (h : s.Agree (readFirst (p :: rest)) t) (hp : p.sets = ∅)
    (hf : Blind f) (hw : ∀ u, (f u).work = u.work) : (f s).Agree (readFirst rest) (f t) := by
  refine h.next (hf.eq h.forget) fun r hr => ?_
  rw [hp] at hr
  exact (hr.resolve_left (Set.notMem_empty r)).congr (hw s) (hw t)

/-- A read whose answer chip `c`'s status latches. -/
theorem sameReg_latch (c : Chip) (b : Byte) (n : Nat) {r : WorkReg} (hr : r = .st c ∨ s.SameReg t r)
    (hs : s'.work = State.work { s with st := s.st.set c b, pcnt := s.pcnt + n })
    (ht : t'.work = State.work { t with st := t.st.set c b, pcnt := t.pcnt + n }) : s'.SameReg t' r := by
  refine State.SameReg.congr ?_ hs ht
  cases r with
  | streams => exact hr.resolve_left nofun
  | pcnt => exact congrArg (· + n) (hr.resolve_left nofun)
  | err => exact hr.resolve_left nofun
  | st d =>
    show (s.st.set c b).get d = (t.st.set c b).get d
    rcases eq_or_ne d c with rfl | hd
    · rw [PerChip_get_set_self, PerChip_get_set_self]
    · rw [PerChip_get_set_of_ne _ _ hd, PerChip_get_set_of_ne _ _ hd]
      exact hr.resolve_left fun h => hd (WorkReg.st.inj h)

/-- How phases of which `rest` remain leave two engines: in the same way, and in agreement on what is read first. -/
inductive Progress.Agree (rest : List Phase) : Progress → Progress → Prop
  | goOn {s t : State} (h : s.Agree (readFirst rest) t) : Progress.Agree rest (.goOn s) (.goOn t)
  | again {p : Phase} {s t : State} (h : s.Agree (readFirst (p :: rest)) t) :
    Progress.Agree rest (.again p s) (.again p t)
  | fail {cause : Cause} {info : BitVec 24} {s t : State} (h : s.forget = t.forget) :
    Progress.Agree rest (.fail cause info s) (.fail cause info t)

/-! ### One phase -/

theorem State.Agree.waitTurn {addr : Addr} (h : s.Agree (readFirst (.wait addr :: rest)) t) :
    Progress.Agree rest (s.waitTurn addr) (t.waitTurn addr) := by
  have hbyte : (s.poll addr).1 = (t.poll addr).1 := eq_of_forget (fun u => (u.poll addr).1) (fun _ => rfl) h.forget
  have hforget : (s.poll addr).2.forget = (t.poll addr).2.forget :=
    Blind.eq (f := fun u => (u.poll addr).2) (fun _ => rfl) h.forget
  have hreg : ∀ r, r = .st (chipOf addr) ∨ s.SameReg t r → (s.poll addr).2.SameReg (t.poll addr).2 r :=
    fun r hr => sameReg_latch (chipOf addr) (s.poll addr).1 1 hr rfl (by rw [hbyte]; rfl)
  have hpcnt : (s.poll addr).2.pcnt = (t.poll addr).2.pcnt := hreg .pcnt (.inr (h.reg .pcnt (.inl rfl)))
  have hcfg : (s.poll addr).2.cfg = (t.poll addr).2.cfg := eq_of_forget State.cfg (fun _ => rfl) hforget
  have htimed : (s.poll addr).2.timedOut = (t.poll addr).2.timedOut := by
    unfold State.timedOut
    rw [hcfg, hpcnt]
  unfold State.waitTurn
  simp only [hbyte, htimed]
  split
  · exact .goOn (h.next hforget hreg)
  · split
    · exact .fail hforget
    · exact .again ⟨hforget, fun r hr => hreg r (.inr (h.reg r hr))⟩

theorem State.Agree.cfg (h : s.Agree K t) : s.cfg = t.cfg :=
  eq_of_forget State.cfg (fun _ => rfl) h.forget

theorem State.Agree.live (h : s.Agree K t) (hK : .streams ∈ K) (c : Chip) : s.live c = t.live c := by
  obtain ⟨hcur, hlen, hbusy, habort⟩ := h.reg _ hK
  simp only [State.live, hcur, hlen, hbusy, habort]

theorem State.Agree.wlIssue (h : s.Agree K t) (hK : .streams ∈ K) (c : Chip) (rom : List Byte) :
    (s.wlIssue c rom).Agree K (t.wlIssue c rom) := by
  obtain ⟨hcur, hlen, hbusy, habort⟩ := h.reg _ hK
  have hwork : ∀ u : State, (u.wlIssue c rom).work = State.work { u with busy := u.busy.set c true } := fun u => by
    simp [State.work, State.wlIssue, State.sendPage_eq]
  have hforget : ∀ u : State, (u.wlIssue c rom).forget =
      (u.sendPage cmdProgram (pageAddr c (u.cur.get c).toNat) (pageOf rom (u.cur.get c).toNat)).forget := fun _ => rfl
  refine ⟨?_, fun r hr => State.SameReg.congr ?_ (hwork s) (hwork t)⟩
  · rw [hforget, hforget, hcur]
    exact (blind_sendPage _ _ _).eq h.forget
  · cases r with
    | streams => exact ⟨hcur, hlen, congrArg (PerChip.set · c true) hbusy, habort⟩
    | _ => exact h.reg _ hr

theorem State.Agree.look (h : s.Agree K t) (c : Chip) :
    (s.look c).1 = (t.look c).1 ∧ (s.look c).2.Agree K (t.look c).2 := by
  have hbyte : (s.readByte (base c)).1 = (t.readByte (base c)).1 :=
    eq_of_forget (fun u => (u.readByte (base c)).1) (fun _ => rfl) h.forget
  refine ⟨congrArg classify hbyte, Blind.eq (f := fun u => (u.look c).2) (fun _ => rfl) h.forget, fun r hr => ?_⟩
  exact sameReg_latch c (s.readByte (base c)).1 0 (.inr (h.reg r hr)) rfl (by rw [hbyte]; rfl)

theorem State.Agree.wlReady (h : s.Agree K t) (hK : .streams ∈ K) (c : Chip) :
    (s.wlReady c).Agree K (t.wlReady c) := by
  obtain ⟨hcur, hlen, hbusy, habort⟩ := h.reg _ hK
  have hforget : ∀ u : State, (u.wlReady c).forget = u.forget.notify
      ((u.cur.set c (u.cur.get c + 128#22)).a.toNat + (u.cur.set c (u.cur.get c + 128#22)).b.toNat) := fun _ => rfl
  refine ⟨by rw [hforget, hforget, h.forget, hcur], fun r hr => ?_⟩
  cases r with
  | streams =>
    exact ⟨congrArg (fun cur => PerChip.set cur c (cur.get c + 128#22)) hcur, hlen,
      congrArg (PerChip.set · c false) hbusy, habort⟩
  | _ => exact h.reg _ hr

theorem State.Agree.wlError (h : s.Agree K t) (hK : .streams ∈ K) (c : Chip) :
    (s.wlError c).Agree K (t.wlError c) := by
  obtain ⟨hcur, hlen, hbusy, habort⟩ := h.reg _ hK
  refine ⟨h.forget, fun r hr => ?_⟩
  cases r with
  | streams => exact ⟨hcur, hlen, congrArg (PerChip.set · c false) hbusy, congrArg (PerChip.set · c true) habort⟩
  | _ => exact h.reg _ hr

theorem State.Agree.wlLook (h : s.Agree K t) (hK : .streams ∈ K) (c : Chip) :
    (s.wlLook c).1 = (t.wlLook c).1 ∧ (s.wlLook c).2.Agree K (t.wlLook c).2 := by
  obtain ⟨hclass, hlook⟩ := h.look c
  refine ⟨hclass, ?_⟩
  unfold State.wlLook
  simp only [hclass]
  cases (t.look c).1 with
  | busy => exact hlook
  | ready => exact hlook.wlReady hK c
  | error => exact hlook.wlError hK c

theorem State.Agree.wlRun (n : Nat) (turn : Chip) (h : s.Agree (readFirst (.wl turn rom1 rom2 :: rest)) t) :
    Progress.Agree rest (State.wlRun n turn rom1 rom2 s) (State.wlRun n turn rom1 rom2 t) := by
  induction n generalizing turn s t with
  | zero => exact .again h
  | succ n ih =>
    have hK : .streams ∈ readFirst (.wl turn rom1 rom2 :: rest) := .inl rfl
    have hbusy : s.busy = t.busy := (h.reg _ hK).2.2.1
    obtain ⟨hclass, hlook⟩ := h.wlLook hK turn
    unfold State.wlRun
    simp only [h.live hK, hbusy, hclass]
    split
    · exact .goOn (h.same (f := fun u => u) rfl (fun _ => rfl) fun _ => rfl)
    split
    · exact ih turn.other h
    split
    · split
      · exact .again hlook
      · exact ih turn.other hlook
    · exact ih turn.other (h.wlIssue hK turn _)

/-- A phase that ends the operation with a result. -/
theorem State.Agree.finish (h : s.Agree (readFirst (p :: rest)) t) (hp : p.sets = ∅) (rc : BitVec 8)
    (res : BitVec 24) : (s.finish rc res).Agree (readFirst rest) (t.finish rc res) :=
  h.same hp (blind_finish rc res) fun _ => rfl

/-- Every phase, in engines that agree on what it and the phases after it read first. -/
theorem perform_agree (p : Phase) (h : s.Agree (readFirst (p :: rest)) t) :
    Progress.Agree rest (p.perform s) (p.perform t) := by
  have hread : ∀ r ∈ p.reads, s.SameReg t r := fun r hr => h.reg r (.inl hr)
  have hwrites : ∀ (ws : Config → List BusWrite) (u : State), (u.memWrites (ws u.cfg)).work = u.work :=
    fun ws u => by rw [memWrites_eq]; rfl
  have hcount : .streams ∈ p.reads → s.count = t.count := fun hr => by
    obtain ⟨hcur, -⟩ := hread _ hr
    simp only [State.count, hcur]
  cases p with
  | unlockGlobal cmd =>
    exact .goOn (h.same rfl (blind_memWrites (unlockGlobalWrites · cmd)) (hwrites (unlockGlobalWrites · cmd)))
  | rawSeq bytes => exact .goOn (h.same rfl (blind_memWrites (rawWrites · bytes)) (hwrites (rawWrites · bytes)))
  | page cmd addr data =>
    exact .goOn (h.same rfl (blind_sendPage cmd addr data) fun u => by rw [State.sendPage_eq]; rfl)
  | waitStart =>
    refine .goOn (h.next h.forget fun r hr => ?_)
    cases r with
    | pcnt => rfl
    | _ => exact hr.resolve_left nofun
  | wait addr => exact h.waitTurn
  | clearErr =>
    refine .goOn (h.next h.forget fun r hr => ?_)
    cases r with
    | err => rfl
    | _ => exact hr.resolve_left nofun
  | orErr c =>
    have herr : s.err = t.err := hread .err (.inl rfl)
    have hst : s.st.get c = t.st.get c := hread (.st c) (.inr rfl)
    refine .goOn (h.next h.forget fun r hr => ?_)
    cases r with
    | err => exact congrArg₂ (fun e b => e || isError b) herr hst
    | _ => exact hr.resolve_left nofun
  | wlInit rom1 rom2 =>
    refine .goOn (h.next h.forget fun r hr => ?_)
    cases r with
    | streams => exact ⟨rfl, rfl, rfl, rfl⟩
    | _ => exact hr.resolve_left nofun
  | wl turn rom1 rom2 => exact h.wlRun _ turn
  | mapReadBack map =>
    exact .goOn (h.same rfl (blind_mapReadBack map) fun u => by rw [State.mapReadBack_eq]; rfl)
  | done => exact .goOn (h.finish rfl ..)
  | doneStatus c =>
    have hst : s.st.get c = t.st.get c := hread (.st c) rfl
    simp only [Phase.perform, hst]
    exact .goOn (h.finish rfl ..)
  | doneErr c =>
    have hst : s.st.get c = t.st.get c := hread (.st c) rfl
    simp only [Phase.perform, hst]
    exact .goOn (h.finish rfl ..)
  | doneCount =>
    simp only [Phase.perform, hcount rfl]
    exact .goOn (h.finish rfl ..)
  | doneRom len =>
    simp only [Phase.perform, State.romResult, hcount rfl]
    split <;> exact .goOn (h.finish rfl ..)
  | doneMap =>
    have herr : s.err = t.err := hread .err rfl
    simp only [Phase.perform, State.mapResult, herr]
    split <;> exact .goOn (h.finish rfl ..)

/-! ### A whole operation -/

/-- The phases still to run. -/
def Seq.phases : Seq → List Phase
  | .idle => []
  | .running _ now rest => now :: rest

/-- The two are at the same point of the same operation, and agree on what the rest of it reads first. -/
def State.InStep (s t : State) : Prop := s.Agree (readFirst s.seq.phases) t

/-- Where an operation has ended. -/
theorem State.InStep.of_idle (hi : s.seq = .idle) (h : s.forget = t.forget) : s.InStep t := by
  refine ⟨h, fun r hr => ?_⟩
  rw [hi] at hr
  exact absurd hr (Set.notMem_empty r)

theorem State.Agree.setSeq (h : s.Agree K t) (q : Seq) :
    State.Agree K { s with seq := q } { t with seq := q } where
  forget := Blind.eq (f := fun u => { u with seq := q }) (fun _ => rfl) h.forget
  reg := fun r hr => (h.reg r hr).congr rfl rfl

theorem blind_failOut (c : Bool) (cause : Cause) (info : BitVec 24) :
    Blind fun s => s.failOut c cause info := by
  cases c with
  | false => exact blind_finish _ _
  | true => exact (blind_finish _ _).comp blind_readReset

theorem runPhases_inStep (c : Bool) {phases : List Phase} (h : s.Agree (readFirst phases) t) :
    (s.runPhases c phases).InStep (t.runPhases c phases) := by
  induction phases generalizing s t with
  | nil => exact h.setSeq .idle
  | cons p rest ih =>
    have hp := perform_agree p h
    rw [State.runPhases, State.runPhases]
    generalize p.perform s = r at hp ⊢
    generalize p.perform t = r' at hp ⊢
    cases hp with
    | goOn h => exact ih h
    | again h => exact h.setSeq _
    | fail h => exact .of_idle rfl ((blind_failOut c _ _).eq h)

theorem State.InStep.resume (h : s.InStep t) : s.resume.InStep t.resume := by
  have hseq : t.seq = s.seq := (eq_of_forget State.seq (fun _ => rfl) h.forget).symm
  unfold State.resume
  rw [hseq]
  cases hq : s.seq with
  | idle => exact h
  | running c now rest =>
    have hagree : s.Agree (readFirst s.seq.phases) t := h
    rw [hq] at hagree
    exact runPhases_inStep c (hagree.setSeq .idle)

theorem State.InStep.drive (h : s.InStep t) (n : Nat) : (s.drive n).InStep (t.drive n) := by
  induction n generalizing s t with
  | zero => exact h
  | succ n ih => exact ih h.resume

/-- An operation issued in both engines. -/
theorem exec_inStep {i : Instr} (h : s.forget = s'.forget) (he : exec i s = .next t) :
    ∃ t', exec i s' = .next t' ∧ t.InStep t' := by
  have hidle : s'.Idle := by
    obtain ⟨hi, hw⟩ := exec_next_idle he
    exact ⟨(eq_of_forget State.seq (fun _ => rfl) h).symm.trans hi,
      (eq_of_forget (fun u => u.cfg.wf) (fun _ => rfl) h).symm.trans hw⟩
  cases hi : runsInPhases i with
  | false =>
    obtain ⟨body, hb, hblind⟩ := exec_immediate_blind hi
    obtain ⟨u, rc, res, ht, -⟩ := exec_immediate hi he
    rw [hb] at he
    obtain ⟨-, rfl⟩ := State.accept_next he
    exact ⟨body s', (hb s').trans (State.accept_idle hidle), .of_idle (congrArg State.seq ht) (hblind.eq h)⟩
  | true =>
    rw [exec_operate_phases hi] at he ⊢
    have hcheck : s'.check (needsRelease i) i.wellFormed (badCause i) =
        s.check (needsRelease i) i.wellFormed (badCause i) :=
      (eq_of_forget (fun u => u.check (needsRelease i) i.wellFormed (badCause i)) (fun _ => rfl) h).symm
    obtain ⟨hs, ⟨cause, hc, rfl⟩ | ⟨hc, rfl⟩⟩ := State.operate_next he
    · exact ⟨_, State.operate_stop hidle (hcheck.trans hc),
        .of_idle hs.1 (Blind.eq (f := fun u => u.stopped cause.code) (fun _ => rfl) h)⟩
    · obtain ⟨hsess, hw, hok⟩ := State.check_none.1 (hcheck.trans hc)
      refine ⟨_, State.operate_run ⟨hidle, hsess⟩ hw hok, ?_⟩
      have hcfg : s'.cfg = s.cfg := (eq_of_forget State.cfg (fun _ => rfl) h).symm
      rw [hcfg]
      refine runPhases_inStep _ ⟨h, fun r hr => ?_⟩
      rw [readFirst_phasesOf] at hr
      exact absurd hr (Set.notMem_empty r)

end

/-! ### The entry -/

/-- `DIR_NEXT` leaves in `ENT` the entry of the record it reads, if it reports one, and else what was there. -/
theorem dirNext_ent {s t : State} (he : exec .dirNext s = .next t) :
    t.ent = if t.res = 1 then
        decodeEntry s.cfg (s.env.read s.cfg (slotAddr s.cfg s.slot.toNat) dirRecLen).1
      else s.ent := by
  obtain ⟨-, ⟨code, rfl⟩ | ⟨hr, -, -⟩⟩ := exec_cases rfl he
  · rfl
  cases hd : s.dend with
  | true =>
    cases (exec_dirNext_end hr hd).symm.trans he
    rfl
  | false =>
    cases (exec_dirNext_read hr hd rfl).symm.trans he
    split <;> rfl

/-- `ENT` at every point of an operation: each engine's own, or the same in both. -/
theorem runs_ent {s s' t t' : State} {i : Instr} {n : Nat} (h : s.forget = s'.forget) (hr : s.Runs i n t)
    (hr' : s'.Runs i n t') (ht : t.forget = t'.forget) : t.ent = t'.ent ∨ t.ent = s.ent ∧ t'.ent = s'.ent := by
  cases hi : writesEntry i with
  | false =>
    obtain ⟨-, -, -, hent, -⟩ := registersWrittenOnlyAsListed s i n t hr
    obtain ⟨-, -, -, hent', -⟩ := registersWrittenOnlyAsListed s' i n t' hr'
    exact .inr ⟨(hent hi).1, (hent' hi).1⟩
  | true =>
    obtain rfl : i = .dirNext := by
      cases i with
      | dirNext => rfl
      | _ => cases hi
    have hent := dirNext_ent (runs_immediate rfl hr)
    have hent' := dirNext_ent (runs_immediate rfl hr')
    have hres : t.res = t'.res := eq_of_forget State.res (fun _ => rfl) ht
    have hrecord := eq_of_forget (fun u =>
      decodeEntry u.cfg (u.env.read u.cfg (slotAddr u.cfg u.slot.toNat) dirRecLen).1) (fun _ => rfl) h
    rw [hres] at hent
    by_cases hone : t'.res = 1
    · rw [if_pos hone] at hent hent'
      exact .inl (hent.trans (hrecord.trans hent'.symm))
    · rw [if_neg hone] at hent hent'
      exact .inr ⟨hent, hent'⟩

/-- Settles O45: an operation starts in step, since no phase of it reads a register that none before it has set,
and stays in step. -/
theorem workingRegistersNeverReadFirst : Obligations.WorkingRegistersNeverReadFirst := by
  intro s s' i n t h hr
  obtain ⟨t0, he, rfl⟩ := id hr
  obtain ⟨t0', he', hstep⟩ := exec_inStep h he
  have hr' : s'.Runs i n (t0'.drive n) := ⟨t0', he', rfl⟩
  have hforget := (hstep.drive n).forget
  exact ⟨_, hr', hforget, runs_ent h hr hr' hforget⟩

end Sys2Proof.Machine
